-- ==== Sys2Proof/Word.lean ====
section
/-!
DEFINITION. The word types of the block (spec/00_scope.md R8, R11; spec/10_state.md R23): bytes, 32-bit registers and
addresses, and the 128-bit flash word, the unit the controller programs.
-/

namespace Sys2Proof

/-- A byte of the flash array or of a byte-sequence port. -/
abbrev Byte := BitVec 8

/-- A 32-bit register value or address (R23, R70: ADDR_WIDTH = 32). -/
abbrev Word := BitVec 32

/-- Sixteen bytes: byte `j` is bits `8j+7..8j`, lane `k` is bits `32k+31..32k` (R8, R34, R74). -/
abbrev FlashWord := BitVec 128

end Sys2Proof
end

