-- ==== Sys2Proof/Config.lean ====
section
/-!
DEFINITION. What is fixed for the machine: the constants of spec/00_scope.md R8, the parameters of R9,
and the free values (opaque constants: nothing in Lean can evaluate one).
-/

namespace Sys2Proof

/-- The error posture (R7, R9, R303 to R305): fixed for the life of the model. -/
inductive Posture where
  | hardened   -- every precondition failure halts (R304)
  | general    -- every precondition failure ends the command with its code (R305)
deriving DecidableEq, Repr, Inhabited

/-- `SEQ_PORT_BINDING`: how HOST reaches the command port (spec/92_eei_decisions.md D3). No rule reads it: HOST's steps are the
same under each. -/
inductive PortBinding where
  | memoryMapped
  | coprocessor
  | call
deriving DecidableEq, Repr, Inhabited

/-- Where the bits of a register stand on the bus, as what differs from the default layout of spec/30_encoding.md R111 to R115:
exchanges of two bit positions, made in order. The empty list is the default, every list keeps each bit, and every arrangement of
the 32 bits is some list (notes/assumptions/6.md). -/
abbrev Layout := List (Fin 32 × Fin 32)

/-- `REGMAP` (R9, D12): the blocks' bases, the registers' offsets in their blocks, and the field positions of the registers that
have fields. `ADDR`, the data lanes and `ICC.INVALIDATE` are one 32-bit field each (R113, R114). -/
structure RegMap where
  flcBase : Word
  iccBase : Word
  gcrBase : Word
  flcAddr : Word
  flcClkdiv : Word
  flcCtrl : Word
  flcIntr : Word
  flcData0 : Word
  flcData1 : Word
  flcData2 : Word
  flcData3 : Word
  iccCtrl : Word
  iccInvalidate : Word
  gcrSysctrl : Word
  clkdivBits : Layout
  ctrlBits : Layout
  intrBits : Layout
  iccCtrlBits : Layout
  sysctrlBits : Layout
deriving DecidableEq, Repr

namespace Config

/-- `FLASH_BASE` (R8). -/
def flashBase : Nat := 0x10000000
/-- `FLASH_SIZE` (R8): 512 KiB. -/
def flashSize : Nat := 0x00080000
/-- `FLASH_TOP` (R8), exclusive. -/
def flashTop : Nat := 0x10080000
/-- `PAGE_SIZE` (R8): 8 KiB, so the low 13 address bits are ignored by an erase. -/
def pageSize : Nat := 0x2000
/-- `WORD_SIZE` (R8): the program granule, in bytes. -/
def wordSize : Nat := 16
/-- `FLC_TARGET_CLK_HZ` (R8): the controller's 1 MHz clock. -/
def targetClkHz : Nat := 1000000
/-- `ERASED_BYTE` (R8). -/
def erasedByte : Byte := 0xFF

/-- The default of `UNLOCK_KEY` (R9). -/
def unlockKey : BitVec 4 := 0x2
/-- The default of `LOCK_KEY` (R9). -/
def lockKey : BitVec 4 := 0x3
/-- The default of `PAGE_ERASE_CODE` (R9). -/
def pageEraseCode : Byte := 0x55
/-- The default of `DUMMY_READ_ADDR0` (R9). -/
def dummyReadAddr0 : Word := 0x10000000
/-- The default of `DUMMY_READ_ADDR1` (R9). -/
def dummyReadAddr1 : Word := 0x10002000

/-- The default of `REGMAP` (R9, R110 to R115). -/
def regmap : RegMap :=
  { flcBase := 0x40029000, iccBase := 0x4002A000, gcrBase := 0x40000000
    flcAddr := 0x000, flcClkdiv := 0x004, flcCtrl := 0x008, flcIntr := 0x024
    flcData0 := 0x030, flcData1 := 0x034, flcData2 := 0x038, flcData3 := 0x03C
    iccCtrl := 0x100, iccInvalidate := 0x700, gcrSysctrl := 0x000
    clkdivBits := [], ctrlBits := [], intrBits := [], iccCtrlBits := [], sysctrlBits := [] }
/-- The default of `ADDR_WIDTH` (R9), in bits. -/
def addrWidth : Nat := 32
/-- The default of `LFB_ENTRIES` (R9). -/
def lfbEntries : Nat := 1
/-- The default of `ICC_LINE` (R9), in bytes. -/
def iccLine : Nat := 16

/-- `POSTURE` (R9: no default). OPEN: a free value, so that no proof can lean on either posture (notes/assumptions/4.md). -/
opaque posture : Posture
/-- `PERIPH_CLK_HZ` (R9: no default). OPEN: a free value (notes/assumptions/4.md). -/
opaque periphClkHz : Nat
/-- How many branches beyond two the halt loop has. OPEN: a free value (R9: `HALT_BRANCH_COUNT` is at least 2). -/
opaque extraHaltBranches : Nat
/-- `RAM_CODE_BASE` (R9, R72). OPEN: a free value. -/
opaque ramCodeBase : Word
/-- `SEQ_PORT_BINDING` (R9, D3). OPEN: a free value. -/
opaque portBinding : PortBinding

/-- The `n`-th draw's 32-bit value for slot `k` (R12 `draw`). A free value (notes/assumptions/5.md). -/
opaque drawWord : Nat → Nat → Word
/-- The `n`-th draw's byte for slot `k` (R12 `draw_byte`). A free value (notes/assumptions/5.md). -/
opaque drawByte : Nat → Nat → Byte
/-- The `n`-th draw's bit for slot `k`. A free value (notes/assumptions/5.md). -/
opaque drawBit : Nat → Nat → Bool
/-- The flash line, by index, that the RAM copy of the `n`-th draw reads last, if it reads flash at all (R346). A free
value (notes/assumptions/12.md). -/
opaque drawCopyLine : Nat → Option (BitVec 15)
/-- What stands in the bytes of `SEQ.W` that no line has written yet (R27: they hold no value). A free value
(notes/assumptions/27.md). -/
opaque unwrittenMerge : FlashWord

end Config

/-- The parameters of R9 and R22. They are the model's arguments: State carries them, no step changes them, and a statement over
every state is a statement over every value of them. -/
structure Params where
  /-- `POSTURE`. -/
  posture : Posture
  /-- `PERIPH_CLK_HZ`, the true frequency of the clock that feeds the FLC divider (R167). -/
  periphClkHz : Nat
  /-- `ENGINE_MAY_STALL` (R168). -/
  engineMayStall : Bool
  /-- `HALT_BRANCH_COUNT` (R276). -/
  haltBranchCount : Nat
  /-- `RAM_CODE_BASE` (R72, R312). -/
  ramCodeBase : Word
  /-- `SEQ_CODE_IN_RAM` (R22, R352). -/
  seqCodeInRam : Bool
  /-- `UNLOCK_KEY` (R42, R147, R148, R222). -/
  unlockKey : BitVec 4
  /-- `LOCK_KEY` (R223). -/
  lockKey : BitVec 4
  /-- `PAGE_ERASE_CODE` (R148, R246). -/
  pageEraseCode : Byte
  /-- `DUMMY_READ_ADDR0` (R204). -/
  dummyReadAddr0 : Word
  /-- `DUMMY_READ_ADDR1` (R204). -/
  dummyReadAddr1 : Word
  /-- `SEQ_PORT_BINDING`. -/
  portBinding : PortBinding
  /-- `REGMAP` (R110 to R117, R141). -/
  regmap : RegMap
  /-- `ADDR_WIDTH`. R23 and R70 state the machine for 32, and no step reads it (notes/assumptions/26.md). -/
  addrWidth : Nat
  /-- `LFB_ENTRIES`. R40 and R163 state the machine for 1, and no step reads it (notes/assumptions/26.md). -/
  lfbEntries : Nat
  /-- `ICC_LINE` (R38, R164), in bytes. -/
  iccLine : Nat
deriving DecidableEq, Repr

/-- The parameters a machine is built with: R9's default where it gives one, R22's launch premise, and a free value for each
parameter the spec leaves OPEN. -/
def Config.params : Params :=
  { posture := Config.posture
    periphClkHz := Config.periphClkHz
    engineMayStall := false
    haltBranchCount := Config.extraHaltBranches + 2
    ramCodeBase := Config.ramCodeBase
    seqCodeInRam := true
    unlockKey := Config.unlockKey
    lockKey := Config.lockKey
    pageEraseCode := Config.pageEraseCode
    dummyReadAddr0 := Config.dummyReadAddr0
    dummyReadAddr1 := Config.dummyReadAddr1
    portBinding := Config.portBinding
    regmap := Config.regmap
    addrWidth := Config.addrWidth
    lfbEntries := Config.lfbEntries
    iccLine := Config.iccLine }

end Sys2Proof
end

