-- ==== Sys2Proof/Machine/Bits.lean ====
section
/-!
DEFINITION. Byte order and lanes (spec/00_scope.md R11, spec/20_memory.md R74, R75, spec/30_encoding.md R107). Everything is
little-endian and unsigned; no rule sign-extends.
-/

namespace Sys2Proof.Machine

/-- `le32` (R11): the little-endian value of four bytes, `b3 ++ b2 ++ b1 ++ b0`. -/
def le32 (b0 b1 b2 b3 : Byte) : Word :=
  b0.setWidth 32 ||| b1.setWidth 32 <<< 8 ||| b2.setWidth 32 <<< 16 ||| b3.setWidth 32 <<< 24

/-- Byte `j` of a 32-bit value, `j` from 0 to 3: `bytes_le32(v)[j]` (R11). -/
def wordByte (v : Word) (j : Nat) : Byte := v.extractLsb' (8 * j) 8

/-- `bytes_le32` (R11). -/
def bytesLe32 (v : Word) : List Byte := [wordByte v 0, wordByte v 1, wordByte v 2, wordByte v 3]

/-- Byte `j` of a flash word, `j` from 0 to 15 (R74). -/
def flashByte (d : FlashWord) (j : Nat) : Byte := d.extractLsb' (8 * j) 8

/-- Lane `k` of a flash word, `k` from 0 to 3 (R74, R165). -/
def flashLane (d : FlashWord) (k : Nat) : Word := d.extractLsb' (32 * k) 32

/-- A flash word from its four lanes: `lane3 ++ lane2 ++ lane1 ++ lane0` (R107, R147). -/
def ofLanes (l0 l1 l2 l3 : Word) : FlashWord :=
  l0.setWidth 128 ||| l1.setWidth 128 <<< 32 ||| l2.setWidth 128 <<< 64 ||| l3.setWidth 128 <<< 96

/-- A flash word from its sixteen bytes (R74). -/
def ofBytes (f : Nat → Byte) : FlashWord :=
  ofLanes (le32 (f 0) (f 1) (f 2) (f 3)) (le32 (f 4) (f 5) (f 6) (f 7))
    (le32 (f 8) (f 9) (f 10) (f 11)) (le32 (f 12) (f 13) (f 14) (f 15))

/-- The 32-bit value at byte offset `o` of a flash word, `o` in 0, 4, 8, 12: `le32(d[o], d[o+1], d[o+2], d[o+3])` (R157). -/
def wordAtOffset (d : FlashWord) (o : Nat) : Word :=
  le32 (flashByte d o) (flashByte d (o + 1)) (flashByte d (o + 2)) (flashByte d (o + 3))

/-- Byte `i` of a byte sequence; 0 past its end, where no rule reads. -/
def seqByte (bs : List Byte) (i : Nat) : Byte := bs.getD i 0

/-- `B[i .. i+16)` as a flash word (R244). -/
def chunkAt (bs : List Byte) (i : Nat) : FlashWord := ofBytes (fun j => seqByte bs (i + j))

/-- `splice(W, off, B, i, n)` (R245): bytes `off .. off+n-1` of `W` replaced by `B[i .. i+n)`. -/
def splice (w : FlashWord) (off : Nat) (bs : List Byte) (i n : Nat) : FlashWord :=
  ofBytes (fun j => if off ≤ j ∧ j < off + n then seqByte bs (i + (j - off)) else flashByte w j)

/-- `align_down(a, n)` (R11). -/
def alignDown (a n : Nat) : Nat := a - a % n

/-- `page_base(a)` (R71). -/
def pageBase (a : Nat) : Nat := alignDown a 0x2000

/-- `page_index(a)` (R71), for an address of the flash window. -/
def pageIndex (a : Nat) : Nat := (a - 0x10000000) / 0x2000

/-- `word_base(a)` (R71). -/
def wordBase (a : Nat) : Nat := alignDown a 16

/-- `word_offset(a)` (R71). -/
def wordOffset (a : Nat) : Nat := a % 16

/-- `words(a, len)` (R245): how many flash words the range `[a, a+len)` touches. -/
def wordsTouched (a len : Nat) : Nat := (alignDown (a + len + 15) 16 - alignDown a 16) / 16

/-! ## Field positions (spec/00_scope.md R9 `REGMAP`) -/

/-- A word with the bits `i` and `j` exchanged. -/
def swapBits (i j : Nat) (w : Word) : Word :=
  if w.getLsbD i = w.getLsbD j then w else w ^^^ BitVec.twoPow 32 i ^^^ BitVec.twoPow 32 j

/-- A word in the default layout, as the bus carries it. -/
def toBusBits (l : Layout) (w : Word) : Word := l.foldl (fun w p => swapBits p.1 p.2 w) w

/-- A word of the bus, in the default layout. -/
def ofBusBits (l : Layout) (v : Word) : Word := l.foldr (fun p v => swapBits p.1 p.2 v) v

end Sys2Proof.Machine
end

