-- ==== Sys2Proof/Syntax.lean ====
section
/-!
DEFINITION. The instructions: one constructor for each row of spec/opcode_table.json. The thirteen commands and the four
illegal forms of a command word (spec/30_encoding.md R101 to R103) take no operand here: a command reads its operands
from the command port's registers, which are state (R104). A bus access carries what the bus carries: an address where
the row fixes only part of it, a width, and the written data (R100, R109).
-/

namespace Sys2Proof

/-- The registers of the register surface (R110). -/
inductive Reg where
  | flcAddr
  | flcClkdiv
  | flcCtrl
  | flcIntr
  | flcData0
  | flcData1
  | flcData2
  | flcData3
  | iccCtrl
  | iccInvalidate
  | gcrSysctrl
deriving DecidableEq, Repr

/-- The direction of a bus access (R100). -/
inductive Dir where
  | r
  | w
deriving DecidableEq, Repr

/-- The width of an access to the flash window (R77). -/
inductive Width where
  | byte   -- 8 bits
  | word   -- 32 bits
deriving DecidableEq, Repr

/-- Where a word arrives, from which alone its format is known (R100): at `SEQ.CMD`, on the bus as a register access, or on
the bus as an access to the flash window. -/
inductive Arrival where
  | cmd
  | mmio (dir : Dir)
  | mem (dir : Dir) (width : Width)
deriving DecidableEq, Repr

/-- One constructor per row of the opcode table. -/
inductive Instr where
  -- the commands (R102)
  | checkBounds
  | setClkdiv
  | iccDisable
  | iccEnable
  | lfbFlush
  | unlock
  | lock
  | writeWord
  | write
  | erasePage
  | read32
  | read
  | halt
  -- the illegal command words (R103): `rsv` is bits 31..4, `opc` bits 3..0
  | illegal0 (rsv : BitVec 28)
  | illegalE (rsv : BitVec 28)
  | illegalF (rsv : BitVec 28)
  | illegalRsv (opc : BitVec 4) (rsv : BitVec 28)
  -- writes of the flash controller's registers (R143 to R150)
  | flcWAddr (v : Word)
  | flcWClkdiv (v : Word)
  | flcWCtrl (v : Word)
  | flcWIntr (v : Word)
  | flcWData0 (v : Word)
  | flcWData1 (v : Word)
  | flcWData2 (v : Word)
  | flcWData3 (v : Word)
  -- reads of the flash controller's registers (R151)
  | flcRAddr
  | flcRClkdiv
  | flcRCtrl
  | flcRIntr
  | flcRData0
  | flcRData1
  | flcRData2
  | flcRData3
  -- the cache controller and the global control block (R152 to R156)
  | iccWCtrl (v : Word)
  | iccRCtrl
  | iccWInvalidate (v : Word)
  | iccRInvalidate
  | gcrWSysctrl (v : Word)
  | gcrRSysctrl
  -- the flash window (R157 to R159)
  | flashR32 (a : Word)
  | flashR8 (a : Word)
  | flashW (width : Width) (a : Word) (v : Word)
deriving DecidableEq, Repr

end Sys2Proof
end

