-- ==== Sys2Proof/Machine/State.lean ====
section
/-!
DEFINITION. The state of the machine as plain data (spec/10_state.md R20 to R46), the reasons a step can stop
(spec/60_exceptions.md R310, R311) and the state right after reset (R44). INVENTORY.md lists every piece with its rule.
Bits that R35, R36 and R39 define from an engine's state (`PEND`, `WR`, `PGE`, `RDY`, `ICC0_FLUSH`) are stored once, as that
engine's state; Machine/Flags.lean computes them.
-/

namespace Sys2Proof.Machine

/-- The five agents (R10). -/
inductive Agent where
  | seq
  | flce
  | icce
  | gcre
  | host
deriving DecidableEq, Repr

/-- `SEQ.PHASE` (R20). -/
inductive Phase where
  | idle
  | busy
  | halted
deriving DecidableEq, Repr

/-- Which of a command's line groups a line belongs to: its own lines, or one of its invocations of the Write Guard
(R224): around the word of WRITE_WORD, around the page of ERASE_PAGE, or around the head, the full chunks or the tail of
WRITE (R244 steps (1), (2), (3)). -/
inductive Site where
  | main
  | word
  | page
  | head
  | chunk
  | tail
deriving DecidableEq, Repr

/-- The pseudocode lines of the commands. A line that is a bus access bears the spec's own label. -/
inductive Line where
  | failIllegal    -- `fail(ILLEGAL)` (R308)
  | haltPanic      -- `halt(PANIC)` (R275)
  | boundsResult   -- `SEQ.RESULT <- …` of CHECK_BOUNDS (R181)
  | boundsStatus   -- `SEQ.STATUS <- OK` of CHECK_BOUNDS (R181)
  | boundsIdle     -- `SEQ.PHASE <- Idle` of CHECK_BOUNDS (R181)
  | checkShape     -- `len(B) ≠ len : fault(OperandMismatch)` (R240 check 1)
  | checkAlign     -- the alignment check (R240 check 2, R270)
  | checkRange     -- the bounds check (R240 check 3, R183)
  | checkClock     -- the clock check (R240 check 4, R191)
  | setDiv         -- `SEQ.DIV <- clkdiv_of(f)` (R191, R240)
  | initCursor     -- `SEQ.P <- a ; SEQ.I <- 0` (R244)
  | ifHead         -- `if SEQ.P % 16 ≠ 0` (R244 step (1))
  | bindWord       -- `w <- align_down(SEQ.P, 16) ; off <- SEQ.P - w` (R244 step (1))
  | bindCount      -- `n <- min(len - SEQ.I, 16 - off)` (R244 step (1))
  | mergeCheck     -- the bounds check of `merge_read` (R243)
  | m0             -- M0 to M3 of `merge_read` (R243)
  | m1
  | m2
  | m3
  | spliceBytes    -- `SEQ.W <- splice(…)` (R244, R245)
  | advance        -- the cursor update after a word (R244)
  | whileChunks    -- `while len - SEQ.I >= 16` (R244 step (2))
  | ifTail         -- `if len - SEQ.I > 0` (R244 step (3))
  | r1             -- R1: `T <- MemRead(a, 4)` (R270)
  | setResult      -- `SEQ.RESULT <- T` (R270)
  | initIndex      -- `SEQ.I <- 0` (R271)
  | whileBytes     -- Q1: `while SEQ.I < len` (R271)
  | readByte       -- `SEQ.BUF_OUT[SEQ.I] <- MemRead(a + SEQ.I, 1)` (R271)
  | nextByte       -- `SEQ.I <- SEQ.I + 1` (R271)
  | done           -- `SEQ.STATUS <- OK ; SEQ.PHASE <- Idle`
  | w1             -- WAIT_READY, at a command's start and at envelope step 1 (R220)
  | w7             -- WAIT_READY, at envelope step 7 (R220, R224)
  | d1             -- `disable_icache` (R200)
  | d2
  | c1             -- `clear_errors` (R221)
  | c2
  | l2             -- `W FLC.CLKDIV <- zext_32(SEQ.DIV)` (R191 L2, R193)
  | u1             -- `unlock` (R222)
  | u2
  | k1             -- `lock` (R223)
  | k2
  | g1             -- `word_program` (R241)
  | g2
  | g3
  | g4
  | g5
  | g6
  | g7
  | g8
  | h1             -- `erase_op` (R246)
  | h2
  | h3
  | h4
  | h5
  | h6
  | f1             -- `flush_line_buffer` (R204)
  | f2
  | f3
  | f4
  | f5
  | e1             -- `enable_icache` (R202)
  | e2
  | e3
  | e4
  | e5
  | e6
  | e7
deriving DecidableEq, Repr

/-- A value of `SEQ.STEP` (R21): a line of the running command, or a position of the halt loop (R276). -/
inductive Label where
  | line (site : Site) (line : Line)
  | haltLoop (k : Nat)
deriving DecidableEq, Repr

/-- The completion codes (R300). -/
inductive Code where
  | ok
  | align
  | bounds
  | clock
  | illegal
deriving DecidableEq, Repr

/-- `SEQ.HALT_CAUSE` (R28): the code of a failed check, or `PANIC`. -/
inductive HaltCause where
  | failed (code : Code)
  | panic
deriving DecidableEq, Repr

/-- The sequencer (R20 to R28). `none` is the spec's own "holds no value" (R26, R27, R44; notes/assumptions/2.md). -/
structure Seq where
  /-- `SEQ.PHASE` (R20). -/
  phase : Phase
  /-- `SEQ.STEP` (R21). -/
  step : Option Label
  /-- `SEQ.CMD` (R23). -/
  cmd : Option Word
  /-- `SEQ.OPA` (R23). -/
  opa : Option Word
  /-- `SEQ.OPB` (R23). -/
  opb : Option Word
  /-- `SEQ.OPF` (R23). -/
  opf : Option Word
  /-- `SEQ.OPD[0]` (R23). -/
  opd0 : Option Word
  /-- `SEQ.OPD[1]` (R23). -/
  opd1 : Option Word
  /-- `SEQ.OPD[2]` (R23). -/
  opd2 : Option Word
  /-- `SEQ.OPD[3]` (R23). -/
  opd3 : Option Word
  /-- `SEQ.BUF_IN` (R24). -/
  bufIn : Option (List Byte)
  /-- `SEQ.BUF_OUT` (R24). -/
  bufOut : Option (List Byte)
  /-- `SEQ.RESULT` (R25). -/
  result : Option Word
  /-- `SEQ.STATUS` (R25). -/
  status : Option Word
  /-- `SEQ.DIV` (R27). -/
  div : Option Byte
  /-- `SEQ.W[0..15]` (R27). -/
  w : Option FlashWord
  /-- `SEQ.P` (R27). -/
  p : Option Word
  /-- `SEQ.I` (R27). -/
  i : Option Word
  /-- `SEQ.T` (R27). -/
  t : Option Word
  /-- `SEQ.HALT_CAUSE` (R28), a ghost. -/
  haltCause : Option HaltCause
deriving DecidableEq, Repr

/-- `FLCE.OP` (R35): the flash engine's operation in flight. -/
inductive FlceOp where
  | none
  | program (addr : Word) (data : FlashWord) (clkOk : Bool)
  | erasePage (base : Nat) (clkOk : Bool)
deriving DecidableEq, Repr

/-- The flash controller (R30 to R35). `PEND`, `WR` and `PGE` are read off `op`; `ME`, `DONEIE` and `AFIE` are held 0
(R32, R33). -/
structure Flc where
  /-- `FLC.ADDR` (R30). -/
  addr : Word
  /-- `FLC.CLKDIV.CLKDIV` (R31). -/
  clkdiv : Byte
  /-- `FLC.CTRL.ERASE_CODE` (R32). -/
  eraseCode : Byte
  /-- `FLC.CTRL.LVE` (R32). -/
  lve : Bool
  /-- `FLC.CTRL.UNLOCK` (R32). -/
  unlock : BitVec 4
  /-- `FLC.INTR.DONE` (R33). -/
  done : Bool
  /-- `FLC.INTR.AF` (R33). -/
  af : Bool
  /-- `FLC.DATA[0]` (R34). -/
  data0 : Word
  /-- `FLC.DATA[1]` (R34). -/
  data1 : Word
  /-- `FLC.DATA[2]` (R34). -/
  data2 : Word
  /-- `FLC.DATA[3]` (R34). -/
  data3 : Word
  /-- `FLCE.OP` (R35). -/
  op : FlceOp
deriving DecidableEq, Repr

/-- One line held by the cache or by the line-fill buffer: its 16-byte-aligned flash address and its data. -/
structure CacheLine where
  base : Nat
  data : FlashWord
deriving DecidableEq, Repr

/-- The instruction cache controller and its engine (R36 to R38). `RDY` is `not busy`. -/
structure Icc where
  /-- `ICC.CTRL.EN` (R36). -/
  en : Bool
  /-- `ICC.LINES` (R38): a finite partial map, as lines of strictly rising address. -/
  lines : List CacheLine
  /-- `ICCE.BUSY` (R38). -/
  busy : Bool
  /-- `ICCE.INV_PENDING` (R38). -/
  invPending : Bool
deriving DecidableEq, Repr

/-- The global control block (R39). `ICC0_FLUSH` is `busy`. -/
structure Gcr where
  /-- `GCR.SYSCTRL.OTHER` (R115): bits 31..7 over bits 5..0. -/
  other : BitVec 31
  /-- `GCRE.BUSY` (R39). -/
  busy : Bool
deriving DecidableEq, Repr

/-- The three platform flags (R29). -/
structure Platform where
  /-- `FLC_CLOCK_ON`. -/
  flcClockOn : Bool
  /-- `RAM_LOADED`. -/
  ramLoaded : Bool
  /-- `HANDLE_OWNED`. -/
  handleOwned : Bool
deriving DecidableEq, Repr

/-- The kinds of a history record (R45). -/
inductive EventKind where
  | mmioR
  | mmioW
  | memR
  | complete
deriving DecidableEq, Repr

/-- One entry of the event history (R45). -/
inductive Event where
  | record (agent : Agent) (kind : EventKind) (address value : Word)
  | cmdStart (word : Word)
  | cmdEnd (word : Word)
  | reset
deriving DecidableEq, Repr

/-- The command-port registers by name (R23, R25). -/
inductive Port where
  | cmd
  | opa
  | opb
  | opf
  | opd0
  | opd1
  | opd2
  | opd3
  | result
  | status
deriving DecidableEq, Repr

/-- The operand registers that HOST writes one step each (R330). -/
inductive OperandPort where
  | opa
  | opb
  | opf
  | opd0
  | opd1
  | opd2
  | opd3
deriving DecidableEq, Repr

/-- A step of HOST (R330 to R335, R340, R345, R346). The last two are the model extension of R334 duty 4: a bus access
made by HOST's direction, bound by spec/40_register_surface.md. -/
inductive HostStep where
  | powerOnFlc
  | loadRam
  | createHandle
  | setOperand (p : OperandPort) (v : Word)
  | setBufIn (bs : List Byte)
  | issue (v : Word)
  | readPort (p : Port)
  | readBufOut
  | fetch (a : Word)
  | reset
  | mmio (dir : Dir) (a v : Word)
  | mem (dir : Dir) (width : Width) (a v : Word)
deriving DecidableEq, Repr

/-- What HOST's last read, bus access or fetch returned to it: the model's own field, which no rule reads. -/
inductive HostValue where
  | nothing
  | word (v : Word)
  | bytes (bs : List Byte)
  | line (d : FlashWord)
deriving DecidableEq, Repr

/-- The flash array (R41), sparse: (address, byte) pairs of strictly rising address, none of them holding the byte that an
unlisted address reads as. -/
abbrev Memory := List Host.Cell

/-- The whole machine. -/
structure State where
  /-- The parameters (R9, R22); no step changes them. -/
  params : Params
  /-- The sequencer and its command port. -/
  seq : Seq
  /-- The flash controller and its engine. -/
  flc : Flc
  /-- The cache controller and its engine. -/
  icc : Icc
  /-- The global control block and its engine. -/
  gcr : Gcr
  /-- `LFB` (R40): `none` is Empty. -/
  lfb : Option CacheLine
  /-- `FLASH` (R41). -/
  flash : Memory
  /-- The platform flags (R29). -/
  plat : Platform
  /-- The event history (R45), newest first. -/
  history : List Event
  /-- The model's own: the steps HOST has yet to take, in order. -/
  hostQueue : List HostStep
  /-- The model's own: which agent moves at each coming step; when it is used up, the eager schedule follows. -/
  sched : List Agent
  /-- The model's own: how many draws (R12) have been made. -/
  draws : Nat
  /-- The model's own: what HOST's last read returned. -/
  hostSeen : HostValue
deriving DecidableEq, Repr

/-- Why a step faults. The first sixteen are the spec's (R310), each raised where the named rule says; a fault has no
successor (R341). All are safe: the model stops where the sources leave the hardware undefined. -/
inductive Fault where
  /-- A command reads an operand that HOST never wrote, or HOST reads a port register that holds no value (R26). Safe. -/
  | unwrittenRegister
  /-- A register access at an address that is not a multiple of 4 (R140). Safe. -/
  | misalignedMmio
  /-- An FLC access, or CreateHandle, with the clock domain off (R140, R335). Safe. -/
  | clockDomainOff
  /-- A write to an FLC register while an operation is in flight (R142). Safe. -/
  | busyAccess
  /-- A program start at a misaligned address (R147). Safe. -/
  | misalignedProgram
  /-- A program start outside flash (R147). Safe. -/
  | programOutOfRange
  /-- An erase start outside flash (R148). Safe. -/
  | eraseOutOfRange
  /-- A write to `ICC.CTRL` or `ICC.INVALIDATE` while ICCE is busy (R152, R153). Safe. -/
  | iccBusyAccess
  /-- A 32-bit flash read at a misaligned address (R157). Safe. -/
  | misalignedRead
  /-- A flash read or fetch outside the flash window (R157, R158). Safe. -/
  | flashReadOutOfRange
  /-- A plain store to the flash window (R159). Safe. -/
  | flashStore
  /-- A HOST fetch, or a SEQ step of a sequencer whose code is not in RAM, while an operation is in flight (R164, R352).
  Safe. -/
  | fetchDuringFlashOp
  /-- WRITE whose buffer length differs from its length operand (R244). Safe. -/
  | operandMismatch
  /-- A command issued before the RAM copy (R330). Safe. -/
  | notLoaded
  /-- A command issued without the handle (R330). Safe. -/
  | noHandle
  /-- A second CreateHandle (R335). Safe. -/
  | secondHandle
  /-- The model's own: SEQ steps at a label that is not a line of the running command or not a position of the halt loop, or a
  line reads a working register that holds no value. No run from reset reaches such a state (notes/assumptions/9.md). Safe. -/
  | strayStep
deriving DecidableEq, Repr

/-- Why a step is refused. All but the last two are the spec's (R311). All are safe: the model stops. -/
inductive Refusal where
  /-- A register access at an unlisted address of a block (R117, R140). Safe. -/
  | unmodelledRegister
  /-- A write of `FLC.CTRL.ME = 1` (R146). Safe. -/
  | massEraseNotModelled
  /-- A write that changes `FLC.CTRL.LVE` (R146). Safe. -/
  | lveNotModelled
  /-- A write with `WR = 1` and `PGE = 1` (R146). Safe. -/
  | simultaneousStart
  /-- A start bit written together with a change of `UNLOCK` (R146). Safe. -/
  | unlockAndStart
  /-- `PGE = 1` written together with a change of `ERASE_CODE` (R146). Safe. -/
  | codeAndStart
  /-- A write of `FLC.INTR.DONEIE = 1` or `AFIE = 1` (R150). Safe. -/
  | interruptNotModelled
  /-- A write that changes a bit of `GCR.SYSCTRL` other than `ICC0_FLUSH` (R156). Safe. -/
  | gcrOtherNotModelled
  /-- The model's own: an access outside the register blocks and the flash window, for which the spec has no rule
  (notes/assumptions/10.md). Safe. -/
  | outsideSpaces
  /-- An instruction whose arm of exec has no meaning yet. Safe. -/
  | notModelled (mnemonic : String)
deriving DecidableEq, Repr

/-- What an operation answers: a value, a fault or a refusal. -/
abbrev Res (α : Type) := Host.Outcome α Fault Refusal

/-- The machine right after reset (R44, R343). "No value" is `none`. A field that R44 leaves to a draw has the value that
spec/95_test_vectors.md section 0 fixes for it in its reference state S0 (DESIGN CHOICE, notes/assumptions/1.md); nothing
of the flash is listed, so every byte reads as erased. -/
def State.reset : State :=
  { params := Config.params
    seq :=
      { phase := .idle, step := none, cmd := none, opa := none, opb := none, opf := none
        opd0 := none, opd1 := none, opd2 := none, opd3 := none, bufIn := none, bufOut := none
        result := none, status := none, div := none, w := none, p := none, i := none, t := none
        haltCause := none }
    flc :=
      { addr := 0, clkdiv := 0x64, eraseCode := 0, lve := false, unlock := 0x3, done := false
        af := false, data0 := 0, data1 := 0, data2 := 0, data3 := 0, op := .none }
    icc := { en := true, lines := [], busy := false, invPending := false }
    gcr := { other := 0, busy := false }
    lfb := none
    flash := []
    plat := { flcClockOn := false, ramLoaded := false, handleOwned := false }
    history := []
    hostQueue := []
    sched := []
    draws := 0
    hostSeen := .nothing }

end Sys2Proof.Machine
end

