-- ==== Sys2Proof/Machine/Flags.lean ====
section
/-!
DEFINITION. The status bits and the field layout of the register surface: the bits derived from an engine's state
(spec/10_state.md R32, R35, R36, R39), the controller predicates (R42), the layout of each register
(spec/30_encoding.md R111 to R116) and the clock predicate (spec/40_register_surface.md R167).
-/

namespace Sys2Proof.Machine

/-- An operation is in flight: `FLCE.OP ≠ None`. -/
def FlceOp.inFlight : FlceOp → Bool
  | .none => false
  | .program _ _ _ => true
  | .erasePage _ _ => true

/-- `FLC.CTRL.PEND` (R35). -/
def Flc.pend (f : Flc) : Bool := f.op.inFlight

/-- `FLC.CTRL.WR` (R35): 1 exactly when the operation is a Program. -/
def Flc.wr (f : Flc) : Bool :=
  match f.op with
  | .program _ _ _ => true
  | _ => false

/-- `FLC.CTRL.PGE` (R35): 1 exactly when the operation is an ErasePage. -/
def Flc.pge (f : Flc) : Bool :=
  match f.op with
  | .erasePage _ _ => true
  | _ => false

/-- `ICC.CTRL.RDY` (R36, R154). -/
def Icc.rdy (c : Icc) : Bool := !c.busy

/-- `clk_ok()` (R167), sampled when an operation starts. -/
def clkOk (p : Params) (f : Flc) : Bool :=
  f.clkdiv != 0 && f.clkdiv.toNat * Config.targetClkHz == p.periphClkHz

/-! ## Register layouts: the fields of a register in the default layout of R111 to R115 (R141; reserved bits read 0, R116).
Where the machine's `REGMAP` has them on the bus is `RegMap.bus`. -/

/-- A field at its position: `v` in bits `lo` up. -/
def fieldAt {n : Nat} (v : BitVec n) (lo : Nat) : Word := v.setWidth 32 <<< lo

/-- A one-bit field at its position. -/
def bitAt (b : Bool) (lo : Nat) : Word := fieldAt (BitVec.ofBool b) lo

/-- `FLC.CTRL` (R111). `ME` reads 0. -/
def ctrlWord (f : Flc) : Word :=
  fieldAt f.unlock 28 ||| bitAt f.lve 25 ||| bitAt f.pend 24 ||| fieldAt f.eraseCode 8 ||| bitAt f.pge 2
    ||| bitAt f.wr 0

/-- `FLC.INTR` (R112). `DONEIE` and `AFIE` read 0. -/
def intrWord (f : Flc) : Word := bitAt f.af 1 ||| bitAt f.done 0

/-- `FLC.CLKDIV` (R113). -/
def clkdivWord (f : Flc) : Word := fieldAt f.clkdiv 0

/-- `ICC.CTRL` (R114). -/
def iccWord (c : Icc) : Word := bitAt c.rdy 16 ||| bitAt c.en 0

/-- `GCR.SYSCTRL` (R115): `OTHER` around `ICC0_FLUSH` at bit 6. -/
def sysctrlWord (g : Gcr) : Word :=
  fieldAt (g.other.extractLsb' 6 25) 7 ||| bitAt g.busy 6 ||| fieldAt (g.other.extractLsb' 0 6) 0

/-! ## Register layouts: the fields of a written or read value -/

/-- `WR` of a `FLC.CTRL` value. -/
def ctrlWr (v : Word) : Bool := v.getLsbD 0
/-- `ME` of a `FLC.CTRL` value. -/
def ctrlMe (v : Word) : Bool := v.getLsbD 1
/-- `PGE` of a `FLC.CTRL` value. -/
def ctrlPge (v : Word) : Bool := v.getLsbD 2
/-- `ERASE_CODE` of a `FLC.CTRL` value. -/
def ctrlEraseCode (v : Word) : Byte := v.extractLsb' 8 8
/-- `PEND` of a `FLC.CTRL` value. -/
def ctrlPend (v : Word) : Bool := v.getLsbD 24
/-- `LVE` of a `FLC.CTRL` value. -/
def ctrlLve (v : Word) : Bool := v.getLsbD 25
/-- `UNLOCK` of a `FLC.CTRL` value. -/
def ctrlUnlock (v : Word) : BitVec 4 := v.extractLsb' 28 4
/-- `DONE` of a `FLC.INTR` value. -/
def intrDone (v : Word) : Bool := v.getLsbD 0
/-- `AF` of a `FLC.INTR` value. -/
def intrAf (v : Word) : Bool := v.getLsbD 1
/-- `DONEIE` of a `FLC.INTR` value. -/
def intrDoneIe (v : Word) : Bool := v.getLsbD 8
/-- `AFIE` of a `FLC.INTR` value. -/
def intrAfIe (v : Word) : Bool := v.getLsbD 9
/-- `CLKDIV` of a `FLC.CLKDIV` value. -/
def clkdivField (v : Word) : Byte := v.extractLsb' 0 8
/-- `EN` of an `ICC.CTRL` value. -/
def iccEn (v : Word) : Bool := v.getLsbD 0
/-- `RDY` of an `ICC.CTRL` value. -/
def iccRdy (v : Word) : Bool := v.getLsbD 16
/-- `ICC0_FLUSH` of a `GCR.SYSCTRL` value. -/
def sysctrlFlush (v : Word) : Bool := v.getLsbD 6
/-- `OTHER` of a `GCR.SYSCTRL` value: bits 31..7 over bits 5..0. -/
def sysctrlOther (v : Word) : BitVec 31 :=
  (v.extractLsb' 7 25).setWidth 31 <<< 6 ||| (v.extractLsb' 0 6).setWidth 31

/-! ## One field replaced: `T with FIELD := v` (R12, R120) -/

/-- `T with UNLOCK := k`. -/
def withUnlock (t : Word) (k : BitVec 4) : Word := (t &&& 0x0FFFFFFF) ||| fieldAt k 28
/-- `T with ERASE_CODE := c`. -/
def withEraseCode (t : Word) (c : Byte) : Word := (t &&& 0xFFFF00FF) ||| fieldAt c 8
/-- `T with WR := 1`. -/
def withWr (t : Word) : Word := t ||| bitAt true 0
/-- `T with PGE := 1`. -/
def withPge (t : Word) : Word := t ||| bitAt true 2
/-- `T with AF := 0`. -/
def withAfClear (t : Word) : Word := t &&& 0xFFFFFFFD
/-- `T with EN := b`. -/
def withEn (t : Word) (b : Bool) : Word := (t &&& 0xFFFFFFFE) ||| bitAt b 0
/-- `T with ICC0_FLUSH := 1`. -/
def withFlush (t : Word) : Word := t ||| bitAt true 6

/-! ## The controller predicates of R42 -/

/-- `Ready ⇔ FLC.CTRL.PEND = 0`. -/
def State.ready (s : State) : Bool := !s.flc.pend
/-- `Unlocked ⇔ FLC.CTRL.UNLOCK = UNLOCK_KEY`; `Locked` is its negation. -/
def State.unlocked (s : State) : Bool := s.flc.unlock == s.params.unlockKey
/-- `CacheEnabled ⇔ EN = 1 ∧ RDY = 1`. -/
def State.cacheEnabled (s : State) : Bool := s.icc.en && s.icc.rdy
/-- `CacheDisabled ⇔ EN = 0`. -/
def State.cacheDisabled (s : State) : Bool := !s.icc.en
/-- `CacheInvalidated ⇔ ICC.LINES = ∅ ∧ ¬ICCE.INV_PENDING`. -/
def State.cacheInvalidated (s : State) : Bool := s.icc.lines.isEmpty && !s.icc.invPending

end Sys2Proof.Machine
end

