-- ==== Sys2Proof/Machine/RegMap.lean ====
section
/-!
DEFINITION. The address map: what the parameter `REGMAP` of spec/00_scope.md R9 says of each register (spec/30_encoding.md R110 to
R115), the block ranges of R117 and the flash window of spec/20_memory.md R70.
-/

namespace Sys2Proof

open Sys2Proof.Machine

/-- The address of a register: its block's base and its offset (R110). -/
def RegMap.addr (m : RegMap) : Reg → Word
  | .flcAddr => m.flcBase + m.flcAddr
  | .flcClkdiv => m.flcBase + m.flcClkdiv
  | .flcCtrl => m.flcBase + m.flcCtrl
  | .flcIntr => m.flcBase + m.flcIntr
  | .flcData0 => m.flcBase + m.flcData0
  | .flcData1 => m.flcBase + m.flcData1
  | .flcData2 => m.flcBase + m.flcData2
  | .flcData3 => m.flcBase + m.flcData3
  | .iccCtrl => m.iccBase + m.iccCtrl
  | .iccInvalidate => m.iccBase + m.iccInvalidate
  | .gcrSysctrl => m.gcrBase + m.gcrSysctrl

/-- The field positions of a register (R111 to R115). -/
def RegMap.layout (m : RegMap) : Reg → Layout
  | .flcClkdiv => m.clkdivBits
  | .flcCtrl => m.ctrlBits
  | .flcIntr => m.intrBits
  | .iccCtrl => m.iccCtrlBits
  | .gcrSysctrl => m.sysctrlBits
  | .flcAddr | .flcData0 | .flcData1 | .flcData2 | .flcData3 | .iccInvalidate => []

/-- The bus word of a register's fields, given in the default layout (R141). -/
def RegMap.bus (m : RegMap) (r : Reg) (w : Word) : Word := toBusBits (m.layout r) w

/-- The fields that a bus word has for a register, in the default layout. -/
def RegMap.fields (m : RegMap) (r : Reg) (v : Word) : Word := ofBusBits (m.layout r) v

/-- Every register that the map lists. -/
def Config.allRegs : List Reg :=
  [.flcAddr, .flcClkdiv, .flcCtrl, .flcIntr, .flcData0, .flcData1, .flcData2, .flcData3,
   .iccCtrl, .iccInvalidate, .gcrSysctrl]

/-- A register of the flash controller (R110). -/
def Reg.isFlc : Reg → Bool
  | .flcAddr | .flcClkdiv | .flcCtrl | .flcIntr | .flcData0 | .flcData1 | .flcData2 | .flcData3 => true
  | .iccCtrl | .iccInvalidate | .gcrSysctrl => false

/-- The register at an address, if the map lists one (R109, R110). -/
def RegMap.regAt (m : RegMap) (a : Word) : Option Reg :=
  Config.allRegs.find? (fun r => m.addr r == a)

/-- The FLC block's address range (R117): 4 KiB from its base. -/
def RegMap.inFlcBlock (m : RegMap) (a : Word) : Bool :=
  decide (m.flcBase.toNat ≤ a.toNat ∧ a.toNat ≤ m.flcBase.toNat + 0xFFF)

/-- The address range of any of the three register blocks (R117): 4 KiB for FLC and ICC, 1 KiB for GCR. -/
def RegMap.inRegBlock (m : RegMap) (a : Word) : Bool :=
  m.inFlcBlock a
    || decide (m.iccBase.toNat ≤ a.toNat ∧ a.toNat ≤ m.iccBase.toNat + 0xFFF)
    || decide (m.gcrBase.toNat ≤ a.toNat ∧ a.toNat ≤ m.gcrBase.toNat + 0x3FF)

/-- What R110 and R117 say of a map: each register has an aligned address of its own, inside a block, and the FLC block holds the FLC
registers alone. -/
def RegMap.wf (m : RegMap) : Bool :=
  Config.allRegs.all fun r =>
    decide ((m.addr r).toNat % 4 = 0) && m.regAt (m.addr r) == some r && m.inRegBlock (m.addr r)
      && m.inFlcBlock (m.addr r) == r.isFlc

/-- The flash window `[FLASH_BASE, FLASH_TOP)` (R70). -/
def Config.inFlash (a : Word) : Bool :=
  decide (Config.flashBase ≤ a.toNat ∧ a.toNat < Config.flashTop)

end Sys2Proof
end

