-- ==== Sys2Proof/Machine/Ops.lean ====
section
/-!
DEFINITION. The shared operations: the flash array and its canonical form (spec/10_state.md R41), the line-fill buffer
(spec/40_register_surface.md R163), the bus accesses (R140 to R159), the cache's map (R38), the event history (R45), and
the one trap of the block with what stands beside it: halting, failing by posture, completing (spec/60_exceptions.md
R300 to R314; spec/46_read_and_halt.md R276, R278). There is no return from the trap (R314): only reset leaves it.
-/

namespace Sys2Proof.Machine

/-- Go on with the value of a first operation, or stop as it stopped. -/
def andThen {α β : Type} (x : Res α) (f : α → Res β) : Res β :=
  match x with
  | .next a => f a
  | .fault r => .fault r
  | .refused r => .refused r

/-! ## The flash array -/

/-- What an address that the memory does not list reads as: an erased byte (notes/assumptions/3.md). -/
def unlistedByte : Byte := Config.erasedByte

/-- `FLASH[a]` (R41). -/
def memRead : Memory → Nat → Byte
  | [], _ => unlistedByte
  | (k, b) :: m, a => if k = a then b else memRead m a

/-- Drop the entry where it holds the unlisted byte, else list it. -/
def memCons (a : Nat) (b : Byte) (m : Memory) : Memory :=
  if b = unlistedByte then m else (a, b) :: m

/-- The array with one byte changed, in canonical form. -/
def memWrite : Memory → Nat → Byte → Memory
  | [], a, b => memCons a b []
  | (k, c) :: m, a, b =>
    if a < k then memCons a b ((k, c) :: m)
    else if a = k then memCons a b m
    else (k, c) :: memWrite m a b

/-- The array with bytes `a .. a+n-1` set to `f 0 .. f (n-1)`. -/
def memFill (m : Memory) (a : Nat) : Nat → (Nat → Byte) → Memory
  | 0, _ => m
  | n + 1, f => memWrite (memFill m a n f) (a + n) (f n)

/-- The array with bytes `a .. a+n-1` erased. -/
def memErase (m : Memory) (a n : Nat) : Memory :=
  m.filter (fun c => !(decide (a ≤ c.1) && decide (c.1 < a + n)))

/-- The canonical form: addresses strictly rise and no entry holds the unlisted byte. -/
def Memory.wf : Memory → Bool
  | [] => true
  | [(_, b)] => b != unlistedByte
  | (k, b) :: (k', b') :: m => b != unlistedByte && decide (k < k') && Memory.wf ((k', b') :: m)

/-- The sixteen bytes of the array from `la` on (R74, R163). -/
def flashLine (m : Memory) (la : Nat) : FlashWord := ofBytes (fun j => memRead m (la + j))

/-! ## The event history -/

/-- Append an event to the history (R45). -/
def State.log (s : State) (e : Event) : State := { s with history := e :: s.history }

/-- A word returned to HOST (R25, R334): the model's own `hostSeen`. -/
def seeWord (v : Word) (s : State) : State := { s with hostSeen := .word v }

/-! ## The line-fill buffer and the flash read path -/

/-- `LineRead(la)` (R163). A line that the buffer holds stale is served from the buffer or read again, by a draw; when the
held line is fresh the two choices agree and no draw is made. -/
def lineRead (la : Nat) (s : State) : FlashWord × State :=
  let fresh := flashLine s.flash la
  let refill := (fresh, { s with lfb := some ⟨la, fresh⟩ })
  match s.lfb with
  | none => refill
  | some l =>
    if l.base ≠ la then refill
    else if l.data = fresh then (fresh, s)
    else if Config.drawBit s.draws 0 then (l.data, { s with draws := s.draws + 1 })
    else (fresh, { s with lfb := some ⟨la, fresh⟩, draws := s.draws + 1 })

/-- `MemRead(a, 4)` (R157). While an operation is in flight the value is a draw and the buffer empties (R92). -/
def memReadWord (a : Word) (s : State) : Res (Word × State) :=
  if a.toNat % 4 ≠ 0 then .fault .misalignedRead
  else if ¬ (Config.flashBase ≤ a.toNat ∧ a.toNat + 4 ≤ Config.flashTop) then .fault .flashReadOutOfRange
  else if s.flc.pend then
    let v := Config.drawWord s.draws 0
    .next (v, { s with lfb := none, draws := s.draws + 1 }.log (.record .seq .memR a v))
  else
    let r := lineRead (wordBase a.toNat) s
    let v := wordAtOffset r.1 (wordOffset a.toNat)
    .next (v, r.2.log (.record .seq .memR a v))

/-- `MemRead(a, 1)` (R158). -/
def memReadByte (a : Word) (s : State) : Res (Byte × State) :=
  if ¬ (Config.flashBase ≤ a.toNat ∧ a.toNat < Config.flashTop) then .fault .flashReadOutOfRange
  else if s.flc.pend then
    let v := Config.drawByte s.draws 0
    .next (v, { s with lfb := none, draws := s.draws + 1 }.log (.record .seq .memR a (v.setWidth 32)))
  else
    let r := lineRead (wordBase a.toNat) s
    let v := flashByte r.1 (wordOffset a.toNat)
    .next (v, r.2.log (.record .seq .memR a (v.setWidth 32)))

/-- A plain store (R159): a store to the flash window faults. The spec has no rule for a store elsewhere
(notes/assumptions/10.md). -/
def memStore (a : Word) (_s : State) : Res State :=
  if Config.inFlash a then .fault .flashStore else .refused .outsideSpaces

/-! ## The instruction cache's map (R38) -/

/-- The line the cache holds for an address, if it holds one. -/
def linesFind : List CacheLine → Nat → Option FlashWord
  | [], _ => none
  | l :: ls, la => if l.base = la then some l.data else linesFind ls la

/-- The cache's map with `la` mapped to `d`: lines of strictly rising address. -/
def linesInsert : List CacheLine → Nat → FlashWord → List CacheLine
  | [], la, d => [⟨la, d⟩]
  | l :: ls, la, d =>
    if la < l.base then ⟨la, d⟩ :: l :: ls
    else if la = l.base then ⟨la, d⟩ :: ls
    else l :: linesInsert ls la d

/-! ## Register accesses -/

/-- The checks of R140 on an address, in its order: alignment, the FLC clock domain, and the map. -/
def mmioCheck (a : Word) (s : State) : Res Reg :=
  if a.toNat % 4 ≠ 0 then .fault .misalignedMmio
  else if s.params.regmap.inFlcBlock a && !s.plat.flcClockOn then .fault .clockDomainOff
  else
    match s.params.regmap.regAt a with
    | some r => .next r
    | none => if s.params.regmap.inRegBlock a then .refused .unmodelledRegister else .refused .outsideSpaces

/-- The checks of R140 at a register's own address, which is aligned and listed (R110): the FLC clock domain alone can stop the
access. -/
def whenClocked {α : Type} (r : Reg) (s : State) (x : Res α) : Res α :=
  if r.isFlc && !s.plat.flcClockOn then .fault .clockDomainOff else x

/-- The fields that a read of a register returns (R141, R151, R154 to R156), in the default layout of R111 to R115. -/
def readReg (r : Reg) (s : State) : Word :=
  match r with
  | .flcAddr => s.flc.addr
  | .flcClkdiv => clkdivWord s.flc
  | .flcCtrl => ctrlWord s.flc
  | .flcIntr => intrWord s.flc
  | .flcData0 => s.flc.data0
  | .flcData1 => s.flc.data1
  | .flcData2 => s.flc.data2
  | .flcData3 => s.flc.data3
  | .iccCtrl => iccWord s.icc
  | .iccInvalidate => 0
  | .gcrSysctrl => sysctrlWord s.gcr

/-- `program_start()` (R147), with the key that stood before the write. -/
def programStart (oldUnlock : BitVec 4) (s : State) : Res State :=
  if oldUnlock ≠ s.params.unlockKey then .next { s with flc := { s.flc with af := true } }
  else if s.flc.addr.toNat % 16 ≠ 0 then .fault .misalignedProgram
  else if ¬ (Config.flashBase ≤ s.flc.addr.toNat ∧ s.flc.addr.toNat + 16 ≤ Config.flashTop) then
    .fault .programOutOfRange
  else
    .next { s with flc := { s.flc with
      op := .program s.flc.addr (ofLanes s.flc.data0 s.flc.data1 s.flc.data2 s.flc.data3)
        (clkOk s.params s.flc) } }

/-- `erase_start()` (R148), with the key and the erase code that stood before the write. -/
def eraseStart (oldUnlock : BitVec 4) (oldCode : Byte) (s : State) : Res State :=
  if oldUnlock ≠ s.params.unlockKey then .next { s with flc := { s.flc with af := true } }
  else if oldCode ≠ s.params.pageEraseCode then .next { s with flc := { s.flc with af := true } }
  else if ¬ (Config.flashBase ≤ s.flc.addr.toNat ∧ s.flc.addr.toNat < Config.flashTop) then
    .fault .eraseOutOfRange
  else
    .next { s with flc := { s.flc with
      op := .erasePage (pageBase s.flc.addr.toNat) (clkOk s.params s.flc) } }

/-- A write of `FLC.CTRL` (R146). -/
def writeCtrl (v : Word) (s : State) : Res State :=
  if ctrlMe v then .refused .massEraseNotModelled
  else if ctrlLve v ≠ s.flc.lve then .refused .lveNotModelled
  else if ctrlWr v && ctrlPge v then .refused .simultaneousStart
  else if (ctrlWr v || ctrlPge v) && ctrlUnlock v != s.flc.unlock then .refused .unlockAndStart
  else if ctrlPge v && ctrlEraseCode v != s.flc.eraseCode then .refused .codeAndStart
  else
    let s' := { s with flc := { s.flc with unlock := ctrlUnlock v, eraseCode := ctrlEraseCode v } }
    if ctrlWr v then programStart s.flc.unlock s'
    else if ctrlPge v then eraseStart s.flc.unlock s.flc.eraseCode s'
    else .next s'

/-- A write of `FLC.INTR` (R150): writing 0 clears a flag, writing 1 leaves it. -/
def writeIntr (v : Word) (s : State) : Res State :=
  if intrDoneIe v || intrAfIe v then .refused .interruptNotModelled
  else .next { s with flc := { s.flc with done := s.flc.done && intrDone v, af := s.flc.af && intrAf v } }

/-- A write of an FLC register while an operation is in flight faults (R142). -/
def whenReady (s : State) (x : Res State) : Res State :=
  if s.flc.pend then .fault .busyAccess else x

/-- A write of `ICC.CTRL` (R152). -/
def writeIccCtrl (v : Word) (s : State) : Res State :=
  if s.icc.busy then .fault .iccBusyAccess
  else .next { s with icc := { s.icc with en := iccEn v, busy := !s.icc.en && iccEn v } }

/-- A write of `ICC.INVALIDATE` (R153): the value is ignored. -/
def writeInvalidate (s : State) : Res State :=
  if s.icc.busy then .fault .iccBusyAccess
  else .next { s with icc := { s.icc with busy := true, invPending := true } }

/-- A write of `GCR.SYSCTRL` (R156): writing `ICC0_FLUSH = 0` cancels nothing. -/
def writeSysctrl (v : Word) (s : State) : Res State :=
  if sysctrlOther v ≠ s.gcr.other then .refused .gcrOtherNotModelled
  else .next { s with gcr := { s.gcr with busy := s.gcr.busy || sysctrlFlush v } }

/-- The write rule of each register (R143 to R156), for fields in the default layout. -/
def writeReg (r : Reg) (v : Word) (s : State) : Res State :=
  match r with
  | .flcAddr => whenReady s (.next { s with flc := { s.flc with addr := v } })
  | .flcClkdiv => whenReady s (.next { s with flc := { s.flc with clkdiv := clkdivField v } })
  | .flcCtrl => whenReady s (writeCtrl v s)
  | .flcIntr => whenReady s (writeIntr v s)
  | .flcData0 => whenReady s (.next { s with flc := { s.flc with data0 := v } })
  | .flcData1 => whenReady s (.next { s with flc := { s.flc with data1 := v } })
  | .flcData2 => whenReady s (.next { s with flc := { s.flc with data2 := v } })
  | .flcData3 => whenReady s (.next { s with flc := { s.flc with data3 := v } })
  | .iccCtrl => writeIccCtrl v s
  | .iccInvalidate => writeInvalidate s
  | .gcrSysctrl => writeSysctrl v s

/-- The word that a read of a register puts on the bus: its fields at their `REGMAP` positions (R141). -/
def busRead (r : Reg) (s : State) : Word := s.params.regmap.bus r (readReg r s)

/-- `MmioRead` of a register (R140, R141): the bus word, and the state with the access recorded. -/
def mmioRead (r : Reg) (s : State) : Res (Word × State) :=
  whenClocked r s (.next (busRead r s, s.log (.record .seq .mmioR (s.params.regmap.addr r) (busRead r s))))

/-- `MmioWrite` of a bus word to a register (R140). -/
def mmioWrite (r : Reg) (v : Word) (s : State) : Res State :=
  whenClocked r s
    (andThen (writeReg r (s.params.regmap.fields r v) s) fun s' =>
      .next (s'.log (.record .seq .mmioW (s.params.regmap.addr r) v)))

/-! ## Ends of a command: completion, failure by posture, the halt -/

/-- The number of a completion code (R300). -/
def Code.toWord : Code → Word
  | .ok => 0
  | .align => 1
  | .bounds => 2
  | .clock => 3
  | .illegal => 4

/-- `SEQ.STATUS <- code`. -/
def setStatus (code : Code) (s : State) : State :=
  { s with seq := { s.seq with status := some code.toWord } }

/-- `SEQ.PHASE <- Idle`: the command ends. `SEQ.STEP` holds no value (R21), and neither does a working register, which holds
one only inside its command (R27). The history records the command's end (R45). -/
def goIdle (s : State) : State :=
  { s with seq := { s.seq with
      phase := .idle, step := none, div := none, w := none, p := none, i := none, t := none } }.log
    (.cmdEnd (s.seq.cmd.getD 0))

/-- `SEQ.STATUS <- code ; SEQ.PHASE <- Idle`. -/
def endCommand (code : Code) (s : State) : State := goIdle (setStatus code s)

/-- `halt(cause)` (R278, R312), the block's one trap: control goes to the halt loop, the ghost records the cause, and
nothing else changes. -/
def haltWith (cause : HaltCause) (s : State) : State :=
  { s with seq := { s.seq with haltCause := some cause, phase := .halted, step := some (.haltLoop 0) } }

/-- `fail(code)` (R303): a halt in the hardened posture, a completion with the code in the general one. -/
def fail (code : Code) (s : State) : State :=
  match s.params.posture with
  | .hardened => haltWith (.failed code) s
  | .general => endCommand code s

/-- One SEQ step while halted (R276): from each of the loop's `HALT_BRANCH_COUNT` positions, the branch back to the loop's
label. Nothing else changes, and no step of SEQ leaves the loop (R279, R314). What follows the last position is not in the
source (R276): there, where no run comes, the model stops (DESIGN CHOICE, notes/assumptions/23.md). -/
def haltLoopStep (s : State) : Res State :=
  match s.seq.step with
  | some (.haltLoop k) =>
    if k < s.params.haltBranchCount then .next { s with seq := { s.seq with step := some (.haltLoop 0) } }
    else .fault .strayStep
  | _ => .fault .strayStep

end Sys2Proof.Machine
end

