-- ==== Sys2Proof/Machine/Operands.lean ====
section
/-!
DEFINITION. The operands of the commands and the checks on them: what each command reads from the command port
(spec/30_encoding.md R104 to R108, spec/10_state.md R26), the bounds check (spec/41_address_validator.md R180, R183) and
the divisor (spec/42_clock_divisor.md R190).
-/

namespace Sys2Proof.Machine

/-- Read a command-port register: one that holds no value faults (R26). -/
def need {α β : Type} (x : Option α) (f : α → Res β) : Res β :=
  match x with
  | some a => f a
  | none => .fault .unwrittenRegister

/-- Read a working register of SEQ (R27). A line that reads one runs only after a line that wrote it. -/
def needWork {α β : Type} (x : Option α) (f : α → Res β) : Res β :=
  match x with
  | some a => f a
  | none => .fault .strayStep

/-- `check_bounds(start, end)` (R180), on unbounded naturals. -/
def checkBounds (start stop : Nat) : Bool :=
  decide (Config.flashBase ≤ start ∧ start ≤ Config.flashTop)
    && decide (Config.flashBase ≤ stop ∧ stop ≤ Config.flashTop)
    && decide (start < stop)

/-- `clkdiv_of(f)` (R190, R106). -/
def clkdivOf (f : Word) : Option Byte :=
  if f.toNat % Config.targetClkHz ≠ 0 then none
  else
    let d := f.toNat / Config.targetClkHz
    if d = 0 ∨ d > 255 then none else some (BitVec.ofNat 8 d)

/-- The operands of a running command, as the command port holds them, and what its checks compare them with. A line reads an
operand with `need`, where it uses it, so a register that holds no value faults at the first line that reads it and at no other
(R26; notes/assumptions/2.md). A field that no line of the command reads is `none`. -/
structure Ctx where
  /-- `start` or `address` (OPA). -/
  addr : Option Word := none
  /-- The exclusive end of the range that is checked (R183), unbounded (R105). -/
  rangeEnd : Option Nat := none
  /-- The alignment that is required of `addr` (R76). -/
  align : Nat := 1
  /-- `len` (OPB). -/
  len : Option Nat := none
  /-- `sys_clk_freq` (OPF). -/
  freq : Option Word := none
  /-- The four lanes (OPD) of a flash word (R107). -/
  lanes : List (Option Word) := []
  /-- `bytes` (BUF_IN). -/
  bytes : Option (List Byte) := none
deriving DecidableEq, Repr

/-- `address + len` (R105), where both hold values. -/
def rangeStop (a n : Option Word) : Option Nat := a.bind fun a => n.map fun n => a.toNat + n.toNat

/-- CHECK_BOUNDS reads OPA and OPB (R104, R181). -/
def boundsOperands (q : Seq) : Ctx := { addr := q.opa, rangeEnd := q.opb.map (·.toNat) }

/-- SET_CLKDIV reads OPF (R104, R191). -/
def clockOperands (q : Seq) : Ctx := { freq := q.opf }

/-- WRITE_WORD reads OPA, OPD[0..3] and OPF (R104, R242); its range is the word (R183). -/
def wordOperands (q : Seq) : Ctx :=
  { addr := q.opa, rangeEnd := q.opa.map (·.toNat + 16), align := 16, freq := q.opf,
    lanes := [q.opd0, q.opd1, q.opd2, q.opd3] }

/-- WRITE reads OPA, OPB, BUF_IN and OPF (R104, R244); its range is `[address, address + len)` (R183). -/
def writeOperands (q : Seq) : Ctx :=
  { addr := q.opa, rangeEnd := rangeStop q.opa q.opb, len := q.opb.map (·.toNat), freq := q.opf, bytes := q.bufIn }

/-- ERASE_PAGE reads OPA and OPF (R104, R247); its range is the one address (R183). -/
def eraseOperands (q : Seq) : Ctx := { addr := q.opa, rangeEnd := q.opa.map (·.toNat + 1), freq := q.opf }

/-- READ32 reads OPA (R104, R270); its range is four bytes (R183). -/
def read32Operands (q : Seq) : Ctx := { addr := q.opa, rangeEnd := q.opa.map (·.toNat + 4), align := 4 }

/-- READ reads OPA and OPB (R104, R271); its range is `[address, address + len)` (R183). -/
def readOperands (q : Seq) : Ctx :=
  { addr := q.opa, rangeEnd := rangeStop q.opa q.opb, len := q.opb.map (·.toNat) }

end Sys2Proof.Machine
end

