-- ==== Sys2Proof/Machine/Sequencer.lean ====
section
/-!
DEFINITION. How SEQ runs a command (spec/00_scope.md R12, R13; spec/10_state.md R21; spec/30_encoding.md R120). A command is
a list of labelled lines, in the order of its pseudocode; one SEQ step performs the line at `SEQ.STEP` and moves to the next
line of the list, or where a loop or a branch of that line says. The lists stand with the commands' families.
-/

namespace Sys2Proof.Machine

/-- `SEQ.STEP <- label`. -/
def goTo (l : Label) (s : State) : State := { s with seq := { s.seq with step := some l } }

/-- The line after a line of a list. -/
def lineAfter : List Label → Label → Option Label
  | a :: b :: rest, l => if a = l then some b else lineAfter (b :: rest) l
  | _, _ => none

/-- Move `SEQ.STEP` to the next line (R21). -/
def advanceStep (prog : List Label) (here : Label) (s : State) : Res State :=
  match lineAfter prog here with
  | some l => .next (goTo l s)
  | none => .fault .strayStep

/-- `SEQ.T <- v`. -/
def setT (v : Word) (s : State) : State := { s with seq := { s.seq with t := some v } }

/-- `T <- R BLK.REG`. -/
def readToT (r : Reg) (s : State) : Res State :=
  andThen (mmioRead r s) fun x => .next (setT x.1 x.2)

/-- `W BLK.REG <- w`: the fields `w`, in the default layout, written at their `REGMAP` positions. -/
def writeFields (r : Reg) (w : Word) (s : State) : Res State := mmioWrite r (s.params.regmap.bus r w) s

/-- `W BLK.REG <- f(T)`: the second half of a read-modify-write (R120), `f` on the fields. -/
def writeFromT (r : Reg) (f : Word → Word) (s : State) : Res State :=
  needWork s.seq.t fun t => writeFields r (f (s.params.regmap.fields r t)) s

/-- `T <- R BLK.REG ; if not P(T) : SEQ.STEP <- this line` (R120, R14): no bound and no timeout. `P` is on the fields. -/
def pollReg (r : Reg) (p : Word → Bool) (goOn : State → Res State) (s : State) : Res State :=
  andThen (mmioRead r s) fun x =>
    if p (s.params.regmap.fields r x.1) then goOn (setT x.1 x.2) else .next (setT x.1 x.2)

/-- The word that WRITE's `merge_read` reads: the aligned word that holds `SEQ.P` (R244: `w` in step (1); `SEQ.P` itself,
which is aligned there, in step (3)). The names `w`, `off` and `n` that the lines `bindWord` and `bindCount` bind are no
registers of R27. They are functions of `SEQ.P` and `SEQ.I`, which no line changes between those two and `advance`, so the
lines that use a name compute it from them: `mergeWord` is `w`, `SEQ.P % 16` is `off`, `partCount` is `n` (DEDUCED,
notes/assumptions/13.md). -/
def mergeWord (site : Site) (p : Word) : Word :=
  match site with
  | .head => BitVec.ofNat 32 (alignDown p.toNat 16)
  | _ => p

/-- How many bytes of the buffer one part of WRITE takes (R244: `n` in step (1)). -/
def partCount (site : Site) (len p i : Nat) : Nat :=
  match site with
  | .head => min (len - i) (16 - p % 16)
  | .chunk => 16
  | _ => len - i

/-- The operand `len`, where the count of a part of WRITE reads it (R244): a full chunk's is 16, whatever `len` is. -/
def partLen (c : Ctx) (site : Site) : Res Nat :=
  match site with
  | .chunk => .next 0
  | _ => need c.len .next

/-- The address that `word_program` is invoked with (R241, R242, R244). -/
def wordAddress (c : Ctx) (site : Site) (s : State) : Res Word :=
  match site with
  | .word => need c.addr .next
  | .head => needWork s.seq.p fun p => .next (mergeWord .head p)
  | .chunk => needWork s.seq.p .next
  | .tail => needWork s.seq.p .next
  | .main => .fault .strayStep
  | .page => .fault .strayStep

/-- Lane `k` of the sixteen bytes that `word_program` is invoked with (R107, R241, R242, R244). -/
def wordLane (c : Ctx) (site : Site) (k : Nat) (s : State) : Res Word :=
  match site with
  | .word => need (c.lanes.getD k none) .next
  | .head => needWork s.seq.w fun w => .next (flashLane w k)
  | .chunk => need c.bytes fun bs => needWork s.seq.i fun i => .next (flashLane (chunkAt bs i.toNat) k)
  | .tail => needWork s.seq.w fun w => .next (flashLane w k)
  | .main => .fault .strayStep
  | .page => .fault .strayStep

/-- One lane of the merge buffer replaced: `SEQ.W[4k..4k+4) <- bytes_le32(T)` (R243). -/
def setLane (w : FlashWord) (k : Nat) (v : Word) : FlashWord :=
  ofLanes (if k = 0 then v else flashLane w 0) (if k = 1 then v else flashLane w 1)
    (if k = 2 then v else flashLane w 2) (if k = 3 then v else flashLane w 3)

/-- M<k>: `T <- MemRead(w + 4k, 4) ; SEQ.W[4k..4k+4) <- bytes_le32(T)` (R243). M0 to M2 of a command's first merge write a part
of a `SEQ.W` that holds no value yet (R27): until M3 the other bytes are a free value, which no line reads (DESIGN CHOICE,
notes/assumptions/27.md). -/
def mergeLine (site : Site) (k : Nat) (s : State) : Res State :=
  needWork s.seq.p fun p =>
    andThen (memReadWord (mergeWord site p + BitVec.ofNat 32 (4 * k)) s) fun x =>
      .next { x.2 with seq := { x.2.seq with
        t := some x.1, w := some (setLane (x.2.seq.w.getD Config.unwrittenMerge) k x.1) } }

/-- The cursor update after a word of WRITE (R244). -/
def advanceCursor (c : Ctx) (site : Site) (s : State) : Res State :=
  andThen (partLen c site) fun len =>
    match site with
    | .tail => .next { s with seq := { s.seq with i := some (BitVec.ofNat 32 len) } }
    | _ =>
      needWork s.seq.p fun p =>
        needWork s.seq.i fun i =>
          let n := BitVec.ofNat 32 (partCount site len p.toNat i.toNat)
          .next { s with seq := { s.seq with p := some (p + n), i := some (i + n) } }

/-- `SEQ.W <- splice(SEQ.W, off, B, SEQ.I, n)` (R244, R245). -/
def spliceLine (c : Ctx) (site : Site) (s : State) : Res State :=
  need c.bytes fun bs =>
    andThen (partLen c site) fun len =>
      needWork s.seq.p fun p =>
        needWork s.seq.i fun i =>
          needWork s.seq.w fun w =>
            .next { s with seq := { s.seq with
              w := some (splice w (p.toNat % 16) bs i.toNat (partCount site len p.toNat i.toNat)) } }

/-- `SEQ.BUF_OUT[i] <- b` (R271): the bytes arrive in increasing order, from index 0. -/
def putByte (out : Option (List Byte)) (i : Nat) (b : Byte) : List Byte := (out.getD []).take i ++ [b]

/-- `SEQ.BUF_OUT[SEQ.I] <- MemRead(a + SEQ.I, 1)` (R271). -/
def readByteLine (c : Ctx) (s : State) : Res State :=
  need c.addr fun a =>
    needWork s.seq.i fun i =>
      andThen (memReadByte (a + i) s) fun x =>
        .next { x.2 with seq := { x.2.seq with bufOut := some (putByte x.2.seq.bufOut i.toNat x.1) } }

/-- `W FLC.DATA[k] <- lane k` (R241, G2 to G5). -/
def laneLine (c : Ctx) (site : Site) (k : Nat) (r : Reg) (s : State) : Res State :=
  andThen (wordLane c site k s) fun v => writeFields r v s

/-- One line of a command, performed; `goOn` moves to the next line. A line reads the operands it uses before anything else, so
one that holds no value stops the line before it has an effect (R26). -/
def performLine (c : Ctx) (site : Site) (l : Line) (goOn : State → Res State) (s : State) : Res State :=
  match l with
  -- internal lines
  | .failIllegal => .next (fail .illegal s)
  | .haltPanic => .next (haltWith .panic s)
  | .boundsResult =>
    need c.addr fun a =>
      need c.rangeEnd fun stop =>
        goOn { s with seq := { s.seq with result := some (if checkBounds a.toNat stop then 1 else 0) } }
  | .boundsStatus => goOn (setStatus .ok s)
  | .boundsIdle => .next (goIdle s)
  | .checkShape =>
    need c.bytes fun bs =>
      need c.len fun len => if bs.length ≠ len then .fault .operandMismatch else goOn s
  | .checkAlign => need c.addr fun a => if a.toNat % c.align ≠ 0 then .next (fail .align s) else goOn s
  | .checkRange =>
    need c.addr fun a =>
      need c.rangeEnd fun stop => if checkBounds a.toNat stop then goOn s else .next (fail .bounds s)
  | .checkClock => need c.freq fun f => if (clkdivOf f).isSome then goOn s else .next (fail .clock s)
  | .setDiv =>
    need c.freq fun f =>
      needWork (clkdivOf f) fun d => goOn { s with seq := { s.seq with div := some d } }
  | .initCursor => need c.addr fun a => goOn { s with seq := { s.seq with p := some a, i := some 0 } }
  | .ifHead =>
    needWork s.seq.p fun p =>
      if p.toNat % 16 ≠ 0 then goOn s else .next (goTo (.line .main .whileChunks) s)
  | .bindWord => needWork s.seq.p fun _ => goOn s
  | .bindCount => need c.len fun _ => needWork s.seq.p fun _ => needWork s.seq.i fun _ => goOn s
  | .mergeCheck =>
    needWork s.seq.p fun p =>
      if checkBounds (mergeWord site p).toNat ((mergeWord site p).toNat + 16) then goOn s
      else .next (fail .bounds s)
  | .m0 => andThen (mergeLine site 0 s) goOn
  | .m1 => andThen (mergeLine site 1 s) goOn
  | .m2 => andThen (mergeLine site 2 s) goOn
  | .m3 => andThen (mergeLine site 3 s) goOn
  | .spliceBytes => andThen (spliceLine c site s) goOn
  | .advance =>
    andThen (advanceCursor c site s) fun s' =>
      if site = .chunk then .next (goTo (.line .main .whileChunks) s') else goOn s'
  | .whileChunks =>
    need c.len fun len =>
      needWork s.seq.i fun i =>
        if 16 ≤ len - i.toNat then goOn s else .next (goTo (.line .main .ifTail) s)
  | .ifTail =>
    need c.len fun len =>
      needWork s.seq.i fun i =>
        if 0 < len - i.toNat then goOn s else .next (goTo (.line .main .done) s)
  | .r1 => need c.addr fun a => andThen (memReadWord a s) fun x => goOn (setT x.1 x.2)
  | .setResult =>
    needWork s.seq.t fun t => goOn { s with seq := { s.seq with result := some t } }
  | .initIndex => goOn { s with seq := { s.seq with i := some 0 } }
  | .whileBytes =>
    need c.len fun len =>
      needWork s.seq.i fun i =>
        if i.toNat < len then goOn s else .next (goTo (.line .main .done) s)
  | .readByte => andThen (readByteLine c s) goOn
  | .nextByte =>
    needWork s.seq.i fun i =>
      .next (goTo (.line .main .whileBytes) { s with seq := { s.seq with i := some (i + 1) } })
  | .done => .next (endCommand .ok s)
  -- wait_ready (R220)
  | .w1 => pollReg .flcCtrl (fun t => !ctrlPend t) goOn s
  | .w7 => pollReg .flcCtrl (fun t => !ctrlPend t) goOn s
  -- disable_icache (R200)
  | .d1 => andThen (readToT .iccCtrl s) goOn
  | .d2 => andThen (writeFromT .iccCtrl (fun t => withEn t false) s) goOn
  -- clear_errors (R221)
  | .c1 => andThen (readToT .flcIntr s) goOn
  | .c2 => andThen (writeFromT .flcIntr withAfClear s) goOn
  -- the divisor (R191 L2, R193)
  | .l2 =>
    needWork s.seq.div fun d =>
      andThen (writeFields .flcClkdiv (d.setWidth 32) s) goOn
  -- unlock and lock (R222, R223)
  | .u1 => andThen (readToT .flcCtrl s) goOn
  | .u2 => andThen (writeFromT .flcCtrl (fun t => withUnlock t s.params.unlockKey) s) goOn
  | .k1 => andThen (readToT .flcCtrl s) goOn
  | .k2 => andThen (writeFromT .flcCtrl (fun t => withUnlock t s.params.lockKey) s) goOn
  -- word_program (R241)
  | .g1 => andThen (wordAddress c site s) fun a => andThen (writeFields .flcAddr a s) goOn
  | .g2 => andThen (laneLine c site 0 .flcData0 s) goOn
  | .g3 => andThen (laneLine c site 1 .flcData1 s) goOn
  | .g4 => andThen (laneLine c site 2 .flcData2 s) goOn
  | .g5 => andThen (laneLine c site 3 .flcData3 s) goOn
  | .g6 => andThen (readToT .flcCtrl s) goOn
  | .g7 => andThen (writeFromT .flcCtrl withWr s) goOn
  | .g8 => pollReg .flcCtrl (fun t => !ctrlWr t) goOn s
  -- erase_op (R246)
  | .h1 => need c.addr fun a => andThen (writeFields .flcAddr a s) goOn
  | .h2 => andThen (readToT .flcCtrl s) goOn
  | .h3 => andThen (writeFromT .flcCtrl (fun t => withEraseCode t s.params.pageEraseCode) s) goOn
  | .h4 => andThen (readToT .flcCtrl s) goOn
  | .h5 => andThen (writeFromT .flcCtrl withPge s) goOn
  | .h6 => pollReg .flcCtrl (fun t => !ctrlPge t) goOn s
  -- flush_line_buffer (R204)
  | .f1 => andThen (readToT .gcrSysctrl s) goOn
  | .f2 => andThen (writeFromT .gcrSysctrl withFlush s) goOn
  | .f3 => pollReg .gcrSysctrl (fun t => !sysctrlFlush t) goOn s
  | .f4 => andThen (memReadWord s.params.dummyReadAddr0 s) fun x => goOn x.2
  | .f5 => andThen (memReadWord s.params.dummyReadAddr1 s) fun x => goOn x.2
  -- enable_icache (R202)
  | .e1 => andThen (readToT .iccCtrl s) goOn
  | .e2 => andThen (writeFromT .iccCtrl (fun t => withEn t false) s) goOn
  | .e3 => andThen (writeFields .iccInvalidate 1 s) goOn
  | .e4 => pollReg .iccCtrl iccRdy goOn s
  | .e5 => andThen (readToT .iccCtrl s) goOn
  | .e6 => andThen (writeFromT .iccCtrl (fun t => withEn t true) s) goOn
  | .e7 => pollReg .iccCtrl iccRdy goOn s

/-- One SEQ step of a command with operands `c`: the line at `SEQ.STEP`, which must be one of the command's own. -/
def runLine (prog : List Label) (c : Ctx) (s : State) : Res State :=
  match s.seq.step with
  | some (.line site l) =>
    if Label.line site l ∈ prog then performLine c site l (advanceStep prog (.line site l)) s
    else .fault .strayStep
  | some (.haltLoop _) => .fault .strayStep
  | none => .fault .strayStep

/-- A list of lines of one site. -/
def atSite (site : Site) (ls : List Line) : List Label := ls.map (fun l => .line site l)

end Sys2Proof.Machine
end

