-- ==== Sys2Proof/Machine/CacheGuard.lean ====
section
/-!
DEFINITION. The Cache Guard (spec/43_cache_guard.md): its step sequences and the commands ICC_DISABLE, ICC_ENABLE and
LFB_FLUSH.
-/

namespace Sys2Proof.Machine

/-- `disable_icache` (R200). -/
def disableIcache : List Line := [.d1, .d2]

/-- `enable_icache` (R202). -/
def enableIcache : List Line := [.e1, .e2, .e3, .e4, .e5, .e6, .e7]

/-- `flush_line_buffer` (R204). -/
def flushLineBuffer : List Line := [.f1, .f2, .f3, .f4, .f5]

/-- The lines of ICC_DISABLE (R201). -/
def iccDisableProgram : List Label := atSite .main (disableIcache ++ [.done])

/-- The lines of ICC_ENABLE (R203). -/
def iccEnableProgram : List Label := atSite .main (enableIcache ++ [.done])

/-- The lines of LFB_FLUSH (R205). -/
def lfbFlushProgram : List Label := atSite .main (flushLineBuffer ++ [.done])

/-- ICC_DISABLE (R201). -/
def execIccDisable (s : State) : Res State := runLine iccDisableProgram {} s

/-- ICC_ENABLE (R203). -/
def execIccEnable (s : State) : Res State := runLine iccEnableProgram {} s

/-- LFB_FLUSH (R205). -/
def execLfbFlush (s : State) : Res State := runLine lfbFlushProgram {} s

end Sys2Proof.Machine
end

