-- ==== Sys2Proof/Machine/WriteProtection.lean ====
section
/-!
DEFINITION. The Write-Protection Guard (spec/44_write_protection.md): its step sequences, the ten-step Write Guard envelope,
and the commands UNLOCK and LOCK.
-/

namespace Sys2Proof.Machine

/-- `clear_errors` (R221). -/
def clearErrors : List Line := [.c1, .c2]

/-- `unlock` (R222). -/
def unlockLines : List Line := [.u1, .u2]

/-- `lock` (R223). -/
def lockLines : List Line := [.k1, .k2]

/-- `ENVELOPE(op)` (R224): the ten steps of the Write Guard, in the spec's order. -/
def envelope (op : List Line) : List Line :=
  [.w1] ++ disableIcache ++ clearErrors ++ [.l2] ++ unlockLines ++ op ++ [.w7] ++ lockLines
    ++ flushLineBuffer ++ enableIcache

/-- The lines of UNLOCK (R225). -/
def unlockProgram : List Label := atSite .main ([.w1] ++ unlockLines ++ [.done])

/-- The lines of LOCK (R226). -/
def lockProgram : List Label := atSite .main ([.w1] ++ lockLines ++ [.done])

/-- UNLOCK (R225). -/
def execUnlock (s : State) : Res State := runLine unlockProgram {} s

/-- LOCK (R226). -/
def execLock (s : State) : Res State := runLine lockProgram {} s

end Sys2Proof.Machine
end

