-- ==== Sys2Proof/Machine/ProgramErase.lean ====
section
/-!
DEFINITION. The mutating commands (spec/45_program_erase.md): WRITE_WORD, WRITE and ERASE_PAGE. Every check comes before the
first bus access, in the order of R240.
-/

namespace Sys2Proof.Machine

/-- `word_program(a, B)` (R241). -/
def wordProgram : List Line := [.g1, .g2, .g3, .g4, .g5, .g6, .g7, .g8]

/-- `erase_op(a)` (R246). -/
def eraseOp : List Line := [.h1, .h2, .h3, .h4, .h5, .h6]

/-- `merge_read(w)` (R243). -/
def mergeRead : List Line := [.mergeCheck, .m0, .m1, .m2, .m3]

/-- The lines of WRITE_WORD (R242). -/
def writeWordProgram : List Label :=
  atSite .main [.checkAlign, .checkRange, .checkClock, .setDiv]
    ++ atSite .word (envelope wordProgram)
    ++ atSite .main [.done]

/-- The lines of WRITE (R244): the checks, the unaligned head, the full chunks, the short tail. The head's first two lines bind
`w`, `off` and `n`, and are internal steps like any other line of R244 that is no bus access. -/
def writeProgram : List Label :=
  atSite .main [.checkShape, .checkRange, .checkClock, .setDiv, .initCursor, .ifHead]
    ++ atSite .head ([.bindWord, .bindCount] ++ mergeRead ++ [.spliceBytes] ++ envelope wordProgram ++ [.advance])
    ++ atSite .main [.whileChunks]
    ++ atSite .chunk (envelope wordProgram ++ [.advance])
    ++ atSite .main [.ifTail]
    ++ atSite .tail (mergeRead ++ [.spliceBytes] ++ envelope wordProgram ++ [.advance])
    ++ atSite .main [.done]

/-- The lines of ERASE_PAGE (R247). -/
def erasePageProgram : List Label :=
  atSite .main [.checkRange, .checkClock, .setDiv]
    ++ atSite .page (envelope eraseOp)
    ++ atSite .main [.done]

/-- WRITE_WORD (R242). -/
def execWriteWord (s : State) : Res State :=
  runLine writeWordProgram (wordOperands s.seq) s

/-- WRITE (R244). -/
def execWrite (s : State) : Res State :=
  runLine writeProgram (writeOperands s.seq) s

/-- ERASE_PAGE (R247). -/
def execErasePage (s : State) : Res State :=
  runLine erasePageProgram (eraseOperands s.seq) s

end Sys2Proof.Machine
end

