-- ==== Sys2Proof/Machine/ReadHalt.lean ====
section
/-!
DEFINITION. The read primitives and the Fault-Halt Handler (spec/46_read_and_halt.md): READ32, READ and HALT; and the
illegal command words (spec/60_exceptions.md R308), which fail at their first step with no bus access.
-/

namespace Sys2Proof.Machine

/-- The lines of READ32 (R270). -/
def read32Program : List Label := atSite .main [.checkAlign, .checkRange, .r1, .setResult, .done]

/-- The lines of READ (R271). -/
def readProgram : List Label :=
  atSite .main [.checkRange, .initIndex, .whileBytes, .readByte, .nextByte, .done]

/-- The one line of HALT (R275). -/
def haltProgram : List Label := atSite .main [.haltPanic]

/-- The one line of an illegal command word (R103, R308). -/
def illegalProgram : List Label := atSite .main [.failIllegal]

/-- READ32 (R270). -/
def execRead32 (s : State) : Res State :=
  runLine read32Program (read32Operands s.seq) s

/-- READ (R271). -/
def execRead (s : State) : Res State :=
  runLine readProgram (readOperands s.seq) s

/-- HALT (R275). -/
def execHalt (s : State) : Res State := runLine haltProgram {} s

/-- A command word whose opcode is 0x0 (R103, R308). -/
def execIllegal0 (_rsv : BitVec 28) (s : State) : Res State := runLine illegalProgram {} s

/-- A command word whose opcode is 0xE (R103, R308). -/
def execIllegalE (_rsv : BitVec 28) (s : State) : Res State := runLine illegalProgram {} s

/-- A command word whose opcode is 0xF (R103, R308). -/
def execIllegalF (_rsv : BitVec 28) (s : State) : Res State := runLine illegalProgram {} s

/-- A command word with a non-zero reserved field (R103, R308). -/
def execIllegalRsv (_opc : BitVec 4) (_rsv : BitVec 28) (s : State) : Res State :=
  runLine illegalProgram {} s

end Sys2Proof.Machine
end

