-- ==== Sys2Proof/Machine/Validator.lean ====
section
/-!
DEFINITION. The Address Validator (spec/41_address_validator.md R181) and the Clock Divisor Configurator
(spec/42_clock_divisor.md R191): the commands CHECK_BOUNDS and SET_CLKDIV.
-/

namespace Sys2Proof.Machine

/-- The lines of CHECK_BOUNDS (R181). -/
def checkBoundsProgram : List Label := atSite .main [.boundsResult, .boundsStatus, .boundsIdle]

/-- The lines of SET_CLKDIV (R191). The check follows the wait; the write has no fast path (R194). -/
def setClkdivProgram : List Label := atSite .main [.w1, .checkClock, .setDiv, .l2, .done]

/-- CHECK_BOUNDS (R181). -/
def execCheckBounds (s : State) : Res State :=
  runLine checkBoundsProgram (boundsOperands s.seq) s

/-- SET_CLKDIV (R191). -/
def execSetClkdiv (s : State) : Res State :=
  runLine setClkdivProgram (clockOperands s.seq) s

end Sys2Proof.Machine
end

