-- ==== Sys2Proof/Machine/Programs.lean ====
section
/-!
DEFINITION. The lines of every command (spec/30_encoding.md R102), and the first of them, where the issue of a command puts
`SEQ.STEP` (spec/60_exceptions.md R330).
-/

namespace Sys2Proof.Machine

/-- The lines of a command; a bus access has none. -/
def programOf (i : Instr) : List Label :=
  match i with
  | .checkBounds => checkBoundsProgram
  | .setClkdiv => setClkdivProgram
  | .iccDisable => iccDisableProgram
  | .iccEnable => iccEnableProgram
  | .lfbFlush => lfbFlushProgram
  | .unlock => unlockProgram
  | .lock => lockProgram
  | .writeWord => writeWordProgram
  | .write => writeProgram
  | .erasePage => erasePageProgram
  | .read32 => read32Program
  | .read => readProgram
  | .halt => haltProgram
  | .illegal0 _ => illegalProgram
  | .illegalE _ => illegalProgram
  | .illegalF _ => illegalProgram
  | .illegalRsv _ _ => illegalProgram
  | .flcWAddr _ => []
  | .flcWClkdiv _ => []
  | .flcWCtrl _ => []
  | .flcWIntr _ => []
  | .flcWData0 _ => []
  | .flcWData1 _ => []
  | .flcWData2 _ => []
  | .flcWData3 _ => []
  | .flcRAddr => []
  | .flcRClkdiv => []
  | .flcRCtrl => []
  | .flcRIntr => []
  | .flcRData0 => []
  | .flcRData1 => []
  | .flcRData2 => []
  | .flcRData3 => []
  | .iccWCtrl _ => []
  | .iccRCtrl => []
  | .iccWInvalidate _ => []
  | .iccRInvalidate => []
  | .gcrWSysctrl _ => []
  | .gcrRSysctrl => []
  | .flashR32 _ => []
  | .flashR8 _ => []
  | .flashW _ _ _ => []

/-- The first line of a command. -/
def firstLine (i : Instr) : Option Label := (programOf i).head?

end Sys2Proof.Machine
end

