-- ==== Sys2Proof/Machine/RegisterSurface.lean ====
section
/-!
DEFINITION. The bus accesses as instructions (spec/40_register_surface.md R140 to R159; the MMIO and MEM rows of
spec/opcode_table.json). SEQ's own accesses are lines of its commands; these are the accesses that HOST's extension directs
(spec/60_exceptions.md R334 duty 4), so a read returns its value to HOST, a byte zero-extended (notes/assumptions/11.md), and no
working register of SEQ holds it (spec/10_state.md R27).
-/

namespace Sys2Proof.Machine

/-- The read rule of a register, the value returned to HOST (R140, R141). -/
def readToHost (r : Reg) (s : State) : Res State :=
  andThen (mmioRead r s) fun x => .next (seeWord x.1 x.2)

/-- FLC_W_ADDR (R143). -/
def execFlcWAddr (v : Word) (s : State) : Res State := mmioWrite .flcAddr v s
/-- FLC_W_CLKDIV (R144). -/
def execFlcWClkdiv (v : Word) (s : State) : Res State := mmioWrite .flcClkdiv v s
/-- FLC_W_CTRL (R146). -/
def execFlcWCtrl (v : Word) (s : State) : Res State := mmioWrite .flcCtrl v s
/-- FLC_W_INTR (R150). -/
def execFlcWIntr (v : Word) (s : State) : Res State := mmioWrite .flcIntr v s
/-- FLC_W_DATA0 (R145). -/
def execFlcWData0 (v : Word) (s : State) : Res State := mmioWrite .flcData0 v s
/-- FLC_W_DATA1 (R145). -/
def execFlcWData1 (v : Word) (s : State) : Res State := mmioWrite .flcData1 v s
/-- FLC_W_DATA2 (R145). -/
def execFlcWData2 (v : Word) (s : State) : Res State := mmioWrite .flcData2 v s
/-- FLC_W_DATA3 (R145). -/
def execFlcWData3 (v : Word) (s : State) : Res State := mmioWrite .flcData3 v s

/-- FLC_R_ADDR (R151). -/
def execFlcRAddr (s : State) : Res State := readToHost .flcAddr s
/-- FLC_R_CLKDIV (R151). -/
def execFlcRClkdiv (s : State) : Res State := readToHost .flcClkdiv s
/-- FLC_R_CTRL (R151). -/
def execFlcRCtrl (s : State) : Res State := readToHost .flcCtrl s
/-- FLC_R_INTR (R151). -/
def execFlcRIntr (s : State) : Res State := readToHost .flcIntr s
/-- FLC_R_DATA0 (R151). -/
def execFlcRData0 (s : State) : Res State := readToHost .flcData0 s
/-- FLC_R_DATA1 (R151). -/
def execFlcRData1 (s : State) : Res State := readToHost .flcData1 s
/-- FLC_R_DATA2 (R151). -/
def execFlcRData2 (s : State) : Res State := readToHost .flcData2 s
/-- FLC_R_DATA3 (R151). -/
def execFlcRData3 (s : State) : Res State := readToHost .flcData3 s

/-- ICC_W_CTRL (R152). -/
def execIccWCtrl (v : Word) (s : State) : Res State := mmioWrite .iccCtrl v s
/-- ICC_R_CTRL (R154). -/
def execIccRCtrl (s : State) : Res State := readToHost .iccCtrl s
/-- ICC_W_INVALIDATE (R153). -/
def execIccWInvalidate (v : Word) (s : State) : Res State :=
  mmioWrite .iccInvalidate v s
/-- ICC_R_INVALIDATE (R155). -/
def execIccRInvalidate (s : State) : Res State := readToHost .iccInvalidate s
/-- GCR_W_SYSCTRL (R156). -/
def execGcrWSysctrl (v : Word) (s : State) : Res State := mmioWrite .gcrSysctrl v s
/-- GCR_R_SYSCTRL (R156). -/
def execGcrRSysctrl (s : State) : Res State := readToHost .gcrSysctrl s

/-- FLASH_R32 (R157). -/
def execFlashR32 (a : Word) (s : State) : Res State :=
  andThen (memReadWord a s) fun x => .next (seeWord x.1 x.2)

/-- FLASH_R8 (R158). -/
def execFlashR8 (a : Word) (s : State) : Res State :=
  andThen (memReadByte a s) fun x => .next (seeWord (x.1.setWidth 32) x.2)

/-- FLASH_W (R159): a plain store to flash faults. -/
def execFlashW (_width : Width) (a _v : Word) (s : State) : Res State := memStore a s

end Sys2Proof.Machine
end

