-- ==== Sys2Proof/Machine/Dispatch.lean ====
section
/-! DEFINITION. The meaning of every instruction: one arm per constructor of Instr, each one direct call. -/

namespace Sys2Proof.Machine

def exec (i : Instr) (s : State) : Host.Outcome State Fault Refusal :=
  match i with
  | .checkBounds => Sys2Proof.Machine.execCheckBounds s
  | .setClkdiv => Sys2Proof.Machine.execSetClkdiv s
  | .iccDisable => Sys2Proof.Machine.execIccDisable s
  | .iccEnable => Sys2Proof.Machine.execIccEnable s
  | .lfbFlush => Sys2Proof.Machine.execLfbFlush s
  | .unlock => Sys2Proof.Machine.execUnlock s
  | .lock => Sys2Proof.Machine.execLock s
  | .writeWord => Sys2Proof.Machine.execWriteWord s
  | .write => Sys2Proof.Machine.execWrite s
  | .erasePage => Sys2Proof.Machine.execErasePage s
  | .read32 => Sys2Proof.Machine.execRead32 s
  | .read => Sys2Proof.Machine.execRead s
  | .halt => Sys2Proof.Machine.execHalt s
  | .illegal0 rsv => Sys2Proof.Machine.execIllegal0 rsv s
  | .illegalE rsv => Sys2Proof.Machine.execIllegalE rsv s
  | .illegalF rsv => Sys2Proof.Machine.execIllegalF rsv s
  | .illegalRsv opc rsv => Sys2Proof.Machine.execIllegalRsv opc rsv s
  | .flcWAddr v => Sys2Proof.Machine.execFlcWAddr v s
  | .flcWClkdiv v => Sys2Proof.Machine.execFlcWClkdiv v s
  | .flcWCtrl v => Sys2Proof.Machine.execFlcWCtrl v s
  | .flcWIntr v => Sys2Proof.Machine.execFlcWIntr v s
  | .flcWData0 v => Sys2Proof.Machine.execFlcWData0 v s
  | .flcWData1 v => Sys2Proof.Machine.execFlcWData1 v s
  | .flcWData2 v => Sys2Proof.Machine.execFlcWData2 v s
  | .flcWData3 v => Sys2Proof.Machine.execFlcWData3 v s
  | .flcRAddr => Sys2Proof.Machine.execFlcRAddr s
  | .flcRClkdiv => Sys2Proof.Machine.execFlcRClkdiv s
  | .flcRCtrl => Sys2Proof.Machine.execFlcRCtrl s
  | .flcRIntr => Sys2Proof.Machine.execFlcRIntr s
  | .flcRData0 => Sys2Proof.Machine.execFlcRData0 s
  | .flcRData1 => Sys2Proof.Machine.execFlcRData1 s
  | .flcRData2 => Sys2Proof.Machine.execFlcRData2 s
  | .flcRData3 => Sys2Proof.Machine.execFlcRData3 s
  | .iccWCtrl v => Sys2Proof.Machine.execIccWCtrl v s
  | .iccRCtrl => Sys2Proof.Machine.execIccRCtrl s
  | .iccWInvalidate v => Sys2Proof.Machine.execIccWInvalidate v s
  | .iccRInvalidate => Sys2Proof.Machine.execIccRInvalidate s
  | .gcrWSysctrl v => Sys2Proof.Machine.execGcrWSysctrl v s
  | .gcrRSysctrl => Sys2Proof.Machine.execGcrRSysctrl s
  | .flashR32 a => Sys2Proof.Machine.execFlashR32 a s
  | .flashR8 a => Sys2Proof.Machine.execFlashR8 a s
  | .flashW width a v => Sys2Proof.Machine.execFlashW width a v s

end Sys2Proof.Machine
end

