-- ==== Sys2Proof/Machine/Engines.lean ====
section
/-!
DEFINITION. The three completion engines (spec/40_register_surface.md R160 to R162, R165, R166): each has one step, which
completes what is in progress and records a completion (spec/10_state.md R45).
-/

namespace Sys2Proof.Machine

/-- Byte `j` of `program_result` (R165): bits only go from 1 to 0; under a wrong clock each byte is a draw. -/
def programByte (m : Memory) (a : Nat) (d : FlashWord) (ok : Bool) (n j : Nat) : Byte :=
  if ok then memRead m (a + j) &&& flashByte d j else Config.drawByte n j

/-- The array after a program of the word at `a` completes (R160, R165). -/
def programFlash (m : Memory) (a : Nat) (d : FlashWord) (ok : Bool) (n : Nat) : Memory :=
  memFill m a Config.wordSize (programByte m a d ok n)

/-- The array after an erase of the page at `p` completes (R160, R166): all ones, or draws under a wrong clock. -/
def eraseFlash (m : Memory) (p : Nat) (ok : Bool) (n : Nat) : Memory :=
  if ok then memErase m p Config.pageSize else memFill m p Config.pageSize (Config.drawByte n)

/-- What every completion of FLCE does beside the array (R160): `FLCE.OP <- None`, so that `WR`, `PGE` and `PEND` read 0, and
`DONE <- 1`. The LFB and the cache's lines are not changed. -/
def flceFinish (m : Memory) (target : Nat) (s : State) : State :=
  { s with
    flash := m
    flc := { s.flc with op := .none, done := true }
    draws := s.draws + 1 }.log (.record .flce .complete (BitVec.ofNat 32 target) 0)

/-- The step of FLCE (R160). -/
def flceStep (s : State) : State :=
  match s.flc.op with
  | .none => s
  | .program a d ok => flceFinish (programFlash s.flash a.toNat d ok s.draws) a.toNat s
  | .erasePage p ok => flceFinish (eraseFlash s.flash p ok s.draws) p s

/-- The step of ICCE (R161). -/
def icceStep (s : State) : State :=
  if s.icc.busy then
    { s with icc := { s.icc with
        lines := if s.icc.invPending then [] else s.icc.lines
        invPending := false
        busy := false } }.log (.record .icce .complete 0 0)
  else s

/-- The step of GCRE (R162): the cache empties and the LFB does not change. -/
def gcreStep (s : State) : State :=
  if s.gcr.busy then
    { s with
      icc := { s.icc with lines := [] }
      gcr := { s.gcr with busy := false } }.log (.record .gcre .complete 0 0)
  else s

end Sys2Proof.Machine
end

