-- ==== Sys2Proof/WellFormed.lean ====
section
/-!
DEFINITION. Which terms of `Instr` stand for a word of the encoding (spec/opcode_table.json, spec/30_encoding.md R103,
spec/20_memory.md R70).
-/

namespace Sys2Proof

/-- The opcodes that are illegal whatever the reserved bits hold (R103). -/
def reservedOpc (opc : BitVec 4) : Bool :=
  opc == 0x0 || opc == 0xE || opc == 0xF

/-- A term is well formed when it is what some word decodes to. An `illegalRsv` is a word with a non-zero reserved field
whose opcode is not itself reserved; a flash access lies in the flash window (the table's match and mask). Every other
term is well formed. -/
def Instr.wf : Instr → Bool
  | .illegalRsv opc rsv => rsv != 0 && !reservedOpc opc
  | .flashR32 a => Config.inFlash a
  | .flashR8 a => Config.inFlash a
  | .flashW _ a _ => Config.inFlash a
  | _ => true

end Sys2Proof
end

