-- ==== Sys2Proof/Decode.lean ====
section
/-!
DEFINITION. Decoding and encoding (spec/30_encoding.md R100 to R103, R109, R110, R117, R121; spec/opcode_table.json). A
decoder knows the format from where the word arrives (R100), so it takes the arrival beside the bytes. A command is one
32-bit word; a bus access is a 32-bit address and, for a write, a 32-bit data word, each stored little-endian.
-/

namespace Sys2Proof

open Sys2Proof.Machine

/-- Why a bus access decodes to no instruction. A command word never fails to decode: a reserved one decodes to its
`ILLEGAL` row (R103). -/
inductive Reject where
  /-- Fewer bytes than the format has. -/
  | truncated
  /-- A register address that is not a multiple of 4 (R140). -/
  | misalignedMmio
  /-- An address inside a register block that the map does not list (R117). -/
  | unmodelledRegister
  /-- A register access outside the three blocks, which no rule of the spec describes. -/
  | outsideRegisters
  /-- A flash-window access outside the flash window (R157, R158). -/
  | outsideFlash
deriving DecidableEq, Repr

/-- The command that a `SEQ.CMD` word selects (R101 to R103). Bits 3..0 are `OPC`, bits 31..4 `RSV`. -/
def decodeCmd (w : Word) : Instr :=
  let opc := w.extractLsb' 0 4
  let rsv := w.extractLsb' 4 28
  if opc = 0x0 then .illegal0 rsv
  else if opc = 0xE then .illegalE rsv
  else if opc = 0xF then .illegalF rsv
  else if rsv ≠ 0 then .illegalRsv opc rsv
  else if opc = 0x1 then .checkBounds
  else if opc = 0x2 then .setClkdiv
  else if opc = 0x3 then .iccDisable
  else if opc = 0x4 then .iccEnable
  else if opc = 0x5 then .lfbFlush
  else if opc = 0x6 then .unlock
  else if opc = 0x7 then .lock
  else if opc = 0x8 then .writeWord
  else if opc = 0x9 then .write
  else if opc = 0xA then .erasePage
  else if opc = 0xB then .read32
  else if opc = 0xC then .read
  else .halt

/-- The instruction that writes `v` to a register. -/
def writeInstr (r : Reg) (v : Word) : Instr :=
  match r with
  | .flcAddr => .flcWAddr v
  | .flcClkdiv => .flcWClkdiv v
  | .flcCtrl => .flcWCtrl v
  | .flcIntr => .flcWIntr v
  | .flcData0 => .flcWData0 v
  | .flcData1 => .flcWData1 v
  | .flcData2 => .flcWData2 v
  | .flcData3 => .flcWData3 v
  | .iccCtrl => .iccWCtrl v
  | .iccInvalidate => .iccWInvalidate v
  | .gcrSysctrl => .gcrWSysctrl v

/-- The instruction that reads a register. -/
def readInstr (r : Reg) : Instr :=
  match r with
  | .flcAddr => .flcRAddr
  | .flcClkdiv => .flcRClkdiv
  | .flcCtrl => .flcRCtrl
  | .flcIntr => .flcRIntr
  | .flcData0 => .flcRData0
  | .flcData1 => .flcRData1
  | .flcData2 => .flcRData2
  | .flcData3 => .flcRData3
  | .iccCtrl => .iccRCtrl
  | .iccInvalidate => .iccRInvalidate
  | .gcrSysctrl => .gcrRSysctrl

/-- A register access is decoded by its direction and its address in the map alone (R109); an unlisted address is rejected
(R117). -/
def decodeMmio (m : RegMap) (dir : Dir) (a v : Word) : Except Reject Instr :=
  if a.toNat % 4 ≠ 0 then .error .misalignedMmio
  else
    match m.regAt a with
    | some r => .ok (match dir with | .w => writeInstr r v | .r => readInstr r)
    | none => if m.inRegBlock a then .error .unmodelledRegister else .error .outsideRegisters

/-- An access to the flash window (the table's MEM rows). -/
def decodeMem (dir : Dir) (width : Width) (a v : Word) : Except Reject Instr :=
  if Config.inFlash a then
    .ok (match dir, width with
      | .r, .word => .flashR32 a
      | .r, .byte => .flashR8 a
      | .w, _ => .flashW width a v)
  else .error .outsideFlash

/-- Takes one little-endian 32-bit word off the front of the bytes. -/
def takeWord (bs : List Byte) : Option (Word × List Byte) :=
  match bs with
  | b0 :: b1 :: b2 :: b3 :: rest => some (le32 b0 b1 b2 b3, rest)
  | _ => none

/-- The instruction that arrives with these bytes on a machine with this map, and the bytes that follow it. -/
def decodeWith (m : RegMap) (arr : Arrival) (bs : List Byte) : Except Reject (Instr × List Byte) :=
  match takeWord bs with
  | none => .error .truncated
  | some (w, rest) =>
    match arr with
    | .cmd => .ok (decodeCmd w, rest)
    | .mmio .r => (decodeMmio m .r w 0).map (fun i => (i, rest))
    | .mem .r width => (decodeMem .r width w 0).map (fun i => (i, rest))
    | .mmio .w =>
      match takeWord rest with
      | none => .error .truncated
      | some (v, rest') => (decodeMmio m .w w v).map (fun i => (i, rest'))
    | .mem .w width =>
      match takeWord rest with
      | none => .error .truncated
      | some (v, rest') => (decodeMem .w width w v).map (fun i => (i, rest'))

/-- The same with the default map, which is that of spec/opcode_table.json. -/
def decode (arr : Arrival) (bs : List Byte) : Except Reject (Instr × List Byte) := decodeWith Config.regmap arr bs

/-- A command word with opcode `opc` and reserved field `rsv` (R101). -/
def cmdWord (opc : BitVec 4) (rsv : BitVec 28) : Word := opc.setWidth 32 ||| rsv.setWidth 32 <<< 4

/-- Where a word of the instruction arrives, and its words in order, on a machine with this map. -/
def encodeWords (m : RegMap) : Instr → Arrival × List Word
  | .checkBounds => (.cmd, [cmdWord 0x1 0])
  | .setClkdiv => (.cmd, [cmdWord 0x2 0])
  | .iccDisable => (.cmd, [cmdWord 0x3 0])
  | .iccEnable => (.cmd, [cmdWord 0x4 0])
  | .lfbFlush => (.cmd, [cmdWord 0x5 0])
  | .unlock => (.cmd, [cmdWord 0x6 0])
  | .lock => (.cmd, [cmdWord 0x7 0])
  | .writeWord => (.cmd, [cmdWord 0x8 0])
  | .write => (.cmd, [cmdWord 0x9 0])
  | .erasePage => (.cmd, [cmdWord 0xA 0])
  | .read32 => (.cmd, [cmdWord 0xB 0])
  | .read => (.cmd, [cmdWord 0xC 0])
  | .halt => (.cmd, [cmdWord 0xD 0])
  | .illegal0 rsv => (.cmd, [cmdWord 0x0 rsv])
  | .illegalE rsv => (.cmd, [cmdWord 0xE rsv])
  | .illegalF rsv => (.cmd, [cmdWord 0xF rsv])
  | .illegalRsv opc rsv => (.cmd, [cmdWord opc rsv])
  | .flcWAddr v => (.mmio .w, [m.addr .flcAddr, v])
  | .flcWClkdiv v => (.mmio .w, [m.addr .flcClkdiv, v])
  | .flcWCtrl v => (.mmio .w, [m.addr .flcCtrl, v])
  | .flcWIntr v => (.mmio .w, [m.addr .flcIntr, v])
  | .flcWData0 v => (.mmio .w, [m.addr .flcData0, v])
  | .flcWData1 v => (.mmio .w, [m.addr .flcData1, v])
  | .flcWData2 v => (.mmio .w, [m.addr .flcData2, v])
  | .flcWData3 v => (.mmio .w, [m.addr .flcData3, v])
  | .flcRAddr => (.mmio .r, [m.addr .flcAddr])
  | .flcRClkdiv => (.mmio .r, [m.addr .flcClkdiv])
  | .flcRCtrl => (.mmio .r, [m.addr .flcCtrl])
  | .flcRIntr => (.mmio .r, [m.addr .flcIntr])
  | .flcRData0 => (.mmio .r, [m.addr .flcData0])
  | .flcRData1 => (.mmio .r, [m.addr .flcData1])
  | .flcRData2 => (.mmio .r, [m.addr .flcData2])
  | .flcRData3 => (.mmio .r, [m.addr .flcData3])
  | .iccWCtrl v => (.mmio .w, [m.addr .iccCtrl, v])
  | .iccRCtrl => (.mmio .r, [m.addr .iccCtrl])
  | .iccWInvalidate v => (.mmio .w, [m.addr .iccInvalidate, v])
  | .iccRInvalidate => (.mmio .r, [m.addr .iccInvalidate])
  | .gcrWSysctrl v => (.mmio .w, [m.addr .gcrSysctrl, v])
  | .gcrRSysctrl => (.mmio .r, [m.addr .gcrSysctrl])
  | .flashR32 a => (.mem .r .word, [a])
  | .flashR8 a => (.mem .r .byte, [a])
  | .flashW width a v => (.mem .w width, [a, v])

/-- Words as the hardware stores them: each little-endian, the first at the lowest address (R74). -/
def wordsToBytes : List Word → List Byte
  | [] => []
  | w :: ws => bytesLe32 w ++ wordsToBytes ws

/-- Where an instruction arrives (its format, R100). -/
def Instr.arrival (i : Instr) : Arrival := (encodeWords Config.regmap i).1

/-- The bytes of an instruction on a machine with this map. -/
def encodeWith (m : RegMap) (i : Instr) : List Byte := wordsToBytes (encodeWords m i).2

/-- The bytes of an instruction with the default map. -/
def encode (i : Instr) : List Byte := encodeWith Config.regmap i

/-- Where a bare table word is taken to arrive: the table gives the rows of the three formats the same 32 bits, and
neither the direction nor the width stands in them, so a word inside a register block is taken as a register read, a word
inside the flash window as a 32-bit read, and any other word as a command word (notes/assumptions/15.md). -/
def tableArrival (w : Word) : Arrival :=
  if Config.regmap.inRegBlock w then .mmio .r
  else if Config.inFlash w then .mem .r .word
  else .cmd

/-- The instruction the decoder reads from the table word `w` of `nbits` bits, every bit above them zero. -/
def decodeTableWord (nbits w : Nat) : Option Instr :=
  let bits := w % 2 ^ nbits
  let first := BitVec.ofNat 32 bits
  let second := BitVec.ofNat 32 (bits / 2 ^ 32)
  match decode (tableArrival first) (wordsToBytes [first, second]) with
  | .ok (i, _) => some i
  | .error _ => none

end Sys2Proof
end

