-- ==== Sys2Proof/Machine/HostPort.lean ====
section
/-!
DEFINITION. The steps of HOST (spec/60_exceptions.md R330 to R335): boot, the command port, instruction fetch, reset
(spec/70_reset_and_hazards.md R340 to R346), and the model extension that makes a bus access (R334 duty 4).
-/

namespace Sys2Proof.Machine

/-- Write an operand register (R330). -/
def setOperandPort (p : OperandPort) (v : Word) (s : State) : State :=
  match p with
  | .opa => { s with seq := { s.seq with opa := some v } }
  | .opb => { s with seq := { s.seq with opb := some v } }
  | .opf => { s with seq := { s.seq with opf := some v } }
  | .opd0 => { s with seq := { s.seq with opd0 := some v } }
  | .opd1 => { s with seq := { s.seq with opd1 := some v } }
  | .opd2 => { s with seq := { s.seq with opd2 := some v } }
  | .opd3 => { s with seq := { s.seq with opd3 := some v } }

/-- What a command-port register holds (R23, R25). -/
def portValue (p : Port) (q : Seq) : Option Word :=
  match p with
  | .cmd => q.cmd
  | .opa => q.opa
  | .opb => q.opb
  | .opf => q.opf
  | .opd0 => q.opd0
  | .opd1 => q.opd1
  | .opd2 => q.opd2
  | .opd3 => q.opd3
  | .result => q.result
  | .status => q.status

/-- A HOST write of `SEQ.CMD` while Idle starts a command (R330, R101). An illegal word starts too, and fails at its first
step (R103, R308). -/
def issueCommand (v : Word) (s : State) : Res State :=
  if ¬ s.plat.ramLoaded then .fault .notLoaded
  else if ¬ s.plat.handleOwned then .fault .noHandle
  else
    .next ({ s with seq := { s.seq with
      cmd := some v, phase := .busy, step := firstLine (decodeCmd v) } }.log (.cmdStart v))

/-- `CreateHandle` (R335). -/
def createHandle (s : State) : Res State :=
  if ¬ s.plat.flcClockOn then .fault .clockDomainOff
  else if s.plat.handleOwned then .fault .secondHandle
  else .next { s with plat := { s.plat with handleOwned := true } }

/-- `LoadRam` (R346). The copy may read flash through the normal path; which line it reads last, if any, is a free value.
While an operation is in flight such a read would empty the buffer (R92). -/
def loadRam (s : State) : State :=
  let s' := { s with plat := { s.plat with ramLoaded := true }, draws := s.draws + 1 }
  match Config.drawCopyLine s.draws with
  | none => s'
  | some k =>
    if s.flc.pend then { s' with lfb := none }
    else (lineRead (Config.flashBase + 16 * k.toNat) s').2

/-- HOST's instruction fetch from flash (R164). A fetch that must wait for ICCE stays HOST's next step. -/
def fetchLine (a : Word) (s : State) : Res State :=
  if ¬ Config.inFlash a then .fault .flashReadOutOfRange
  else if s.flc.pend then .fault .fetchDuringFlashOp
  else
    let la := alignDown a.toNat s.params.iccLine
    if s.icc.en then
      if s.icc.busy then .next { s with hostQueue := .fetch a :: s.hostQueue }
      else
        match linesFind s.icc.lines la with
        | some d => .next { s with hostSeen := .line d }
        | none =>
          let r := lineRead la s
          .next { r.2 with
            icc := { r.2.icc with lines := linesInsert r.2.icc.lines la r.1 }
            hostSeen := .line r.1 }
    else
      let r := lineRead la s
      .next { r.2 with hostSeen := .line r.1 }

/-- The array that a reset leaves (R342): the target of an operation in flight becomes draws. -/
def resetFlash (s : State) : Memory :=
  match s.flc.op with
  | .none => s.flash
  | .program a _ _ => memFill s.flash a.toNat Config.wordSize (Config.drawByte s.draws)
  | .erasePage p _ => memFill s.flash p Config.pageSize (Config.drawByte s.draws)

/-- The flash controller's registers after a reset (R44): each stored field that software sets is a fresh draw `n`. -/
def resetFlc (n : Nat) : Flc :=
  { addr := Config.drawWord n 0
    clkdiv := Config.drawByte n 0
    eraseCode := Config.drawByte n 1
    lve := Config.drawBit n 0
    unlock := (Config.drawWord n 1).setWidth 4
    done := Config.drawBit n 1
    af := Config.drawBit n 2
    data0 := Config.drawWord n 2
    data1 := Config.drawWord n 3
    data2 := Config.drawWord n 4
    data3 := Config.drawWord n 5
    op := .none }

/-- The reset step (R340): the state of R44 with a fresh draw for each entry marked unspecified. The array keeps its
contents (R342), the history is kept and records the reset, and what is the model's own goes on. -/
def resetStep (s : State) : State :=
  { State.reset with
    params := s.params
    flc := resetFlc (s.draws + 1)
    icc := { en := Config.drawBit (s.draws + 1) 3, lines := [], busy := false, invPending := false }
    gcr := { other := (Config.drawWord (s.draws + 1) 6).setWidth 31, busy := false }
    flash := resetFlash s
    history := .reset :: s.history
    hostQueue := s.hostQueue
    sched := s.sched
    draws := s.draws + 2
    hostSeen := s.hostSeen }

/-- HOST reads a port register (R25, R26). -/
def readPort (p : Port) (s : State) : Res State :=
  need (portValue p s.seq) fun v => .next (seeWord v s)

/-- HOST reads `SEQ.BUF_OUT` (R24, R26). -/
def readBufOut (s : State) : Res State :=
  need s.seq.bufOut fun bs => .next { s with hostSeen := .bytes bs }

/-- A register access by HOST's direction (R334 duty 4), decoded and run as the instruction it is. Where the bus decodes to no
instruction, the checks of R140 say how it stops. `run` is the meaning of an instruction. -/
def hostMmio (run : Instr → State → Res State) (dir : Dir) (a v : Word) (s : State) : Res State :=
  match decodeWith s.params.regmap (.mmio dir) (wordsToBytes [a, v]) with
  | .ok (i, _) => run i s
  | .error _ => andThen (mmioCheck a s) fun _ => .refused .outsideSpaces

/-- An access to the flash window by HOST's direction (R334 duty 4). Outside the window the checks of R157 to R159 say how
it stops. -/
def hostMem (run : Instr → State → Res State) (dir : Dir) (width : Width) (a v : Word) (s : State) :
    Res State :=
  match decodeWith s.params.regmap (.mem dir width) (wordsToBytes [a, v]) with
  | .ok (i, _) => run i s
  | .error _ =>
    match dir, width with
    | .r, .word => andThen (memReadWord a s) fun _ => .refused .outsideSpaces
    | .r, .byte => andThen (memReadByte a s) fun _ => .refused .outsideSpaces
    | .w, _ => memStore a s

/-- One step of HOST, its entry already taken off the queue. -/
def hostStep (run : Instr → State → Res State) (h : HostStep) (s : State) : Res State :=
  match h with
  | .powerOnFlc => .next { s with plat := { s.plat with flcClockOn := true } }
  | .loadRam => .next (loadRam s)
  | .createHandle => createHandle s
  | .setOperand p v => .next (setOperandPort p v s)
  | .setBufIn bs => .next { s with seq := { s.seq with bufIn := some bs } }
  | .issue v => issueCommand v s
  | .readPort p => readPort p s
  | .readBufOut => readBufOut s
  | .fetch a => fetchLine a s
  | .reset => .next (resetStep s)
  | .mmio dir a v => hostMmio run dir a v s
  | .mem dir width a v => hostMem run dir width a v s

end Sys2Proof.Machine
end

