-- ==== Sys2Proof/Machine/Schedule.lean ====
section
/-!
DEFINITION. Which agent moves, and one move of it (spec/00_scope.md R10; spec/20_memory.md R84; spec/40_register_surface.md
R168; spec/60_exceptions.md R317, R331; spec/70_reset_and_hazards.md R340, R352). The interleaving is data in the state: a
list of coming choices, any list at all, and after it the eager schedule of spec/95_test_vectors.md section 0.
-/

namespace Sys2Proof.Machine

/-- HOST's next entry is a reset. -/
def resetPending (s : State) : Bool :=
  match s.hostQueue with
  | .reset :: _ => true
  | _ => false

/-- A fetch that R164 makes wait: the cache is enabled and its engine busy. R164 speaks of flash addresses alone. The spec is
silent on a fetch from outside the flash window in this case (EN = 1, PEND = 0, ICCE busy): here it waits for ICCE like any
other fetch, and then faults in `fetchLine` (DESIGN CHOICE, notes/assumptions/19.md). -/
def fetchWaits (s : State) : Bool := !s.flc.pend && s.icc.en && s.icc.busy

/-- HOST can move (R331): only while SEQ is Idle, but for a reset. -/
def hostReady (s : State) : Bool :=
  match s.hostQueue with
  | [] => false
  | .reset :: _ => true
  | .fetch _ :: _ => s.seq.phase == .idle && !fetchWaits s
  | _ :: _ => s.seq.phase == .idle

/-- An agent has a step (R160, R161, R162, R20, R331). -/
def agentReady (a : Agent) (s : State) : Bool :=
  match a with
  | .seq => s.seq.phase != .idle
  | .flce => s.flc.pend
  | .icce => s.icc.busy
  | .gcre => s.gcr.busy
  | .host => hostReady s

/-- The eager schedule: a pending reset preempts (R340); an engine steps as soon as it can, but FLCE never where it may stall
(R168); then SEQ, then HOST. -/
def eagerAgent (s : State) : Option Agent :=
  if resetPending s then some .host
  else if s.flc.pend && !s.params.engineMayStall then some .flce
  else if s.icc.busy then some .icce
  else if s.gcr.busy then some .gcre
  else if s.seq.phase != .idle then some .seq
  else if hostReady s then some .host
  else none

/-- The agent that moves, and the state with its scheduling entry used up. An entry that names an agent with no step is passed
over. -/
def chooseAgent (s : State) : Option Agent × State :=
  match s.sched with
  | [] => (eagerAgent s, s)
  | a :: rest =>
    let s' := { s with sched := rest }
    if agentReady a s' then (some a, s') else (eagerAgent s', s')

/-- The instruction at `SEQ.CMD`, which SEQ is running. -/
def fetchCommand (s : State) : Option Instr :=
  match s.seq.cmd with
  | none => none
  | some w =>
    match decode .cmd (bytesLe32 w) with
    | .ok (i, _) => some i
    | .error _ => none

/-- One step of SEQ. Code that is not in RAM faults while an operation is in flight (R22, R352). -/
def seqMove (run : Instr → State → Res State) (s : State) : Res State :=
  if !s.params.seqCodeInRam && s.flc.pend then .fault .fetchDuringFlashOp
  else
    match s.seq.phase with
    | .idle => .next s
    | .halted => haltLoopStep s
    | .busy =>
      match fetchCommand s with
      | some i => run i s
      | none => .fault .strayStep

/-- HOST takes the first entry of its queue. -/
def hostMove (run : Instr → State → Res State) (s : State) : Res State :=
  match s.hostQueue with
  | [] => .next s
  | h :: rest => hostStep run h { s with hostQueue := rest }

/-- One move of an agent. -/
def agentMove (run : Instr → State → Res State) (a : Agent) (s : State) : Res State :=
  match a with
  | .seq => seqMove run s
  | .flce => .next (flceStep s)
  | .icce => .next (icceStep s)
  | .gcre => .next (gcreStep s)
  | .host => hostMove run s

/-- One step of the machine. Where no agent has a step, SEQ is Idle and waits for HOST (R343): the state stays. -/
def stepWith (run : Instr → State → Res State) (s : State) : Res State :=
  match chooseAgent s with
  | (some a, s') => agentMove run a s'
  | (none, s') => .next s'

/-- The boot steps done (R344), and every operand register written with zero. -/
def booted (s : State) : State :=
  { s with
    plat := { flcClockOn := true, ramLoaded := true, handleOwned := true }
    seq := { s.seq with
      opa := some 0, opb := some 0, opf := some 0, opd0 := some 0, opd1 := some 0, opd2 := some 0
      opd3 := some 0, bufIn := some [] } }

/-- The state whose next step runs the instruction with these words: a command stands in `SEQ.CMD`, just issued, with its
operand words zero (R118); a bus access is HOST's next step. In either case the machine is booted, and the schedule names the
agent that runs it (notes/assumptions/14.md). -/
def placeInstr (arr : Arrival) (first second : Word) (s : State) : State :=
  let b := booted s
  match arr with
  | .cmd =>
    { b with
      seq := { b.seq with phase := .busy, cmd := some first, step := firstLine (decodeCmd first) }
      sched := .seq :: b.sched }
  | .mmio dir =>
    { b with
      seq := { b.seq with phase := .idle, step := none }
      hostQueue := .mmio dir first second :: b.hostQueue
      sched := .host :: b.sched }
  | .mem dir width =>
    { b with
      seq := { b.seq with phase := .idle, step := none }
      hostQueue := .mem dir width first second :: b.hostQueue
      sched := .host :: b.sched }

end Sys2Proof.Machine
end

