-- ==== Sys2Proof/Machine/Step.lean ====
section
/-!
DEFINITION. One step of the machine, and the placing of an instruction where the next step runs it. What they call stands in
Machine/Schedule.lean.
-/

namespace Sys2Proof.Machine

/-- One step: one move of one agent (spec/00_scope.md R10, spec/20_memory.md R84). -/
def step (s : State) : Host.Outcome State Fault Refusal := stepWith exec s

/-- `s` with the instruction of bits `w` placed where the next step runs it (notes/assumptions/14.md). -/
def State.withFetchWord (s : State) (nbits w : Nat) : State :=
  let bits := w % 2 ^ nbits
  let first := BitVec.ofNat 32 bits
  placeInstr (tableArrival first) first (BitVec.ofNat 32 (bits / 2 ^ 32)) s

end Sys2Proof.Machine
end

