-- ==== Sys2Proof/Safety.lean ====
section
/-!
DEFINITION. What a legal state and a safe run are, in the terms the statements use: the operands a command reads
(spec/30_encoding.md R104), freshness (spec/00_scope.md R16), the shape of every reachable state (`State.Legal`), and what
holds at each line of a command when HOST keeps to its duties (`State.Flow`; spec/60_exceptions.md R334 duty 4).
-/

namespace Sys2Proof.Machine

/-! ## Operands -/

/-- The operand registers that a command reads hold values (R26, R104). A bus access reads none. -/
def operandsHeld (i : Instr) (q : Seq) : Bool :=
  match i with
  | .checkBounds => q.opa.isSome && q.opb.isSome
  | .setClkdiv => q.opf.isSome
  | .writeWord =>
    q.opa.isSome && q.opd0.isSome && q.opd1.isSome && q.opd2.isSome && q.opd3.isSome && q.opf.isSome
  | .write => q.opa.isSome && q.opb.isSome && q.bufIn.isSome && q.opf.isSome
  | .erasePage => q.opa.isSome && q.opf.isSome
  | .read32 => q.opa.isSome
  | .read => q.opa.isSome && q.opb.isSome
  | .iccDisable | .iccEnable | .lfbFlush | .unlock | .lock | .halt => true
  | .illegal0 _ | .illegalE _ | .illegalF _ | .illegalRsv _ _ => true
  | .flcWAddr _ | .flcWClkdiv _ | .flcWCtrl _ | .flcWIntr _ => true
  | .flcWData0 _ | .flcWData1 _ | .flcWData2 _ | .flcWData3 _ => true
  | .flcRAddr | .flcRClkdiv | .flcRCtrl | .flcRIntr => true
  | .flcRData0 | .flcRData1 | .flcRData2 | .flcRData3 => true
  | .iccWCtrl _ | .iccRCtrl | .iccWInvalidate _ | .iccRInvalidate => true
  | .gcrWSysctrl _ | .gcrRSysctrl => true
  | .flashR32 _ | .flashR8 _ | .flashW _ _ _ => true

/-- The operand registers that one line of a command reads hold values (R26, R104, and the pseudocode of R181, R191, R241, R242,
R244, R246, R247, R270, R271). The other lines read none. -/
def lineOperandsHeld (i : Instr) (site : Site) (l : Line) (q : Seq) : Bool :=
  match l with
  | .boundsResult => q.opa.isSome && q.opb.isSome
  | .checkShape => q.bufIn.isSome && q.opb.isSome
  | .checkAlign | .initCursor | .r1 | .readByte | .h1 => q.opa.isSome
  | .checkRange => q.opa.isSome && (!(i == .write || i == .read) || q.opb.isSome)
  | .checkClock | .setDiv => q.opf.isSome
  | .bindCount | .whileChunks | .ifTail | .whileBytes => q.opb.isSome
  | .spliceBytes => q.bufIn.isSome && q.opb.isSome
  | .advance => site == .chunk || q.opb.isSome
  | .g1 => site != .word || q.opa.isSome
  | .g2 => (site != .word || q.opd0.isSome) && (site != .chunk || q.bufIn.isSome)
  | .g3 => (site != .word || q.opd1.isSome) && (site != .chunk || q.bufIn.isSome)
  | .g4 => (site != .word || q.opd2.isSome) && (site != .chunk || q.bufIn.isSome)
  | .g5 => (site != .word || q.opd3.isSome) && (site != .chunk || q.bufIn.isSome)
  | .failIllegal | .haltPanic | .boundsStatus | .boundsIdle | .ifHead | .bindWord | .mergeCheck => true
  | .m0 | .m1 | .m2 | .m3 | .setResult | .initIndex | .nextByte | .done => true
  | .w1 | .w7 | .d1 | .d2 | .c1 | .c2 | .l2 | .u1 | .u2 | .k1 | .k2 => true
  | .g6 | .g7 | .g8 | .h2 | .h3 | .h4 | .h5 | .h6 => true
  | .f1 | .f2 | .f3 | .f4 | .f5 | .e1 | .e2 | .e3 | .e4 | .e5 | .e6 | .e7 => true

/-! ## Freshness (R16) -/

/-- A held line is fresh: it equals the array's current contents. -/
def lineFresh (m : Memory) (l : CacheLine) : Bool := l.data == flashLine m l.base

/-- The line-fill buffer is Empty or fresh. -/
def State.lfbFresh (s : State) : Bool :=
  match s.lfb with
  | none => true
  | some l => lineFresh s.flash l

/-- Every line of the instruction cache is fresh. -/
def State.linesFresh (s : State) : Bool := s.icc.lines.all (lineFresh s.flash)

/-! ## The parameters -/

/-- An address for a dummy read: aligned, and its word in flash (R88, R204). -/
def dummyAddrOk (a : Word) : Bool :=
  decide (a.toNat % 4 = 0) && decide (Config.flashBase ≤ a.toNat) && decide (a.toNat + 4 ≤ Config.flashTop)

/-- A size for the cache's lines with which `align_down(a, ICC_LINE)` of a flash address is a 16-byte-aligned flash address (R38,
R164): a multiple of 16 that divides `FLASH_BASE`. -/
def iccLineOk (n : Nat) : Bool := decide (n % 16 = 0) && decide (Config.flashBase % n = 0)

/-- What the rules say of the parameters: the halt loop has at least two positions (R9), the lock key locks (R42, R223), the two
dummy reads are aligned reads of flash, in different lines (R88, R204, R206), the map gives each register an address of its own
(R110, R117), and a cache line is keyed by a flash line address (R38). -/
def paramsWf (p : Params) : Bool :=
  decide (2 ≤ p.haltBranchCount) && decide (p.lockKey ≠ p.unlockKey) && dummyAddrOk p.dummyReadAddr0
    && dummyAddrOk p.dummyReadAddr1
    && decide (wordBase p.dummyReadAddr0.toNat ≠ wordBase p.dummyReadAddr1.toNat)
    && p.regmap.wf && iccLineOk p.iccLine

/-! ## The shape of a state -/

/-- A 16-byte-aligned flash address (R38, R40). -/
def lineAddr (a : Nat) : Bool :=
  decide (a % 16 = 0) && decide (Config.flashBase ≤ a) && decide (a < Config.flashTop)

/-- The cache's map is finite and keyed by flash line addresses (R38): the addresses strictly rise. -/
def linesWf : List CacheLine → Bool
  | [] => true
  | [l] => lineAddr l.base
  | l :: l' :: ls => lineAddr l.base && decide (l.base < l'.base) && linesWf (l' :: ls)

/-- The operation in flight targets one word, or one page, of the array (R35, R147, R148). -/
def FlceOp.legal : FlceOp → Bool
  | .none => true
  | .program a _ _ => lineAddr a.toNat
  | .erasePage p _ =>
    decide (p % Config.pageSize = 0) && decide (Config.flashBase ≤ p) && decide (p < Config.flashTop)

/-- The step counter fits the phase (R20, R21): no label while Idle, a line of the running command while Busy, a position of
the halt loop while Halted. -/
def State.phaseLegal (s : State) : Bool :=
  match s.seq.phase, s.seq.step, s.seq.cmd with
  | .idle, none, _ => true
  | .busy, some (.line site l), some w => (programOf (decodeCmd w)).contains (.line site l)
  | .halted, some (.haltLoop k), _ => decide (k < s.params.haltBranchCount)
  | _, _, _ => false

/-- What is true of the shape of every state of a run: the array is in canonical form and inside the flash window (R41), the
operation in flight has a legal target (R35), the buffer and the cache hold flash lines (R38, R40), the
parameters meet what the rules say of them, and the step counter fits the phase (R21). -/
structure State.Legal (s : State) : Prop where
  flash : Memory.wf s.flash = true
  inFlash : ∀ c ∈ s.flash, Config.flashBase ≤ c.1 ∧ c.1 < Config.flashTop
  op : s.flc.op.legal = true
  lfb : ∀ l, s.lfb = some l → lineAddr l.base = true
  lines : linesWf s.icc.lines = true
  params : paramsWf s.params = true
  phase : s.phaseLegal = true

/-! ## The flow of a command -/

/-- HOST keeps to R334 duty 4: none of its coming steps writes or reads the bus itself. -/
def HostStep.quiet : HostStep → Bool
  | .mmio _ _ _ => false
  | .mem _ _ _ _ => false
  | .powerOnFlc | .loadRam | .createHandle | .setOperand _ _ | .setBufIn _ | .issue _ => true
  | .readPort _ | .readBufOut | .fetch _ | .reset => true

/-- SEQ is about to perform this line. -/
def State.At (s : State) (site : Site) (l : Line) : Prop :=
  s.seq.phase = .busy ∧ s.seq.step = some (.line site l)

/-- Where a line stands in the order of the Write Guard's lines (R224); 31 for a line that is none of them. -/
def envelopeStage : Line → Nat
  | .w1 => 0
  | .d1 => 1 | .d2 => 2
  | .c1 => 3 | .c2 => 4
  | .l2 => 5
  | .u1 => 6 | .u2 => 7
  | .g1 => 8 | .g2 => 9 | .g3 => 10 | .g4 => 11 | .g5 => 12 | .g6 => 13 | .g7 => 14 | .g8 => 15
  | .h1 => 8 | .h2 => 9 | .h3 => 10 | .h4 => 11 | .h5 => 12 | .h6 => 15
  | .w7 => 16
  | .k1 => 17 | .k2 => 18
  | .f1 => 19 | .f2 => 20 | .f3 => 21 | .f4 => 22 | .f5 => 23
  | .e1 => 24 | .e2 => 25 | .e3 => 26 | .e4 => 27 | .e5 => 28 | .e6 => 29 | .e7 => 30
  | .failIllegal | .haltPanic | .boundsResult | .boundsStatus | .boundsIdle => 31
  | .checkShape | .checkAlign | .checkRange | .checkClock | .setDiv | .initCursor | .ifHead => 31
  | .bindWord | .bindCount | .mergeCheck | .m0 | .m1 | .m2 | .m3 | .spliceBytes | .advance | .whileChunks | .ifTail => 31
  | .r1 | .setResult | .initIndex | .whileBytes | .readByte | .nextByte | .done => 31

/-- The register whose value `SEQ.T` holds before the write of a read-modify-write (R120). -/
def rmwReg : Line → Option Reg
  | .d2 | .e2 | .e6 => some .iccCtrl
  | .c2 => some .flcIntr
  | .u2 | .k2 | .g7 | .h3 | .h5 => some .flcCtrl
  | .f2 => some .gcrSysctrl
  | _ => none

/-- What holds at every step of a run in which HOST keeps to duty 4 of R334, whatever the schedule. -/
structure State.Flow (s : State) : Prop where
  /-- The parameters meet what the rules say of them. -/
  params : paramsWf s.params = true
  /-- The step counter fits the phase (R21). -/
  phase : s.phaseLegal = true
  /-- Duty 4 of R334. -/
  quiet : ∀ h ∈ s.hostQueue, h.quiet = true
  /-- The handle needs the clock domain (R335), and a command needs the handle (R330). -/
  handle : s.plat.handleOwned = true → s.plat.flcClockOn = true
  clock : s.seq.phase = .busy → s.plat.flcClockOn = true
  /-- An operation is in flight only at the poll that follows its start (R228). -/
  op : s.flc.op = .none ∨ (∃ site, s.At site .g8 ∧ s.flc.wr = true) ∨ ∃ site, s.At site .h6 ∧ s.flc.pge = true
  /-- ICCE is busy only at the polls of `enable_icache` (R202). -/
  icce : s.icc.busy = false ∨ (∃ site, s.At site .e4) ∨ ∃ site, s.At site .e7
  pending : s.icc.invPending = false ∨ (s.icc.busy = true ∧ ∃ site, s.At site .e4)
  /-- GCRE is busy only at the poll of `flush_line_buffer` (R204). -/
  gcre : s.gcr.busy = false ∨ ∃ site, s.At site .f3
  /-- Between the read and the write of a read-modify-write nothing changes the register (R356). -/
  rmw : ∀ site l r, s.At site l → rmwReg l = some r → s.seq.t = some (busRead r s)
  /-- The cache is off from step 2 of the Write Guard to line E6 of its step 10 (R224). -/
  off : ∀ site l, s.At site l → site ≠ .main → 3 ≤ envelopeStage l → envelopeStage l ≤ 29 → s.icc.en = false
  /-- The cache is off between lines E2 and E6 of `enable_icache`, and on at E7 (R202). -/
  offEnable : ∀ site l, s.At site l → 26 ≤ envelopeStage l → envelopeStage l ≤ 29 → s.icc.en = false
  onEnable : ∀ site, s.At site .e7 → s.icc.en = true
  /-- The cache is empty once the invalidation of line E3 is done (R207). -/
  emptied : ∀ site l, s.At site l → 27 ≤ envelopeStage l → envelopeStage l ≤ 30 →
    s.icc.lines = [] ∨ (l = .e4 ∧ s.icc.busy = true ∧ s.icc.invPending = true)
  /-- No error flag is set after step 3 of the Write Guard (R307). -/
  noError : ∀ site l, s.At site l → site ≠ .main → 5 ≤ envelopeStage l → envelopeStage l ≤ 30 →
    s.flc.af = false
  /-- The divisor register holds the command's divisor after step 4 of the Write Guard (R227). -/
  divisor : ∀ site l, s.At site l → site ≠ .main → 6 ≤ envelopeStage l → envelopeStage l ≤ 30 →
    s.seq.div = some s.flc.clkdiv
  /-- The erase mode is page erase once line H3 has set it (R246). -/
  code : ∀ site l, s.At site l → l = .h4 ∨ l = .h5 → s.flc.eraseCode = s.params.pageEraseCode
  /-- The controller is unlocked from step 6 to step 8 of the Write Guard, and locked after it (R224). -/
  unlocked : ∀ site l, s.At site l → site ≠ .main → 8 ≤ envelopeStage l → envelopeStage l ≤ 18 →
    s.flc.unlock = s.params.unlockKey
  locked : ∀ site l, s.At site l → site ≠ .main → 19 ≤ envelopeStage l → envelopeStage l ≤ 30 →
    s.flc.unlock = s.params.lockKey
  /-- The line-fill buffer is stale only from the end of an operation to the end of the flush that follows it (R250). -/
  lfb : s.lfbFresh = true
    ∨ ∃ site l, s.At site l ∧ site ≠ .main ∧ 15 ≤ envelopeStage l ∧ envelopeStage l ≤ 23
  /-- After the first dummy read the buffer holds that read's line (R206). -/
  dummy : ∀ site, s.At site .f5 → ∃ d, s.lfb = some ⟨wordBase s.params.dummyReadAddr0.toNat, d⟩
  /-- No stale cache is ever enabled (R351). -/
  coherent : s.icc.en = true → s.linesFresh = true

end Sys2Proof.Machine
end

