-- ==== Sys2Proof/Certificates/Slice0/Obligations.lean ====
section
/-!
DEFINITION. The statements for the provers, in the order of OBLIGATIONS.json. A conclusion of the form `exec i s = .next t`
gives the whole next state, so it is the instruction's frame as well: what `t` does not change is unchanged.
-/

namespace Sys2Proof.Machine

/-! ## The words of the statements -/

/-- `s` after a line's register read that returned the bus word `v` (R140, R27): the record, and `SEQ.T`. -/
def State.afterRead (s : State) (r : Reg) (v : Word) : State :=
  { s with
    seq := { s.seq with t := some v }
    history := .record .seq .mmioR (s.params.regmap.addr r) v :: s.history }

/-- `s` after a register read by HOST's direction (R334 duty 4) that returned the bus word `v`: the record, and what HOST saw. -/
def State.afterHostRead (s : State) (r : Reg) (v : Word) : State :=
  { s with
    history := .record .seq .mmioR (s.params.regmap.addr r) v :: s.history
    hostSeen := .word v }

/-- `s` with the record of a write of the bus word `v` to a register (R140, R45). -/
def State.afterWrite (s : State) (r : Reg) (v : Word) : State :=
  { s with history := .record .seq .mmioW (s.params.regmap.addr r) v :: s.history }

/-- `s` with the record of a flash read (R45). -/
def State.afterFlashRead (s : State) (a v : Word) : State :=
  { s with history := .record .seq .memR a v :: s.history }

/-- `s` with `SEQ.STEP` at a label. -/
def State.movedTo (s : State) (l : Label) : State := { s with seq := { s.seq with step := some l } }

/-- SEQ is about to perform a line of the command `i`, and the operands that this line reads hold values. The other operands may
hold none. -/
def State.Runs (s : State) (i : Instr) (site : Site) (l : Line) : Prop :=
  s.At site l ∧ Label.line site l ∈ programOf i ∧ lineOperandsHeld i site l s.seq = true

/-- The line that follows a line of the command `i`. -/
def Follows (i : Instr) (site : Site) (l : Line) (n : Label) : Prop :=
  lineAfter (programOf i) (.line site l) = some n

/-- The little-endian word at a flash address (R74). -/
def flashWordAt (m : Memory) (a : Nat) : Word :=
  memRead m (a + 3) ++ memRead m (a + 2) ++ memRead m (a + 1) ++ memRead m a

/-- The controller's divisor matches the true clock (R167). -/
def divisorRight (p : Params) (d : Byte) : Prop := d.toNat ≠ 0 ∧ d.toNat * 1000000 = p.periphClkHz

/-- `s` at the end of a command that completes with `OK` (R25, R27, R45, R300). -/
def State.completed (s : State) : State :=
  { s with
    seq := { s.seq with
      phase := .idle, step := none, status := some 0, div := none, w := none, p := none, i := none, t := none }
    history := .cmdEnd (s.seq.cmd.getD 0) :: s.history }

/-- `s` after `fail(code)` (R303): the halt in the hardened posture, the completion with the code in the general one. -/
def State.failed (s : State) (code : Code) (number : Word) : State :=
  match s.params.posture with
  | .hardened =>
    { s with seq := { s.seq with
        phase := .halted, step := some (.haltLoop 0), haltCause := some (.failed code) } }
  | .general =>
    { s with
      seq := { s.seq with
        phase := .idle, step := none, status := some number, div := none, w := none, p := none, i := none, t := none }
      history := .cmdEnd (s.seq.cmd.getD 0) :: s.history }

/-- `k` steps of the machine from `s` end in `t`. -/
def Reaches (k : Nat) (s t : State) : Prop := Host.Core.run Sys2Proof.core k s = .next t

/-- The command `i` has just been issued on a booted machine in which nothing else is in progress (R228), and the coming steps
follow the eager schedule with no reset pending: what R168 and the absence of a reset give a run. The parameters meet what the
rules say of them (`paramsWf`). -/
structure State.Launched (s : State) (i : Instr) : Prop where
  params : paramsWf s.params = true
  phase : s.seq.phase = .busy
  step : s.seq.step = firstLine i
  cmd : s.seq.cmd.map decodeCmd = some i
  operands : operandsHeld i s.seq = true
  clock : s.plat.flcClockOn = true
  op : s.flc.op = .none
  icce : s.icc.busy = false
  pending : s.icc.invPending = false
  gcre : s.gcr.busy = false
  sched : s.sched = []
  noReset : resetPending s = false
  fair : s.params.engineMayStall = false

/-- What a completed command leaves of the sequencer (R20, R21, R27): Idle, with no step and no working register, the port
registers of HOST and the cause of a halt as they were. -/
structure SeqDone (s u : State) (code : Word) : Prop where
  phase : u.seq.phase = .idle
  step : u.seq.step = none
  status : u.seq.status = some code
  div : u.seq.div = none
  w : u.seq.w = none
  p : u.seq.p = none
  i : u.seq.i = none
  t : u.seq.t = none
  cmd : u.seq.cmd = s.seq.cmd
  opa : u.seq.opa = s.seq.opa
  opb : u.seq.opb = s.seq.opb
  opf : u.seq.opf = s.seq.opf
  opd0 : u.seq.opd0 = s.seq.opd0
  opd1 : u.seq.opd1 = s.seq.opd1
  opd2 : u.seq.opd2 = s.seq.opd2
  opd3 : u.seq.opd3 = s.seq.opd3
  bufIn : u.seq.bufIn = s.seq.bufIn
  haltCause : u.seq.haltCause = s.seq.haltCause

/-- The result registers that a command does not write keep their values (R25, R205). -/
structure PortKept (s u : State) : Prop where
  result : u.seq.result = s.seq.result
  bufOut : u.seq.bufOut = s.seq.bufOut

/-- What the Write Guard leaves (R224, R227, R307), beside the array: Ready, Locked, no error flag, the divisor `d`, the cache
enabled and empty, the line-fill buffer fresh; the platform and the parameters as they were. -/
structure GuardDone (s t : State) (d : Byte) : Prop where
  op : t.flc.op = .none
  unlock : t.flc.unlock = s.params.lockKey
  af : t.flc.af = false
  doneFlag : t.flc.done = true
  clkdiv : t.flc.clkdiv = d
  lve : t.flc.lve = s.flc.lve
  icc : t.icc = { en := true, lines := [], busy := false, invPending := false }
  gcr : t.gcr = s.gcr
  lfb : t.lfb = some ⟨s.params.dummyReadAddr1.toNat - s.params.dummyReadAddr1.toNat % 16,
    flashLine t.flash (s.params.dummyReadAddr1.toNat - s.params.dummyReadAddr1.toNat % 16)⟩
  plat : t.plat = s.plat
  params : t.params = s.params

/-- The bus accesses of the newest `n` records, oldest first, as (kind, address). -/
def busTrace (h : List Event) : List (EventKind × Word) :=
  h.reverse.filterMap fun e =>
    match e with
    | .record .seq kind a _ => some (kind, a)
    | _ => none

end Sys2Proof.Machine

open Sys2Proof Sys2Proof.Machine

/-! ## The register surface (spec/40_register_surface.md) -/

/-- R151: each read of an FLC register returns its fields at their positions (R111 to R113, as the parameter `REGMAP` places them:
log entry 6), and the access completes whether an operation is in flight or not. The value goes to HOST, whose access this is
(R334 duty 4; the model's choice, log entry 11). -/
def Obligations.FlcReadsReturnTheirFields : Prop :=
  ∀ s : State, s.plat.flcClockOn = true →
    exec .flcRAddr s = .next (s.afterHostRead .flcAddr s.flc.addr)
    ∧ exec .flcRClkdiv s = .next (s.afterHostRead .flcClkdiv (s.params.regmap.bus .flcClkdiv (0#24 ++ s.flc.clkdiv)))
    ∧ exec .flcRCtrl s = .next (s.afterHostRead .flcCtrl (s.params.regmap.bus .flcCtrl
        (s.flc.unlock ++ 0#2 ++ BitVec.ofBool s.flc.lve ++ BitVec.ofBool (decide (s.flc.op ≠ .none)) ++ 0#8
          ++ s.flc.eraseCode ++ 0#5
          ++ BitVec.ofBool (match s.flc.op with | .erasePage _ _ => true | _ => false) ++ 0#1
          ++ BitVec.ofBool (match s.flc.op with | .program _ _ _ => true | _ => false))))
    ∧ exec .flcRIntr s = .next (s.afterHostRead .flcIntr (s.params.regmap.bus .flcIntr
        (0#30 ++ BitVec.ofBool s.flc.af ++ BitVec.ofBool s.flc.done)))
    ∧ exec .flcRData0 s = .next (s.afterHostRead .flcData0 s.flc.data0)
    ∧ exec .flcRData1 s = .next (s.afterHostRead .flcData1 s.flc.data1)
    ∧ exec .flcRData2 s = .next (s.afterHostRead .flcData2 s.flc.data2)
    ∧ exec .flcRData3 s = .next (s.afterHostRead .flcData3 s.flc.data3)

/-- R154, R155 and the read of R156, at the positions of R114 and R115 as `REGMAP` places them (log entry 6). These reads need
no clock domain. The value goes to HOST (log entry 11). -/
def Obligations.IccAndGcrReadsReturnTheirFields : Prop :=
  ∀ s : State,
    exec .iccRCtrl s = .next (s.afterHostRead .iccCtrl (s.params.regmap.bus .iccCtrl
        (0#15 ++ BitVec.ofBool (!s.icc.busy) ++ 0#15 ++ BitVec.ofBool s.icc.en)))
    ∧ exec .iccRInvalidate s = .next (s.afterHostRead .iccInvalidate 0)
    ∧ exec .gcrRSysctrl s = .next (s.afterHostRead .gcrSysctrl (s.params.regmap.bus .gcrSysctrl
        (s.gcr.other.extractLsb' 6 25 ++ BitVec.ofBool s.gcr.busy ++ s.gcr.other.extractLsb' 0 6)))

/-- R143, R144, R145: a write of `ADDR`, `CLKDIV` or a data lane stores the value, whatever it is; of a `CLKDIV`
word, its field (R113) where `REGMAP` places it. -/
def Obligations.FlcPlainWritesStoreTheValue : Prop :=
  ∀ (s : State) (v : Word), s.plat.flcClockOn = true → s.flc.op = .none →
    exec (.flcWAddr v) s = .next ({ s with flc := { s.flc with addr := v } }.afterWrite .flcAddr v)
    ∧ exec (.flcWClkdiv v) s =
        .next ({ s with flc := { s.flc with clkdiv := (s.params.regmap.fields .flcClkdiv v).setWidth 8 } }.afterWrite
          .flcClkdiv v)
    ∧ exec (.flcWData0 v) s = .next ({ s with flc := { s.flc with data0 := v } }.afterWrite .flcData0 v)
    ∧ exec (.flcWData1 v) s = .next ({ s with flc := { s.flc with data1 := v } }.afterWrite .flcData1 v)
    ∧ exec (.flcWData2 v) s = .next ({ s with flc := { s.flc with data2 := v } }.afterWrite .flcData2 v)
    ∧ exec (.flcWData3 v) s = .next ({ s with flc := { s.flc with data3 := v } }.afterWrite .flcData3 v)

/-- R147, reached through R146 by a write of `WR = 1` that no refusal of R146 stops. The write also stores `ERASE_CODE` (R146), and
the operation carries the clock bit of R167. The bus word `v` has the fields `u`. -/
def Obligations.ProgramStartFollowsKeyAlignmentAndRange : Prop :=
  ∀ (s : State) (v u : Word), s.params.regmap.fields .flcCtrl v = u → s.plat.flcClockOn = true → s.flc.op = .none →
    u.getLsbD 1 = false → u.getLsbD 25 = s.flc.lve → u.getLsbD 0 = true → u.getLsbD 2 = false →
    u.extractLsb' 28 4 = s.flc.unlock →
    (s.flc.unlock ≠ s.params.unlockKey →
      exec (.flcWCtrl v) s = .next ({ s with flc := { s.flc with
        eraseCode := u.extractLsb' 8 8, af := true } }.afterWrite .flcCtrl v))
    ∧ (s.flc.unlock = s.params.unlockKey → s.flc.addr.toNat % 16 ≠ 0 →
      exec (.flcWCtrl v) s = .fault .misalignedProgram)
    ∧ (s.flc.unlock = s.params.unlockKey → s.flc.addr.toNat % 16 = 0 →
      ¬ (0x10000000 ≤ s.flc.addr.toNat ∧ s.flc.addr.toNat + 16 ≤ 0x10080000) →
      exec (.flcWCtrl v) s = .fault .programOutOfRange)
    ∧ (s.flc.unlock = s.params.unlockKey → s.flc.addr.toNat % 16 = 0 →
      0x10000000 ≤ s.flc.addr.toNat → s.flc.addr.toNat + 16 ≤ 0x10080000 →
      ∃ ok : Bool, (ok = true ↔ divisorRight s.params s.flc.clkdiv)
        ∧ exec (.flcWCtrl v) s = .next ({ s with flc := { s.flc with
            eraseCode := u.extractLsb' 8 8
            op := .program s.flc.addr (s.flc.data3 ++ s.flc.data2 ++ s.flc.data1 ++ s.flc.data0) ok
            } }.afterWrite .flcCtrl v))

/-- R148, reached through R146 by a write of `PGE = 1` that no refusal of R146 stops. The operation carries the clock bit of
R167. The bus word `v` has the fields `u`. -/
def Obligations.EraseStartFollowsKeyCodeAndRange : Prop :=
  ∀ (s : State) (v u : Word), s.params.regmap.fields .flcCtrl v = u → s.plat.flcClockOn = true → s.flc.op = .none →
    u.getLsbD 1 = false → u.getLsbD 25 = s.flc.lve → u.getLsbD 0 = false → u.getLsbD 2 = true →
    u.extractLsb' 28 4 = s.flc.unlock → u.extractLsb' 8 8 = s.flc.eraseCode →
    (s.flc.unlock ≠ s.params.unlockKey ∨ s.flc.eraseCode ≠ s.params.pageEraseCode →
      exec (.flcWCtrl v) s = .next ({ s with flc := { s.flc with af := true } }.afterWrite .flcCtrl v))
    ∧ (s.flc.unlock = s.params.unlockKey → s.flc.eraseCode = s.params.pageEraseCode →
      ¬ (0x10000000 ≤ s.flc.addr.toNat ∧ s.flc.addr.toNat < 0x10080000) →
      exec (.flcWCtrl v) s = .fault .eraseOutOfRange)
    ∧ (s.flc.unlock = s.params.unlockKey → s.flc.eraseCode = s.params.pageEraseCode →
      0x10000000 ≤ s.flc.addr.toNat → s.flc.addr.toNat < 0x10080000 →
      ∃ ok : Bool, (ok = true ↔ divisorRight s.params s.flc.clkdiv)
        ∧ exec (.flcWCtrl v) s = .next ({ s with flc := { s.flc with
            op := .erasePage (s.flc.addr.toNat - s.flc.addr.toNat % 0x2000) ok } }.afterWrite .flcCtrl v))

/-- R146: the five refusals of a write of `FLC.CTRL`, each before the ones after it; and the write with no start bit, which
stores `UNLOCK` and `ERASE_CODE` and starts nothing. The bus word `v` has the fields `u`. -/
def Obligations.CtrlWriteRefusesOrStoresKeyAndCode : Prop :=
  ∀ (s : State) (v u : Word), s.params.regmap.fields .flcCtrl v = u → s.plat.flcClockOn = true → s.flc.op = .none →
    (u.getLsbD 1 = true → exec (.flcWCtrl v) s = .refused .massEraseNotModelled)
    ∧ (u.getLsbD 1 = false → u.getLsbD 25 ≠ s.flc.lve → exec (.flcWCtrl v) s = .refused .lveNotModelled)
    ∧ (u.getLsbD 1 = false → u.getLsbD 25 = s.flc.lve → u.getLsbD 0 = true → u.getLsbD 2 = true →
      exec (.flcWCtrl v) s = .refused .simultaneousStart)
    ∧ (u.getLsbD 1 = false → u.getLsbD 25 = s.flc.lve → u.getLsbD 0 ≠ u.getLsbD 2 →
      u.extractLsb' 28 4 ≠ s.flc.unlock → exec (.flcWCtrl v) s = .refused .unlockAndStart)
    ∧ (u.getLsbD 1 = false → u.getLsbD 25 = s.flc.lve → u.getLsbD 0 = false → u.getLsbD 2 = true →
      u.extractLsb' 28 4 = s.flc.unlock → u.extractLsb' 8 8 ≠ s.flc.eraseCode →
      exec (.flcWCtrl v) s = .refused .codeAndStart)
    ∧ (u.getLsbD 1 = false → u.getLsbD 25 = s.flc.lve → u.getLsbD 0 = false → u.getLsbD 2 = false →
      exec (.flcWCtrl v) s = .next ({ s with flc := { s.flc with
        unlock := u.extractLsb' 28 4, eraseCode := u.extractLsb' 8 8 } }.afterWrite .flcCtrl v))

/-- R150: a write of `FLC.INTR` clears the flags whose bit is 0; an interrupt enable is refused. The bus word `v` has
the fields `u`. -/
def Obligations.IntrWriteClearsByZero : Prop :=
  ∀ (s : State) (v u : Word), s.params.regmap.fields .flcIntr v = u → s.plat.flcClockOn = true → s.flc.op = .none →
    ((u.getLsbD 8 = true ∨ u.getLsbD 9 = true) → exec (.flcWIntr v) s = .refused .interruptNotModelled)
    ∧ (u.getLsbD 8 = false → u.getLsbD 9 = false →
      exec (.flcWIntr v) s = .next ({ s with flc := { s.flc with
        done := s.flc.done && u.getLsbD 0, af := s.flc.af && u.getLsbD 1 } }.afterWrite .flcIntr v))

/-- R152, R153: the writes of the cache controller. The bus word `v` has the fields `u` for `ICC.CTRL`. -/
def Obligations.IccWritesEnableAndInvalidate : Prop :=
  ∀ (s : State) (v u : Word), s.params.regmap.fields .iccCtrl v = u →
    (s.icc.busy = true →
      exec (.iccWCtrl v) s = .fault .iccBusyAccess ∧ exec (.iccWInvalidate v) s = .fault .iccBusyAccess)
    ∧ (s.icc.busy = false →
      exec (.iccWCtrl v) s = .next ({ s with icc := { s.icc with
        en := u.getLsbD 0, busy := !s.icc.en && u.getLsbD 0 } }.afterWrite .iccCtrl v)
      ∧ exec (.iccWInvalidate v) s = .next ({ s with icc := { s.icc with
        busy := true, invPending := true } }.afterWrite .iccInvalidate v))

/-- R156: a write of `GCR.SYSCTRL` starts a flush or does nothing; one that changes another bit is refused. The bus
word `v` has the fields `u`. -/
def Obligations.GcrWriteStartsAFlush : Prop :=
  ∀ (s : State) (v u : Word), s.params.regmap.fields .gcrSysctrl v = u →
    (u.extractLsb' 7 25 ++ u.extractLsb' 0 6 ≠ s.gcr.other →
      exec (.gcrWSysctrl v) s = .refused .gcrOtherNotModelled)
    ∧ (u.extractLsb' 7 25 ++ u.extractLsb' 0 6 = s.gcr.other →
      exec (.gcrWSysctrl v) s = .next ({ s with gcr := { s.gcr with
        busy := s.gcr.busy || u.getLsbD 6 } }.afterWrite .gcrSysctrl v))

/-- R140 check 2 and R142: with the clock domain off, every FLC access faults; with it on, every write of an FLC register
faults while an operation is in flight. -/
def Obligations.FlcAccessesFaultWithoutClockOrWhileBusy : Prop :=
  ∀ (s : State) (v : Word),
    (s.plat.flcClockOn = false →
      ∀ i ∈ [Instr.flcWAddr v, .flcWClkdiv v, .flcWCtrl v, .flcWIntr v, .flcWData0 v, .flcWData1 v, .flcWData2 v,
        .flcWData3 v, .flcRAddr, .flcRClkdiv, .flcRCtrl, .flcRIntr, .flcRData0, .flcRData1, .flcRData2, .flcRData3],
        exec i s = .fault .clockDomainOff)
    ∧ (s.plat.flcClockOn = true → s.flc.op ≠ .none →
      ∀ i ∈ [Instr.flcWAddr v, .flcWClkdiv v, .flcWCtrl v, .flcWIntr v, .flcWData0 v, .flcWData1 v, .flcWData2 v,
        .flcWData3 v], exec i s = .fault .busyAccess)

/-- R140 checks 1 to 3 and R117, for a bus access at any address: misaligned, then the FLC clock domain, then an address of
a block that the map does not list. The map is `REGMAP`'s, well formed: what R110 and R117 say of it. -/
def Obligations.BusAccessChecksComeInOrder : Prop :=
  ∀ (s : State) (dir : Dir) (a v : Word) (m : RegMap), s.params.regmap = m → m.wf = true →
    (a.toNat % 4 ≠ 0 → hostStep exec (.mmio dir a v) s = .fault .misalignedMmio)
    ∧ (a.toNat % 4 = 0 → m.flcBase.toNat ≤ a.toNat → a.toNat ≤ m.flcBase.toNat + 0xFFF → s.plat.flcClockOn = false →
      hostStep exec (.mmio dir a v) s = .fault .clockDomainOff)
    ∧ (a.toNat % 4 = 0 →
      ((m.flcBase.toNat ≤ a.toNat ∧ a.toNat ≤ m.flcBase.toNat + 0xFFF) → s.plat.flcClockOn = true) →
      ((m.flcBase.toNat ≤ a.toNat ∧ a.toNat ≤ m.flcBase.toNat + 0xFFF)
        ∨ (m.iccBase.toNat ≤ a.toNat ∧ a.toNat ≤ m.iccBase.toNat + 0xFFF)
        ∨ (m.gcrBase.toNat ≤ a.toNat ∧ a.toNat ≤ m.gcrBase.toNat + 0x3FF)) →
      (∀ r, m.addr r ≠ a) →
      hostStep exec (.mmio dir a v) s = .refused .unmodelledRegister)

/-! ## The flash read path (spec/40_register_surface.md section 5) -/

/-- R157, R158 with no operation in flight and a fresh or empty buffer: the value is the array's, and the buffer holds the
line. The value goes to HOST, a byte zero-extended (the model's choice, log entry 11). -/
def Obligations.FlashReadsReturnTheArray : Prop :=
  ∀ (s : State) (a : Word), s.flc.op = .none → s.lfbFresh = true →
    (a.toNat % 4 = 0 → 0x10000000 ≤ a.toNat → a.toNat + 4 ≤ 0x10080000 →
      exec (.flashR32 a) s = .next ({ s with
        lfb := some ⟨a.toNat - a.toNat % 16, flashLine s.flash (a.toNat - a.toNat % 16)⟩
        hostSeen := .word (flashWordAt s.flash a.toNat) }.afterFlashRead a (flashWordAt s.flash a.toNat)))
    ∧ (0x10000000 ≤ a.toNat → a.toNat < 0x10080000 →
      exec (.flashR8 a) s = .next ({ s with
        lfb := some ⟨a.toNat - a.toNat % 16, flashLine s.flash (a.toNat - a.toNat % 16)⟩
        hostSeen := .word (0#24 ++ memRead s.flash a.toNat) }.afterFlashRead a
          (0#24 ++ memRead s.flash a.toNat)))

/-- R163, R92: the reads whose value is open complete. When the buffer holds the line of the read, stale, the read is served
from the buffer, which then keeps its line, or from the array, which then replaces it: which of the two is a free value (log
entry 5). The value goes to HOST (log entry 11). While an operation is in flight, the value is any value, and the buffer empties. -/
def Obligations.StaleAndInFlightReadsComplete : Prop :=
  ∀ (s : State) (a : Word),
    (∀ d : FlashWord, s.flc.op = .none → a.toNat % 4 = 0 → 0x10000000 ≤ a.toNat → a.toNat + 4 ≤ 0x10080000 →
      s.lfb = some ⟨a.toNat - a.toNat % 16, d⟩ → d ≠ flashLine s.flash (a.toNat - a.toNat % 16) →
      exec (.flashR32 a) s = .next ({ s with
          draws := s.draws + 1
          hostSeen := .word (d.extractLsb' (8 * (a.toNat % 16)) 32) }.afterFlashRead a
            (d.extractLsb' (8 * (a.toNat % 16)) 32))
      ∨ exec (.flashR32 a) s = .next ({ s with
          draws := s.draws + 1
          lfb := some ⟨a.toNat - a.toNat % 16, flashLine s.flash (a.toNat - a.toNat % 16)⟩
          hostSeen := .word (flashWordAt s.flash a.toNat) }.afterFlashRead a (flashWordAt s.flash a.toNat)))
    ∧ (∀ d : FlashWord, s.flc.op = .none → 0x10000000 ≤ a.toNat → a.toNat < 0x10080000 →
      s.lfb = some ⟨a.toNat - a.toNat % 16, d⟩ → d ≠ flashLine s.flash (a.toNat - a.toNat % 16) →
      exec (.flashR8 a) s = .next ({ s with
          draws := s.draws + 1
          hostSeen := .word (0#24 ++ d.extractLsb' (8 * (a.toNat % 16)) 8) }.afterFlashRead a
            (0#24 ++ d.extractLsb' (8 * (a.toNat % 16)) 8))
      ∨ exec (.flashR8 a) s = .next ({ s with
          draws := s.draws + 1
          lfb := some ⟨a.toNat - a.toNat % 16, flashLine s.flash (a.toNat - a.toNat % 16)⟩
          hostSeen := .word (0#24 ++ memRead s.flash a.toNat) }.afterFlashRead a
            (0#24 ++ memRead s.flash a.toNat)))
    ∧ (s.flc.op ≠ .none → a.toNat % 4 = 0 → 0x10000000 ≤ a.toNat → a.toNat + 4 ≤ 0x10080000 →
      ∃ v : Word, exec (.flashR32 a) s = .next ({ s with
        lfb := none, draws := s.draws + 1, hostSeen := .word v }.afterFlashRead a v))
    ∧ (s.flc.op ≠ .none → 0x10000000 ≤ a.toNat → a.toNat < 0x10080000 →
      ∃ b : Byte, exec (.flashR8 a) s = .next ({ s with
        lfb := none, draws := s.draws + 1, hostSeen := .word (0#24 ++ b) }.afterFlashRead a (0#24 ++ b)))

/-- R157, R158, R159: the faults of the flash window. -/
def Obligations.FlashWindowFaults : Prop :=
  ∀ (s : State) (a : Word),
    (a.toNat % 4 ≠ 0 → exec (.flashR32 a) s = .fault .misalignedRead)
    ∧ (a.toNat % 4 = 0 → ¬ (0x10000000 ≤ a.toNat ∧ a.toNat + 4 ≤ 0x10080000) →
      exec (.flashR32 a) s = .fault .flashReadOutOfRange)
    ∧ (¬ (0x10000000 ≤ a.toNat ∧ a.toNat < 0x10080000) → exec (.flashR8 a) s = .fault .flashReadOutOfRange)
    ∧ ∀ (width : Width) (v : Word), (0x10000000 ≤ a.toNat ∧ a.toNat < 0x10080000) →
      exec (.flashW width a v) s = .fault .flashStore

/-! ## The engines (spec/40_register_surface.md section 6) -/

/-- R160, R165: FLCE completes a program. The record's address and value are the model's choice (log entry 16). Each byte of the
word becomes the AND of what it was and of the data when the clock was right; when it was not, nothing is said of it. Every
other byte is as it was, and the buffer and the cache's lines do not change. -/
def Obligations.ProgramCompletionClearsBits : Prop :=
  ∀ (s : State) (a : Word) (d : FlashWord) (ok : Bool), Memory.wf s.flash = true → s.flc.op = .program a d ok →
    flceStep s = { s with
        flash := (flceStep s).flash
        flc := { s.flc with op := .none, done := true }
        draws := s.draws + 1
        history := .record .flce .complete (BitVec.ofNat 32 a.toNat) 0 :: s.history }
    ∧ Memory.wf (flceStep s).flash = true
    ∧ (∀ x, ¬ (a.toNat ≤ x ∧ x < a.toNat + 16) → memRead (flceStep s).flash x = memRead s.flash x)
    ∧ (ok = true → ∀ j < 16,
        memRead (flceStep s).flash (a.toNat + j) = memRead s.flash (a.toNat + j) &&& d.extractLsb' (8 * j) 8)

/-- R160, R166: FLCE completes an erase. The record's address and value are the model's choice (log entry 16). -/
def Obligations.EraseCompletionSetsThePage : Prop :=
  ∀ (s : State) (p : Nat) (ok : Bool), Memory.wf s.flash = true → s.flc.op = .erasePage p ok →
    flceStep s = { s with
        flash := (flceStep s).flash
        flc := { s.flc with op := .none, done := true }
        draws := s.draws + 1
        history := .record .flce .complete (BitVec.ofNat 32 p) 0 :: s.history }
    ∧ Memory.wf (flceStep s).flash = true
    ∧ (∀ x, ¬ (p ≤ x ∧ x < p + 0x2000) → memRead (flceStep s).flash x = memRead s.flash x)
    ∧ (ok = true → ∀ x, p ≤ x → x < p + 0x2000 → memRead (flceStep s).flash x = 0xFF)

/-- R161, R162, and the engines' places in a step (R10, R84): where the schedule, the model's own (log entry 7), names an engine
that is at work, the machine's step is that engine's completion. That the completion records of ICCE and GCRE have the address 0
and the value 0 is the model's choice (log entry 16). -/
def Obligations.EnginesCompleteWhenTheyMove : Prop :=
  ∀ (s : State) (rest : List Agent),
    (s.sched = .flce :: rest → s.flc.op ≠ .none → step s = .next (flceStep { s with sched := rest }))
    ∧ (s.sched = .icce :: rest → s.icc.busy = true →
      step s = .next { s with
        sched := rest
        icc := { s.icc with
          busy := false, invPending := false, lines := if s.icc.invPending then [] else s.icc.lines }
        history := .record .icce .complete 0 0 :: s.history })
    ∧ (s.sched = .gcre :: rest → s.gcr.busy = true →
      step s = .next { s with
        sched := rest
        gcr := { s.gcr with busy := false }
        icc := { s.icc with lines := [] }
        history := .record .gcre .complete 0 0 :: s.history })

/-! ## A step runs the decoded instruction -/

/-- R10, R21, R330: when SEQ moves, it performs one line of the command whose word stands in `SEQ.CMD`. It moves where the
schedule names it, and where the schedule is used up and nothing goes before it (log entries 7 and 13). Code that is not in RAM
faults while an operation is in flight (R22, R352). -/
def Obligations.StepRunsTheCommandAtTheCommandRegister : Prop :=
  ∀ (s : State) (w : Word) (i : Instr), s.seq.phase = .busy → s.seq.cmd = some w →
    decode .cmd (bytesLe32 w) = .ok (i, []) →
    (∀ rest, s.sched = .seq :: rest → (s.params.seqCodeInRam = true ∨ s.flc.op = .none) →
      step s = exec i { s with sched := rest })
    ∧ (∀ rest, s.sched = .seq :: rest → s.params.seqCodeInRam = false → s.flc.op ≠ .none →
      step s = .fault .fetchDuringFlashOp)
    ∧ (s.sched = [] → resetPending s = false → s.flc.op = .none → s.icc.busy = false → s.gcr.busy = false →
      step s = exec i s)

/-- R334 duty 4, R100: a bus access at the head of HOST's steps runs the instruction that its words decode to, in
the machine's own map (log entry 8). -/
def Obligations.StepRunsTheBusAccessOfHost : Prop :=
  ∀ (s : State) (rest : List Agent) (q : List HostStep) (a v : Word) (i : Instr) (more : List Byte) (dir : Dir),
    s.sched = .host :: rest → s.seq.phase = .idle →
    (s.hostQueue = .mmio dir a v :: q → decodeWith s.params.regmap (.mmio dir) (wordsToBytes [a, v]) = .ok (i, more) →
      step s = exec i { s with sched := rest, hostQueue := q })
    ∧ (∀ width, s.hostQueue = .mem dir width a v :: q →
      decodeWith s.params.regmap (.mem dir width) (wordsToBytes [a, v]) = .ok (i, more) →
      step s = exec i { s with sched := rest, hostQueue := q })

/-! ## The lines of the commands (spec/41 to spec/46) -/

/-- R180, R181: the three lines of CHECK_BOUNDS, each a step of its own (log entry 13). The last one ends the command: the
working registers hold no value (R27, log entry 24) and the history records the end (R45). -/
def Obligations.CheckBoundsAnswersTheRange : Prop :=
  ∀ s : State,
    (∀ a b : Word, s.seq.opa = some a → s.seq.opb = some b → s.At .main .boundsResult →
      exec .checkBounds s = .next ({ s with seq := { s.seq with
        result := some (if 0x10000000 ≤ a.toNat ∧ a.toNat ≤ 0x10080000 ∧ 0x10000000 ≤ b.toNat ∧ b.toNat ≤ 0x10080000
          ∧ a.toNat < b.toNat then 1 else 0) } }.movedTo (.line .main .boundsStatus)))
    ∧ (s.At .main .boundsStatus →
      exec .checkBounds s =
        .next ({ s with seq := { s.seq with status := some 0 } }.movedTo (.line .main .boundsIdle)))
    ∧ (s.At .main .boundsIdle →
      exec .checkBounds s = .next { s with
        seq := { s.seq with phase := .idle, step := none, div := none, w := none, p := none, i := none, t := none }
        history := .cmdEnd (s.seq.cmd.getD 0) :: s.history })

/-- R76, R240 check 2, R270, R303: the alignment checks of WRITE_WORD and READ32. -/
def Obligations.AlignmentIsCheckedFirst : Prop :=
  ∀ (s : State) (a : Word), s.seq.opa = some a →
    (s.Runs .writeWord .main .checkAlign →
      (a.toNat % 16 ≠ 0 → exec .writeWord s = .next (s.failed .align 1))
      ∧ (a.toNat % 16 = 0 → exec .writeWord s = .next (s.movedTo (.line .main .checkRange))))
    ∧ (s.Runs .read32 .main .checkAlign →
      (a.toNat % 4 ≠ 0 → exec .read32 s = .next (s.failed .align 1))
      ∧ (a.toNat % 4 = 0 → exec .read32 s = .next (s.movedTo (.line .main .checkRange))))

/-- R183, R240 checks 1 and 3, R244, R303: the range each command checks, and WRITE's shape check before it. The end of a
range does not wrap (R105). -/
def Obligations.RangesAreCheckedWithoutWrap : Prop :=
  ∀ (s : State) (a : Word), s.seq.opa = some a →
    (s.Runs .writeWord .main .checkRange →
      exec .writeWord s = .next (if 0x10000000 ≤ a.toNat ∧ a.toNat + 16 ≤ 0x10080000
        then s.movedTo (.line .main .checkClock) else s.failed .bounds 2))
    ∧ (s.Runs .erasePage .main .checkRange →
      exec .erasePage s = .next (if 0x10000000 ≤ a.toNat ∧ a.toNat + 1 ≤ 0x10080000
        then s.movedTo (.line .main .checkClock) else s.failed .bounds 2))
    ∧ (s.Runs .read32 .main .checkRange →
      exec .read32 s = .next (if 0x10000000 ≤ a.toNat ∧ a.toNat + 4 ≤ 0x10080000
        then s.movedTo (.line .main .r1) else s.failed .bounds 2))
    ∧ (∀ n : Word, s.seq.opb = some n →
      (s.Runs .read .main .checkRange →
        exec .read s = .next (if 0x10000000 ≤ a.toNat ∧ 0 < n.toNat ∧ a.toNat + n.toNat ≤ 0x10080000
          then s.movedTo (.line .main .initIndex) else s.failed .bounds 2))
      ∧ (s.Runs .write .main .checkRange →
        exec .write s = .next (if 0x10000000 ≤ a.toNat ∧ 0 < n.toNat ∧ a.toNat + n.toNat ≤ 0x10080000
          then s.movedTo (.line .main .checkClock) else s.failed .bounds 2))
      ∧ ∀ bs, s.seq.bufIn = some bs → s.Runs .write .main .checkShape →
        (bs.length ≠ n.toNat → exec .write s = .fault .operandMismatch)
        ∧ (bs.length = n.toNat → exec .write s = .next (s.movedTo (.line .main .checkRange))))

/-- R190, R191, R192, R240 check 4: the clock check, and the divisor it leaves in `SEQ.DIV`. -/
def Obligations.ClockIsCheckedAndDivided : Prop :=
  ∀ (s : State) (f : Word), s.seq.opf = some f →
    ∀ i ∈ [Instr.setClkdiv, .writeWord, .write, .erasePage],
      (s.Runs i .main .checkClock →
        ((f.toNat % 1000000 = 0 ∧ 1 ≤ f.toNat / 1000000 ∧ f.toNat / 1000000 ≤ 255) →
          exec i s = .next (s.movedTo (.line .main .setDiv)))
        ∧ (¬ (f.toNat % 1000000 = 0 ∧ 1 ≤ f.toNat / 1000000 ∧ f.toNat / 1000000 ≤ 255) →
          exec i s = .next (s.failed .clock 3)))
      ∧ (s.Runs i .main .setDiv →
        (f.toNat % 1000000 = 0 ∧ 1 ≤ f.toNat / 1000000 ∧ f.toNat / 1000000 ≤ 255) →
        ∀ n, Follows i .main .setDiv n →
          exec i s = .next ({ s with seq := { s.seq with
            div := some (BitVec.ofNat 8 (f.toNat / 1000000)) } }.movedTo n))

namespace Sys2Proof.Machine

/-- The register that the first half of a read-modify-write reads (R120, R200 to R204, R221 to R223, R241, R246). -/
def rmwReadReg : Line → Option Reg
  | .d1 | .e1 | .e5 => some .iccCtrl
  | .c1 => some .flcIntr
  | .u1 | .k1 | .g6 | .h2 | .h4 => some .flcCtrl
  | .f1 => some .gcrSysctrl
  | _ => none

/-- The register that a poll reads, and whether it goes on waiting in a state (R220, R241, R246, R204, R202). -/
def pollWaits (l : Line) (s : State) : Option (Reg × Bool) :=
  match l with
  | .w1 | .w7 => some (.flcCtrl, decide (s.flc.op ≠ .none))
  | .g8 => some (.flcCtrl, match s.flc.op with | .program _ _ _ => true | _ => false)
  | .h6 => some (.flcCtrl, match s.flc.op with | .erasePage _ _ => true | _ => false)
  | .f3 => some (.gcrSysctrl, s.gcr.busy)
  | .e4 | .e7 => some (.iccCtrl, s.icc.busy)
  | _ => none

end Sys2Proof.Machine

/-- R120: the first half of a read-modify-write reads the register into `SEQ.T` and changes nothing else. It holds for each
of ICC_DISABLE, ICC_ENABLE, LFB_FLUSH, UNLOCK, LOCK, WRITE_WORD, WRITE and ERASE_PAGE at each of its such lines. -/
def Obligations.RmwReadLinesReadTheRegister : Prop :=
  ∀ (s : State) (i : Instr) (site : Site) (l : Line) (r : Reg) (n : Label),
    s.Runs i site l → rmwReadReg l = some r → Follows i site l n → (r.isFlc = true → s.plat.flcClockOn = true) →
    exec i s = .next ((s.afterRead r (busRead r s)).movedTo n)

/-- R14, R120, R220: a poll reads its register once and stays where it is while it must wait; else it goes on. It holds for
each poll of SET_CLKDIV, UNLOCK, LOCK, LFB_FLUSH, ICC_ENABLE, WRITE_WORD, WRITE and ERASE_PAGE. -/
def Obligations.PollLinesWaitWithoutBound : Prop :=
  ∀ (s : State) (i : Instr) (site : Site) (l : Line) (r : Reg) (waits : Bool),
    s.Runs i site l → pollWaits l s = some (r, waits) → (r.isFlc = true → s.plat.flcClockOn = true) →
    (waits = true → exec i s = .next (s.afterRead r (busRead r s)))
    ∧ (waits = false → ∀ n, Follows i site l n →
      exec i s = .next ((s.afterRead r (busRead r s)).movedTo n))

/-- R200, R202, R204: the writing lines of the Cache Guard, in ICC_DISABLE, ICC_ENABLE, LFB_FLUSH and every envelope. Their
hypotheses on `SEQ.T` and on the cache's engine are what `State.Flow` gives at these lines. The fields of each word written stand
where `REGMAP` places them (R120, log entry 6). -/
def Obligations.CacheGuardLinesWrite : Prop :=
  ∀ (s : State) (i : Instr) (site : Site) (l : Line) (n : Label), s.Runs i site l → Follows i site l n →
    ((l = .d2 ∨ l = .e2) → s.seq.t = some (busRead .iccCtrl s) → s.icc.busy = false →
      exec i s = .next (({ s with icc := { s.icc with en := false } }.afterWrite
        .iccCtrl (s.params.regmap.bus .iccCtrl 0x00010000)).movedTo n))
    ∧ (l = .e3 → s.icc.busy = false →
      exec i s = .next (({ s with icc := { s.icc with busy := true, invPending := true } }.afterWrite
        .iccInvalidate 1).movedTo n))
    ∧ (l = .e6 → s.seq.t = some (busRead .iccCtrl s) → s.icc.busy = false →
      exec i s = .next (({ s with icc := { s.icc with en := true, busy := !s.icc.en } }.afterWrite
        .iccCtrl (s.params.regmap.bus .iccCtrl 0x00010001)).movedTo n))
    ∧ (l = .f2 → s.seq.t = some (busRead .gcrSysctrl s) →
      exec i s = .next (({ s with gcr := { s.gcr with busy := true } }.afterWrite
        .gcrSysctrl (s.params.regmap.bus .gcrSysctrl (readReg .gcrSysctrl s ||| 0x40))).movedTo n))

/-- R193, R221, R222, R223: the writing lines around an operation, in SET_CLKDIV, UNLOCK, LOCK and every envelope. -/
def Obligations.GuardLinesWriteTheController : Prop :=
  ∀ (s : State) (i : Instr) (site : Site) (l : Line) (n : Label), s.Runs i site l → Follows i site l n →
    s.plat.flcClockOn = true → s.flc.op = .none →
    (l = .c2 → s.seq.t = some (busRead .flcIntr s) →
      exec i s = .next (({ s with flc := { s.flc with af := false } }.afterWrite
        .flcIntr (s.params.regmap.bus .flcIntr (0#31 ++ BitVec.ofBool s.flc.done))).movedTo n))
    ∧ (l = .l2 → ∀ d, s.seq.div = some d →
      exec i s = .next (({ s with flc := { s.flc with clkdiv := d } }.afterWrite
        .flcClkdiv (s.params.regmap.bus .flcClkdiv (0#24 ++ d))).movedTo n))
    ∧ (l = .u2 → s.seq.t = some (busRead .flcCtrl s) →
      exec i s = .next (({ s with flc := { s.flc with unlock := s.params.unlockKey } }.afterWrite
        .flcCtrl (s.params.regmap.bus .flcCtrl
          ((readReg .flcCtrl s &&& 0x0FFFFFFF) ||| (s.params.unlockKey ++ 0#28)))).movedTo n))
    ∧ (l = .k2 → s.seq.t = some (busRead .flcCtrl s) →
      exec i s = .next (({ s with flc := { s.flc with unlock := s.params.lockKey } }.afterWrite
        .flcCtrl (s.params.regmap.bus .flcCtrl
          ((readReg .flcCtrl s &&& 0x0FFFFFFF) ||| (s.params.lockKey ++ 0#28)))).movedTo n))

/-- R241 G1 to G5 for WRITE_WORD (R107, R242): the address and the four lanes, each read at its own line. -/
def Obligations.WriteWordLoadsAddressAndLanes : Prop :=
  ∀ (s : State) (l : Line) (n : Label) (v : Word), s.At .word l → Follows .writeWord .word l n →
    s.plat.flcClockOn = true → s.flc.op = .none →
    (l = .g1 → s.seq.opa = some v → exec .writeWord s =
      .next (({ s with flc := { s.flc with addr := v } }.afterWrite .flcAddr v).movedTo n))
    ∧ (l = .g2 → s.seq.opd0 = some v → exec .writeWord s =
      .next (({ s with flc := { s.flc with data0 := v } }.afterWrite .flcData0 v).movedTo n))
    ∧ (l = .g3 → s.seq.opd1 = some v → exec .writeWord s =
      .next (({ s with flc := { s.flc with data1 := v } }.afterWrite .flcData1 v).movedTo n))
    ∧ (l = .g4 → s.seq.opd2 = some v → exec .writeWord s =
      .next (({ s with flc := { s.flc with data2 := v } }.afterWrite .flcData2 v).movedTo n))
    ∧ (l = .g5 → s.seq.opd3 = some v → exec .writeWord s =
      .next (({ s with flc := { s.flc with data3 := v } }.afterWrite .flcData3 v).movedTo n))

namespace Sys2Proof.Machine

/-- The word that an envelope of WRITE programs (R244), for lane `k`: from the merge buffer in the head and the tail, from the
input in a full chunk. -/
def writeLane (site : Site) (w : FlashWord) (bs : List Byte) (i k : Nat) : Word :=
  if site = .chunk then
    bs.getD (i + 4 * k + 3) 0 ++ bs.getD (i + 4 * k + 2) 0 ++ bs.getD (i + 4 * k + 1) 0 ++ bs.getD (i + 4 * k) 0
  else w.extractLsb' (32 * k) 32

/-- The address that an envelope of WRITE programs (R244): the word that holds the cursor. -/
def writeAddr (site : Site) (p : Word) : Word :=
  if site = .head then BitVec.ofNat 32 (p.toNat - p.toNat % 16) else p

end Sys2Proof.Machine

/-- R241 G1 to G5 for the three parts of WRITE (R244). The head and the tail read the merge buffer, a full chunk the input. -/
def Obligations.WriteLoadsAddressAndLanes : Prop :=
  ∀ (s : State) (site : Site) (l : Line) (n : Label) (p i : Word) (w : FlashWord) (bs : List Byte),
    site = .head ∨ site = .chunk ∨ site = .tail → s.Runs .write site l → Follows .write site l n →
    s.plat.flcClockOn = true → s.flc.op = .none → s.seq.p = some p → s.seq.i = some i →
    (site ≠ .chunk → s.seq.w = some w) → (site = .chunk → s.seq.bufIn = some bs) →
    (l = .g1 → exec .write s = .next (({ s with flc := { s.flc with addr := writeAddr site p } }.afterWrite
      .flcAddr (writeAddr site p)).movedTo n))
    ∧ (l = .g2 → exec .write s = .next (({ s with flc := { s.flc with data0 := writeLane site w bs i.toNat 0 } }.afterWrite
      .flcData0 (writeLane site w bs i.toNat 0)).movedTo n))
    ∧ (l = .g3 → exec .write s = .next (({ s with flc := { s.flc with data1 := writeLane site w bs i.toNat 1 } }.afterWrite
      .flcData1 (writeLane site w bs i.toNat 1)).movedTo n))
    ∧ (l = .g4 → exec .write s = .next (({ s with flc := { s.flc with data2 := writeLane site w bs i.toNat 2 } }.afterWrite
      .flcData2 (writeLane site w bs i.toNat 2)).movedTo n))
    ∧ (l = .g5 → exec .write s = .next (({ s with flc := { s.flc with data3 := writeLane site w bs i.toNat 3 } }.afterWrite
      .flcData3 (writeLane site w bs i.toNat 3)).movedTo n))

/-- R241 G7, R246 H1, H3, H5: the lines that start an operation, in WRITE_WORD, WRITE and ERASE_PAGE. The hypotheses on the
key, the code and the address are what the lines before them have set (R307). -/
def Obligations.StartLinesStartTheOperation : Prop :=
  ∀ (s : State) (i : Instr) (site : Site) (l : Line) (n : Label), s.Runs i site l → Follows i site l n →
    s.plat.flcClockOn = true → s.flc.op = .none →
    (l = .g7 → s.seq.t = some (busRead .flcCtrl s) → s.flc.unlock = s.params.unlockKey → s.flc.addr.toNat % 16 = 0 →
      0x10000000 ≤ s.flc.addr.toNat → s.flc.addr.toNat + 16 ≤ 0x10080000 →
      ∃ ok : Bool, (ok = true ↔ divisorRight s.params s.flc.clkdiv)
        ∧ exec i s = .next (({ s with flc := { s.flc with
            op := .program s.flc.addr (s.flc.data3 ++ s.flc.data2 ++ s.flc.data1 ++ s.flc.data0) ok } }.afterWrite
            .flcCtrl (s.params.regmap.bus .flcCtrl (readReg .flcCtrl s ||| 1))).movedTo n))
    ∧ (l = .h1 → ∀ a, s.seq.opa = some a →
      exec i s = .next (({ s with flc := { s.flc with addr := a } }.afterWrite .flcAddr a).movedTo n))
    ∧ (l = .h3 → s.seq.t = some (busRead .flcCtrl s) →
      exec i s = .next (({ s with flc := { s.flc with eraseCode := s.params.pageEraseCode } }.afterWrite
        .flcCtrl (s.params.regmap.bus .flcCtrl
          ((readReg .flcCtrl s &&& 0xFFFF00FF) ||| (0#16 ++ s.params.pageEraseCode ++ 0#8)))).movedTo n))
    ∧ (l = .h5 → s.seq.t = some (busRead .flcCtrl s) → s.flc.unlock = s.params.unlockKey →
      s.flc.eraseCode = s.params.pageEraseCode → 0x10000000 ≤ s.flc.addr.toNat → s.flc.addr.toNat < 0x10080000 →
      ∃ ok : Bool, (ok = true ↔ divisorRight s.params s.flc.clkdiv)
        ∧ exec i s = .next (({ s with flc := { s.flc with
            op := .erasePage (s.flc.addr.toNat - s.flc.addr.toNat % 0x2000) ok } }.afterWrite
            .flcCtrl (s.params.regmap.bus .flcCtrl (readReg .flcCtrl s ||| 4))).movedTo n))

/-- R204 F4 and F5: the dummy reads are performed, and their values are discarded: only the buffer changes. Each reads a word
of flash at its aligned address (R88), whose line the buffer does not hold stale (R206). -/
def Obligations.DummyReadsFillTheBuffer : Prop :=
  ∀ (s : State) (i : Instr) (site : Site) (l : Line) (a : Word) (n : Label), s.flc.op = .none →
    (l = .f4 ∧ a = s.params.dummyReadAddr0) ∨ (l = .f5 ∧ a = s.params.dummyReadAddr1) →
    a.toNat % 4 = 0 → 0x10000000 ≤ a.toNat → a.toNat + 4 ≤ 0x10080000 →
    (∀ d, s.lfb = some ⟨a.toNat - a.toNat % 16, d⟩ → d = flashLine s.flash (a.toNat - a.toNat % 16)) →
    s.Runs i site l → Follows i site l n →
    exec i s = .next (({ s with
      lfb := some ⟨a.toNat - a.toNat % 16, flashLine s.flash (a.toNat - a.toNat % 16)⟩ }.afterFlashRead a
        (flashWordAt s.flash a.toNat)).movedTo n)

/-- R270, R271: the lines of READ32 and READ after their checks, with a fresh or empty buffer. -/
def Obligations.ReadLinesReadTheArray : Prop :=
  ∀ (s : State) (a : Word), s.seq.opa = some a → s.flc.op = .none → s.lfbFresh = true →
    (s.Runs .read32 .main .r1 → a.toNat % 4 = 0 → 0x10000000 ≤ a.toNat → a.toNat + 4 ≤ 0x10080000 →
      exec .read32 s = .next (({ s with
        lfb := some ⟨a.toNat - a.toNat % 16, flashLine s.flash (a.toNat - a.toNat % 16)⟩
        seq := { s.seq with t := some (flashWordAt s.flash a.toNat) } }.afterFlashRead a
          (flashWordAt s.flash a.toNat)).movedTo (.line .main .setResult)))
    ∧ (s.Runs .read32 .main .setResult → ∀ v, s.seq.t = some v →
      exec .read32 s = .next ({ s with seq := { s.seq with result := some v } }.movedTo (.line .main .done)))
    ∧ (s.Runs .read .main .initIndex →
      exec .read s = .next ({ s with seq := { s.seq with i := some 0 } }.movedTo (.line .main .whileBytes)))
    ∧ (∀ k len : Word, s.seq.i = some k → s.seq.opb = some len →
      (s.Runs .read .main .whileBytes →
        exec .read s = .next (s.movedTo (.line .main (if k.toNat < len.toNat then .readByte else .done))))
      ∧ (s.Runs .read .main .readByte → 0x10000000 ≤ a.toNat → a.toNat + k.toNat < 0x10080000 →
        exec .read s = .next (({ s with
          lfb := some ⟨(a + k).toNat - (a + k).toNat % 16, flashLine s.flash ((a + k).toNat - (a + k).toNat % 16)⟩
          seq := { s.seq with
            bufOut := some ((s.seq.bufOut.getD []).take k.toNat ++ [memRead s.flash (a.toNat + k.toNat)]) }
          }.afterFlashRead (a + k) (0#24 ++ memRead s.flash (a.toNat + k.toNat))).movedTo (.line .main .nextByte)))
      ∧ (s.Runs .read .main .nextByte →
        exec .read s = .next ({ s with seq := { s.seq with i := some (k + 1) } }.movedTo (.line .main .whileBytes))))

/-- R21, R244: the lines of WRITE that move its cursor `SEQ.P` and its index `SEQ.I`, and the two lines at the head's start that
bind `w`, `off` and `n`: internal steps, which move the step counter alone. -/
def Obligations.WriteCursorFollowsTheParts : Prop :=
  ∀ (s : State) (a len : Word), s.seq.opa = some a → s.seq.opb = some len →
    (s.At .main .initCursor →
      exec .write s = .next ({ s with seq := { s.seq with p := some a, i := some 0 } }.movedTo (.line .main .ifHead)))
    ∧ (∀ p i : Word, s.seq.p = some p → s.seq.i = some i →
      (s.At .main .ifHead →
        exec .write s = .next (s.movedTo (if p.toNat % 16 ≠ 0 then .line .head .bindWord else .line .main .whileChunks)))
      ∧ (s.At .head .bindWord → exec .write s = .next (s.movedTo (.line .head .bindCount)))
      ∧ (s.At .head .bindCount → exec .write s = .next (s.movedTo (.line .head .mergeCheck)))
      ∧ (s.At .main .whileChunks →
        exec .write s = .next (s.movedTo
          (if 16 ≤ len.toNat - i.toNat then .line .chunk .w1 else .line .main .ifTail)))
      ∧ (s.At .main .ifTail →
        exec .write s = .next (s.movedTo
          (if 0 < len.toNat - i.toNat then .line .tail .mergeCheck else .line .main .done)))
      ∧ (s.At .head .advance →
        exec .write s = .next ({ s with seq := { s.seq with
          p := some (p + BitVec.ofNat 32 (min (len.toNat - i.toNat) (16 - p.toNat % 16)))
          i := some (i + BitVec.ofNat 32 (min (len.toNat - i.toNat) (16 - p.toNat % 16))) } }.movedTo
            (.line .main .whileChunks)))
      ∧ (s.At .chunk .advance →
        exec .write s = .next ({ s with seq := { s.seq with p := some (p + 16), i := some (i + 16) } }.movedTo
          (.line .main .whileChunks)))
      ∧ (s.At .tail .advance →
        exec .write s = .next ({ s with seq := { s.seq with i := some len } }.movedTo (.line .main .done))))

/-- R243, R244, R245: WRITE's merge reads the containing word, with a fresh or empty buffer, lane by lane, and splices the
input into it. In the tail the cursor is aligned. The lanes of a merge buffer that held no value stay open until their line
(log entry 27). -/
def Obligations.WriteMergesWithTheArray : Prop :=
  ∀ (s : State) (site : Site) (n : Label) (p : Word),
    site = .head ∨ (site = .tail ∧ p.toNat % 16 = 0) → s.seq.p = some p →
    0x10000000 ≤ p.toNat → p.toNat < 0x10080000 → s.flc.op = .none → s.lfbFresh = true →
    (s.At site .mergeCheck → exec .write s = .next (s.movedTo (.line site .m0)))
    ∧ (∀ lk ∈ [(Line.m0, 0), (.m1, 1), (.m2, 2), (.m3, 3)], s.At site lk.1 → Follows .write site lk.1 n →
      ∃ w' : FlashWord, exec .write s = .next (({ s with
          lfb := some ⟨p.toNat - p.toNat % 16, flashLine s.flash (p.toNat - p.toNat % 16)⟩
          seq := { s.seq with
            t := some (flashWordAt s.flash (p.toNat - p.toNat % 16 + 4 * lk.2))
            w := some w' } }.afterFlashRead (BitVec.ofNat 32 (p.toNat - p.toNat % 16 + 4 * lk.2))
            (flashWordAt s.flash (p.toNat - p.toNat % 16 + 4 * lk.2))).movedTo n)
        ∧ w'.extractLsb' (32 * lk.2) 32 = flashWordAt s.flash (p.toNat - p.toNat % 16 + 4 * lk.2)
        ∧ ∀ w k, s.seq.w = some w → k < 4 → k ≠ lk.2 → w'.extractLsb' (32 * k) 32 = w.extractLsb' (32 * k) 32)
    ∧ (∀ (len i : Word) (bs : List Byte) (w : FlashWord), s.seq.opb = some len → s.seq.bufIn = some bs →
      s.seq.i = some i → s.seq.w = some w → s.At site .spliceBytes →
      ∃ w' : FlashWord, exec .write s =
          .next ({ s with seq := { s.seq with w := some w' } }.movedTo (.line site .w1))
        ∧ ∀ j < 16, w'.extractLsb' (8 * j) 8 =
          if p.toNat % 16 ≤ j ∧ j < p.toNat % 16 + (if site = .head then
              min (len.toNat - i.toNat) (16 - p.toNat % 16) else len.toNat - i.toNat)
          then bs.getD (i.toNat + (j - p.toNat % 16)) 0 else w.extractLsb' (8 * j) 8)

/-- R25, R27, R45, R300: the last line of every command that has one: the status is `OK`, the phase Idle. -/
def Obligations.LastLineCompletesWithOk : Prop :=
  ∀ s : State, ∀ i ∈ [Instr.setClkdiv, .iccDisable, .iccEnable, .lfbFlush, .unlock, .lock, .writeWord, .write,
    .erasePage, .read32, .read], s.Runs i .main .done → exec i s = .next s.completed

/-- R275, R276, R278, R303, R308: HALT halts in either posture; an illegal word fails by posture; each position of the halt loop
branches to its label. What is past the last position is open, and there the model stops (its choice, log entry 23). -/
def Obligations.HaltAndIllegalEndTheCommand : Prop :=
  ∀ s : State,
    (s.At .main .haltPanic → exec .halt s = .next { s with seq := { s.seq with
      phase := .halted, step := some (.haltLoop 0), haltCause := some .panic } })
    ∧ (∀ (rsv : BitVec 28) (opc : BitVec 4), s.At .main .failIllegal →
      ∀ i ∈ [Instr.illegal0 rsv, .illegalE rsv, .illegalF rsv, .illegalRsv opc rsv],
        exec i s = .next (s.failed .illegal 4))
    ∧ (∀ (k : Nat) (rest : List Agent), s.seq.phase = .halted → s.seq.step = some (.haltLoop k) →
      s.sched = .seq :: rest → (s.params.seqCodeInRam = true ∨ s.flc.op = .none) →
      (k < s.params.haltBranchCount → step s = .next ({ s with sched := rest }.movedTo (.haltLoop 0)))
      ∧ (¬ k < s.params.haltBranchCount → step s = .fault .strayStep))

/-! ## Whole commands, under the eager schedule of the model (spec/95_test_vectors.md section 0; log entry 7) -/

/-- R191, R201, R225, R226: the guard commands complete with `OK` and change the one field they are for. Beside `SEQ.STATUS`
and the history nothing else changes. -/
def Obligations.GuardCommandsCompleteWithTheirField : Prop :=
  ∀ s : State,
    (s.Launched .iccDisable → ∃ k t, Reaches k s t ∧ SeqDone s t 0 ∧ PortKept s t
      ∧ t.icc = { s.icc with en := false } ∧ t.flc = s.flc
      ∧ t.gcr = s.gcr ∧ t.lfb = s.lfb ∧ t.flash = s.flash ∧ t.plat = s.plat ∧ t.params = s.params)
    ∧ (s.Launched .unlock → ∃ k t, Reaches k s t ∧ SeqDone s t 0 ∧ PortKept s t
      ∧ t.flc = { s.flc with unlock := s.params.unlockKey } ∧ t.icc = s.icc
      ∧ t.gcr = s.gcr ∧ t.lfb = s.lfb ∧ t.flash = s.flash ∧ t.plat = s.plat ∧ t.params = s.params)
    ∧ (s.Launched .lock → ∃ k t, Reaches k s t ∧ SeqDone s t 0 ∧ PortKept s t
      ∧ t.flc = { s.flc with unlock := s.params.lockKey } ∧ t.icc = s.icc
      ∧ t.gcr = s.gcr ∧ t.lfb = s.lfb ∧ t.flash = s.flash ∧ t.plat = s.plat ∧ t.params = s.params)
    ∧ (s.Launched .setClkdiv → ∀ (f : Word) (d : Byte), s.seq.opf = some f → f.toNat = d.toNat * 1000000 → d ≠ 0 →
      ∃ k t, Reaches k s t ∧ SeqDone s t 0 ∧ PortKept s t ∧ t.flc = { s.flc with clkdiv := d } ∧ t.icc = s.icc
        ∧ t.gcr = s.gcr ∧ t.lfb = s.lfb ∧ t.flash = s.flash ∧ t.plat = s.plat ∧ t.params = s.params)

/-- R203, R205, R206, R207: after ICC_ENABLE the cache is enabled, ready and empty; after LFB_FLUSH the buffer holds the second
dummy read's line, fresh, whatever it held before, stale or not, and the cache is empty. The dummy reads reach neither
`SEQ.RESULT` nor `SEQ.BUF_OUT`. -/
def Obligations.CacheCommandsLeaveCacheAndBufferClean : Prop :=
  ∀ s : State,
    (s.Launched .iccEnable → ∃ k t, Reaches k s t ∧ SeqDone s t 0 ∧ PortKept s t
      ∧ t.icc = { en := true, lines := [], busy := false, invPending := false } ∧ t.flc = s.flc ∧ t.gcr = s.gcr
      ∧ t.lfb = s.lfb ∧ t.flash = s.flash ∧ t.plat = s.plat ∧ t.params = s.params)
    ∧ (s.Launched .lfbFlush → ∃ k t, Reaches k s t ∧ SeqDone s t 0 ∧ PortKept s t
      ∧ t.lfb = some ⟨s.params.dummyReadAddr1.toNat - s.params.dummyReadAddr1.toNat % 16,
        flashLine s.flash (s.params.dummyReadAddr1.toNat - s.params.dummyReadAddr1.toNat % 16)⟩
      ∧ t.icc = { s.icc with lines := [] }
      ∧ t.flc = s.flc ∧ t.gcr = s.gcr ∧ t.flash = s.flash ∧ t.plat = s.plat ∧ t.params = s.params)

/-- R270, R271: READ32 returns the array's little-endian word, and READ its bytes in increasing order, from a fresh or empty
buffer. -/
def Obligations.ReadCommandsReturnTheArray : Prop :=
  ∀ (s : State) (a : Word), s.seq.opa = some a → s.lfbFresh = true →
    (s.Launched .read32 → a.toNat % 4 = 0 → 0x10000000 ≤ a.toNat → a.toNat + 4 ≤ 0x10080000 →
      ∃ k t, Reaches k s t ∧ SeqDone s t 0 ∧ t.seq.result = some (flashWordAt s.flash a.toNat)
        ∧ t.seq.bufOut = s.seq.bufOut ∧ t.flash = s.flash ∧ t.flc = s.flc ∧ t.icc = s.icc ∧ t.gcr = s.gcr
        ∧ t.lfbFresh = true)
    ∧ (∀ len : Word, s.Launched .read → s.seq.opb = some len → 0x10000000 ≤ a.toNat → 0 < len.toNat →
      a.toNat + len.toNat ≤ 0x10080000 →
      ∃ k t, Reaches k s t ∧ SeqDone s t 0
        ∧ t.seq.bufOut = some ((List.range len.toNat).map fun j => memRead s.flash (a.toNat + j))
        ∧ t.seq.result = s.seq.result ∧ t.flash = s.flash ∧ t.flc = s.flc ∧ t.icc = s.icc ∧ t.gcr = s.gcr
        ∧ t.lfbFresh = true)

namespace Sys2Proof.Machine

/-- The bus accesses of some registers, at their addresses. -/
def regTrace (m : RegMap) (accesses : List (EventKind × Reg)) : List (EventKind × Word) :=
  accesses.map fun x => (x.1, m.addr x.2)

/-- The envelope's first eight bus accesses: steps 1 to 5 (R224). -/
def envelopeHead (m : RegMap) : List (EventKind × Word) :=
  regTrace m [(.mmioR, .flcCtrl), (.mmioR, .iccCtrl), (.mmioW, .iccCtrl), (.mmioR, .flcIntr), (.mmioW, .flcIntr),
    (.mmioW, .flcClkdiv), (.mmioR, .flcCtrl), (.mmioW, .flcCtrl)]

/-- The envelope's bus accesses after the operation: steps 7 to 10 (R224), each poll satisfied at its first read. -/
def envelopeTail (p : Params) : List (EventKind × Word) :=
  regTrace p.regmap [(.mmioR, .flcCtrl), (.mmioR, .flcCtrl), (.mmioW, .flcCtrl),
      (.mmioR, .gcrSysctrl), (.mmioW, .gcrSysctrl), (.mmioR, .gcrSysctrl)]
    ++ [(.memR, p.dummyReadAddr0), (.memR, p.dummyReadAddr1)]
    ++ regTrace p.regmap [(.mmioR, .iccCtrl), (.mmioW, .iccCtrl), (.mmioW, .iccInvalidate), (.mmioR, .iccCtrl),
      (.mmioR, .iccCtrl), (.mmioW, .iccCtrl), (.mmioR, .iccCtrl)]

/-- The bus accesses of `word_program` (R241). -/
def wordProgramTrace (m : RegMap) : List (EventKind × Word) :=
  regTrace m [(.mmioW, .flcAddr), (.mmioW, .flcData0), (.mmioW, .flcData1), (.mmioW, .flcData2), (.mmioW, .flcData3),
    (.mmioR, .flcCtrl), (.mmioW, .flcCtrl), (.mmioR, .flcCtrl)]

/-- The bus accesses of `erase_op` (R246). -/
def eraseTrace (m : RegMap) : List (EventKind × Word) :=
  regTrace m [(.mmioW, .flcAddr), (.mmioR, .flcCtrl), (.mmioW, .flcCtrl), (.mmioR, .flcCtrl), (.mmioW, .flcCtrl),
    (.mmioR, .flcCtrl)]

/-- A record of the start of a program: a write of `FLC.CTRL` with `WR = 1` (R248). -/
def Event.startsProgram (m : RegMap) : Event → Bool
  | .record .seq .mmioW a v => a == m.addr .flcCtrl && (m.fields .flcCtrl v).getLsbD 0
  | _ => false

end Sys2Proof.Machine

/-- R224, R241, R242, R227: WRITE_WORD completes; each byte of the word is the AND of what it was and of the lane's byte, when
the divisor is right; every other byte is as it was; the Write Guard's postcondition holds; and its bus accesses are the
envelope's, in the envelope's order. -/
def Obligations.WriteWordProgramsOneWord : Prop :=
  ∀ (s : State) (a d0 d1 d2 d3 f : Word) (d : Byte), s.Launched .writeWord → Memory.wf s.flash = true →
    s.seq.opa = some a → s.seq.opd0 = some d0 → s.seq.opd1 = some d1 → s.seq.opd2 = some d2 → s.seq.opd3 = some d3 →
    s.seq.opf = some f → f.toNat = d.toNat * 1000000 → d ≠ 0 →
    a.toNat % 16 = 0 → 0x10000000 ≤ a.toNat → a.toNat + 16 ≤ 0x10080000 →
    ∃ k t new, Reaches k s t ∧ SeqDone s t 0 ∧ GuardDone s t d ∧ Memory.wf t.flash = true
      ∧ PortKept s t ∧ t.flc.addr = a ∧ t.flc.data0 = d0 ∧ t.flc.data1 = d1 ∧ t.flc.data2 = d2 ∧ t.flc.data3 = d3
      ∧ t.flc.eraseCode = s.flc.eraseCode
      ∧ (∀ x, ¬ (a.toNat ≤ x ∧ x < a.toNat + 16) → memRead t.flash x = memRead s.flash x)
      ∧ (divisorRight s.params d → ∀ j < 16, memRead t.flash (a.toNat + j) =
          memRead s.flash (a.toNat + j) &&& (d3 ++ d2 ++ d1 ++ d0 : BitVec 128).extractLsb' (8 * j) 8)
      ∧ t.history = new ++ s.history ∧ busTrace new =
        envelopeHead s.params.regmap ++ wordProgramTrace s.params.regmap ++ envelopeTail s.params

/-- R224, R246, R247, R227: ERASE_PAGE completes; every byte of the page that holds the address is 0xFF, when the divisor is
right; every other byte is as it was; and its bus accesses are the envelope's. -/
def Obligations.ErasePageErasesOnePage : Prop :=
  ∀ (s : State) (a f : Word) (d : Byte), s.Launched .erasePage → Memory.wf s.flash = true →
    s.seq.opa = some a → s.seq.opf = some f → f.toNat = d.toNat * 1000000 → d ≠ 0 →
    0x10000000 ≤ a.toNat → a.toNat < 0x10080000 →
    ∃ k t new, Reaches k s t ∧ SeqDone s t 0 ∧ GuardDone s t d ∧ Memory.wf t.flash = true
      ∧ PortKept s t ∧ t.flc.addr = a ∧ t.flc.data0 = s.flc.data0 ∧ t.flc.data1 = s.flc.data1
      ∧ t.flc.data2 = s.flc.data2 ∧ t.flc.data3 = s.flc.data3 ∧ t.flc.eraseCode = s.params.pageEraseCode
      ∧ (∀ x, ¬ (a.toNat - a.toNat % 0x2000 ≤ x ∧ x < a.toNat - a.toNat % 0x2000 + 0x2000) →
          memRead t.flash x = memRead s.flash x)
      ∧ (divisorRight s.params d → ∀ x, a.toNat - a.toNat % 0x2000 ≤ x → x < a.toNat - a.toNat % 0x2000 + 0x2000 →
          memRead t.flash x = 0xFF)
      ∧ t.history = new ++ s.history ∧ busTrace new =
        envelopeHead s.params.regmap ++ eraseTrace s.params.regmap ++ envelopeTail s.params

/-- R244, R248, R249: WRITE, of any length at any address, completes; every byte outside the words it touches is as it was; when
the divisor is right, so is every byte outside its range, and each byte of its range is the AND of what it was and of the byte
given; the Write Guard's postcondition holds; and as many programs started as the range touches words. -/
def Obligations.WriteProgramsItsRange : Prop :=
  ∀ (s : State) (a len f : Word) (bs : List Byte) (d : Byte), s.Launched .write → Memory.wf s.flash = true →
    s.lfbFresh = true → s.seq.opa = some a → s.seq.opb = some len → s.seq.bufIn = some bs → bs.length = len.toNat →
    s.seq.opf = some f → f.toNat = d.toNat * 1000000 → d ≠ 0 →
    0x10000000 ≤ a.toNat → 0 < len.toNat → a.toNat + len.toNat ≤ 0x10080000 →
    ∃ k t new, Reaches k s t ∧ SeqDone s t 0 ∧ GuardDone s t d ∧ Memory.wf t.flash = true
      ∧ PortKept s t ∧ t.flc.eraseCode = s.flc.eraseCode
      ∧ (∀ x, ¬ (a.toNat - a.toNat % 16 ≤ x ∧ x < (a.toNat + len.toNat + 15) / 16 * 16) →
          memRead t.flash x = memRead s.flash x)
      ∧ (divisorRight s.params d →
        (∀ x, ¬ (a.toNat ≤ x ∧ x < a.toNat + len.toNat) → memRead t.flash x = memRead s.flash x)
        ∧ ∀ j < len.toNat, memRead t.flash (a.toNat + j) = memRead s.flash (a.toNat + j) &&& bs.getD j 0)
      ∧ t.history = new ++ s.history
      ∧ new.countP (Event.startsProgram s.params.regmap) = ((a.toNat + len.toNat + 15) / 16 - a.toNat / 16)

/-! ## HOST (spec/60_exceptions.md section 8, spec/70_reset_and_hazards.md) -/

/-- R330: what a write of `SEQ.CMD` does, for a legal word and for an illegal one alike (R103, R308; log entry 13); the writes of
the operands. -/
def Obligations.IssueStartsTheCommand : Prop :=
  ∀ (s : State) (v : Word),
    (s.plat.ramLoaded = false → hostStep exec (.issue v) s = .fault .notLoaded)
    ∧ (s.plat.ramLoaded = true → s.plat.handleOwned = false → hostStep exec (.issue v) s = .fault .noHandle)
    ∧ (s.plat.ramLoaded = true → s.plat.handleOwned = true →
      ∃ l : Label, (programOf (decodeCmd v)).head? = some l
        ∧ hostStep exec (.issue v) s = .next { s with
            seq := { s.seq with cmd := some v, phase := .busy, step := some l }
            history := .cmdStart v :: s.history })
    ∧ hostStep exec (.setOperand .opa v) s = .next { s with seq := { s.seq with opa := some v } }
    ∧ hostStep exec (.setOperand .opb v) s = .next { s with seq := { s.seq with opb := some v } }
    ∧ hostStep exec (.setOperand .opf v) s = .next { s with seq := { s.seq with opf := some v } }
    ∧ hostStep exec (.setOperand .opd0 v) s = .next { s with seq := { s.seq with opd0 := some v } }
    ∧ hostStep exec (.setOperand .opd1 v) s = .next { s with seq := { s.seq with opd1 := some v } }
    ∧ hostStep exec (.setOperand .opd2 v) s = .next { s with seq := { s.seq with opd2 := some v } }
    ∧ hostStep exec (.setOperand .opd3 v) s = .next { s with seq := { s.seq with opd3 := some v } }
    ∧ ∀ bs, hostStep exec (.setBufIn bs) s = .next { s with seq := { s.seq with bufIn := some bs } }

/-- R335, R344, R345, R346: the boot steps. LoadRam may fill the buffer (which line is a free value, log entry 12), and leaves
it fresh where it was fresh or empty and no operation is in flight. -/
def Obligations.BootStepsSetThePlatform : Prop :=
  ∀ s : State,
    hostStep exec .powerOnFlc s = .next { s with plat := { s.plat with flcClockOn := true } }
    ∧ (∃ lfb n, hostStep exec .loadRam s = .next { s with
          plat := { s.plat with ramLoaded := true }, lfb := lfb, draws := n }
        ∧ (s.lfbFresh = true → s.flc.op = .none → ∀ l, lfb = some l → l.data = flashLine s.flash l.base))
    ∧ (s.plat.flcClockOn = false → hostStep exec .createHandle s = .fault .clockDomainOff)
    ∧ (s.plat.flcClockOn = true → s.plat.handleOwned = true → hostStep exec .createHandle s = .fault .secondHandle)
    ∧ (s.plat.flcClockOn = true → s.plat.handleOwned = false →
      hostStep exec .createHandle s = .next { s with plat := { s.plat with handleOwned := true } })

/-- R333, R340, R342, R343, R44: a reset at the head of HOST's steps goes before everything else whatever the phase, once the
schedule is used up (log entry 7); it leaves every entry of R44 that has a stated value at it, keeps the history and records the
reset, and leaves every byte of the array outside the target of an operation in flight. -/
def Obligations.ResetLeavesTheStatedValues : Prop :=
  ∀ (s : State) (q : List HostStep), s.hostQueue = .reset :: q → s.sched = [] → Memory.wf s.flash = true →
    ∃ t, step s = .next t ∧ t.hostQueue = q
      ∧ t.seq = { phase := .idle, step := none, cmd := none, opa := none, opb := none, opf := none
                  opd0 := none, opd1 := none, opd2 := none, opd3 := none, bufIn := none, bufOut := none
                  result := none, status := none, div := none, w := none, p := none, i := none, t := none
                  haltCause := none }
      ∧ t.plat = { flcClockOn := false, ramLoaded := false, handleOwned := false }
      ∧ t.flc.op = .none ∧ t.icc.busy = false ∧ t.icc.invPending = false ∧ t.icc.lines = [] ∧ t.gcr.busy = false
      ∧ t.lfb = none ∧ t.history = .reset :: s.history ∧ t.params = s.params ∧ Memory.wf t.flash = true
      ∧ (s.flc.op = .none → t.flash = s.flash)
      ∧ (∀ a d ok, s.flc.op = .program a d ok → ∀ x, ¬ (a.toNat ≤ x ∧ x < a.toNat + 16) →
          memRead t.flash x = memRead s.flash x)
      ∧ (∀ p ok, s.flc.op = .erasePage p ok → ∀ x, ¬ (p ≤ x ∧ x < p + 0x2000) →
          memRead t.flash x = memRead s.flash x)

/-- R164: HOST's instruction fetch from the flash window, with a fresh or empty buffer where it reads the array. The cache
keeps what it reads at the address rounded down to a multiple of `ICC_LINE` (R38, R9). -/
def Obligations.FetchGoesThroughTheCache : Prop :=
  ∀ (s : State) (a : Word) (la : Nat), 0x10000000 ≤ a.toNat → a.toNat < 0x10080000 →
    a.toNat - a.toNat % s.params.iccLine = la →
    (s.flc.op ≠ .none → hostStep exec (.fetch a) s = .fault .fetchDuringFlashOp)
    ∧ (s.flc.op = .none → s.icc.en = true → s.icc.busy = true →
      hostStep exec (.fetch a) s = .next { s with hostQueue := .fetch a :: s.hostQueue })
    ∧ (s.flc.op = .none → s.icc.en = true → s.icc.busy = false →
      (∀ d, linesFind s.icc.lines la = some d →
        hostStep exec (.fetch a) s = .next { s with hostSeen := .line d })
      ∧ (linesFind s.icc.lines la = none → s.lfbFresh = true →
        ∃ ls, hostStep exec (.fetch a) s = .next { s with
            lfb := some ⟨la, flashLine s.flash la⟩
            icc := { s.icc with lines := ls }
            hostSeen := .line (flashLine s.flash la) }
          ∧ ∀ x, linesFind ls x = if x = la then some (flashLine s.flash la) else linesFind s.icc.lines x))
    ∧ (s.flc.op = .none → s.icc.en = false → s.lfbFresh = true →
      hostStep exec (.fetch a) s = .next { s with
        lfb := some ⟨la, flashLine s.flash la⟩
        hostSeen := .line (flashLine s.flash la) })

/-- R26, R104: a line of a command that reads an operand HOST never wrote faults, before it has any effect (log entry 2), and so
does HOST's read of a port register that holds no value; a read of one that holds a value returns it. A command's lines read
nothing but its operands: with those that R104 lists for it, none of its lines lacks one. -/
def Obligations.UnwrittenRegistersFault : Prop :=
  ∀ s : State,
    (∀ i site l, s.seq.step = some (.line site l) → Label.line site l ∈ programOf i →
      (lineOperandsHeld i site l s.seq = false → exec i s = .fault .unwrittenRegister)
      ∧ (operandsHeld i s.seq = true → lineOperandsHeld i site l s.seq = true))
    ∧ (∀ pr ∈ [(Port.cmd, s.seq.cmd), (.opa, s.seq.opa), (.opb, s.seq.opb), (.opf, s.seq.opf), (.opd0, s.seq.opd0),
        (.opd1, s.seq.opd1), (.opd2, s.seq.opd2), (.opd3, s.seq.opd3), (.result, s.seq.result),
        (.status, s.seq.status)],
      (pr.2 = none → hostStep exec (.readPort pr.1) s = .fault .unwrittenRegister)
      ∧ (∀ v, pr.2 = some v → hostStep exec (.readPort pr.1) s = .next { s with hostSeen := .word v }))
    ∧ (s.seq.bufOut = none → hostStep exec .readBufOut s = .fault .unwrittenRegister)
    ∧ (∀ bs, s.seq.bufOut = some bs → hostStep exec .readBufOut s = .next { s with hostSeen := .bytes bs })

/-! ## Encoding (spec/30_encoding.md, spec/opcode_table.json) -/

/-- Words written out from the encoding of R101, R110, R121 decode to what they stand for. -/
def Obligations.WrittenWordsDecode : Prop :=
  decode .cmd [0x08, 0x00, 0x00, 0x00] = .ok (.writeWord, [])
    ∧ decode .cmd [0x18, 0x00, 0x00, 0x00] = .ok (.illegalRsv 0x8 1, [])
    ∧ decode .cmd [0x00, 0x00, 0x00, 0x00] = .ok (.illegal0 0, [])
    ∧ decode (.mmio .r) [0x08, 0x90, 0x02, 0x40] = .ok (.flcRCtrl, [])
    ∧ decode (.mmio .w) [0x00, 0xA7, 0x02, 0x40, 0x01, 0x00, 0x00, 0x00] = .ok (.iccWInvalidate 1, [])
    ∧ decode (.mem .r .word) [0x04, 0x00, 0x00, 0x10] = .ok (.flashR32 0x10000004, [])

/-- R100, R101, R109: on a machine with any well-formed map, decoding the bytes of a well-formed instruction, where it arrives, gives
it back, with the bytes that follow it. And a bus word keeps every field (log entry 6): fields and bus words of a register correspond
one to one, are the same where the map keeps the default layout, and one exchange moves just its two bits. -/
def Obligations.DecodingUndoesEncoding : Prop :=
  (∀ (m : RegMap) (i : Instr) (rest : List Byte), m.wf = true → i.wf = true →
      decodeWith m i.arrival (encodeWith m i ++ rest) = .ok (i, rest))
    ∧ ∀ (m : RegMap) (r : Reg) (w : Word), m.fields r (m.bus r w) = w ∧ m.bus r (m.fields r w) = w
      ∧ (m.layout r = [] → m.bus r w = w)
      ∧ ∀ (i j : Fin 32), m.layout r = [(i, j)] → ∀ k : Nat,
        (m.bus r w).getLsbD k = w.getLsbD (if k = i then j else if k = j then i else k)

/-- R100, R103, R109: on a machine with any map, what decodes is well formed, and its encoding is the bytes it was decoded from; so
no two byte sequences at one arrival decode to one instruction. -/
def Obligations.EncodingUndoesDecoding : Prop :=
  ∀ (m : RegMap) (arr : Arrival) (bs : List Byte) (i : Instr) (rest : List Byte),
    decodeWith m arr bs = .ok (i, rest) → i.wf = true ∧ i.arrival = arr ∧ encodeWith m i ++ rest = bs

/-- R102, R103, R121: the thirteen command words, and every other word at `SEQ.CMD` is illegal. -/
def Obligations.EveryOtherWordIsIllegal : Prop :=
  ∀ w : Word,
    (decodeCmd w = .checkBounds ↔ w = 0x00000001)
    ∧ (decodeCmd w = .setClkdiv ↔ w = 0x00000002)
    ∧ (decodeCmd w = .iccDisable ↔ w = 0x00000003)
    ∧ (decodeCmd w = .iccEnable ↔ w = 0x00000004)
    ∧ (decodeCmd w = .lfbFlush ↔ w = 0x00000005)
    ∧ (decodeCmd w = .unlock ↔ w = 0x00000006)
    ∧ (decodeCmd w = .lock ↔ w = 0x00000007)
    ∧ (decodeCmd w = .writeWord ↔ w = 0x00000008)
    ∧ (decodeCmd w = .write ↔ w = 0x00000009)
    ∧ (decodeCmd w = .erasePage ↔ w = 0x0000000A)
    ∧ (decodeCmd w = .read32 ↔ w = 0x0000000B)
    ∧ (decodeCmd w = .read ↔ w = 0x0000000C)
    ∧ (decodeCmd w = .halt ↔ w = 0x0000000D)
    ∧ (¬ (1 ≤ w.toNat ∧ w.toNat ≤ 13) → ∃ rsv opc,
      decodeCmd w ∈ [Instr.illegal0 rsv, .illegalE rsv, .illegalF rsv, .illegalRsv opc rsv])

/-! ## Invariants of every step -/

/-- R44, R347, R348: the state after reset has a legal shape, and it is one that the flow of a command allows. -/
def Obligations.ResetIsLegalAndInTheFlow : Prop := State.reset.Legal ∧ State.reset.Flow

/-- Every step keeps the legal shape: the array in canonical form and inside its window (R41), legal targets in flight (R35),
lines of the buffer and the cache that are flash lines (R38, R40), parameters that meet what the rules say of them (log entry 4), the
step counter where the phase has it (R20, R21). -/
def Obligations.StepsKeepTheLegalShape : Prop :=
  ∀ s t : State, s.Legal → step s = .next t → t.Legal

/-- Every step keeps the flow of a command, whatever the schedule, while HOST keeps to duty 4 of R334: R224, R227, R228, R250,
R307, R350, R351, R356 at every line. -/
def Obligations.StepsKeepTheFlow : Prop :=
  ∀ s t : State, s.Flow → step s = .next t → t.Flow

/-- R228, R250, R348, R351: after any number of steps, Idle means that nothing is in flight, that the buffer is empty or fresh,
and that an enabled cache is fresh. -/
def Obligations.IdleIsQuietAndFresh : Prop :=
  ∀ (s t : State) (k : Nat), s.Flow → Reaches k s t →
    (t.seq.phase = .idle → t.flc.op = .none ∧ t.icc.busy = false ∧ t.icc.invPending = false ∧ t.gcr.busy = false
      ∧ t.lfbFresh = true)
    ∧ (t.icc.en = true → t.linesFresh = true)

/-- R227, R307: where the last poll of an envelope goes on, the Write Guard's postcondition holds. -/
def Obligations.EnvelopeEndsReadyLockedAndClean : Prop :=
  ∀ (s t : State) (site : Site), s.Flow → site ≠ .main → s.At site .e7 → step s = .next t → t.seq.phase = .busy →
    t.seq.step ≠ s.seq.step →
    t.flc.op = .none ∧ t.flc.unlock = s.params.lockKey ∧ t.flc.af = false ∧ t.icc.en = true ∧ t.icc.busy = false
      ∧ t.icc.lines = [] ∧ t.icc.invPending = false ∧ t.lfbFresh = true ∧ t.seq.div = some t.flc.clkdiv

/-- R279, R313, R314: no run without a reset leaves Halted, and the sequencer and its port keep what they held, but for the
position in the halt loop. -/
def Obligations.HaltedIsLeftOnlyByReset : Prop :=
  ∀ (s t : State) (k : Nat), s.seq.phase = .halted → resetPending s = false → Reaches k s t →
    t.seq = { s.seq with step := t.seq.step } ∧ t.hostQueue = s.hostQueue ∧ t.plat = s.plat ∧ t.lfb = s.lfb

/-- R41: a step changes the array only where it ends an operation that was in flight, by its completion or by a reset. -/
def Obligations.OnlyAnEndingOperationChangesFlash : Prop :=
  ∀ s t : State, step s = .next t → t.flash = s.flash ∨ (s.flc.op ≠ .none ∧ t.flc.op = .none)

/-- R83, R147, R148: a step starts an operation only with the key in the lock, and with a target that is one aligned word, or
one page, of the array. -/
def Obligations.OperationsStartUnlockedAndInRange : Prop :=
  ∀ s t : State, step s = .next t → s.flc.op = .none → t.flc.op ≠ .none →
    s.flc.unlock = s.params.unlockKey ∧ s.plat.flcClockOn = true ∧ t.flash = s.flash
      ∧ (∀ a d ok, t.flc.op = .program a d ok → a.toNat % 16 = 0 ∧ 0x10000000 ≤ a.toNat ∧ a.toNat + 16 ≤ 0x10080000)
      ∧ (∀ p ok, t.flc.op = .erasePage p ok → s.flc.eraseCode = s.params.pageEraseCode ∧ p % 0x2000 = 0 ∧ 0x10000000 ≤ p
        ∧ p + 0x2000 ≤ 0x10080000)

/-! ## HOST's moves -/

/-- R330, R331, R333, R164: HOST takes its next step while SEQ is Idle, where the schedule names it, and where the schedule is
used up and no engine is at work (log entries 7 and 8). While SEQ is not Idle HOST takes no step but a reset, and a fetch that
must wait for ICCE is no step, wherever its address lies (outside the flash window this is the model's choice, log entry 19). -/
def Obligations.HostMovesOnlyWhileIdleOrToReset : Prop :=
  ∀ (s : State) (h : HostStep) (q : List HostStep), s.hostQueue = h :: q →
    (∀ rest, s.sched = .host :: rest →
      (h = .reset ∨ (s.seq.phase = .idle
        ∧ ∀ a, h = .fetch a → ¬ (s.flc.op = .none ∧ s.icc.en = true ∧ s.icc.busy = true))) →
      step s = hostStep exec h { s with sched := rest, hostQueue := q })
    ∧ (s.sched = [] → s.seq.phase = .idle → s.flc.op = .none → s.icc.busy = false → s.gcr.busy = false →
      step s = hostStep exec h { s with hostQueue := q })
    ∧ ((s.seq.phase ≠ .idle ∧ h ≠ .reset)
        ∨ (∃ a, h = .fetch a ∧ s.flc.op = .none ∧ s.icc.en = true ∧ s.icc.busy = true) →
      ∀ t, step s = .next t → t.hostQueue = s.hostQueue ∧ t.hostSeen = s.hostSeen ∧ t.plat = s.plat
        ∧ t.seq.cmd = s.seq.cmd ∧ t.seq.opa = s.seq.opa ∧ t.seq.opb = s.seq.opb ∧ t.seq.opf = s.seq.opf
        ∧ t.seq.opd0 = s.seq.opd0 ∧ t.seq.opd1 = s.seq.opd1 ∧ t.seq.opd2 = s.seq.opd2 ∧ t.seq.opd3 = s.seq.opd3
        ∧ t.seq.bufIn = s.seq.bufIn)
end

