-- ==== Sys2Proof/Laws/Bits.lean ====
section
/-! SUPPORT. Lemmas of the byte order and of the lanes of a flash word. -/

namespace Sys2Proof.Machine

@[simp] theorem wordByte_le32_zero (b0 b1 b2 b3 : Byte) : wordByte (le32 b0 b1 b2 b3) 0 = b0 := by
  ext i hi; interval_cases i <;> simp [wordByte, le32]

@[simp] theorem wordByte_le32_one (b0 b1 b2 b3 : Byte) : wordByte (le32 b0 b1 b2 b3) 1 = b1 := by
  ext i hi; interval_cases i <;> simp [wordByte, le32]

@[simp] theorem wordByte_le32_two (b0 b1 b2 b3 : Byte) : wordByte (le32 b0 b1 b2 b3) 2 = b2 := by
  ext i hi; interval_cases i <;> simp [wordByte, le32]

@[simp] theorem wordByte_le32_three (b0 b1 b2 b3 : Byte) : wordByte (le32 b0 b1 b2 b3) 3 = b3 := by
  ext i hi; interval_cases i <;> simp [wordByte, le32]

@[simp] theorem le32_wordBytes (v : Word) :
    le32 (wordByte v 0) (wordByte v 1) (wordByte v 2) (wordByte v 3) = v := by
  ext i hi; interval_cases i <;> simp [wordByte, le32]

@[simp] theorem flashLane_ofLanes_zero (l0 l1 l2 l3 : Word) : flashLane (ofLanes l0 l1 l2 l3) 0 = l0 := by
  ext i hi; interval_cases i <;> simp [flashLane, ofLanes]

@[simp] theorem flashLane_ofLanes_one (l0 l1 l2 l3 : Word) : flashLane (ofLanes l0 l1 l2 l3) 1 = l1 := by
  ext i hi; interval_cases i <;> simp [flashLane, ofLanes]

@[simp] theorem flashLane_ofLanes_two (l0 l1 l2 l3 : Word) : flashLane (ofLanes l0 l1 l2 l3) 2 = l2 := by
  ext i hi; interval_cases i <;> simp [flashLane, ofLanes]

@[simp] theorem flashLane_ofLanes_three (l0 l1 l2 l3 : Word) :
    flashLane (ofLanes l0 l1 l2 l3) 3 = l3 := by
  ext i hi; interval_cases i <;> simp [flashLane, ofLanes]

/-- A byte of a lane is a byte of the flash word. -/
theorem wordByte_flashLane (d : FlashWord) (k j : Nat) (hj : j < 4) :
    wordByte (flashLane d k) j = flashByte d (4 * k + j) := by
  ext i hi
  have h : 8 * j + i < 32 := by omega
  simp [wordByte, flashLane, flashByte, h, show 32 * k + (8 * j + i) = 8 * (4 * k + j) + i by omega]

/-- The word at the byte offset of a lane is the lane. -/
theorem wordAtOffset_eq_flashLane (d : FlashWord) (k : Nat) : wordAtOffset d (4 * k) = flashLane d k := by
  have h := le32_wordBytes (flashLane d k)
  rw [wordByte_flashLane d k 0 (by omega), wordByte_flashLane d k 1 (by omega),
    wordByte_flashLane d k 2 (by omega), wordByte_flashLane d k 3 (by omega)] at h
  exact h

/-- Byte `j` of a flash word built from its bytes. -/
theorem flashByte_ofBytes (f : Nat → Byte) (j : Nat) (hj : j < 16) : flashByte (ofBytes f) j = f j := by
  obtain ⟨k, m, hm, hk, rfl⟩ : ∃ k m, m < 4 ∧ k < 4 ∧ j = 4 * k + m :=
    ⟨j / 4, j % 4, by omega, by omega, by omega⟩
  rw [← wordByte_flashLane _ _ _ hm]
  interval_cases k <;> interval_cases m <;> simp [ofBytes]

/-- A flash word is its bytes. -/
theorem ofBytes_flashByte (d : FlashWord) : ofBytes (flashByte d) = d := by
  apply BitVec.eq_of_getLsbD_eq
  intro i hi
  have h := flashByte_ofBytes (flashByte d) (i / 8) (by omega)
  have h' := congrArg (fun b : Byte => b.getLsbD (i % 8)) h
  have hm : i % 8 < 8 := Nat.mod_lt _ (by omega)
  simpa [flashByte, hm, Nat.div_add_mod] using h'

/-- Two flash words with the same sixteen bytes are equal. -/
theorem flashWord_ext (d e : FlashWord) (h : ∀ j, j < 16 → flashByte d j = flashByte e j) : d = e := by
  have hb : ∀ f g : Nat → Byte, (∀ j, j < 16 → f j = g j) → ofBytes f = ofBytes g := by
    intro f g hfg
    simp [ofBytes, hfg]
  rw [← ofBytes_flashByte d, ← ofBytes_flashByte e]
  exact hb _ _ h

/-! ## Words as their parts, the most significant first -/

theorem setWidth_eq_append (d : Byte) : d.setWidth 32 = (0#24 ++ d : Word) := by
  apply BitVec.eq_of_getLsbD_eq
  intro i hi
  simp only [BitVec.getLsbD_append]
  interval_cases i <;> simp

theorem le32_eq_append (a b c d : Byte) : le32 a b c d = (d ++ c ++ b ++ a : Word) := by
  apply BitVec.eq_of_getLsbD_eq
  intro i hi
  simp only [BitVec.getLsbD_append]
  interval_cases i <;> simp [le32]

theorem ofLanes_eq_append (a b c d : Word) : ofLanes a b c d = (d ++ c ++ b ++ a : FlashWord) := by
  apply BitVec.eq_of_getLsbD_eq
  intro i hi
  simp only [ofLanes, BitVec.getLsbD_append, BitVec.getLsbD_or, BitVec.getLsbD_shiftLeft, BitVec.getLsbD_setWidth,
    hi, decide_true, Bool.true_and]
  have z : ∀ (w : Word) j, 32 ≤ j → w.getLsbD j = false := fun w j h => BitVec.getLsbD_of_ge w j h
  rw [show i - 32 - 32 - 32 = i - 96 by omega, show i - 32 - 32 = i - 64 by omega]
  by_cases h1 : i < 32
  · simp [h1, show i < 64 by omega, show i < 96 by omega]
  · by_cases h2 : i < 64
    · simp [h1, h2, show i < 96 by omega, show i - 32 < 32 by omega, z a i (by omega), show i - 32 < 128 by omega]
    · by_cases h3 : i < 96
      · simp [h1, h2, h3, show ¬ i - 32 < 32 by omega, show i - 64 < 32 by omega, z a i (by omega),
          z b (i - 32) (by omega), show i - 64 < 128 by omega]
      · simp [h1, h2, h3, show ¬ i - 32 < 32 by omega, show ¬ i - 64 < 32 by omega, z a i (by omega),
          z b (i - 32) (by omega), z c (i - 64) (by omega), show i - 96 < 128 by omega]

end Sys2Proof.Machine
end

