-- ==== Sys2Proof/Laws/Flags.lean ====
section
/-! SUPPORT. Lemmas of the register layouts: the fields of a value that a register reads as, and of a value with one field
replaced. -/

namespace Sys2Proof.Machine

/-! ## The fields of what `FLC.CTRL` reads as -/

@[simp] theorem ctrlUnlock_ctrlWord (f : Flc) : ctrlUnlock (ctrlWord f) = f.unlock := by
  ext i hi; interval_cases i <;> simp [ctrlUnlock, ctrlWord, fieldAt, bitAt]

@[simp] theorem ctrlEraseCode_ctrlWord (f : Flc) : ctrlEraseCode (ctrlWord f) = f.eraseCode := by
  ext i hi; interval_cases i <;> simp [ctrlEraseCode, ctrlWord, fieldAt, bitAt]

@[simp] theorem ctrlWr_ctrlWord (f : Flc) : ctrlWr (ctrlWord f) = f.wr := by
  simp [ctrlWr, ctrlWord, fieldAt, bitAt]

@[simp] theorem ctrlMe_ctrlWord (f : Flc) : ctrlMe (ctrlWord f) = false := by
  simp [ctrlMe, ctrlWord, fieldAt, bitAt]

@[simp] theorem ctrlPge_ctrlWord (f : Flc) : ctrlPge (ctrlWord f) = f.pge := by
  simp [ctrlPge, ctrlWord, fieldAt, bitAt]

@[simp] theorem ctrlPend_ctrlWord (f : Flc) : ctrlPend (ctrlWord f) = f.pend := by
  simp [ctrlPend, ctrlWord, fieldAt, bitAt]

@[simp] theorem ctrlLve_ctrlWord (f : Flc) : ctrlLve (ctrlWord f) = f.lve := by
  simp [ctrlLve, ctrlWord, fieldAt, bitAt]

/-! ## `T with UNLOCK := k` -/

@[simp] theorem ctrlUnlock_withUnlock (t : Word) (k : BitVec 4) : ctrlUnlock (withUnlock t k) = k := by
  ext i hi; interval_cases i <;> simp [ctrlUnlock, withUnlock, fieldAt]

@[simp] theorem ctrlEraseCode_withUnlock (t : Word) (k : BitVec 4) :
    ctrlEraseCode (withUnlock t k) = ctrlEraseCode t := by
  ext i hi; interval_cases i <;> simp [ctrlEraseCode, withUnlock, fieldAt]

@[simp] theorem ctrlWr_withUnlock (t : Word) (k : BitVec 4) : ctrlWr (withUnlock t k) = ctrlWr t := by
  simp [ctrlWr, withUnlock, fieldAt]

@[simp] theorem ctrlMe_withUnlock (t : Word) (k : BitVec 4) : ctrlMe (withUnlock t k) = ctrlMe t := by
  simp [ctrlMe, withUnlock, fieldAt]

@[simp] theorem ctrlPge_withUnlock (t : Word) (k : BitVec 4) : ctrlPge (withUnlock t k) = ctrlPge t := by
  simp [ctrlPge, withUnlock, fieldAt]

@[simp] theorem ctrlLve_withUnlock (t : Word) (k : BitVec 4) : ctrlLve (withUnlock t k) = ctrlLve t := by
  simp [ctrlLve, withUnlock, fieldAt]

/-! ## `T with ERASE_CODE := c` -/

@[simp] theorem ctrlUnlock_withEraseCode (t : Word) (c : Byte) :
    ctrlUnlock (withEraseCode t c) = ctrlUnlock t := by
  ext i hi; interval_cases i <;> simp [ctrlUnlock, withEraseCode, fieldAt]

@[simp] theorem ctrlEraseCode_withEraseCode (t : Word) (c : Byte) :
    ctrlEraseCode (withEraseCode t c) = c := by
  ext i hi; interval_cases i <;> simp [ctrlEraseCode, withEraseCode, fieldAt]

@[simp] theorem ctrlWr_withEraseCode (t : Word) (c : Byte) : ctrlWr (withEraseCode t c) = ctrlWr t := by
  simp [ctrlWr, withEraseCode, fieldAt]

@[simp] theorem ctrlMe_withEraseCode (t : Word) (c : Byte) : ctrlMe (withEraseCode t c) = ctrlMe t := by
  simp [ctrlMe, withEraseCode, fieldAt]

@[simp] theorem ctrlPge_withEraseCode (t : Word) (c : Byte) :
    ctrlPge (withEraseCode t c) = ctrlPge t := by
  simp [ctrlPge, withEraseCode, fieldAt]

@[simp] theorem ctrlLve_withEraseCode (t : Word) (c : Byte) :
    ctrlLve (withEraseCode t c) = ctrlLve t := by
  simp [ctrlLve, withEraseCode, fieldAt]

/-! ## `T with WR := 1` and `T with PGE := 1` -/

@[simp] theorem ctrlUnlock_withWr (t : Word) : ctrlUnlock (withWr t) = ctrlUnlock t := by
  ext i hi; interval_cases i <;> simp [ctrlUnlock, withWr, fieldAt, bitAt]

@[simp] theorem ctrlEraseCode_withWr (t : Word) : ctrlEraseCode (withWr t) = ctrlEraseCode t := by
  ext i hi; interval_cases i <;> simp [ctrlEraseCode, withWr, fieldAt, bitAt]

@[simp] theorem ctrlWr_withWr (t : Word) : ctrlWr (withWr t) = true := by
  simp [ctrlWr, withWr, fieldAt, bitAt]

@[simp] theorem ctrlMe_withWr (t : Word) : ctrlMe (withWr t) = ctrlMe t := by
  simp [ctrlMe, withWr, fieldAt, bitAt]

@[simp] theorem ctrlPge_withWr (t : Word) : ctrlPge (withWr t) = ctrlPge t := by
  simp [ctrlPge, withWr, fieldAt, bitAt]

@[simp] theorem ctrlLve_withWr (t : Word) : ctrlLve (withWr t) = ctrlLve t := by
  simp [ctrlLve, withWr, fieldAt, bitAt]

@[simp] theorem ctrlUnlock_withPge (t : Word) : ctrlUnlock (withPge t) = ctrlUnlock t := by
  ext i hi; interval_cases i <;> simp [ctrlUnlock, withPge, fieldAt, bitAt]

@[simp] theorem ctrlEraseCode_withPge (t : Word) : ctrlEraseCode (withPge t) = ctrlEraseCode t := by
  ext i hi; interval_cases i <;> simp [ctrlEraseCode, withPge, fieldAt, bitAt]

@[simp] theorem ctrlWr_withPge (t : Word) : ctrlWr (withPge t) = ctrlWr t := by
  simp [ctrlWr, withPge, fieldAt, bitAt]

@[simp] theorem ctrlMe_withPge (t : Word) : ctrlMe (withPge t) = ctrlMe t := by
  simp [ctrlMe, withPge, fieldAt, bitAt]

@[simp] theorem ctrlPge_withPge (t : Word) : ctrlPge (withPge t) = true := by
  simp [ctrlPge, withPge, fieldAt, bitAt]

@[simp] theorem ctrlLve_withPge (t : Word) : ctrlLve (withPge t) = ctrlLve t := by
  simp [ctrlLve, withPge, fieldAt, bitAt]

/-! ## `FLC.INTR` -/

@[simp] theorem intrDone_intrWord (f : Flc) : intrDone (intrWord f) = f.done := by
  simp [intrDone, intrWord, fieldAt, bitAt]

@[simp] theorem intrAf_intrWord (f : Flc) : intrAf (intrWord f) = f.af := by
  simp [intrAf, intrWord, fieldAt, bitAt]

@[simp] theorem intrDoneIe_intrWord (f : Flc) : intrDoneIe (intrWord f) = false := by
  simp [intrDoneIe, intrWord, fieldAt, bitAt]

@[simp] theorem intrAfIe_intrWord (f : Flc) : intrAfIe (intrWord f) = false := by
  simp [intrAfIe, intrWord, fieldAt, bitAt]

@[simp] theorem intrDone_withAfClear (t : Word) : intrDone (withAfClear t) = intrDone t := by
  simp [intrDone, withAfClear]

@[simp] theorem intrAf_withAfClear (t : Word) : intrAf (withAfClear t) = false := by
  simp [intrAf, withAfClear]

@[simp] theorem intrDoneIe_withAfClear (t : Word) : intrDoneIe (withAfClear t) = intrDoneIe t := by
  simp [intrDoneIe, withAfClear]

@[simp] theorem intrAfIe_withAfClear (t : Word) : intrAfIe (withAfClear t) = intrAfIe t := by
  simp [intrAfIe, withAfClear]

/-! ## `FLC.CLKDIV`, `ICC.CTRL`, `GCR.SYSCTRL` -/

@[simp] theorem clkdivField_clkdivWord (f : Flc) : clkdivField (clkdivWord f) = f.clkdiv := by
  ext i hi; interval_cases i <;> simp [clkdivField, clkdivWord, fieldAt]

@[simp] theorem clkdivField_setWidth (d : Byte) : clkdivField (d.setWidth 32) = d := by
  ext i hi; interval_cases i <;> simp [clkdivField]

@[simp] theorem iccEn_iccWord (c : Icc) : iccEn (iccWord c) = c.en := by
  simp [iccEn, iccWord, fieldAt, bitAt]

@[simp] theorem iccRdy_iccWord (c : Icc) : iccRdy (iccWord c) = c.rdy := by
  simp [iccRdy, iccWord, fieldAt, bitAt]

@[simp] theorem iccEn_withEn (t : Word) (b : Bool) : iccEn (withEn t b) = b := by
  simp [iccEn, withEn, fieldAt, bitAt]

@[simp] theorem sysctrlFlush_sysctrlWord (g : Gcr) : sysctrlFlush (sysctrlWord g) = g.busy := by
  simp [sysctrlFlush, sysctrlWord, fieldAt, bitAt]

@[simp] theorem sysctrlOther_sysctrlWord (g : Gcr) : sysctrlOther (sysctrlWord g) = g.other := by
  ext i hi; interval_cases i <;> simp [sysctrlOther, sysctrlWord, fieldAt, bitAt]

@[simp] theorem sysctrlFlush_withFlush (t : Word) : sysctrlFlush (withFlush t) = true := by
  simp [sysctrlFlush, withFlush, fieldAt, bitAt]

@[simp] theorem sysctrlOther_withFlush (t : Word) : sysctrlOther (withFlush t) = sysctrlOther t := by
  ext i hi; interval_cases i <;> simp [sysctrlOther, withFlush, fieldAt, bitAt]

/-! ## The derived bits -/

/-- `PEND` is 0 exactly when no operation is in flight (R35). -/
theorem pend_eq_false_iff (f : Flc) : f.pend = false ↔ f.op = .none := by
  cases h : f.op <;> simp [Flc.pend, FlceOp.inFlight, h]

theorem wr_false_of_none (f : Flc) (h : f.op = .none) : f.wr = false := by simp [Flc.wr, h]

theorem pge_false_of_none (f : Flc) (h : f.op = .none) : f.pge = false := by simp [Flc.pge, h]

/-! ## The layouts as one word, the most significant field first (R111 to R115) -/

theorem ctrlWord_eq_append (f : Flc) :
    ctrlWord f = (f.unlock ++ 0#2 ++ BitVec.ofBool f.lve ++ BitVec.ofBool f.pend ++ 0#8 ++ f.eraseCode ++ 0#5
      ++ BitVec.ofBool f.pge ++ 0#1 ++ BitVec.ofBool f.wr : Word) := by
  apply BitVec.eq_of_getLsbD_eq
  intro i hi
  simp only [BitVec.getLsbD_append]
  interval_cases i <;> simp [ctrlWord, fieldAt, bitAt]

theorem intrWord_eq_append (f : Flc) :
    intrWord f = (0#30 ++ BitVec.ofBool f.af ++ BitVec.ofBool f.done : Word) := by
  apply BitVec.eq_of_getLsbD_eq
  intro i hi
  simp only [BitVec.getLsbD_append]
  interval_cases i <;> simp [intrWord, fieldAt, bitAt]

theorem iccWord_eq_append (c : Icc) :
    iccWord c = (0#15 ++ BitVec.ofBool (!c.busy) ++ 0#15 ++ BitVec.ofBool c.en : Word) := by
  apply BitVec.eq_of_getLsbD_eq
  intro i hi
  simp only [BitVec.getLsbD_append]
  interval_cases i <;> simp [iccWord, Icc.rdy, fieldAt, bitAt]

theorem sysctrlWord_eq_append (g : Gcr) :
    sysctrlWord g = (g.other.extractLsb' 6 25 ++ BitVec.ofBool g.busy ++ g.other.extractLsb' 0 6 : Word) := by
  apply BitVec.eq_of_getLsbD_eq
  intro i hi
  simp only [BitVec.getLsbD_append]
  interval_cases i <;> simp [sysctrlWord, fieldAt, bitAt]

theorem sysctrlOther_eq_append (v : Word) :
    sysctrlOther v = (v.extractLsb' 7 25 ++ v.extractLsb' 0 6 : BitVec 31) := by
  apply BitVec.eq_of_getLsbD_eq
  intro i hi
  simp only [BitVec.getLsbD_append]
  interval_cases i <;> simp [sysctrlOther]

end Sys2Proof.Machine
end

