-- ==== Sys2Proof/Laws/Memory.lean ====
section
/-! SUPPORT. The laws of the flash array: what a read gives after each write, and that every write keeps the canonical form. -/

namespace Sys2Proof.Machine

/-! ## Reading one byte after a change -/

@[simp] theorem memRead_nil (a : Nat) : memRead [] a = unlistedByte := rfl

theorem memRead_memCons (k : Nat) (b : Byte) (m : Memory) (a : Nat) (h : k = a → b = unlistedByte → memRead m a = unlistedByte) :
    memRead (memCons k b m) a = if k = a then b else memRead m a := by
  unfold memCons
  split
  · next hb =>
    split
    · next hk => rw [h hk hb, hb]
    · rfl
  · rfl

/-- Every listed address is above `k`. -/
def Memory.above (k : Nat) (m : Memory) : Prop := ∀ c ∈ m, k < c.1

theorem memRead_of_above (m : Memory) (k a : Nat) (h : Memory.above k m) (ha : a ≤ k) :
    memRead m a = unlistedByte := by
  induction m with
  | nil => rfl
  | cons c m ih =>
    have hc : k < c.1 := h c (by simp)
    obtain ⟨k', b⟩ := c
    have hne : k' ≠ a := by simp at hc; omega
    simp only [memRead, hne, if_false]
    exact ih (fun c' hc' => h c' (by simp [hc']))

/-- The canonical form, as a statement about the first entry and the rest. -/
theorem wf_cons (k : Nat) (b : Byte) (m : Memory) :
    Memory.wf ((k, b) :: m) = true ↔ b ≠ unlistedByte ∧ Memory.above k m ∧ Memory.wf m = true := by
  induction m generalizing k b with
  | nil => simp [Memory.wf, Memory.above]
  | cons c m ih =>
    obtain ⟨k', b'⟩ := c
    have ih' := ih k' b'
    simp only [Memory.wf, Memory.above, Bool.and_eq_true, bne_iff_ne, decide_eq_true_eq] at *
    constructor
    · rintro ⟨⟨hb, hk⟩, hm⟩
      refine ⟨hb, ?_, hm⟩
      intro c hc
      rcases List.mem_cons.mp hc with rfl | hc
      · exact hk
      · exact lt_trans hk ((ih'.mp hm).2.1 c hc)
    · rintro ⟨hb, ha, hm⟩
      exact ⟨⟨hb, ha (k', b') (by simp)⟩, hm⟩

@[simp] theorem wf_nil : Memory.wf [] = true := rfl

/-- A byte written reads back, and every other byte reads as before. -/
theorem memRead_memWrite (m : Memory) (hm : Memory.wf m = true) (k : Nat) (b : Byte) (a : Nat) :
    memRead (memWrite m k b) a = if k = a then b else memRead m a := by
  induction m with
  | nil =>
    simp only [memWrite]
    exact memRead_memCons k b [] a (fun _ _ => rfl)
  | cons c m ih =>
    obtain ⟨k', b'⟩ := c
    obtain ⟨-, ha, hw⟩ := (wf_cons k' b' m).mp hm
    have ih := ih hw
    simp only [memWrite]
    split
    · next hlt =>
      refine memRead_memCons k b _ a (fun hk _ => ?_)
      subst hk
      have : k' ≠ k := by omega
      simp only [memRead, this, if_false]
      exact memRead_of_above m k' k ha (by omega)
    · split
      · next hge heq =>
        subst heq
        rw [memRead_memCons k b m a (fun hk _ => by subst hk; exact memRead_of_above m k k ha (le_refl _))]
        simp only [memRead]
        split <;> rfl
      · next hge hne =>
        simp only [memRead, ih]
        split
        · next h =>
          subst h
          have : k ≠ k' := by omega
          simp [this]
        · rfl

theorem above_memCons (j k : Nat) (b : Byte) (m : Memory) (hj : j < k) (h : Memory.above j m) :
    Memory.above j (memCons k b m) := by
  unfold memCons
  split
  · exact h
  · intro c hc
    rcases List.mem_cons.mp hc with rfl | hc
    · exact hj
    · exact h c hc

theorem above_memWrite (j : Nat) (m : Memory) (k : Nat) (b : Byte) (hj : j < k) (h : Memory.above j m) :
    Memory.above j (memWrite m k b) := by
  induction m with
  | nil => exact above_memCons j k b [] hj h
  | cons c m ih =>
    obtain ⟨k', b'⟩ := c
    have htail : Memory.above j m := fun c hc => h c (by simp [hc])
    simp only [memWrite]
    split
    · exact above_memCons j k b _ hj h
    · split
      · exact above_memCons j k b m hj htail
      · intro c hc
        rcases List.mem_cons.mp hc with rfl | hc
        · exact h (k', b') (by simp)
        · exact ih htail c hc

theorem wf_memCons (k : Nat) (b : Byte) (m : Memory) (hm : Memory.wf m = true) (h : Memory.above k m) :
    Memory.wf (memCons k b m) = true := by
  unfold memCons
  split
  · exact hm
  · next hb => exact (wf_cons k b m).mpr ⟨hb, h, hm⟩

/-- A write keeps the canonical form. -/
theorem wf_memWrite (m : Memory) (hm : Memory.wf m = true) (k : Nat) (b : Byte) :
    Memory.wf (memWrite m k b) = true := by
  induction m with
  | nil => exact wf_memCons k b [] rfl (fun c hc => by simp at hc)
  | cons c m ih =>
    obtain ⟨k', b'⟩ := c
    obtain ⟨hb, ha, hw⟩ := (wf_cons k' b' m).mp hm
    simp only [memWrite]
    split
    · next hlt =>
      refine wf_memCons k b _ hm (fun c hc => ?_)
      rcases List.mem_cons.mp hc with rfl | hc
      · exact hlt
      · exact lt_trans hlt (ha c hc)
    · split
      · next heq => subst heq; exact wf_memCons k b m hw ha
      · next hge hne =>
        exact (wf_cons k' b' _).mpr ⟨hb, above_memWrite k' m k b (by omega) ha, ih hw⟩

theorem wf_memFill (m : Memory) (hm : Memory.wf m = true) (a n : Nat) (f : Nat → Byte) :
    Memory.wf (memFill m a n f) = true := by
  induction n with
  | zero => exact hm
  | succ n ih => exact wf_memWrite _ ih _ _

/-- A fill sets its range and leaves every other byte alone. -/
theorem memRead_memFill (m : Memory) (hm : Memory.wf m = true) (a n : Nat) (f : Nat → Byte) (x : Nat) :
    memRead (memFill m a n f) x = if a ≤ x ∧ x < a + n then f (x - a) else memRead m x := by
  induction n with
  | zero =>
    simp [memFill]
  | succ n ih =>
    simp only [memFill]
    rw [memRead_memWrite _ (wf_memFill m hm a n f), ih]
    by_cases h : a + n = x
    · subst h
      have : a ≤ a + n ∧ a + n < a + (n + 1) := by omega
      simp
    · have h' : (a ≤ x ∧ x < a + (n + 1)) ↔ (a ≤ x ∧ x < a + n) := by omega
      simp only [h, if_false, h']

theorem above_memErase (j : Nat) (m : Memory) (a n : Nat) (h : Memory.above j m) :
    Memory.above j (memErase m a n) :=
  fun c hc => h c (List.mem_of_mem_filter hc)

theorem wf_memErase (m : Memory) (hm : Memory.wf m = true) (a n : Nat) :
    Memory.wf (memErase m a n) = true := by
  induction m with
  | nil => rfl
  | cons c m ih =>
    obtain ⟨k, b⟩ := c
    obtain ⟨hb, ha, hw⟩ := (wf_cons k b m).mp hm
    have e : memErase ((k, b) :: m) a n =
        if !(decide (a ≤ k) && decide (k < a + n)) then (k, b) :: memErase m a n else memErase m a n := by
      simp [memErase, List.filter_cons]
    rw [e]
    split
    · exact (wf_cons k b _).mpr ⟨hb, above_memErase k m a n ha, ih hw⟩
    · exact ih hw

/-- An erase sets its range to erased bytes and leaves every other byte alone. -/
theorem memRead_memErase (m : Memory) (a n x : Nat) :
    memRead (memErase m a n) x = if a ≤ x ∧ x < a + n then unlistedByte else memRead m x := by
  induction m with
  | nil => simp [memErase]
  | cons c m ih =>
    obtain ⟨k, b⟩ := c
    have e : memErase ((k, b) :: m) a n =
        if !(decide (a ≤ k) && decide (k < a + n)) then (k, b) :: memErase m a n else memErase m a n := by
      simp [memErase, List.filter_cons]
    rw [e]
    by_cases hk : a ≤ k ∧ k < a + n
    · have : (!(decide (a ≤ k) && decide (k < a + n))) = false := by simp; omega
      rw [this]
      simp only [Bool.false_eq_true, if_false, ih, memRead]
      by_cases hx : a ≤ x ∧ x < a + n
      · simp [hx]
      · have : k ≠ x := fun h => hx (h ▸ hk)
        simp [hx, this]
    · have : (!(decide (a ≤ k) && decide (k < a + n))) = true := by
        simp; omega
      rw [this]
      simp only [if_true, memRead, ih]
      by_cases hx : k = x
      · subst hx; simp [hk]
      · simp [hx]

/-! ## Equal contents are equal data -/

/-- Two arrays in canonical form that read alike everywhere are the same list. -/
theorem memory_ext (m m' : Memory) (hm : Memory.wf m = true) (hm' : Memory.wf m' = true)
    (h : ∀ a, memRead m a = memRead m' a) : m = m' := by
  induction m generalizing m' with
  | nil =>
    cases m' with
    | nil => rfl
    | cons c m' =>
      obtain ⟨k, b⟩ := c
      have := h k
      simp only [memRead, if_true] at this
      exact absurd this.symm ((wf_cons k b m').mp hm').1
  | cons c m ih =>
    obtain ⟨k, b⟩ := c
    obtain ⟨hb, ha, hw⟩ := (wf_cons k b m).mp hm
    cases m' with
    | nil =>
      have := h k
      simp only [memRead, if_true] at this
      exact absurd this hb
    | cons c' m' =>
      obtain ⟨k', b'⟩ := c'
      obtain ⟨hb', ha', hw'⟩ := (wf_cons k' b' m').mp hm'
      have hk : k = k' := by
        by_contra hne
        rcases lt_or_gt_of_ne hne with hlt | hgt
        · have h1 := h k
          have : k' ≠ k := by omega
          simp only [memRead, if_true, this, if_false] at h1
          exact hb (h1.trans (memRead_of_above m' k' k ha' (by omega)))
        · have h1 := h k'
          have : k ≠ k' := by omega
          simp only [memRead, if_true, this, if_false] at h1
          exact hb' (h1.symm.trans (memRead_of_above m k k' ha (by omega)))
      subst hk
      have hbb : b = b' := by simpa [memRead] using h k
      subst hbb
      have hrest : m = m' := by
        refine ih m' hw hw' (fun a => ?_)
        by_cases hka : k = a
        · subst hka
          rw [memRead_of_above m k k ha le_rfl, memRead_of_above m' k k ha' le_rfl]
        · simpa [memRead, hka] using h a
      rw [hrest]

/-! ## Where entries stand -/

/-- Every listed address lies in `[lo, hi)`. -/
def Memory.within (lo hi : Nat) (m : Memory) : Prop := ∀ c ∈ m, lo ≤ c.1 ∧ c.1 < hi

theorem within_memWrite (lo hi : Nat) (m : Memory) (k : Nat) (b : Byte) (hk : lo ≤ k ∧ k < hi)
    (h : Memory.within lo hi m) : Memory.within lo hi (memWrite m k b) := by
  have hcons : ∀ m', Memory.within lo hi m' → Memory.within lo hi (memCons k b m') := by
    intro m' hm' c hc
    unfold memCons at hc
    split at hc
    · exact hm' c hc
    · rcases List.mem_cons.mp hc with rfl | hc
      · exact hk
      · exact hm' c hc
  induction m with
  | nil => exact hcons [] h
  | cons c m ih =>
    obtain ⟨k', b'⟩ := c
    have htail : Memory.within lo hi m := fun c hc => h c (by simp [hc])
    simp only [memWrite]
    split
    · exact hcons _ h
    · split
      · exact hcons _ htail
      · intro c hc
        rcases List.mem_cons.mp hc with rfl | hc
        · exact h (k', b') (by simp)
        · exact ih htail c hc

theorem within_memFill (lo hi : Nat) (m : Memory) (a n : Nat) (f : Nat → Byte) (ha : lo ≤ a ∧ a + n ≤ hi)
    (h : Memory.within lo hi m) : Memory.within lo hi (memFill m a n f) := by
  induction n with
  | zero => exact h
  | succ n ih => exact within_memWrite _ _ _ _ _ (by omega) (ih (by omega))

theorem within_memErase (lo hi : Nat) (m : Memory) (a n : Nat) (h : Memory.within lo hi m) :
    Memory.within lo hi (memErase m a n) :=
  fun c hc => h c (List.mem_of_mem_filter hc)

/-! ## Lines of the array -/

/-- Byte `j` of the line at `la`. -/
@[simp] theorem flashByte_flashLine (m : Memory) (la j : Nat) (hj : j < 16) :
    flashByte (flashLine m la) j = memRead m (la + j) := flashByte_ofBytes _ _ hj

/-- Arrays that read alike over sixteen bytes have the same line there. -/
theorem flashLine_congr (m m' : Memory) (la : Nat) (h : ∀ j, j < 16 → memRead m (la + j) = memRead m' (la + j)) :
    flashLine m la = flashLine m' la := by
  apply flashWord_ext
  intro j hj
  simp [hj, h j hj]

end Sys2Proof.Machine
end

