-- ==== Sys2Proof/Laws/RegMap.lean ====
section
/-! SUPPORT. Lemmas of the address map: the fields of a register and its bus word correspond one to one, and what a well-formed map
says of each register. -/

namespace Sys2Proof

open Sys2Proof.Machine

/-! ## Field positions -/

/-- Exchanging two bits twice changes nothing. -/
theorem Machine.swapBits_swapBits (i j : Fin 32) (w : Word) : swapBits i j (swapBits i j w) = w := by
  by_cases h : w.getLsbD i = w.getLsbD j
  · have e : swapBits i j w = w := if_pos h
    rw [e, e]
  · have hij : (i : Nat) ≠ j := fun e => h (by rw [e])
    have h' : ¬ (w ^^^ BitVec.twoPow 32 i ^^^ BitVec.twoPow 32 j).getLsbD i
        = (w ^^^ BitVec.twoPow 32 i ^^^ BitVec.twoPow 32 j).getLsbD j := by
      revert h
      simp only [BitVec.getLsbD_xor, BitVec.getLsbD_twoPow, hij, Ne.symm hij, i.isLt, j.isLt, decide_true, decide_false,
        Bool.and_true, Bool.and_false]
      generalize w.getLsbD i = x
      generalize w.getLsbD j = y
      cases x <;> cases y <;> simp
    rw [swapBits, swapBits, if_neg h, if_neg h']
    simp only [BitVec.xor_assoc]
    rw [← BitVec.xor_assoc (BitVec.twoPow 32 j), BitVec.xor_comm (BitVec.twoPow 32 j)]
    simp

theorem Machine.ofBusBits_toBusBits (l : Layout) (w : Word) : ofBusBits l (toBusBits l w) = w := by
  induction l generalizing w with
  | nil => rfl
  | cons p l ih =>
    change swapBits p.1 p.2 (ofBusBits l (toBusBits l (swapBits p.1 p.2 w))) = w
    rw [ih, swapBits_swapBits]

theorem Machine.toBusBits_ofBusBits (l : Layout) (v : Word) : toBusBits l (ofBusBits l v) = v := by
  induction l with
  | nil => rfl
  | cons p l ih =>
    change toBusBits l (swapBits p.1 p.2 (swapBits p.1 p.2 (ofBusBits l v))) = v
    rw [swapBits_swapBits, ih]

/-- The fields of a bus word made from fields are those fields. -/
@[simp] theorem RegMap.fields_bus (m : RegMap) (r : Reg) (w : Word) : m.fields r (m.bus r w) = w :=
  ofBusBits_toBusBits _ w

/-- Every bus word is the bus word of its fields. -/
@[simp] theorem RegMap.bus_fields (m : RegMap) (r : Reg) (v : Word) : m.bus r (m.fields r v) = v :=
  toBusBits_ofBusBits _ v

/-! ## A well-formed map -/

theorem Config.mem_allRegs (r : Reg) : r ∈ Config.allRegs := by cases r <;> decide

/-- What a well-formed map says of one register (R110, R117). -/
theorem RegMap.wf_reg {m : RegMap} (h : m.wf = true) (r : Reg) :
    (m.addr r).toNat % 4 = 0 ∧ m.regAt (m.addr r) = some r ∧ m.inRegBlock (m.addr r) = true
      ∧ m.inFlcBlock (m.addr r) = r.isFlc := by
  have := List.all_eq_true.mp h r (Config.mem_allRegs r)
  simpa [and_assoc] using this

/-- A register that the map lists at an address has that address. -/
theorem RegMap.addr_of_regAt {m : RegMap} {a : Word} {r : Reg} (h : m.regAt a = some r) : m.addr r = a := by
  simpa using List.find?_some h

/-- An address where the map lists no register is no register's own. -/
theorem RegMap.regAt_eq_none_iff (m : RegMap) (a : Word) : m.regAt a = none ↔ ∀ r, m.addr r ≠ a := by
  simp only [regAt, List.find?_eq_none, beq_iff_eq]
  exact ⟨fun h r => h r (Config.mem_allRegs r), fun h r _ => h r⟩

/-- The default map is well formed. -/
theorem Config.regmap_wf : Config.regmap.wf = true := by decide

end Sys2Proof
end

