-- ==== Sys2Proof/Laws/State.lean ====
section
/-! SUPPORT. What each named update does to each field of the state. -/

namespace Sys2Proof.Machine

/-! ## `State.log` -/

@[simp] theorem log_params (s : State) (e : Event) : (s.log e).params = s.params := rfl
@[simp] theorem log_seq (s : State) (e : Event) : (s.log e).seq = s.seq := rfl
@[simp] theorem log_flc (s : State) (e : Event) : (s.log e).flc = s.flc := rfl
@[simp] theorem log_icc (s : State) (e : Event) : (s.log e).icc = s.icc := rfl
@[simp] theorem log_gcr (s : State) (e : Event) : (s.log e).gcr = s.gcr := rfl
@[simp] theorem log_lfb (s : State) (e : Event) : (s.log e).lfb = s.lfb := rfl
@[simp] theorem log_flash (s : State) (e : Event) : (s.log e).flash = s.flash := rfl
@[simp] theorem log_plat (s : State) (e : Event) : (s.log e).plat = s.plat := rfl
@[simp] theorem log_history (s : State) (e : Event) : (s.log e).history = e :: s.history := rfl
@[simp] theorem log_hostQueue (s : State) (e : Event) : (s.log e).hostQueue = s.hostQueue := rfl
@[simp] theorem log_sched (s : State) (e : Event) : (s.log e).sched = s.sched := rfl
@[simp] theorem log_draws (s : State) (e : Event) : (s.log e).draws = s.draws := rfl
@[simp] theorem log_hostSeen (s : State) (e : Event) : (s.log e).hostSeen = s.hostSeen := rfl

/-! ## `goTo` -/

@[simp] theorem goTo_params (l : Label) (s : State) : (goTo l s).params = s.params := rfl
@[simp] theorem goTo_seq (l : Label) (s : State) : (goTo l s).seq = { s.seq with step := some l } := rfl
@[simp] theorem goTo_flc (l : Label) (s : State) : (goTo l s).flc = s.flc := rfl
@[simp] theorem goTo_icc (l : Label) (s : State) : (goTo l s).icc = s.icc := rfl
@[simp] theorem goTo_gcr (l : Label) (s : State) : (goTo l s).gcr = s.gcr := rfl
@[simp] theorem goTo_lfb (l : Label) (s : State) : (goTo l s).lfb = s.lfb := rfl
@[simp] theorem goTo_flash (l : Label) (s : State) : (goTo l s).flash = s.flash := rfl
@[simp] theorem goTo_plat (l : Label) (s : State) : (goTo l s).plat = s.plat := rfl
@[simp] theorem goTo_history (l : Label) (s : State) : (goTo l s).history = s.history := rfl
@[simp] theorem goTo_hostQueue (l : Label) (s : State) : (goTo l s).hostQueue = s.hostQueue := rfl
@[simp] theorem goTo_sched (l : Label) (s : State) : (goTo l s).sched = s.sched := rfl
@[simp] theorem goTo_draws (l : Label) (s : State) : (goTo l s).draws = s.draws := rfl
@[simp] theorem goTo_hostSeen (l : Label) (s : State) : (goTo l s).hostSeen = s.hostSeen := rfl

/-! ## `setT` -/

@[simp] theorem setT_params (v : Word) (s : State) : (setT v s).params = s.params := rfl
@[simp] theorem setT_seq (v : Word) (s : State) : (setT v s).seq = { s.seq with t := some v } := rfl
@[simp] theorem setT_flc (v : Word) (s : State) : (setT v s).flc = s.flc := rfl
@[simp] theorem setT_icc (v : Word) (s : State) : (setT v s).icc = s.icc := rfl
@[simp] theorem setT_gcr (v : Word) (s : State) : (setT v s).gcr = s.gcr := rfl
@[simp] theorem setT_lfb (v : Word) (s : State) : (setT v s).lfb = s.lfb := rfl
@[simp] theorem setT_flash (v : Word) (s : State) : (setT v s).flash = s.flash := rfl
@[simp] theorem setT_plat (v : Word) (s : State) : (setT v s).plat = s.plat := rfl
@[simp] theorem setT_history (v : Word) (s : State) : (setT v s).history = s.history := rfl
@[simp] theorem setT_hostQueue (v : Word) (s : State) : (setT v s).hostQueue = s.hostQueue := rfl
@[simp] theorem setT_sched (v : Word) (s : State) : (setT v s).sched = s.sched := rfl
@[simp] theorem setT_draws (v : Word) (s : State) : (setT v s).draws = s.draws := rfl
@[simp] theorem setT_hostSeen (v : Word) (s : State) : (setT v s).hostSeen = s.hostSeen := rfl

/-! ## `seeWord` -/

@[simp] theorem seeWord_params (v : Word) (s : State) : (seeWord v s).params = s.params := rfl
@[simp] theorem seeWord_seq (v : Word) (s : State) : (seeWord v s).seq = s.seq := rfl
@[simp] theorem seeWord_flc (v : Word) (s : State) : (seeWord v s).flc = s.flc := rfl
@[simp] theorem seeWord_icc (v : Word) (s : State) : (seeWord v s).icc = s.icc := rfl
@[simp] theorem seeWord_gcr (v : Word) (s : State) : (seeWord v s).gcr = s.gcr := rfl
@[simp] theorem seeWord_lfb (v : Word) (s : State) : (seeWord v s).lfb = s.lfb := rfl
@[simp] theorem seeWord_flash (v : Word) (s : State) : (seeWord v s).flash = s.flash := rfl
@[simp] theorem seeWord_plat (v : Word) (s : State) : (seeWord v s).plat = s.plat := rfl
@[simp] theorem seeWord_history (v : Word) (s : State) : (seeWord v s).history = s.history := rfl
@[simp] theorem seeWord_hostQueue (v : Word) (s : State) : (seeWord v s).hostQueue = s.hostQueue := rfl
@[simp] theorem seeWord_sched (v : Word) (s : State) : (seeWord v s).sched = s.sched := rfl
@[simp] theorem seeWord_draws (v : Word) (s : State) : (seeWord v s).draws = s.draws := rfl
@[simp] theorem seeWord_hostSeen (v : Word) (s : State) : (seeWord v s).hostSeen = .word v := rfl

/-! ## `setStatus` -/

@[simp] theorem setStatus_params (code : Code) (s : State) : (setStatus code s).params = s.params := rfl
@[simp] theorem setStatus_seq (code : Code) (s : State) :
    (setStatus code s).seq = { s.seq with status := some code.toWord } := rfl
@[simp] theorem setStatus_flc (code : Code) (s : State) : (setStatus code s).flc = s.flc := rfl
@[simp] theorem setStatus_icc (code : Code) (s : State) : (setStatus code s).icc = s.icc := rfl
@[simp] theorem setStatus_gcr (code : Code) (s : State) : (setStatus code s).gcr = s.gcr := rfl
@[simp] theorem setStatus_lfb (code : Code) (s : State) : (setStatus code s).lfb = s.lfb := rfl
@[simp] theorem setStatus_flash (code : Code) (s : State) : (setStatus code s).flash = s.flash := rfl
@[simp] theorem setStatus_plat (code : Code) (s : State) : (setStatus code s).plat = s.plat := rfl
@[simp] theorem setStatus_history (code : Code) (s : State) : (setStatus code s).history = s.history := rfl
@[simp] theorem setStatus_hostQueue (code : Code) (s : State) :
    (setStatus code s).hostQueue = s.hostQueue := rfl
@[simp] theorem setStatus_sched (code : Code) (s : State) : (setStatus code s).sched = s.sched := rfl
@[simp] theorem setStatus_draws (code : Code) (s : State) : (setStatus code s).draws = s.draws := rfl
@[simp] theorem setStatus_hostSeen (code : Code) (s : State) : (setStatus code s).hostSeen = s.hostSeen := rfl

/-! ## `goIdle` -/

@[simp] theorem goIdle_params (s : State) : (goIdle s).params = s.params := rfl
@[simp] theorem goIdle_seq (s : State) :
    (goIdle s).seq = { s.seq with phase := .idle, step := none, div := none, w := none, p := none, i := none, t := none } := rfl
@[simp] theorem goIdle_flc (s : State) : (goIdle s).flc = s.flc := rfl
@[simp] theorem goIdle_icc (s : State) : (goIdle s).icc = s.icc := rfl
@[simp] theorem goIdle_gcr (s : State) : (goIdle s).gcr = s.gcr := rfl
@[simp] theorem goIdle_lfb (s : State) : (goIdle s).lfb = s.lfb := rfl
@[simp] theorem goIdle_flash (s : State) : (goIdle s).flash = s.flash := rfl
@[simp] theorem goIdle_plat (s : State) : (goIdle s).plat = s.plat := rfl
@[simp] theorem goIdle_history (s : State) :
    (goIdle s).history = .cmdEnd (s.seq.cmd.getD 0) :: s.history := rfl
@[simp] theorem goIdle_hostQueue (s : State) : (goIdle s).hostQueue = s.hostQueue := rfl
@[simp] theorem goIdle_sched (s : State) : (goIdle s).sched = s.sched := rfl
@[simp] theorem goIdle_draws (s : State) : (goIdle s).draws = s.draws := rfl
@[simp] theorem goIdle_hostSeen (s : State) : (goIdle s).hostSeen = s.hostSeen := rfl

/-! ## `endCommand` -/

@[simp] theorem endCommand_params (code : Code) (s : State) : (endCommand code s).params = s.params := rfl
@[simp] theorem endCommand_seq (code : Code) (s : State) :
    (endCommand code s).seq = { s.seq with
      phase := .idle, step := none, status := some code.toWord, div := none, w := none, p := none, i := none, t := none } := rfl
@[simp] theorem endCommand_flc (code : Code) (s : State) : (endCommand code s).flc = s.flc := rfl
@[simp] theorem endCommand_icc (code : Code) (s : State) : (endCommand code s).icc = s.icc := rfl
@[simp] theorem endCommand_gcr (code : Code) (s : State) : (endCommand code s).gcr = s.gcr := rfl
@[simp] theorem endCommand_lfb (code : Code) (s : State) : (endCommand code s).lfb = s.lfb := rfl
@[simp] theorem endCommand_flash (code : Code) (s : State) : (endCommand code s).flash = s.flash := rfl
@[simp] theorem endCommand_plat (code : Code) (s : State) : (endCommand code s).plat = s.plat := rfl
@[simp] theorem endCommand_history (code : Code) (s : State) :
    (endCommand code s).history = .cmdEnd (s.seq.cmd.getD 0) :: s.history := rfl
@[simp] theorem endCommand_hostQueue (code : Code) (s : State) :
    (endCommand code s).hostQueue = s.hostQueue := rfl
@[simp] theorem endCommand_sched (code : Code) (s : State) : (endCommand code s).sched = s.sched := rfl
@[simp] theorem endCommand_draws (code : Code) (s : State) : (endCommand code s).draws = s.draws := rfl
@[simp] theorem endCommand_hostSeen (code : Code) (s : State) :
    (endCommand code s).hostSeen = s.hostSeen := rfl

/-! ## `haltWith` -/

@[simp] theorem haltWith_params (cause : HaltCause) (s : State) : (haltWith cause s).params = s.params := rfl
@[simp] theorem haltWith_seq (cause : HaltCause) (s : State) :
    (haltWith cause s).seq = { s.seq with haltCause := some cause, phase := .halted, step := some (.haltLoop 0) } := rfl
@[simp] theorem haltWith_flc (cause : HaltCause) (s : State) : (haltWith cause s).flc = s.flc := rfl
@[simp] theorem haltWith_icc (cause : HaltCause) (s : State) : (haltWith cause s).icc = s.icc := rfl
@[simp] theorem haltWith_gcr (cause : HaltCause) (s : State) : (haltWith cause s).gcr = s.gcr := rfl
@[simp] theorem haltWith_lfb (cause : HaltCause) (s : State) : (haltWith cause s).lfb = s.lfb := rfl
@[simp] theorem haltWith_flash (cause : HaltCause) (s : State) : (haltWith cause s).flash = s.flash := rfl
@[simp] theorem haltWith_plat (cause : HaltCause) (s : State) : (haltWith cause s).plat = s.plat := rfl
@[simp] theorem haltWith_history (cause : HaltCause) (s : State) :
    (haltWith cause s).history = s.history := rfl
@[simp] theorem haltWith_hostQueue (cause : HaltCause) (s : State) :
    (haltWith cause s).hostQueue = s.hostQueue := rfl
@[simp] theorem haltWith_sched (cause : HaltCause) (s : State) : (haltWith cause s).sched = s.sched := rfl
@[simp] theorem haltWith_draws (cause : HaltCause) (s : State) : (haltWith cause s).draws = s.draws := rfl
@[simp] theorem haltWith_hostSeen (cause : HaltCause) (s : State) :
    (haltWith cause s).hostSeen = s.hostSeen := rfl

end Sys2Proof.Machine
end

