-- ==== Sys2Proof/Laws/Ops.lean ====
section
/-! SUPPORT. What each shared operation can do: one lemma for each, which later proofs cite instead of unfolding it. -/

namespace Sys2Proof.Machine

/-! ## Sequencing -/

@[simp] theorem andThen_next {α β : Type} (a : α) (f : α → Res β) : andThen (.next a) f = f a := rfl
@[simp] theorem andThen_fault {α β : Type} (r : Fault) (f : α → Res β) :
    andThen (.fault r) f = .fault r := rfl
@[simp] theorem andThen_refused {α β : Type} (r : Refusal) (f : α → Res β) :
    andThen (.refused r) f = .refused r := rfl

/-- A sequence goes on only through a first value. -/
theorem andThen_eq_next {α β : Type} (x : Res α) (f : α → Res β) (b : β) :
    andThen x f = .next b ↔ ∃ a, x = .next a ∧ f a = .next b := by
  cases x <;> simp

@[simp] theorem need_some {α β : Type} (a : α) (f : α → Res β) : need (some a) f = f a := rfl
@[simp] theorem need_none {α β : Type} (f : α → Res β) : need none f = .fault .unwrittenRegister := rfl
@[simp] theorem needWork_some {α β : Type} (a : α) (f : α → Res β) : needWork (some a) f = f a := rfl
@[simp] theorem needWork_none {α β : Type} (f : α → Res β) : needWork none f = .fault .strayStep := rfl

theorem need_eq_next {α β : Type} (x : Option α) (f : α → Res β) (b : β) :
    need x f = .next b ↔ ∃ a, x = some a ∧ f a = .next b := by
  cases x <;> simp

theorem needWork_eq_next {α β : Type} (x : Option α) (f : α → Res β) (b : β) :
    needWork x f = .next b ↔ ∃ a, x = some a ∧ f a = .next b := by
  cases x <;> simp

/-! ## Register accesses -/

theorem whenClocked_of_clock {α : Type} (r : Reg) (s : State) (x : Res α)
    (h : r.isFlc = true → s.plat.flcClockOn = true) : whenClocked r s x = x := by
  unfold whenClocked
  cases hr : r.isFlc <;> simp_all

/-- An access that goes on has its clock domain on. -/
theorem whenClocked_next {α : Type} (r : Reg) (s : State) (x : Res α) (a : α) (h : whenClocked r s x = .next a) :
    (r.isFlc = true → s.plat.flcClockOn = true) ∧ x = .next a := by
  unfold whenClocked at h
  split at h
  · simp at h
  · next hc => exact ⟨fun hr => by simpa [hr] using hc, h⟩

/-- The checks of R140 at a register's own address: only the clock domain can stop the access. -/
theorem mmioCheck_addr (r : Reg) (s : State) (hm : s.params.regmap.wf = true) :
    mmioCheck (s.params.regmap.addr r) s = whenClocked r s (.next r) := by
  obtain ⟨ha, hr, -, hf⟩ := RegMap.wf_reg hm r
  simp [mmioCheck, whenClocked, ha, hr, hf]

@[simp] theorem fields_busRead (r : Reg) (s : State) : s.params.regmap.fields r (busRead r s) = readReg r s :=
  RegMap.fields_bus _ _ _

/-- A register read with the clock domain on: the value, and the access recorded. -/
theorem mmioRead_of_clock (r : Reg) (s : State) (h : r.isFlc = true → s.plat.flcClockOn = true) :
    mmioRead r s =
      .next (busRead r s, s.log (.record .seq .mmioR (s.params.regmap.addr r) (busRead r s))) :=
  whenClocked_of_clock r s _ h

/-- A register read changes nothing but the history. -/
theorem mmioRead_next (r : Reg) (s : State) (x : Word × State) (h : mmioRead r s = .next x) :
    (r.isFlc = true → s.plat.flcClockOn = true)
      ∧ x = (busRead r s, s.log (.record .seq .mmioR (s.params.regmap.addr r) (busRead r s))) := by
  obtain ⟨hc, hx⟩ := whenClocked_next _ _ _ _ h
  exact ⟨hc, by simpa using hx.symm⟩

/-- A register write with the clock domain on: the register's own rule, and the access recorded. -/
theorem mmioWrite_of_clock (r : Reg) (v : Word) (s : State) (h : r.isFlc = true → s.plat.flcClockOn = true) :
    mmioWrite r v s =
      andThen (writeReg r (s.params.regmap.fields r v) s) fun s' =>
        .next (s'.log (.record .seq .mmioW (s.params.regmap.addr r) v)) :=
  whenClocked_of_clock r s _ h

/-- A register write that goes on performed the register's own rule. -/
theorem mmioWrite_next (r : Reg) (v : Word) (s t : State) (h : mmioWrite r v s = .next t) :
    (r.isFlc = true → s.plat.flcClockOn = true)
      ∧ ∃ s', writeReg r (s.params.regmap.fields r v) s = .next s'
        ∧ t = s'.log (.record .seq .mmioW (s.params.regmap.addr r) v) := by
  obtain ⟨hc, hx⟩ := whenClocked_next _ _ _ _ h
  obtain ⟨s', hs', ht⟩ := (andThen_eq_next _ _ _).mp hx
  exact ⟨hc, s', hs', by simpa using ht.symm⟩

/-! ## Register writes -/

theorem whenReady_next (s : State) (x : Res State) (t : State) (h : whenReady s x = .next t) :
    s.flc.op = .none ∧ x = .next t := by
  unfold whenReady at h
  split at h
  · simp at h
  · next hp => exact ⟨(pend_eq_false_iff _).mp (by simpa using hp), h⟩

theorem whenReady_of_none (s : State) (x : Res State) (h : s.flc.op = .none) : whenReady s x = x := by
  simp [whenReady, (pend_eq_false_iff _).mpr h]

/-- What a program start can do (R147): a rejection, or an operation at a legal target. -/
theorem programStart_next (k : BitVec 4) (s t : State) (h : programStart k s = .next t) :
    (k ≠ s.params.unlockKey ∧ t = { s with flc := { s.flc with af := true } })
      ∨ (k = s.params.unlockKey ∧ s.flc.addr.toNat % 16 = 0 ∧ Config.flashBase ≤ s.flc.addr.toNat
        ∧ s.flc.addr.toNat + 16 ≤ Config.flashTop
        ∧ t = { s with flc := { s.flc with
            op := .program s.flc.addr (ofLanes s.flc.data0 s.flc.data1 s.flc.data2 s.flc.data3)
              (clkOk s.params s.flc) } }) := by
  unfold programStart at h
  split at h
  · next hk => exact .inl ⟨hk, by simpa using h.symm⟩
  · next hk =>
    split at h
    · simp at h
    · next ha =>
      split at h
      · simp at h
      · next hr =>
        rw [not_not] at hk ha hr
        exact .inr ⟨hk, ha, hr.1, hr.2, by simpa using h.symm⟩

/-- What an erase start can do (R148): a rejection, or an operation on the page of the address. -/
theorem eraseStart_next (k : BitVec 4) (c : Byte) (s t : State) (h : eraseStart k c s = .next t) :
    ((k ≠ s.params.unlockKey ∨ c ≠ s.params.pageEraseCode) ∧ t = { s with flc := { s.flc with af := true } })
      ∨ (k = s.params.unlockKey ∧ c = s.params.pageEraseCode ∧ Config.flashBase ≤ s.flc.addr.toNat
        ∧ s.flc.addr.toNat < Config.flashTop
        ∧ t = { s with flc := { s.flc with
            op := .erasePage (pageBase s.flc.addr.toNat) (clkOk s.params s.flc) } }) := by
  unfold eraseStart at h
  split at h
  · next hk => exact .inl ⟨.inl hk, by simpa using h.symm⟩
  · next hk =>
    split at h
    · next hc => exact .inl ⟨.inr hc, by simpa using h.symm⟩
    · next hc =>
      split at h
      · simp at h
      · next hr =>
        rw [not_not] at hk hc hr
        exact .inr ⟨hk, hc, hr.1, hr.2, by simpa using h.symm⟩

/-- What a write of `FLC.CTRL` can do (R146): store the key and the code, and perhaps start. -/
theorem writeCtrl_next (v : Word) (s t : State) (h : writeCtrl v s = .next t) :
    ctrlMe v = false ∧ ctrlLve v = s.flc.lve
      ∧ ((ctrlWr v = false ∧ ctrlPge v = false
          ∧ t = { s with flc := { s.flc with unlock := ctrlUnlock v, eraseCode := ctrlEraseCode v } })
        ∨ (ctrlWr v = true ∧ ctrlPge v = false ∧ ctrlUnlock v = s.flc.unlock
          ∧ programStart s.flc.unlock
              { s with flc := { s.flc with unlock := ctrlUnlock v, eraseCode := ctrlEraseCode v } } = .next t)
        ∨ (ctrlWr v = false ∧ ctrlPge v = true ∧ ctrlUnlock v = s.flc.unlock
          ∧ ctrlEraseCode v = s.flc.eraseCode
          ∧ eraseStart s.flc.unlock s.flc.eraseCode
              { s with flc := { s.flc with unlock := ctrlUnlock v, eraseCode := ctrlEraseCode v } } = .next t)) := by
  unfold writeCtrl at h
  cases hme : ctrlMe v <;> cases hwr : ctrlWr v <;> cases hpg : ctrlPge v <;>
    simp_all [bne_iff_ne] <;> split at h <;> simp_all <;> split at h <;> simp_all
  split at h <;> simp_all

/-- What a register write leaves alone, whichever register it is. -/
theorem writeReg_frame (r : Reg) (v : Word) (s t : State) (h : writeReg r v s = .next t) :
    t = { s with flc := t.flc, icc := t.icc, gcr := t.gcr } ∧ t.icc.lines = s.icc.lines
      ∧ (r.isFlc = false → t.flc = s.flc)
      ∧ (r.isFlc = true → s.flc.op = .none ∧ t.icc = s.icc ∧ t.gcr = s.gcr)
      ∧ (r = .gcrSysctrl → t.icc = s.icc) ∧ (r ≠ .gcrSysctrl → t.gcr = s.gcr) := by
  cases r <;> simp only [writeReg] at h
  case flcCtrl =>
    obtain ⟨hop, h⟩ := whenReady_next _ _ _ h
    obtain ⟨-, -, h⟩ := writeCtrl_next _ _ _ h
    rcases h with ⟨-, -, rfl⟩ | ⟨-, -, -, h⟩ | ⟨-, -, -, -, h⟩
    · simp [hop, Reg.isFlc]
    · rcases programStart_next _ _ _ h with ⟨-, rfl⟩ | ⟨-, -, -, -, rfl⟩ <;> simp [hop, Reg.isFlc]
    · rcases eraseStart_next _ _ _ _ h with ⟨-, rfl⟩ | ⟨-, -, -, -, rfl⟩ <;> simp [hop, Reg.isFlc]
  case flcIntr =>
    obtain ⟨hop, h⟩ := whenReady_next _ _ _ h
    unfold writeIntr at h
    split at h
    · simp at h
    · cases h; simp [hop, Reg.isFlc]
  case iccCtrl =>
    unfold writeIccCtrl at h
    split at h
    · simp at h
    · cases h; simp [Reg.isFlc]
  case iccInvalidate =>
    unfold writeInvalidate at h
    split at h
    · simp at h
    · cases h; simp [Reg.isFlc]
  case gcrSysctrl =>
    unfold writeSysctrl at h
    split at h
    · simp at h
    · cases h; simp [Reg.isFlc]
  all_goals
    obtain ⟨hop, h⟩ := whenReady_next _ _ _ h
    cases h
    simp [hop, Reg.isFlc]

/-! ## The flash read path -/

/-- What a line read can do (R163): the buffer ends up holding the line it returns, which is the array's or the one the
buffer held already. -/
theorem lineRead_cases (la : Nat) (s : State) :
    ∃ d n, lineRead la s = (d, { s with lfb := some ⟨la, d⟩, draws := n })
      ∧ (d = flashLine s.flash la ∨ s.lfb = some ⟨la, d⟩) := by
  unfold lineRead
  cases hl : s.lfb with
  | none => exact ⟨_, s.draws, rfl, .inl rfl⟩
  | some l =>
    obtain ⟨b, d⟩ := l
    simp only
    split
    · exact ⟨_, s.draws, rfl, .inl rfl⟩
    · next hb =>
      simp only [ne_eq, not_not] at hb
      subst hb
      split
      · next hd =>
        refine ⟨d, s.draws, ?_, .inl hd⟩
        rw [← hl, ← hd]
      · split
        · exact ⟨d, s.draws + 1, by rw [← hl], .inr rfl⟩
        · exact ⟨_, s.draws + 1, rfl, .inl rfl⟩

/-- A line read while the buffer holds no stale copy of that line: the array's bytes, and no draw. -/
theorem lineRead_fresh (la : Nat) (s : State)
    (h : ∀ l, s.lfb = some l → l.base = la → l.data = flashLine s.flash la) :
    lineRead la s = (flashLine s.flash la, { s with lfb := some ⟨la, flashLine s.flash la⟩ }) := by
  unfold lineRead
  cases hl : s.lfb with
  | none => rfl
  | some l =>
    obtain ⟨b, d⟩ := l
    simp only
    split
    · rfl
    · next hb =>
      simp only [ne_eq, not_not] at hb
      have hd := h _ hl hb
      simp only at hb hd
      subst hb
      subst hd
      simp [← hl]

/-- What a 32-bit flash read can do (R157). -/
theorem memReadWord_next (a : Word) (s : State) (x : Word × State) (h : memReadWord a s = .next x) :
    a.toNat % 4 = 0 ∧ Config.flashBase ≤ a.toNat ∧ a.toNat + 4 ≤ Config.flashTop
      ∧ ((s.flc.pend = true ∧ x = (Config.drawWord s.draws 0,
            ({ s with lfb := none, draws := s.draws + 1 } : State).log
              (.record .seq .memR a (Config.drawWord s.draws 0))))
        ∨ (s.flc.pend = false ∧ ∃ d n,
            lineRead (wordBase a.toNat) s = (d, { s with lfb := some ⟨wordBase a.toNat, d⟩, draws := n })
            ∧ (d = flashLine s.flash (wordBase a.toNat) ∨ s.lfb = some ⟨wordBase a.toNat, d⟩)
            ∧ x = (wordAtOffset d (wordOffset a.toNat),
              ({ s with lfb := some ⟨wordBase a.toNat, d⟩, draws := n } : State).log
                (.record .seq .memR a (wordAtOffset d (wordOffset a.toNat)))))) := by
  unfold memReadWord at h
  split at h
  · simp at h
  · next ha =>
    split at h
    · simp at h
    · next hr =>
      rw [not_not] at ha hr
      refine ⟨ha, hr.1, hr.2, ?_⟩
      split at h
      · next hp => exact .inl ⟨hp, by simpa using h.symm⟩
      · next hp =>
        obtain ⟨d, n, hd, hc⟩ := lineRead_cases (wordBase a.toNat) s
        refine .inr ⟨by simpa using hp, d, n, hd, hc, ?_⟩
        simpa [hd] using h.symm

/-- What an 8-bit flash read can do (R158). -/
theorem memReadByte_next (a : Word) (s : State) (x : Byte × State) (h : memReadByte a s = .next x) :
    Config.flashBase ≤ a.toNat ∧ a.toNat < Config.flashTop
      ∧ ((s.flc.pend = true ∧ x = (Config.drawByte s.draws 0,
            ({ s with lfb := none, draws := s.draws + 1 } : State).log
              (.record .seq .memR a ((Config.drawByte s.draws 0).setWidth 32))))
        ∨ (s.flc.pend = false ∧ ∃ d n,
            lineRead (wordBase a.toNat) s = (d, { s with lfb := some ⟨wordBase a.toNat, d⟩, draws := n })
            ∧ (d = flashLine s.flash (wordBase a.toNat) ∨ s.lfb = some ⟨wordBase a.toNat, d⟩)
            ∧ x = (flashByte d (wordOffset a.toNat),
              ({ s with lfb := some ⟨wordBase a.toNat, d⟩, draws := n } : State).log
                (.record .seq .memR a ((flashByte d (wordOffset a.toNat)).setWidth 32))))) := by
  unfold memReadByte at h
  split at h
  · simp at h
  · next hr =>
    rw [not_not] at hr
    refine ⟨hr.1, hr.2, ?_⟩
    split at h
    · next hp => exact .inl ⟨hp, by simpa using h.symm⟩
    · next hp =>
      obtain ⟨d, n, hd, hc⟩ := lineRead_cases (wordBase a.toNat) s
      refine .inr ⟨by simpa using hp, d, n, hd, hc, ?_⟩
      simpa [hd] using h.symm

/-! ## Failing -/

/-- A failure halts, or completes with the code (R303). -/
theorem fail_cases (code : Code) (s : State) :
    (s.params.posture = .hardened ∧ fail code s = haltWith (.failed code) s)
      ∨ (s.params.posture = .general ∧ fail code s = endCommand code s) := by
  unfold fail
  cases h : s.params.posture <;> simp

end Sys2Proof.Machine
end

