-- ==== Sys2Proof/Laws/Lines.lean ====
section
/-! SUPPORT. What one line of a command can do: which state it may change, and where it leaves the step counter. -/

namespace Sys2Proof.Machine

/-! ## Aligned addresses -/

theorem wordBase_le (a : Nat) : wordBase a ≤ a := by simp [wordBase, alignDown]

theorem lineAddr_iff (a : Nat) :
    lineAddr a = true ↔ a % 16 = 0 ∧ 0x10000000 ≤ a ∧ a < 0x10080000 := by
  simp only [lineAddr, Bool.and_eq_true, decide_eq_true_eq, and_assoc]
  rfl

/-- The line of a flash address is a flash line. -/
theorem lineAddr_wordBase (a : Nat) (h : Config.flashBase ≤ a) (h' : a < Config.flashTop) :
    lineAddr (wordBase a) = true := by
  rw [lineAddr_iff]
  simp only [wordBase, alignDown, Config.flashBase, Config.flashTop] at *
  omega

/-! ## The parameters -/

theorem dummyAddrOk_iff (a : Word) :
    dummyAddrOk a = true ↔ a.toNat % 4 = 0 ∧ 0x10000000 ≤ a.toNat ∧ a.toNat + 4 ≤ 0x10080000 := by
  simp only [dummyAddrOk, Bool.and_eq_true, decide_eq_true_eq, and_assoc]
  rfl

theorem paramsWf_iff (p : Params) :
    paramsWf p = true ↔ 2 ≤ p.haltBranchCount ∧ p.lockKey ≠ p.unlockKey ∧ dummyAddrOk p.dummyReadAddr0 = true
      ∧ dummyAddrOk p.dummyReadAddr1 = true
      ∧ wordBase p.dummyReadAddr0.toNat ≠ wordBase p.dummyReadAddr1.toNat
      ∧ p.regmap.wf = true ∧ iccLineOk p.iccLine = true := by
  simp only [paramsWf, Bool.and_eq_true, decide_eq_true_eq, and_assoc]

/-- The parameters that reset takes are well formed, whatever the open ones are. -/
theorem paramsWf_config : paramsWf Config.params = true :=
  (paramsWf_iff _).mpr ⟨Nat.le_add_left 2 _, by decide, by decide, by decide, by decide, Config.regmap_wf, by decide⟩

/-! ## The frame of a line -/

/-- What no line of a command changes (R23, R46), and the little it may change in the buffer and the engine. -/
structure SeqFrame (s t : State) : Prop where
  params : t.params = s.params
  flash : t.flash = s.flash
  plat : t.plat = s.plat
  hostQueue : t.hostQueue = s.hostQueue
  sched : t.sched = s.sched
  hostSeen : t.hostSeen = s.hostSeen
  lines : t.icc.lines = s.icc.lines
  cmd : t.seq.cmd = s.seq.cmd
  opa : t.seq.opa = s.seq.opa
  opb : t.seq.opb = s.seq.opb
  opf : t.seq.opf = s.seq.opf
  opd0 : t.seq.opd0 = s.seq.opd0
  opd1 : t.seq.opd1 = s.seq.opd1
  opd2 : t.seq.opd2 = s.seq.opd2
  opd3 : t.seq.opd3 = s.seq.opd3
  bufIn : t.seq.bufIn = s.seq.bufIn
  lfb : t.lfb = s.lfb ∨ t.lfb = none ∨ ∃ l, t.lfb = some l ∧ lineAddr l.base = true
  op : t.flc.op = s.flc.op ∨ t.flc.op.legal = true

theorem SeqFrame.refl (s : State) : SeqFrame s s := by constructor <;> first | rfl | exact .inl rfl

theorem SeqFrame.trans {s t u : State} (h : SeqFrame s t) (h' : SeqFrame t u) : SeqFrame s u where
  params := h'.params.trans h.params
  flash := h'.flash.trans h.flash
  plat := h'.plat.trans h.plat
  hostQueue := h'.hostQueue.trans h.hostQueue
  sched := h'.sched.trans h.sched
  hostSeen := h'.hostSeen.trans h.hostSeen
  lines := h'.lines.trans h.lines
  cmd := h'.cmd.trans h.cmd
  opa := h'.opa.trans h.opa
  opb := h'.opb.trans h.opb
  opf := h'.opf.trans h.opf
  opd0 := h'.opd0.trans h.opd0
  opd1 := h'.opd1.trans h.opd1
  opd2 := h'.opd2.trans h.opd2
  opd3 := h'.opd3.trans h.opd3
  bufIn := h'.bufIn.trans h.bufIn
  lfb := by
    rcases h'.lfb with e | e
    · rw [e]; exact h.lfb
    · exact .inr e
  op := by
    rcases h'.op with e | e
    · rw [e]; exact h.op
    · exact .inr e

/-- A change of SEQ's own working and result registers. -/
theorem SeqFrame.of_eq {s t : State} (q : Seq) (ht : t = { s with seq := q, history := t.history, draws := t.draws })
    (hq : q = { s.seq with
      phase := q.phase, step := q.step, bufOut := q.bufOut, result := q.result, status := q.status, div := q.div
      w := q.w, p := q.p, i := q.i, t := q.t, haltCause := q.haltCause }) : SeqFrame s t := by
  rw [ht]
  constructor <;> first | rfl | exact .inl rfl | (simp only; rw [hq])

theorem SeqFrame.log (s : State) (e : Event) : SeqFrame s (s.log e) := .of_eq s.seq rfl rfl
theorem SeqFrame.setT (v : Word) (s : State) : SeqFrame s (setT v s) := .of_eq _ rfl rfl
theorem SeqFrame.goTo (l : Label) (s : State) : SeqFrame s (goTo l s) := .of_eq _ rfl rfl
theorem SeqFrame.setStatus (c : Code) (s : State) : SeqFrame s (setStatus c s) := .of_eq _ rfl rfl
theorem SeqFrame.goIdle (s : State) : SeqFrame s (goIdle s) := .of_eq _ rfl rfl
theorem SeqFrame.endCommand (c : Code) (s : State) : SeqFrame s (endCommand c s) := .of_eq _ rfl rfl
theorem SeqFrame.haltWith (c : HaltCause) (s : State) : SeqFrame s (haltWith c s) := .of_eq _ rfl rfl

theorem SeqFrame.fail (c : Code) (s : State) : SeqFrame s (fail c s) := by
  rcases fail_cases c s with ⟨-, e⟩ | ⟨-, e⟩ <;> rw [e]
  · exact .haltWith _ s
  · exact .endCommand _ s

theorem SeqFrame.mmioRead {r : Reg} {s : State} {x : Word × State}
    (h : mmioRead r s = .next x) : SeqFrame s x.2 := by
  obtain ⟨-, rfl⟩ := mmioRead_next r s x h
  exact .log s _

/-- A register write starts only legal operations (R147, R148). -/
theorem writeReg_op (r : Reg) (v : Word) (s t : State) (h : writeReg r v s = .next t) :
    t.flc.op = s.flc.op ∨ t.flc.op.legal = true := by
  cases r <;> simp only [writeReg] at h
  case flcCtrl =>
    obtain ⟨-, h⟩ := whenReady_next _ _ _ h
    obtain ⟨-, -, h⟩ := writeCtrl_next _ _ _ h
    rcases h with ⟨-, -, rfl⟩ | ⟨-, -, -, h⟩ | ⟨-, -, -, -, h⟩
    · exact .inl rfl
    · rcases programStart_next _ _ _ h with ⟨-, rfl⟩ | ⟨-, ha, hb, hc, rfl⟩
      · exact .inl rfl
      · refine .inr ?_
        simp only [FlceOp.legal, lineAddr_iff, Config.flashBase, Config.flashTop] at *
        omega
    · rcases eraseStart_next _ _ _ _ h with ⟨-, rfl⟩ | ⟨-, -, hb, hc, rfl⟩
      · exact .inl rfl
      · refine .inr ?_
        simp only [Config.flashBase, Config.flashTop] at hb hc
        simp only [FlceOp.legal, Bool.and_eq_true, decide_eq_true_eq]
        simp only [pageBase, alignDown, Config.flashBase, Config.flashTop, Config.pageSize]
        omega
  case flcIntr =>
    obtain ⟨-, h⟩ := whenReady_next _ _ _ h
    unfold writeIntr at h
    split at h
    · simp at h
    · cases h; exact .inl rfl
  case iccCtrl =>
    unfold writeIccCtrl at h
    split at h
    · simp at h
    · cases h; exact .inl rfl
  case iccInvalidate =>
    unfold writeInvalidate at h
    split at h
    · simp at h
    · cases h; exact .inl rfl
  case gcrSysctrl =>
    unfold writeSysctrl at h
    split at h
    · simp at h
    · cases h; exact .inl rfl
  all_goals
    obtain ⟨-, h⟩ := whenReady_next _ _ _ h
    cases h
    exact .inl rfl

theorem SeqFrame.writeReg {r : Reg} {v : Word} {s t : State} (h : writeReg r v s = .next t) : SeqFrame s t := by
  obtain ⟨ht, hl, -⟩ := writeReg_frame r v s t h
  have ho := writeReg_op r v s t h
  rw [ht]
  constructor <;> first | rfl | exact hl | exact ho | exact .inl rfl

theorem SeqFrame.mmioWrite {r : Reg} {v : Word} {s t : State}
    (h : mmioWrite r v s = .next t) : SeqFrame s t := by
  obtain ⟨-, s', hs, rfl⟩ := mmioWrite_next r v s t h
  exact (SeqFrame.writeReg hs).trans (.log _ _)

theorem SeqFrame.of_lfb (s t : State) (b : Option CacheLine) (n : Nat)
    (ht : t = { s with lfb := b, draws := n, history := t.history })
    (hb : b = none ∨ ∃ l, b = some l ∧ lineAddr l.base = true) : SeqFrame s t := by
  rw [ht]
  constructor <;> first | rfl | exact .inl rfl | exact .inr hb

theorem SeqFrame.memReadWord {a : Word} {s : State} {x : Word × State} (h : memReadWord a s = .next x) :
    SeqFrame s x.2 := by
  obtain ⟨-, ha, hb, h⟩ := memReadWord_next a s x h
  rcases h with ⟨-, rfl⟩ | ⟨-, d, n, -, -, rfl⟩
  · exact .of_lfb s _ none _ rfl (.inl rfl)
  · exact .of_lfb s _ _ n rfl (.inr ⟨_, rfl, lineAddr_wordBase _ ha (by omega)⟩)

theorem SeqFrame.memReadByte {a : Word} {s : State} {x : Byte × State} (h : memReadByte a s = .next x) :
    SeqFrame s x.2 := by
  obtain ⟨ha, hb, h⟩ := memReadByte_next a s x h
  rcases h with ⟨-, rfl⟩ | ⟨-, d, n, -, -, rfl⟩
  · exact .of_lfb s _ none _ rfl (.inl rfl)
  · exact .of_lfb s _ _ n rfl (.inr ⟨_, rfl, lineAddr_wordBase _ ha hb⟩)

/-! ## Moving the step counter -/

/-- The next line is one of the list. -/
theorem lineAfter_mem (prog : List Label) (here l : Label) (h : lineAfter prog here = some l) : l ∈ prog := by
  induction prog with
  | nil => simp [lineAfter] at h
  | cons a prog ih =>
    cases prog with
    | nil => simp [lineAfter] at h
    | cons b rest =>
      simp only [lineAfter] at h
      split at h
      · cases h; simp
      · exact List.mem_cons_of_mem _ (ih h)

theorem advanceStep_next (prog : List Label) (here : Label) (s t : State) (h : advanceStep prog here s = .next t) :
    ∃ l, lineAfter prog here = some l ∧ t = goTo l s := by
  unfold advanceStep at h
  split at h
  · next l hl => exact ⟨l, hl, by simpa using h.symm⟩
  · simp at h

/-- A step of a command performs a line of it. -/
theorem runLine_next (prog : List Label) (c : Ctx) (s t : State) (h : runLine prog c s = .next t) :
    ∃ site l, s.seq.step = some (.line site l) ∧ Label.line site l ∈ prog
      ∧ performLine c site l (advanceStep prog (.line site l)) s = .next t := by
  unfold runLine at h
  split at h
  · next site l hs =>
    split at h
    · next hm => exact ⟨site, l, hs, hm, h⟩
    · simp at h
  · simp at h
  · simp at h

/-- Where a line that is in a list is performed. -/
theorem runLine_of_mem (prog : List Label) (c : Ctx) (s : State) (site : Site) (l : Line)
    (hs : s.seq.step = some (.line site l)) (hm : Label.line site l ∈ prog) :
    runLine prog c s = performLine c site l (advanceStep prog (.line site l)) s := by
  simp [runLine, hs, hm]

/-- How one line ends: at a line of the list (the next one, or where it says), where it was, Idle, or Halted. -/
inductive LineEnd (prog : List Label) (s t : State) : Prop where
  | moved (s' : State) (l : Label) (ht : t = goTo l s') (hf : SeqFrame s s') (hp : s'.seq.phase = s.seq.phase)
      (hl : l ∈ prog)
  | stayed (hf : SeqFrame s t) (hp : t.seq.phase = s.seq.phase) (hs : t.seq.step = s.seq.step)
  | ended (hf : SeqFrame s t) (hp : t.seq.phase = .idle) (hs : t.seq.step = none)
  | halted (hf : SeqFrame s t) (hp : t.seq.phase = .halted) (hs : t.seq.step = some (.haltLoop 0))

theorem LineEnd.frame {prog : List Label} {s t : State} (h : LineEnd prog s t) : SeqFrame s t := by
  cases h with
  | moved s' l ht hf => rw [ht]; exact hf.trans (.goTo l s')
  | stayed hf => exact hf
  | ended hf => exact hf
  | halted hf => exact hf

theorem LineEnd.fail (prog : List Label) (c : Code) (s : State) : LineEnd prog s (fail c s) := by
  rcases fail_cases c s with ⟨-, e⟩ | ⟨-, e⟩ <;> rw [e]
  · exact .halted (.haltWith _ s) rfl rfl
  · exact .ended (.endCommand _ s) rfl rfl

/-- A write of fields with the clock domain on: the register's own rule on those fields, and the bus word recorded. -/
theorem writeFields_of_clock (r : Reg) (w : Word) (s : State) (h : r.isFlc = true → s.plat.flcClockOn = true) :
    writeFields r w s =
      andThen (writeReg r w s) fun s' =>
        .next (s'.log (.record .seq .mmioW (s.params.regmap.addr r) (s.params.regmap.bus r w))) := by
  simp [writeFields, mmioWrite_of_clock r _ s h]

theorem seq_of_mmioWrite {r : Reg} {v : Word} {s t : State} (h : mmioWrite r v s = .next t) :
    t.seq = s.seq := by
  obtain ⟨-, s', hs, rfl⟩ := mmioWrite_next r v s t h
  have := (writeReg_frame r _ s s' hs).1
  rw [this]
  rfl

theorem seq_of_memReadWord {a : Word} {s : State} {x : Word × State} (h : memReadWord a s = .next x) :
    x.2.seq = s.seq := by
  obtain ⟨-, -, -, h⟩ := memReadWord_next a s x h
  rcases h with ⟨-, rfl⟩ | ⟨-, d, n, -, -, rfl⟩ <;> rfl

theorem seq_of_memReadByte {a : Word} {s : State} {x : Byte × State} (h : memReadByte a s = .next x) :
    x.2.seq = s.seq := by
  obtain ⟨-, -, h⟩ := memReadByte_next a s x h
  rcases h with ⟨-, rfl⟩ | ⟨-, d, n, -, -, rfl⟩ <;> rfl

section LineEnds

variable {prog : List Label} {here : Label} {s s' t : State}

theorem LineEnd.advance (h : advanceStep prog here s' = .next t) (hf : SeqFrame s s')
    (hp : s'.seq.phase = s.seq.phase) : LineEnd prog s t := by
  obtain ⟨l, hl, rfl⟩ := advanceStep_next prog here s' t h
  exact .moved s' l rfl hf hp (lineAfter_mem _ _ _ hl)

theorem LineEnd.readToT {r : Reg} (h : andThen (readToT r s) (advanceStep prog here) = .next t) :
    LineEnd prog s t := by
  obtain ⟨s₁, h₁, h₂⟩ := (andThen_eq_next _ _ _).mp h
  obtain ⟨x, hx, hs⟩ := (andThen_eq_next _ _ _).mp h₁
  obtain ⟨-, rfl⟩ := mmioRead_next r s x hx
  cases hs
  exact .advance h₂ ((SeqFrame.log s _).trans (.setT _ _)) rfl

theorem LineEnd.writeFields {r : Reg} {w : Word}
    (h : andThen (writeFields r w s) (advanceStep prog here) = .next t) : LineEnd prog s t := by
  obtain ⟨s₁, h₁, h₂⟩ := (andThen_eq_next _ _ _).mp h
  exact .advance h₂ (.mmioWrite h₁) (by rw [seq_of_mmioWrite h₁])

theorem LineEnd.writeFromT {r : Reg} {f : Word → Word}
    (h : andThen (writeFromT r f s) (advanceStep prog here) = .next t) : LineEnd prog s t := by
  obtain ⟨s₁, h₁, h₂⟩ := (andThen_eq_next _ _ _).mp h
  obtain ⟨v, -, h₁⟩ := (needWork_eq_next _ _ _).mp h₁
  exact .writeFields ((andThen_eq_next _ _ _).mpr ⟨s₁, h₁, h₂⟩)

theorem LineEnd.poll {r : Reg} {p : Word → Bool} (h : pollReg r p (advanceStep prog here) s = .next t) :
    LineEnd prog s t := by
  obtain ⟨x, hx, h⟩ := (andThen_eq_next _ _ _).mp h
  obtain ⟨-, rfl⟩ := mmioRead_next r s x hx
  have hf : SeqFrame s (Machine.setT (busRead r s)
      (s.log (.record .seq .mmioR (s.params.regmap.addr r) (busRead r s)))) :=
    (SeqFrame.log s _).trans (.setT _ _)
  simp only at h
  split at h
  · exact .advance h hf rfl
  · cases h; exact .stayed hf rfl rfl

theorem LineEnd.merge {site : Site} {k : Nat} (h : andThen (mergeLine site k s) (advanceStep prog here) = .next t) :
    LineEnd prog s t := by
  obtain ⟨s₁, h₁, h₂⟩ := (andThen_eq_next _ _ _).mp h
  obtain ⟨p, -, h₁⟩ := (needWork_eq_next _ _ _).mp h₁
  obtain ⟨x, hx, h₁⟩ := (andThen_eq_next _ _ _).mp h₁
  cases h₁
  exact .advance h₂ ((SeqFrame.memReadWord hx).trans (.of_eq _ rfl rfl)) (by simp [seq_of_memReadWord hx])

end LineEnds

/-- The splice changes the merge buffer alone. -/
theorem spliceLine_next {c : Ctx} {site : Site} {s t : State} (h : spliceLine c site s = .next t) :
    ∃ v, t = { s with seq := { s.seq with w := some v } } := by
  simp only [spliceLine, need_eq_next, needWork_eq_next, andThen_eq_next] at h
  obtain ⟨bs, -, len, -, p, -, i, -, w, -, h⟩ := h
  exact ⟨_, by simpa using h.symm⟩

/-- The cursor update changes `SEQ.P` and `SEQ.I` alone. -/
theorem advanceCursor_next {c : Ctx} {site : Site} {s t : State} (h : advanceCursor c site s = .next t) :
    ∃ p i, t = { s with seq := { s.seq with p := p, i := i } } := by
  obtain ⟨len, -, h⟩ := (andThen_eq_next _ _ _).mp h
  split at h
  · exact ⟨s.seq.p, _, by simpa using h.symm⟩
  · simp only [needWork_eq_next] at h
    obtain ⟨p, -, i, -, h⟩ := h
    exact ⟨_, _, by simpa using h.symm⟩

/-- The line, other than the next one, that a line may move to. -/
def jumpTarget (site : Site) (l : Line) : Option Line :=
  match l with
  | .ifHead => some .whileChunks
  | .advance => if site = .chunk then some .whileChunks else none
  | .whileChunks => some .ifTail
  | .ifTail => some .done
  | .whileBytes => some .done
  | .nextByte => some .whileBytes
  | _ => none

/-- The lines of a command that name another of its lines name one that is there. -/
def jumpsClosed (prog : List Label) : Bool :=
  prog.all fun a =>
    match a with
    | .line site l =>
      match jumpTarget site l with
      | some l' => prog.contains (.line .main l')
      | none => true
    | .haltLoop _ => true

theorem jumpsClosed_programOf (i : Instr) : jumpsClosed (programOf i) = true := by
  cases i <;> first | decide | rfl

theorem jumpTarget_mem (i : Instr) (site : Site) (l l' : Line) (h : Label.line site l ∈ programOf i)
    (hj : jumpTarget site l = some l') : Label.line .main l' ∈ programOf i := by
  have := List.all_eq_true.mp (jumpsClosed_programOf i) _ h
  simpa [hj] using this

/-- What one line of a command can do. -/
theorem performLine_next (c : Ctx) (prog : List Label) (site : Site) (l : Line) (s t : State)
    (hmain : ∀ l', jumpTarget site l = some l' → Label.line .main l' ∈ prog)
    (h : performLine c site l (advanceStep prog (.line site l)) s = .next t) : LineEnd prog s t := by
  have mv : ∀ l' s', Label.line .main l' ∈ prog → SeqFrame s s' → s'.seq.phase = s.seq.phase →
      t = goTo (.line .main l') s' → LineEnd prog s t := fun l' s' hl hf hp ht => .moved s' _ ht hf hp hl
  cases l <;> simp only [performLine] at h
  case failIllegal => cases h; exact .fail _ _ s
  case haltPanic => cases h; exact .halted (.haltWith _ s) rfl rfl
  case boundsResult =>
    obtain ⟨a, -, h⟩ := (need_eq_next _ _ _).mp h
    obtain ⟨e, -, h⟩ := (need_eq_next _ _ _).mp h
    exact .advance h (.of_eq _ rfl rfl) rfl
  case boundsStatus => exact .advance h (.setStatus _ s) rfl
  case boundsIdle => cases h; exact .ended (.goIdle s) rfl rfl
  case checkShape =>
    obtain ⟨a, -, h⟩ := (need_eq_next _ _ _).mp h
    obtain ⟨a, -, h⟩ := (need_eq_next _ _ _).mp h
    split at h
    · simp at h
    · exact .advance h (.refl s) rfl
  case checkAlign =>
    obtain ⟨a, -, h⟩ := (need_eq_next _ _ _).mp h
    split at h
    · cases h; exact .fail _ _ s
    · exact .advance h (.refl s) rfl
  case checkRange =>
    obtain ⟨a, -, h⟩ := (need_eq_next _ _ _).mp h
    obtain ⟨a, -, h⟩ := (need_eq_next _ _ _).mp h
    split at h
    · exact .advance h (.refl s) rfl
    · cases h; exact .fail _ _ s
  case checkClock =>
    obtain ⟨a, -, h⟩ := (need_eq_next _ _ _).mp h
    split at h
    · exact .advance h (.refl s) rfl
    · cases h; exact .fail _ _ s
  case setDiv =>
    obtain ⟨a, -, h⟩ := (need_eq_next _ _ _).mp h
    obtain ⟨d, -, h⟩ := (needWork_eq_next _ _ _).mp h
    exact .advance h (.of_eq _ rfl rfl) rfl
  case initCursor =>
    obtain ⟨a, -, h⟩ := (need_eq_next _ _ _).mp h
    exact .advance h (.of_eq _ rfl rfl) rfl
  case ifHead =>
    obtain ⟨p, -, h⟩ := (needWork_eq_next _ _ _).mp h
    split at h
    · exact .advance h (.refl s) rfl
    · cases h; exact mv _ s (hmain .whileChunks rfl) (.refl s) rfl rfl
  case bindWord =>
    obtain ⟨p, -, h⟩ := (needWork_eq_next _ _ _).mp h
    exact .advance h (.refl s) rfl
  case bindCount =>
    simp only [need_eq_next, needWork_eq_next] at h
    obtain ⟨n, -, p, -, i, -, h⟩ := h
    exact .advance h (.refl s) rfl
  case mergeCheck =>
    obtain ⟨p, -, h⟩ := (needWork_eq_next _ _ _).mp h
    split at h
    · exact .advance h (.refl s) rfl
    · cases h; exact .fail _ _ s
  case m0 | m1 | m2 | m3 => exact .merge h
  case spliceBytes =>
    obtain ⟨s₁, h₁, h₂⟩ := (andThen_eq_next _ _ _).mp h
    obtain ⟨v, rfl⟩ := spliceLine_next h₁
    exact .advance h₂ (.of_eq _ rfl rfl) rfl
  case advance =>
    obtain ⟨s₁, h₁, h₂⟩ := (andThen_eq_next _ _ _).mp h
    obtain ⟨p, i, rfl⟩ := advanceCursor_next h₁
    split at h₂
    · next hc =>
      cases h₂
      exact mv _ { s with seq := { s.seq with p := p, i := i } } (hmain .whileChunks (by simp [jumpTarget, hc]))
        (.of_eq _ rfl rfl) rfl rfl
    · exact .advance h₂ (.of_eq _ rfl rfl) rfl
  case whileChunks =>
    obtain ⟨a, -, h⟩ := (need_eq_next _ _ _).mp h
    obtain ⟨i, -, h⟩ := (needWork_eq_next _ _ _).mp h
    split at h
    · exact .advance h (.refl s) rfl
    · cases h; exact mv _ s (hmain .ifTail rfl) (.refl s) rfl rfl
  case ifTail =>
    obtain ⟨a, -, h⟩ := (need_eq_next _ _ _).mp h
    obtain ⟨i, -, h⟩ := (needWork_eq_next _ _ _).mp h
    split at h
    · exact .advance h (.refl s) rfl
    · cases h; exact mv _ s (hmain .done rfl) (.refl s) rfl rfl
  case r1 =>
    obtain ⟨a, -, h⟩ := (need_eq_next _ _ _).mp h
    obtain ⟨x, hx, h⟩ := (andThen_eq_next _ _ _).mp h
    exact .advance h ((SeqFrame.memReadWord hx).trans (.setT _ _)) (by simp [seq_of_memReadWord hx])
  case setResult =>
    obtain ⟨v, -, h⟩ := (needWork_eq_next _ _ _).mp h
    exact .advance h (.of_eq _ rfl rfl) rfl
  case initIndex => exact .advance h (.of_eq _ rfl rfl) rfl
  case whileBytes =>
    obtain ⟨a, -, h⟩ := (need_eq_next _ _ _).mp h
    obtain ⟨i, -, h⟩ := (needWork_eq_next _ _ _).mp h
    split at h
    · exact .advance h (.refl s) rfl
    · cases h; exact mv _ s (hmain .done rfl) (.refl s) rfl rfl
  case readByte =>
    obtain ⟨s₁, h₁, h₂⟩ := (andThen_eq_next _ _ _).mp h
    obtain ⟨a, -, h₁⟩ := (need_eq_next _ _ _).mp h₁
    obtain ⟨i, -, h₁⟩ := (needWork_eq_next _ _ _).mp h₁
    obtain ⟨x, hx, h₁⟩ := (andThen_eq_next _ _ _).mp h₁
    cases h₁
    exact .advance h₂ ((SeqFrame.memReadByte hx).trans (.of_eq _ rfl rfl)) (by simp [seq_of_memReadByte hx])
  case nextByte =>
    obtain ⟨i, -, h⟩ := (needWork_eq_next _ _ _).mp h
    cases h
    exact mv _ { s with seq := { s.seq with i := some (i + 1) } } (hmain .whileBytes rfl) (.of_eq _ rfl rfl) rfl rfl
  case done => cases h; exact .ended (.endCommand _ s) rfl rfl
  case w1 | w7 | g8 | h6 | f3 | e4 | e7 => exact .poll h
  case d1 | c1 | u1 | k1 | g6 | h2 | h4 | f1 | e1 | e5 => exact .readToT h
  case d2 | c2 | u2 | k2 | g7 | h3 | h5 | f2 | e2 | e6 => exact .writeFromT h
  case l2 =>
    obtain ⟨d, -, h⟩ := (needWork_eq_next _ _ _).mp h
    exact .writeFields h
  case g1 =>
    obtain ⟨x, -, h⟩ := (andThen_eq_next _ _ _).mp h
    exact .writeFields h
  case g2 | g3 | g4 | g5 =>
    obtain ⟨s₁, h₁, h₂⟩ := (andThen_eq_next _ _ _).mp h
    obtain ⟨v, -, h₁⟩ := (andThen_eq_next _ _ _).mp h₁
    exact .writeFields ((andThen_eq_next _ _ _).mpr ⟨s₁, h₁, h₂⟩)
  case h1 =>
    obtain ⟨a, -, h⟩ := (need_eq_next _ _ _).mp h
    exact .writeFields h
  case e3 => exact .writeFields h
  case f4 | f5 =>
    obtain ⟨x, hx, h⟩ := (andThen_eq_next _ _ _).mp h
    exact .advance h (SeqFrame.memReadWord hx) (by simp [seq_of_memReadWord hx])

end Sys2Proof.Machine
end

