-- ==== Sys2Proof/Laws/Step.lean ====
section
/-! SUPPORT. What one step of the machine can do: which agent moves, and what its move is. -/

namespace Sys2Proof.Machine

/-! ## Commands -/

/-- What holds of the thirteen commands and of the illegal words holds of what stands at `SEQ.CMD` (R102, R103). -/
theorem decodeCmd_cases (P : Instr → Prop) (w : Word)
    (hc : ∀ i ∈ [Instr.checkBounds, .setClkdiv, .iccDisable, .iccEnable, .lfbFlush, .unlock, .lock, .writeWord, .write,
      .erasePage, .read32, .read, .halt], P i)
    (h0 : ∀ r, P (.illegal0 r)) (hE : ∀ r, P (.illegalE r)) (hF : ∀ r, P (.illegalF r))
    (hR : ∀ o r, P (.illegalRsv o r)) : P (decodeCmd w) := by
  have ite {c : Prop} [Decidable c] {a b : Instr} (ha : P a) (hb : P b) : P (if c then a else b) := by
    split
    · exact ha
    · exact hb
  have m : ∀ i, i ∈ _ → P i := hc
  exact ite (h0 _) <| ite (hE _) <| ite (hF _) <| ite (hR _ _) <| ite (m _ (by simp)) <| ite (m _ (by simp)) <|
    ite (m _ (by simp)) <| ite (m _ (by simp)) <| ite (m _ (by simp)) <| ite (m _ (by simp)) <|
    ite (m _ (by simp)) <| ite (m _ (by simp)) <| ite (m _ (by simp)) <| ite (m _ (by simp)) <|
    ite (m _ (by simp)) <| ite (m _ (by simp)) (m _ (by simp))

/-- Every word at `SEQ.CMD` selects a command. -/
theorem programOf_decodeCmd_ne_nil (w : Word) : programOf (decodeCmd w) ≠ [] := by
  refine decodeCmd_cases (fun i => programOf i ≠ []) w ?_ ?_ ?_ ?_ ?_
  · intro i hi
    fin_cases hi <;> exact List.cons_ne_nil _ _
  all_goals intros; exact List.cons_ne_nil _ _

/-- The meaning of a command is a line of its list, with some operands. -/
theorem exec_decodeCmd (w : Word) (s t : State) (h : exec (decodeCmd w) s = .next t) :
    ∃ c, runLine (programOf (decodeCmd w)) c s = .next t := by
  generalize hi : decodeCmd w = i at h ⊢
  have bad : programOf i ≠ [] := hi ▸ programOf_decodeCmd_ne_nil w
  cases i <;> first
    | exact ⟨_, h⟩
    | exact absurd rfl bad

/-- What stands at `SEQ.CMD` is read as the command it encodes. -/
theorem fetchCommand_eq (s : State) : fetchCommand s = s.seq.cmd.map decodeCmd := by
  unfold fetchCommand
  cases s.seq.cmd with
  | none => rfl
  | some w => simp [decode, decodeWith, takeWord, bytesLe32]

/-! ## Moves -/

/-- What one step of SEQ can do (R21, R276, R352). -/
theorem seqMove_next (s t : State) (h : seqMove exec s = .next t) :
    (s.seq.phase = .idle ∧ t = s)
      ∨ (s.seq.phase = .halted ∧ (∃ k < s.params.haltBranchCount, s.seq.step = some (.haltLoop k))
        ∧ t = goTo (.haltLoop 0) s)
      ∨ (s.seq.phase = .busy ∧ ∃ w c, s.seq.cmd = some w ∧ exec (decodeCmd w) s = .next t
          ∧ runLine (programOf (decodeCmd w)) c s = .next t) := by
  unfold seqMove at h
  split at h
  · simp at h
  · split at h
    · next hp => exact .inl ⟨hp, by simpa using h.symm⟩
    · next hp =>
      unfold haltLoopStep at h
      split at h
      · next k hk =>
        split at h
        · next hc => exact .inr (.inl ⟨hp, ⟨k, hc, hk⟩, by cases h; rfl⟩)
        · simp at h
      · simp at h
    · next hp =>
      rw [fetchCommand_eq] at h
      cases hw : s.seq.cmd with
      | none => simp [hw] at h
      | some w =>
        simp only [hw, Option.map_some] at h
        obtain ⟨c, hc⟩ := exec_decodeCmd w s t h
        exact .inr (.inr ⟨hp, w, c, rfl, h, hc⟩)

/-- An agent is chosen only if it has a step. -/
theorem chooseAgent_cases (s : State) :
    ∃ sch, (chooseAgent s).2 = { s with sched := sch }
      ∧ ∀ a, (chooseAgent s).1 = some a → agentReady a { s with sched := sch } = true := by
  have eager : ∀ s a, eagerAgent s = some a → agentReady a s = true := by
    intro s a h
    unfold eagerAgent at h
    split at h
    · next hr =>
      cases h
      unfold resetPending at hr
      unfold agentReady hostReady
      split at hr <;> simp_all
    · split at h
      · next hp => cases h; simp only [Bool.and_eq_true] at hp; exact hp.1
      · split at h
        · next hp => cases h; exact hp
        · split at h
          · next hp => cases h; exact hp
          · split at h
            · next hp => cases h; exact hp
            · split at h
              · next hp => cases h; exact hp
              · simp at h
  unfold chooseAgent
  cases hs : s.sched with
  | nil => exact ⟨[], by simp [← hs], fun a ha => by simpa [← hs] using eager s a ha⟩
  | cons a rest =>
    refine ⟨rest, ?_, ?_⟩
    · simp only; split <;> rfl
    · intro b hb
      simp only at hb
      split at hb
      · next hr => cases hb; exact hr
      · exact eager _ _ hb

/-- One step of the machine: nothing but the schedule moves, or one agent does. -/
theorem step_cases (s t : State) (h : step s = .next t) :
    ∃ s' sch, s' = { s with sched := sch }
      ∧ (t = s'
        ∨ (s'.seq.phase ≠ .idle ∧ seqMove exec s' = .next t)
        ∨ (s'.flc.pend = true ∧ t = flceStep s')
        ∨ (s'.icc.busy = true ∧ t = icceStep s')
        ∨ (s'.gcr.busy = true ∧ t = gcreStep s')
        ∨ (hostReady s' = true ∧ ∃ e rest, s'.hostQueue = e :: rest
            ∧ hostStep exec e { s' with hostQueue := rest } = .next t)) := by
  obtain ⟨sch, h2, h1⟩ := chooseAgent_cases s
  refine ⟨_, sch, rfl, ?_⟩
  unfold step stepWith at h
  generalize hc : chooseAgent s = ch at h h1 h2
  obtain ⟨a, s'⟩ := ch
  simp only at h2
  subst h2
  cases a with
  | none => exact .inl (by simpa using h.symm)
  | some a =>
    have hr := h1 a rfl
    cases a with
    | seq => exact .inr (.inl ⟨by simpa [agentReady] using hr, h⟩)
    | flce => exact .inr (.inr (.inl ⟨hr, by simpa [agentMove] using h.symm⟩))
    | icce => exact .inr (.inr (.inr (.inl ⟨hr, by simpa [agentMove] using h.symm⟩)))
    | gcre => exact .inr (.inr (.inr (.inr (.inl ⟨hr, by simpa [agentMove] using h.symm⟩))))
    | host =>
      refine .inr (.inr (.inr (.inr (.inr ⟨hr, ?_⟩))))
      simp only [agentMove, hostMove] at h
      split at h
      · next hq => simp [agentReady, hostReady, hq] at hr
      · next e rest hq => exact ⟨e, rest, hq, h⟩

end Sys2Proof.Machine
end

