-- ==== Sys2Proof/Laws/Commands.lean ====
section
/-! SUPPORT. The operands of a command at a line: the checks on them in arithmetic, and the meaning of a command as the line
at `SEQ.STEP`, performed with what the port holds. -/

namespace Sys2Proof.Machine

/-- The bounds check of a range given by its start and its length (R180, R183). -/
theorem checkBounds_add (a n : Nat) :
    checkBounds a (a + n) = decide (0x10000000 ≤ a ∧ 0 < n ∧ a + n ≤ 0x10080000) := by
  rw [Bool.eq_iff_iff]
  simp only [checkBounds, Bool.and_eq_true, decide_eq_true_eq]
  simp only [Config.flashBase, Config.flashTop]
  constructor
  · rintro ⟨⟨⟨h1, h2⟩, h3, h4⟩, h5⟩
    refine ⟨?_, ?_, ?_⟩ <;> omega
  · rintro ⟨h1, h2, h3⟩
    refine ⟨⟨⟨?_, ?_⟩, ?_, ?_⟩, ?_⟩ <;> omega

/-- The divisor of a clock, where it has one (R190). -/
theorem clkdivOf_eq (f : Word) :
    clkdivOf f = if (f.toNat % 1000000 = 0 ∧ 1 ≤ f.toNat / 1000000 ∧ f.toNat / 1000000 ≤ 255)
      then some (BitVec.ofNat 8 (f.toNat / 1000000)) else none := by
  unfold clkdivOf
  rw [show Config.targetClkHz = 1000000 from rfl]
  by_cases h : f.toNat % 1000000 ≠ 0
  · rw [if_pos h, if_neg]
    omega
  · rw [if_neg h]
    by_cases h2 : f.toNat / 1000000 = 0 ∨ f.toNat / 1000000 > 255
    · rw [if_pos h2, if_neg]
      omega
    · rw [if_neg h2, if_pos]
      omega

/-- The operands of a command, as the port holds them (R104). A command that reads none has none. -/
def operandsOf (i : Instr) (q : Seq) : Ctx :=
  match i with
  | .checkBounds => boundsOperands q
  | .setClkdiv => clockOperands q
  | .writeWord => wordOperands q
  | .write => writeOperands q
  | .erasePage => eraseOperands q
  | .read32 => read32Operands q
  | .read => readOperands q
  | _ => {}

/-- The meaning of a command at one of its lines: that line, with the command's operands. -/
theorem exec_eq_performLine (i : Instr) (site : Site) (l : Line) (s : State) (h1 : s.seq.step = some (.line site l))
    (h2 : Label.line site l ∈ programOf i) :
    exec i s = performLine (operandsOf i s.seq) site l (advanceStep (programOf i) (.line site l)) s := by
  cases i <;> first
    | exact absurd h2 List.not_mem_nil
    | exact runLine_of_mem _ _ s site l h1 h2

end Sys2Proof.Machine
end

