-- ==== Sys2Proof/Laws/Engines.lean ====
section
/-! SUPPORT. What the engines leave in the array and in the registers, and what a reset leaves. -/

namespace Sys2Proof.Machine

/-! ## The array after an operation -/

theorem wf_programFlash (m : Memory) (hm : Memory.wf m = true) (a : Nat) (d : FlashWord) (ok : Bool) (n : Nat) :
    Memory.wf (programFlash m a d ok n) = true := wf_memFill m hm a _ _

/-- The array after a program: the word's bytes, and every other byte as before (R165). -/
theorem memRead_programFlash (m : Memory) (hm : Memory.wf m = true) (a : Nat) (d : FlashWord) (ok : Bool)
    (n x : Nat) :
    memRead (programFlash m a d ok n) x =
      if a ≤ x ∧ x < a + 16 then programByte m a d ok n (x - a) else memRead m x :=
  memRead_memFill m hm a 16 _ x

theorem within_programFlash (lo hi : Nat) (m : Memory) (a : Nat) (d : FlashWord) (ok : Bool) (n : Nat)
    (ha : lo ≤ a ∧ a + 16 ≤ hi) (h : Memory.within lo hi m) : Memory.within lo hi (programFlash m a d ok n) :=
  within_memFill lo hi m a 16 _ ha h

theorem wf_eraseFlash (m : Memory) (hm : Memory.wf m = true) (p : Nat) (ok : Bool) (n : Nat) :
    Memory.wf (eraseFlash m p ok n) = true := by
  unfold eraseFlash
  generalize Config.pageSize = k
  split
  · exact wf_memErase m hm p k
  · exact wf_memFill m hm p k _

/-- The array after an erase: the page's bytes, and every other byte as before (R166). -/
theorem memRead_eraseFlash (m : Memory) (hm : Memory.wf m = true) (p : Nat) (ok : Bool) (n x : Nat) :
    memRead (eraseFlash m p ok n) x =
      if p ≤ x ∧ x < p + Config.pageSize then (if ok then 0xFF else Config.drawByte n (x - p))
      else memRead m x := by
  unfold eraseFlash
  generalize Config.pageSize = k
  cases ok
  · simp [memRead_memFill m hm p k]
  · simp [memRead_memErase m p k, unlistedByte, Config.erasedByte]

theorem within_eraseFlash (lo hi : Nat) (m : Memory) (p : Nat) (ok : Bool) (n : Nat)
    (hp : lo ≤ p ∧ p + Config.pageSize ≤ hi) (h : Memory.within lo hi m) :
    Memory.within lo hi (eraseFlash m p ok n) := by
  unfold eraseFlash
  generalize Config.pageSize = k at *
  split
  · exact within_memErase lo hi m p k h
  · exact within_memFill lo hi m p k _ hp h

/-! ## The steps of the engines -/

@[simp] theorem flceFinish_params (m : Memory) (a : Nat) (s : State) : (flceFinish m a s).params = s.params := rfl
@[simp] theorem flceFinish_seq (m : Memory) (a : Nat) (s : State) : (flceFinish m a s).seq = s.seq := rfl
@[simp] theorem flceFinish_flc (m : Memory) (a : Nat) (s : State) :
    (flceFinish m a s).flc = { s.flc with op := .none, done := true } := rfl
@[simp] theorem flceFinish_icc (m : Memory) (a : Nat) (s : State) : (flceFinish m a s).icc = s.icc := rfl
@[simp] theorem flceFinish_gcr (m : Memory) (a : Nat) (s : State) : (flceFinish m a s).gcr = s.gcr := rfl
@[simp] theorem flceFinish_lfb (m : Memory) (a : Nat) (s : State) : (flceFinish m a s).lfb = s.lfb := rfl
@[simp] theorem flceFinish_flash (m : Memory) (a : Nat) (s : State) : (flceFinish m a s).flash = m := rfl
@[simp] theorem flceFinish_plat (m : Memory) (a : Nat) (s : State) : (flceFinish m a s).plat = s.plat := rfl
@[simp] theorem flceFinish_hostQueue (m : Memory) (a : Nat) (s : State) :
    (flceFinish m a s).hostQueue = s.hostQueue := rfl
@[simp] theorem flceFinish_sched (m : Memory) (a : Nat) (s : State) : (flceFinish m a s).sched = s.sched := rfl

/-- What FLCE's step can do (R160). -/
theorem flceStep_cases (s : State) :
    (s.flc.op = .none ∧ flceStep s = s)
      ∨ (∃ a d ok, s.flc.op = .program a d ok
          ∧ flceStep s = flceFinish (programFlash s.flash a.toNat d ok s.draws) a.toNat s)
      ∨ (∃ p ok, s.flc.op = .erasePage p ok
          ∧ flceStep s = flceFinish (eraseFlash s.flash p ok s.draws) p s) := by
  unfold flceStep
  cases h : s.flc.op with
  | none => exact .inl ⟨rfl, rfl⟩
  | program a d ok => exact .inr (.inl ⟨a, d, ok, rfl, rfl⟩)
  | erasePage p ok => exact .inr (.inr ⟨p, ok, rfl, rfl⟩)

/-! ## Reset -/

theorem wf_resetFlash (s : State) (hm : Memory.wf s.flash = true) : Memory.wf (resetFlash s) = true := by
  unfold resetFlash
  split
  · exact hm
  · exact wf_memFill _ hm _ _ _
  · generalize Config.pageSize = k
    exact wf_memFill _ hm _ k _

/-- The array after a reset: the target of an operation in flight becomes draws, and every other byte stays (R342). -/
theorem memRead_resetFlash (s : State) (hm : Memory.wf s.flash = true) (x : Nat) :
    memRead (resetFlash s) x =
      match s.flc.op with
      | .none => memRead s.flash x
      | .program a _ _ =>
        if a.toNat ≤ x ∧ x < a.toNat + 16 then Config.drawByte s.draws (x - a.toNat) else memRead s.flash x
      | .erasePage p _ =>
        if p ≤ x ∧ x < p + Config.pageSize then Config.drawByte s.draws (x - p) else memRead s.flash x := by
  unfold resetFlash
  cases s.flc.op with
  | none => rfl
  | program a d ok => exact memRead_memFill _ hm _ 16 _ x
  | erasePage p ok =>
    simp only
    generalize Config.pageSize = k
    exact memRead_memFill _ hm p k _ x

/-- The memory after reset is in canonical form. -/
theorem wf_reset : Memory.wf State.reset.flash = true := rfl

end Sys2Proof.Machine
end

