-- ==== Sys2Proof/Laws/HostPort.lean ====
section
/-! SUPPORT. What a bus access by HOST's direction can do (spec/60_exceptions.md R334 duty 4). -/

namespace Sys2Proof.Machine

/-- A register read by HOST's direction with the clock domain on: the value goes to HOST, and the access is recorded. -/
theorem readToHost_of_clock (r : Reg) (s : State) (h : r.isFlc = true → s.plat.flcClockOn = true) :
    readToHost r s =
      .next (seeWord (busRead r s) (s.log (.record .seq .mmioR (s.params.regmap.addr r) (busRead r s)))) := by
  simp [readToHost, mmioRead_of_clock r s h]

/-- A register read by HOST's direction changes nothing but the history and what HOST saw. -/
theorem readToHost_next (r : Reg) (s t : State) (h : readToHost r s = .next t) :
    (r.isFlc = true → s.plat.flcClockOn = true)
      ∧ t = seeWord (busRead r s) (s.log (.record .seq .mmioR (s.params.regmap.addr r) (busRead r s))) := by
  obtain ⟨x, hx, ht⟩ := (andThen_eq_next _ _ _).mp h
  obtain ⟨hc, rfl⟩ := mmioRead_next r s x hx
  exact ⟨hc, by simpa using ht.symm⟩

/-- A register access decodes to the read or the write of a register. -/
theorem decodeMmio_ok (m : RegMap) (dir : Dir) (a v : Word) (i : Instr) (h : decodeMmio m dir a v = .ok i) :
    ∃ r, m.regAt a = some r ∧ i = match (generalizing := false) dir with | .r => readInstr r | .w => writeInstr r v := by
  unfold decodeMmio at h
  split at h
  · simp at h
  · split at h
    · next r hr => exact ⟨r, hr, by cases dir <;> simpa using h.symm⟩
    · split at h <;> simp at h

theorem exec_readInstr (r : Reg) (s : State) : exec (readInstr r) s = readToHost r s := by
  cases r <;> rfl

theorem exec_writeInstr (r : Reg) (v : Word) (s : State) :
    exec (writeInstr r v) s = mmioWrite r v s := by
  cases r <;> rfl

theorem decode_mmio_r (m : RegMap) (a v : Word) :
    decodeWith m (.mmio .r) (wordsToBytes [a, v]) = (decodeMmio m .r a 0).map (fun i => (i, bytesLe32 v)) := by
  simp [decodeWith, takeWord, wordsToBytes, bytesLe32]

theorem decode_mmio_w (m : RegMap) (a v : Word) :
    decodeWith m (.mmio .w) (wordsToBytes [a, v]) = (decodeMmio m .w a v).map (fun i => (i, [])) := by
  simp [decodeWith, takeWord, wordsToBytes, bytesLe32]

theorem decode_mem_r (m : RegMap) (width : Width) (a v : Word) :
    decodeWith m (.mem .r width) (wordsToBytes [a, v]) = (decodeMem .r width a 0).map (fun i => (i, bytesLe32 v)) := by
  simp [decodeWith, takeWord, wordsToBytes, bytesLe32]

theorem decode_mem_w (m : RegMap) (width : Width) (a v : Word) :
    decodeWith m (.mem .w width) (wordsToBytes [a, v]) = (decodeMem .w width a v).map (fun i => (i, [])) := by
  simp [decodeWith, takeWord, wordsToBytes, bytesLe32]

/-- A register access by HOST's direction that goes on is a read or a write of a listed register. -/
theorem hostMmio_next (dir : Dir) (a v : Word) (s t : State) (h : hostMmio exec dir a v s = .next t) :
    (∃ r, readToHost r s = .next t) ∨ ∃ r x, mmioWrite r x s = .next t := by
  unfold hostMmio at h
  cases dir
  · rw [decode_mmio_r] at h
    cases hd : decodeMmio s.params.regmap .r a 0 with
    | error e =>
      rw [hd] at h
      obtain ⟨r, -, h⟩ := (andThen_eq_next _ _ _).mp h
      simp at h
    | ok i =>
      rw [hd] at h
      obtain ⟨r, -, rfl⟩ := decodeMmio_ok _ _ _ _ _ hd
      exact .inl ⟨r, by rw [← exec_readInstr]; exact h⟩
  · rw [decode_mmio_w] at h
    cases hd : decodeMmio s.params.regmap .w a v with
    | error e =>
      rw [hd] at h
      obtain ⟨r, -, h⟩ := (andThen_eq_next _ _ _).mp h
      simp at h
    | ok i =>
      rw [hd] at h
      obtain ⟨r, -, rfl⟩ := decodeMmio_ok _ _ _ _ _ hd
      exact .inr ⟨r, v, by rw [← exec_writeInstr]; exact h⟩

/-- A flash access by HOST's direction that goes on is a flash read. -/
theorem hostMem_next (dir : Dir) (width : Width) (a v : Word) (s t : State)
    (h : hostMem exec dir width a v s = .next t) :
    (∃ b, execFlashR32 b s = .next t) ∨ ∃ b, execFlashR8 b s = .next t := by
  have store : ∀ b, memStore b s ≠ .next t := by
    intro b hb
    unfold memStore at hb
    split at hb <;> simp at hb
  unfold hostMem at h
  cases dir
  · rw [decode_mem_r] at h
    unfold decodeMem at h
    split at h
    · next i rest hd =>
      split at hd
      · cases width <;> (simp only [Except.map] at hd; cases hd)
        · exact .inr ⟨a, h⟩
        · exact .inl ⟨a, h⟩
      · simp [Except.map] at hd
    · cases width
      · obtain ⟨r, -, h⟩ := (andThen_eq_next _ _ _).mp h
        simp at h
      · obtain ⟨r, -, h⟩ := (andThen_eq_next _ _ _).mp h
        simp at h
  · rw [decode_mem_w] at h
    unfold decodeMem at h
    split at h
    · next i rest hd =>
      split at hd
      · cases width <;> (simp only [Except.map] at hd; cases hd; exact absurd h (store _))
      · simp [Except.map] at hd
    · exact absurd h (store _)

end Sys2Proof.Machine
end

