-- ==== Sys2Proof/Laws/PerInstr.lean ====
section
/-! SUPPORT. The families of statements that are made per instruction: one lemma for each constructor of `Instr`. -/

namespace Sys2Proof.Laws

/-- How many bytes arrive with an instruction of each arrival: a bus write brings an address and a data word, anything else one
word (R100, R109). -/
def arrivalLength : Arrival → Nat
  | .cmd => 4
  | .mmio .r => 4
  | .mmio .w => 8
  | .mem .r _ => 4
  | .mem .w _ => 8

/-- The encoding of an instruction has the length of its arrival. -/
def EncodedLength.Statement (i : Instr) : Prop := (encode i).length = arrivalLength i.arrival

theorem EncodedLength.checkBounds : EncodedLength.Statement .checkBounds := rfl
theorem EncodedLength.setClkdiv : EncodedLength.Statement .setClkdiv := rfl
theorem EncodedLength.iccDisable : EncodedLength.Statement .iccDisable := rfl
theorem EncodedLength.iccEnable : EncodedLength.Statement .iccEnable := rfl
theorem EncodedLength.lfbFlush : EncodedLength.Statement .lfbFlush := rfl
theorem EncodedLength.unlock : EncodedLength.Statement .unlock := rfl
theorem EncodedLength.lock : EncodedLength.Statement .lock := rfl
theorem EncodedLength.writeWord : EncodedLength.Statement .writeWord := rfl
theorem EncodedLength.write : EncodedLength.Statement .write := rfl
theorem EncodedLength.erasePage : EncodedLength.Statement .erasePage := rfl
theorem EncodedLength.read32 : EncodedLength.Statement .read32 := rfl
theorem EncodedLength.read : EncodedLength.Statement .read := rfl
theorem EncodedLength.halt : EncodedLength.Statement .halt := rfl
theorem EncodedLength.illegal0 (rsv : BitVec 28) : EncodedLength.Statement (.illegal0 rsv) := rfl
theorem EncodedLength.illegalE (rsv : BitVec 28) : EncodedLength.Statement (.illegalE rsv) := rfl
theorem EncodedLength.illegalF (rsv : BitVec 28) : EncodedLength.Statement (.illegalF rsv) := rfl
theorem EncodedLength.illegalRsv (opc : BitVec 4) (rsv : BitVec 28) : EncodedLength.Statement (.illegalRsv opc rsv) := rfl
theorem EncodedLength.flcWAddr (v : Word) : EncodedLength.Statement (.flcWAddr v) := rfl
theorem EncodedLength.flcWClkdiv (v : Word) : EncodedLength.Statement (.flcWClkdiv v) := rfl
theorem EncodedLength.flcWCtrl (v : Word) : EncodedLength.Statement (.flcWCtrl v) := rfl
theorem EncodedLength.flcWIntr (v : Word) : EncodedLength.Statement (.flcWIntr v) := rfl
theorem EncodedLength.flcWData0 (v : Word) : EncodedLength.Statement (.flcWData0 v) := rfl
theorem EncodedLength.flcWData1 (v : Word) : EncodedLength.Statement (.flcWData1 v) := rfl
theorem EncodedLength.flcWData2 (v : Word) : EncodedLength.Statement (.flcWData2 v) := rfl
theorem EncodedLength.flcWData3 (v : Word) : EncodedLength.Statement (.flcWData3 v) := rfl
theorem EncodedLength.flcRAddr : EncodedLength.Statement .flcRAddr := rfl
theorem EncodedLength.flcRClkdiv : EncodedLength.Statement .flcRClkdiv := rfl
theorem EncodedLength.flcRCtrl : EncodedLength.Statement .flcRCtrl := rfl
theorem EncodedLength.flcRIntr : EncodedLength.Statement .flcRIntr := rfl
theorem EncodedLength.flcRData0 : EncodedLength.Statement .flcRData0 := rfl
theorem EncodedLength.flcRData1 : EncodedLength.Statement .flcRData1 := rfl
theorem EncodedLength.flcRData2 : EncodedLength.Statement .flcRData2 := rfl
theorem EncodedLength.flcRData3 : EncodedLength.Statement .flcRData3 := rfl
theorem EncodedLength.iccWCtrl (v : Word) : EncodedLength.Statement (.iccWCtrl v) := rfl
theorem EncodedLength.iccRCtrl : EncodedLength.Statement .iccRCtrl := rfl
theorem EncodedLength.iccWInvalidate (v : Word) : EncodedLength.Statement (.iccWInvalidate v) := rfl
theorem EncodedLength.iccRInvalidate : EncodedLength.Statement .iccRInvalidate := rfl
theorem EncodedLength.gcrWSysctrl (v : Word) : EncodedLength.Statement (.gcrWSysctrl v) := rfl
theorem EncodedLength.gcrRSysctrl : EncodedLength.Statement .gcrRSysctrl := rfl
theorem EncodedLength.flashR32 (a : Word) : EncodedLength.Statement (.flashR32 a) := rfl
theorem EncodedLength.flashR8 (a : Word) : EncodedLength.Statement (.flashR8 a) := rfl
theorem EncodedLength.flashW (width : Width) (a : Word) (v : Word) :
    EncodedLength.Statement (.flashW width a v) := rfl

end Sys2Proof.Laws
end

