-- ==== Sys2Proof/Tests/Slice0.lean ====
section
/-!
SUPPORT. The model's own tests. Part 1: words written out from the spec's encoding, and the ill-formed terms. Part 2: one step
of each instruction, its expected result taken from spec/95_test_vectors.md or worked out by hand from the rule named. Part 3:
for each statement with hypotheses, a state and operands that meet them, clause by clause.
-/

namespace Sys2Proof.Tests

open Sys2Proof Sys2Proof.Machine

/-! ## The states of the tests -/

/-- S0 (spec/95_test_vectors.md section 0) in the general posture, every operand register written. -/
def rig : State :=
  { State.reset with
    params := { posture := .general, periphClkHz := 8000000, engineMayStall := false, haltBranchCount := 2
                ramCodeBase := 0x20000000, seqCodeInRam := true, unlockKey := 0x2, lockKey := 0x3
                pageEraseCode := 0x55, dummyReadAddr0 := 0x10000000, dummyReadAddr1 := 0x10002000
                portBinding := .memoryMapped, regmap := Config.regmap, addrWidth := 32, lfbEntries := 1
                iccLine := 16 }
    plat := { flcClockOn := true, ramLoaded := true, handleOwned := true }
    seq := { State.reset.seq with
      opa := some 0x10002000, opb := some 4, opf := some 8000000, opd0 := some 0x44332211, opd1 := some 0x88776655
      opd2 := some 0xCCBBAA99, opd3 := some 0x00FFEEDD, bufIn := some [1, 2, 3, 4] } }

/-- A map with the FLC block elsewhere, `FLC.CTRL` at its last word, `WR` and `PGE` exchanged, and bits 28 and 4 exchanged. -/
def otherMap : RegMap :=
  { Config.regmap with
    flcBase := 0x50000000, flcCtrl := 0xFFC, ctrlBits := [(0, 2), (28, 4)] }

/-- The rig built with the other map and a cache line of 32 bytes. -/
def otherRig : State := { rig with params := { rig.params with regmap := otherMap, iccLine := 32 } }

/-- A state of the rig in which SEQ is about to perform a line of the command of a word. -/
def placed (w : Word) (site : Site) (l : Line) : State :=
  { rig with seq := { rig.seq with phase := .busy, step := some (.line site l), cmd := some w } }

/-- With `OPA` the only operand that was ever written. -/
def onlyOpa (s : State) (a : Word) : State := { s with seq := { State.reset.seq with
  phase := s.seq.phase, step := s.seq.step, cmd := s.seq.cmd, opa := some a } }

/-- With another value in `SEQ.T`. -/
def withT (s : State) (v : Word) : State := { s with seq := { s.seq with t := some v } }

/-- With another address in `OPA`. -/
def withOpa (s : State) (a : Word) : State := { s with seq := { s.seq with opa := some a } }

/-- With another clock in `OPF`. -/
def withOpf (s : State) (f : Word) : State := { s with seq := { s.seq with opf := some f } }

/-- With WRITE's cursor and index, the merge buffer holding zeros. -/
def withCursor (s : State) (p i : Word) : State := { s with seq := { s.seq with p := some p, i := some i, w := some 0 } }

/-- With the flash controller's registers changed. -/
def withFlc (s : State) (f : Flc) : State := { s with flc := f }

/-- With an operation in flight. -/
def withOp (s : State) (op : FlceOp) : State := { s with flc := { s.flc with op := op } }

/-- A program of the first word, in flight. -/
def aProgram : FlceOp := .program 0x10000000 0 true

/-- With the controller unlocked and the page erase code in place. -/
def unlocked (s : State) (a : Word) : State :=
  { s with flc := { s.flc with unlock := 0x2, eraseCode := 0x55, addr := a } }

/-- An outcome is a next state of which `p` holds. -/
def answers (x : Res State) (p : State → Bool) : Bool :=
  match x with
  | .next t => p t
  | _ => false

/-- An outcome is a fault. -/
def faultOf (x : Res State) : Option Fault :=
  match x with
  | .fault r => some r
  | _ => none

/-- An outcome is a refusal. -/
def refusalOf (x : Res State) : Option Refusal :=
  match x with
  | .refused r => some r
  | _ => none

/-- The bytes decode to the instruction, with nothing left over. -/
def decodesTo (arr : Arrival) (bs : List Byte) (i : Instr) : Bool :=
  match decode arr bs with
  | .ok (j, []) => j == i
  | _ => false

/-! ## 1. Encodings -/

theorem test_decode_checkBounds : decodesTo .cmd [0x01, 0x00, 0x00, 0x00] .checkBounds = true := by
  decide
theorem test_decode_setClkdiv : decodesTo .cmd [0x02, 0x00, 0x00, 0x00] .setClkdiv = true := by
  decide
theorem test_decode_iccDisable : decodesTo .cmd [0x03, 0x00, 0x00, 0x00] .iccDisable = true := by
  decide
theorem test_decode_iccEnable : decodesTo .cmd [0x04, 0x00, 0x00, 0x00] .iccEnable = true := by
  decide
theorem test_decode_lfbFlush : decodesTo .cmd [0x05, 0x00, 0x00, 0x00] .lfbFlush = true := by
  decide
theorem test_decode_unlock : decodesTo .cmd [0x06, 0x00, 0x00, 0x00] .unlock = true := by
  decide
theorem test_decode_lock : decodesTo .cmd [0x07, 0x00, 0x00, 0x00] .lock = true := by
  decide
theorem test_decode_writeWord : decodesTo .cmd [0x08, 0x00, 0x00, 0x00] .writeWord = true := by
  decide
theorem test_decode_write : decodesTo .cmd [0x09, 0x00, 0x00, 0x00] .write = true := by
  decide
theorem test_decode_erasePage : decodesTo .cmd [0x0A, 0x00, 0x00, 0x00] .erasePage = true := by
  decide
theorem test_decode_read32 : decodesTo .cmd [0x0B, 0x00, 0x00, 0x00] .read32 = true := by
  decide
theorem test_decode_read : decodesTo .cmd [0x0C, 0x00, 0x00, 0x00] .read = true := by
  decide
theorem test_decode_halt : decodesTo .cmd [0x0D, 0x00, 0x00, 0x00] .halt = true := by
  decide
theorem test_decode_illegal0 : decodesTo .cmd [0x50, 0x00, 0x00, 0x00] (.illegal0 5) = true := by
  decide
theorem test_decode_illegalE : decodesTo .cmd [0x0E, 0x00, 0x00, 0x80] (.illegalE 0x8000000) = true := by
  decide
theorem test_decode_illegalF : decodesTo .cmd [0xFF, 0xFF, 0xFF, 0xFF] (.illegalF 0xFFFFFFF) = true := by
  decide
theorem test_decode_illegalRsv : decodesTo .cmd [0x18, 0x00, 0x00, 0x00] (.illegalRsv 8 1) = true := by
  decide
theorem test_decode_flcWAddr : decodesTo (.mmio .w) [0x00, 0x90, 0x02, 0x40, 0x78, 0x56, 0x34, 0x12] (.flcWAddr 0x12345678) = true := by
  decide
theorem test_decode_flcWClkdiv : decodesTo (.mmio .w) [0x04, 0x90, 0x02, 0x40, 0x78, 0x56, 0x34, 0x12] (.flcWClkdiv 0x12345678) = true := by
  decide
theorem test_decode_flcWCtrl : decodesTo (.mmio .w) [0x08, 0x90, 0x02, 0x40, 0x78, 0x56, 0x34, 0x12] (.flcWCtrl 0x12345678) = true := by
  decide
theorem test_decode_flcWIntr : decodesTo (.mmio .w) [0x24, 0x90, 0x02, 0x40, 0x78, 0x56, 0x34, 0x12] (.flcWIntr 0x12345678) = true := by
  decide
theorem test_decode_flcWData0 : decodesTo (.mmio .w) [0x30, 0x90, 0x02, 0x40, 0x78, 0x56, 0x34, 0x12] (.flcWData0 0x12345678) = true := by
  decide
theorem test_decode_flcWData1 : decodesTo (.mmio .w) [0x34, 0x90, 0x02, 0x40, 0x78, 0x56, 0x34, 0x12] (.flcWData1 0x12345678) = true := by
  decide
theorem test_decode_flcWData2 : decodesTo (.mmio .w) [0x38, 0x90, 0x02, 0x40, 0x78, 0x56, 0x34, 0x12] (.flcWData2 0x12345678) = true := by
  decide
theorem test_decode_flcWData3 : decodesTo (.mmio .w) [0x3C, 0x90, 0x02, 0x40, 0x78, 0x56, 0x34, 0x12] (.flcWData3 0x12345678) = true := by
  decide
theorem test_decode_flcRAddr : decodesTo (.mmio .r) [0x00, 0x90, 0x02, 0x40] .flcRAddr = true := by
  decide
theorem test_decode_flcRClkdiv : decodesTo (.mmio .r) [0x04, 0x90, 0x02, 0x40] .flcRClkdiv = true := by
  decide
theorem test_decode_flcRCtrl : decodesTo (.mmio .r) [0x08, 0x90, 0x02, 0x40] .flcRCtrl = true := by
  decide
theorem test_decode_flcRIntr : decodesTo (.mmio .r) [0x24, 0x90, 0x02, 0x40] .flcRIntr = true := by
  decide
theorem test_decode_flcRData0 : decodesTo (.mmio .r) [0x30, 0x90, 0x02, 0x40] .flcRData0 = true := by
  decide
theorem test_decode_flcRData1 : decodesTo (.mmio .r) [0x34, 0x90, 0x02, 0x40] .flcRData1 = true := by
  decide
theorem test_decode_flcRData2 : decodesTo (.mmio .r) [0x38, 0x90, 0x02, 0x40] .flcRData2 = true := by
  decide
theorem test_decode_flcRData3 : decodesTo (.mmio .r) [0x3C, 0x90, 0x02, 0x40] .flcRData3 = true := by
  decide
theorem test_decode_iccWCtrl : decodesTo (.mmio .w) [0x00, 0xA1, 0x02, 0x40, 0x01, 0x00, 0x00, 0x00] (.iccWCtrl 1) = true := by
  decide
theorem test_decode_iccRCtrl : decodesTo (.mmio .r) [0x00, 0xA1, 0x02, 0x40] .iccRCtrl = true := by
  decide
theorem test_decode_iccWInvalidate : decodesTo (.mmio .w) [0x00, 0xA7, 0x02, 0x40, 0x01, 0x00, 0x00, 0x00] (.iccWInvalidate 1) = true := by
  decide
theorem test_decode_iccRInvalidate : decodesTo (.mmio .r) [0x00, 0xA7, 0x02, 0x40] .iccRInvalidate = true := by
  decide
theorem test_decode_gcrWSysctrl : decodesTo (.mmio .w) [0x00, 0x00, 0x00, 0x40, 0x40, 0x00, 0x00, 0x00] (.gcrWSysctrl 0x40) = true := by
  decide
theorem test_decode_gcrRSysctrl : decodesTo (.mmio .r) [0x00, 0x00, 0x00, 0x40] .gcrRSysctrl = true := by
  decide
theorem test_decode_flashR32 : decodesTo (.mem .r .word) [0xFC, 0xFF, 0x07, 0x10] (.flashR32 0x1007FFFC) = true := by
  decide
theorem test_decode_flashR8 : decodesTo (.mem .r .byte) [0xFF, 0xFF, 0x07, 0x10] (.flashR8 0x1007FFFF) = true := by
  decide
theorem test_decode_flashW : decodesTo (.mem .w .byte) [0x00, 0x00, 0x00, 0x10, 0xAB, 0x00, 0x00, 0x00] (.flashW .byte 0x10000000 0xAB) = true := by
  decide

/-- A bus write whose data word is cut short, a misaligned address, an unlisted address, an address of no block and an address
outside flash are rejected by name (R109, R117, R140, R157). -/
theorem test_decode_rejects :
    (match decode (.mmio .w) [0x00, 0x90, 0x02, 0x40, 0x78] with | .error .truncated => true | _ => false)
    && (match decode (.mmio .r) [0x01, 0x90, 0x02, 0x40] with | .error .misalignedMmio => true | _ => false)
    && (match decode (.mmio .r) [0x10, 0x90, 0x02, 0x40] with | .error .unmodelledRegister => true | _ => false)
    && (match decode (.mmio .r) [0x00, 0x00, 0x00, 0x50] with | .error .outsideRegisters => true | _ => false)
    && (match decode (.mem .r .word) [0x00, 0x00, 0x08, 0x10] with | .error .outsideFlash => true | _ => false)
    = true := by decide

/-- The host's table words: a command, a register, a flash address (notes/assumptions/15.md). -/
theorem test_table_words :
    decodeTableWord 32 0x0000000D = some .halt ∧ decodeTableWord 32 0x40029024 = some .flcRIntr
      ∧ decodeTableWord 32 0x10000008 = some (.flashR32 0x10000008) := by decide

-- Each check of `Instr.wf` refuses an ill-formed term.
theorem test_wf_rsv_zero : (Instr.illegalRsv 0x8 0).wf = false := by decide
theorem test_wf_rsv_opc0 : (Instr.illegalRsv 0x0 1).wf = false := by decide
theorem test_wf_rsv_opcE : (Instr.illegalRsv 0xE 1).wf = false := by decide
theorem test_wf_rsv_opcF : (Instr.illegalRsv 0xF 1).wf = false := by decide
theorem test_wf_flashR32 : (Instr.flashR32 0x0FFFFFFC).wf = false := by decide
theorem test_wf_flashR8 : (Instr.flashR8 0x10080000).wf = false := by decide
theorem test_wf_flashW : (Instr.flashW .word 0x10080000 0).wf = false := by decide
theorem test_wf_legal : (Instr.illegalRsv 0x8 1).wf && (Instr.flashR8 0x1007FFFF).wf = true := by decide

/-! ## 2. One step of each instruction -/

-- CHECK_BOUNDS: W1 (the last byte; one byte over the top).
theorem test_checkBounds_last_byte :
    answers (exec .checkBounds
      { placed 1 .main .boundsResult with seq := { (placed 1 .main .boundsResult).seq with
          opa := some 0x1007FFFF, opb := some 0x10080000 } })
      (fun t => t.seq.result == some 1) = true := by decide
theorem test_checkBounds_over :
    answers (exec .checkBounds
      { placed 1 .main .boundsResult with seq := { (placed 1 .main .boundsResult).seq with
          opa := some 0x1007FFFF, opb := some 0x10080001 } })
      (fun t => t.seq.result == some 0) = true := by decide
-- SET_CLKDIV: V2.6 and V2.8.
theorem test_setClkdiv_255 :
    answers (exec .setClkdiv (withOpf (placed 2 .main .setDiv) 255000000)) (fun t => t.seq.div == some 0xFF)
      = true := by decide
theorem test_setClkdiv_bad :
    answers (exec .setClkdiv (withOpf (placed 2 .main .checkClock) 1500000))
      (fun t => t.seq.phase == .idle && t.seq.status == some 3 && t.flc.clkdiv == 0x64) = true := by decide
-- ICC_DISABLE: V3.1, its write.
theorem test_iccDisable :
    answers (exec .iccDisable (withT (placed 3 .main .d2) 0x00010001))
      (fun t => t.icc == { rig.icc with en := false }
        && t.history.head? == some (.record .seq .mmioW 0x4002A100 0x00010000)) = true := by decide
-- ICC_ENABLE: V3.3, its invalidation and its last write.
theorem test_iccEnable_invalidates :
    answers (exec .iccEnable (placed 4 .main .e3))
      (fun t => t.icc.busy && t.icc.invPending
        && t.history.head? == some (.record .seq .mmioW 0x4002A700 1)) = true := by decide
theorem test_iccEnable_enables :
    answers (exec .iccEnable
      { withT (placed 4 .main .e6) 0x00010000 with icc := { rig.icc with en := false } })
      (fun t => t.icc.en && t.icc.busy) = true := by decide
-- LFB_FLUSH: V3.5, `OTHER` kept, and its second dummy read.
theorem test_lfbFlush_keeps_other :
    answers (exec .lfbFlush { withT (placed 5 .main .f2) 0x81 with gcr := { other := 0x41, busy := false } })
      (fun t => t.gcr == { other := 0x41, busy := true }
        && t.history.head? == some (.record .seq .mmioW 0x40000000 0xC1)) = true := by decide
theorem test_lfbFlush_dummy :
    answers (exec .lfbFlush { placed 5 .main .f5 with lfb := some ⟨0x10000000, 0⟩ })
      (fun t => t.lfb == some ⟨0x10002000, BitVec.allOnes 128⟩) = true := by decide
-- UNLOCK: V4.2. LOCK: V4.4.
theorem test_unlock_keeps_code :
    answers (exec .unlock
      (withFlc (withT (placed 6 .main .u2) 0x30005500) { rig.flc with eraseCode := 0x55 }))
      (fun t => t.flc.unlock == 0x2 && t.flc.eraseCode == 0x55
        && t.history.head? == some (.record .seq .mmioW 0x40029008 0x20005500)) = true := by decide
theorem test_lock_any_key :
    answers (exec .lock (withFlc (withT (placed 7 .main .k2) 0x90000000) { rig.flc with unlock := 0x9 }))
      (fun t => t.flc.unlock == 0x3
        && t.history.head? == some (.record .seq .mmioW 0x40029008 0x30000000)) = true := by decide
-- WRITE_WORD: W4, and the start G7 of the trace of section 3.
/-- R242's first line reads OPA alone, so it decides although no other operand was ever written (R26; V5.3). -/
theorem test_writeWord_misaligned :
    answers (exec .writeWord (onlyOpa (placed 8 .main .checkAlign) 0x10000008))
      (fun t => t.seq.phase == .idle && t.seq.status == some 1
        && t.history == [.cmdEnd 8]) = true := by decide
theorem test_writeWord_starts :
    answers (exec .writeWord
      (withFlc (withT (placed 8 .word .g7) 0x20000000)
        { rig.flc with unlock := 0x2, addr := 0x10000010, clkdiv := 8, data0 := 0x44332211, data1 := 0x88776655
                       data2 := 0xCCBBAA99, data3 := 0x00FFEEDD }))
      (fun t => t.flc.op == .program 0x10000010 0x00FFEEDDCCBBAA998877665544332211 true
        && ctrlWord t.flc == 0x21000001) = true := by decide
-- WRITE: the splice of W6's head; a length that does not match (V6.8).
theorem test_write_splice :
    answers (exec .write
      { placed 9 .head .spliceBytes with seq := { (placed 9 .head .spliceBytes).seq with
          opb := some 2, bufIn := some [0xAB, 0xCD], p := some 0x10002005, i := some 0
          w := some (BitVec.allOnes 128) } })
      (fun t => t.seq.w == some 0xFFFFFFFFFFFFFFFFFFCDABFFFFFFFFFF) = true := by decide
theorem test_write_mismatch :
    faultOf (exec .write
      { placed 9 .main .checkShape with seq := { (placed 9 .main .checkShape).seq with opb := some 5 } })
      = some .operandMismatch := by decide
-- ERASE_PAGE: V7.1 and V2.11 (bounds before the clock).
theorem test_erasePage_starts :
    answers (exec .erasePage
      (unlocked (withT (placed 10 .page .h5) 0x20005500) 0x10002ABC))
      (fun t => t.flc.op == .erasePage 0x10002000 false
        && t.history.head? == some (.record .seq .mmioW 0x40029008 0x20005504)) = true := by decide
theorem test_erasePage_bounds :
    answers (exec .erasePage (withOpf (withOpa (placed 10 .main .checkRange) 0x20000000) 1500000))
      (fun t => t.seq.status == some 2) = true := by decide
-- READ32: V8.6 and V8.4.
theorem test_read32 :
    answers (exec .read32 { withOpa (placed 11 .main .r1) 0x10000004 with
        flash := [(0x10000004, 0x88), (0x10000005, 0x77), (0x10000006, 0x66), (0x10000007, 0x55)] })
      (fun t => t.seq.t == some 0x55667788) = true := by decide
theorem test_read32_misaligned :
    answers (exec .read32 (withOpa (placed 11 .main .checkAlign) 0x10080002)) (fun t => t.seq.status == some 1)
      = true := by decide
-- READ: V8.7, and one byte of it.
theorem test_read_empty :
    answers (exec .read
      { placed 12 .main .checkRange with seq := { (placed 12 .main .checkRange).seq with
          opa := some 0x10000000, opb := some 0, bufOut := some [7] } })
      (fun t => t.seq.status == some 2 && t.seq.bufOut == some [7]) = true := by decide
theorem test_read_byte :
    answers (exec .read { withCursor (placed 12 .main .readByte) 0 1 with
        flash := [(0x10002001, 0x5A)], lfb := none })
      (fun t => t.seq.bufOut == some [0x5A] && t.lfb.map (·.base) == some 0x10002000) = true := by decide
-- HALT: V9.1, in the hardened posture too.
theorem test_halt :
    answers (exec .halt (placed 13 .main .haltPanic))
      (fun t => t.seq == { (placed 13 .main .haltPanic).seq with
        phase := .halted, step := some (.haltLoop 0), haltCause := some .panic }) = true := by decide
-- The illegal words: V10.1 to V10.5.
theorem test_illegal_general :
    ([Instr.illegal0 0, .illegalE 0, .illegalF 0, .illegalRsv 8 1, .illegalRsv 10 0x8000000].all fun i =>
      answers (exec i (placed 0 .main .failIllegal)) (fun t => t.seq.phase == .idle && t.seq.status == some 4))
      = true := by decide
theorem test_illegal_hardened :
    answers (exec (.illegalRsv 8 1)
      { placed 0x18 .main .failIllegal with params := { rig.params with posture := .hardened } })
      (fun t => t.seq.phase == .halted && t.seq.haltCause == some (.failed .illegal) && t.seq.status == none)
      = true := by decide
-- The register surface: writes (R143 to R150).
theorem test_flcWAddr : answers (exec (.flcWAddr 0x12345678) rig) (fun t => t.flc.addr == 0x12345678) = true := by
  decide
theorem test_flcWClkdiv : answers (exec (.flcWClkdiv 0x1FF) rig) (fun t => t.flc.clkdiv == 0xFF) = true := by
  decide
-- V4.5, V4.6.
theorem test_flcWCtrl_starts :
    answers (exec (.flcWCtrl 0x20000001) (withFlc rig { rig.flc with unlock := 0x2, addr := 0x10000000 }))
      (fun t => t.flc.wr && t.flc.pend && !t.flc.af) = true := by decide
theorem test_flcWCtrl_locked :
    answers (exec (.flcWCtrl 0x30000001) rig) (fun t => t.flc == { rig.flc with af := true }) = true := by decide
-- V11.10.
theorem test_flcWIntr : refusalOf (exec (.flcWIntr 0x100) rig) = some .interruptNotModelled := by decide
theorem test_flcWIntr_clears :
    answers (exec (.flcWIntr 1) (withFlc rig { rig.flc with af := true, done := true }))
      (fun t => t.flc.done && !t.flc.af) = true := by decide
theorem test_flcWData0 : answers (exec (.flcWData0 7) rig) (fun t => t.flc == { rig.flc with data0 := 7 }) = true := by
  decide
theorem test_flcWData1 : answers (exec (.flcWData1 7) rig) (fun t => t.flc == { rig.flc with data1 := 7 }) = true := by
  decide
theorem test_flcWData2 : answers (exec (.flcWData2 7) rig) (fun t => t.flc == { rig.flc with data2 := 7 }) = true := by
  decide
theorem test_flcWData3 : answers (exec (.flcWData3 7) rig) (fun t => t.flc == { rig.flc with data3 := 7 }) = true := by
  decide
-- Reads (R151; S0's values, and `FLC.CTRL` with a program in flight, V11.8).
theorem test_flcRAddr :
    answers (exec .flcRAddr (withFlc rig { rig.flc with addr := 9 })) (fun t => t.hostSeen == .word 9) = true := by decide
theorem test_flcRClkdiv : answers (exec .flcRClkdiv rig) (fun t => t.hostSeen == .word 0x64) = true := by decide
theorem test_flcRCtrl :
    answers (exec .flcRCtrl (withFlc rig { rig.flc with unlock := 0x2, op := aProgram }))
      (fun t => t.hostSeen == .word 0x21000001) = true := by decide
theorem test_flcRIntr :
    answers (exec .flcRIntr (withFlc rig { rig.flc with af := true })) (fun t => t.hostSeen == .word 2) = true := by decide
theorem test_flcRData0 :
    answers (exec .flcRData0 (withFlc rig { rig.flc with data0 := 9 })) (fun t => t.hostSeen == .word 9) = true := by decide
theorem test_flcRData1 :
    answers (exec .flcRData1 (withFlc rig { rig.flc with data1 := 9 })) (fun t => t.hostSeen == .word 9) = true := by decide
theorem test_flcRData2 :
    answers (exec .flcRData2 (withFlc rig { rig.flc with data2 := 9 })) (fun t => t.hostSeen == .word 9) = true := by decide
theorem test_flcRData3 :
    answers (exec .flcRData3 (withFlc rig { rig.flc with data3 := 9 })) (fun t => t.hostSeen == .word 9) = true := by decide
theorem test_iccWCtrl :
    answers (exec (.iccWCtrl 0) rig) (fun t => t.icc == { rig.icc with en := false }) = true := by decide
theorem test_iccRCtrl :
    answers (exec .iccRCtrl rig) (fun t => t.hostSeen == .word 0x00010001) = true := by decide
theorem test_iccWInvalidate :
    answers (exec (.iccWInvalidate 0) rig) (fun t => t.icc.busy && t.icc.invPending) = true := by decide
theorem test_iccRInvalidate : answers (exec .iccRInvalidate rig) (fun t => t.hostSeen == .word 0) = true := by decide
theorem test_gcrWSysctrl : refusalOf (exec (.gcrWSysctrl 0x80) rig) = some .gcrOtherNotModelled := by decide
theorem test_gcrRSysctrl :
    answers (exec .gcrRSysctrl { rig with gcr := { other := 0x41, busy := true } }) (fun t => t.hostSeen == .word 0xC1)
      = true := by decide
-- The flash window: V11.11, the last word and the last byte.
theorem test_flashR32_misaligned : faultOf (exec (.flashR32 0x10000002) rig) = some .misalignedRead := by decide
theorem test_flashR32_last :
    answers (exec (.flashR32 0x1007FFFC) rig)
      (fun t => t.hostSeen == .word 0xFFFFFFFF && t.lfb.map (·.base) == some 0x1007FFF0) = true := by decide
theorem test_flashR8 :
    answers (exec (.flashR8 0x1007FFFF) { rig with flash := [(0x1007FFFF, 0x80)] }) (fun t => t.hostSeen == .word 0x80)
      = true := by decide
theorem test_flashW : faultOf (exec (.flashW .byte 0x10000000 0) rig) = some .flashStore := by decide

-- Another `REGMAP` (R9): a read, a start by a bus access, a read-modify-write, and an address that the default map lists.
theorem test_regmap_read : answers (exec .flcRCtrl otherRig) (fun t => t.hostSeen == .word 0x20000010
    && t.history == [.record .seq .mmioR 0x50000FFC 0x20000010]) = true := by decide
theorem test_regmap_start :
    answers (hostStep exec (.mmio .w 0x50000FFC 0x20005501) (unlocked otherRig 0x10002ABC))
      (fun t => t.flc.op == .erasePage 0x10002000 false) = true := by decide
theorem test_regmap_rmw :
    answers (exec .unlock { withT (placed 6 .main .u2) 0x20000010 with params := otherRig.params })
      (fun t => t.flc.unlock == 0x2 && t.history == [.record .seq .mmioW 0x50000FFC 0x20000000]) = true := by decide
theorem test_regmap_elsewhere :
    refusalOf (hostStep exec (.mmio .r 0x40029008 0) otherRig) = some .outsideSpaces := by decide
-- Another `ICC_LINE` (R9, R164).
theorem test_iccLine :
    answers (hostStep exec (.fetch 0x10000034) otherRig)
      (fun t => t.icc.lines.map (·.base) == [0x10000020] && t.lfb.map (·.base) == some 0x10000020) = true := by decide

-- The machine's step: an engine, a reset, and the placing of an instruction.
theorem test_program_and :
    answers (step (withOp { rig with flash := [(0x10000001, 0x0F)] } (.program 0x10000000 0xFC3C00 true)))
      (fun t => t.flash.take 3 == [(0x10000000, 0x00), (0x10000001, 0x0C), (0x10000002, 0xFC)] && t.flc.done
        && t.flc.op == .none && Memory.wf t.flash) = true := by decide
theorem test_reset_step :
    answers (step { placed 8 .word .g1 with hostQueue := [.reset] })
      (fun t => t.seq == State.reset.seq && t.history == [.reset] && !t.plat.flcClockOn) = true := by decide
theorem test_not_loaded :
    faultOf (step { State.reset with hostQueue := [.issue 1] }) = some .notLoaded := by decide
theorem test_withFetchWord_command :
    answers (step (State.reset.withFetchWord 32 0x0000000D)) (fun t => t.seq.haltCause == some .panic) = true := by
  decide
theorem test_withFetchWord_register :
    answers (step (State.reset.withFetchWord 32 0x40029008)) (fun t => t.hostSeen == .word 0x30000000) = true := by
  decide
theorem test_withFetchWord_flash :
    answers (step (State.reset.withFetchWord 32 0x10000004)) (fun t => t.hostSeen == .word 0xFFFFFFFF) = true := by
  decide

/-! ## 3. Witnesses for the hypotheses of the statements -/


theorem lineOperandsHeld_placed (w : Word) (site : Site) (l : Line) (i : Instr) (site' : Site) (l' : Line) :
    lineOperandsHeld i site' l' (placed w site l).seq = true := by
  cases l' <;> simp [lineOperandsHeld, placed, rig]

/-- The rig's parameters are well formed. -/
theorem rig_params : paramsWf rig.params = true := by decide

/-- The other parameters are well formed too. -/
theorem otherRig_params : paramsWf otherRig.params = true := by decide

/-- The hypothesis on a bus word of the statements on register writes, with the default map and with another. -/
theorem witness_Fields :
    rig.params.regmap.fields .flcCtrl 0x20000001 = 0x20000001 ∧ otherRig.params.regmap.fields .flcCtrl 0x20000004 = 0x20000001
      ∧ rig.params.regmap.fields .flcIntr 0x100 = 0x100 ∧ rig.params.regmap.fields .iccCtrl 1 = 1
      ∧ rig.params.regmap.fields .gcrSysctrl 0x40 = 0x40 := by decide

/-- A placed line of a command runs. -/
theorem placed_runs (w : Word) (site : Site) (l : Line) (h : Label.line site l ∈ programOf (decodeCmd w)) :
    (placed w site l).Runs (decodeCmd w) site l :=
  ⟨⟨rfl, rfl⟩, h, lineOperandsHeld_placed w site l _ _ _⟩

/-- A command just issued on the rig. -/
def issued (w : Word) : State :=
  { rig with seq := { rig.seq with phase := .busy, step := firstLine (decodeCmd w), cmd := some w } }

theorem issued_launched (w : Word) (h : operandsHeld (decodeCmd w) rig.seq = true) :
    (issued w).Launched (decodeCmd w) :=
  ⟨rig_params, rfl, rfl, rfl, h, rfl, rfl, rfl, rfl, rfl, rfl, rfl, rfl⟩

theorem witness_FlcReadsReturnTheirFields :
    rig.plat.flcClockOn = true := rfl

theorem witness_FlcPlainWritesStoreTheValue :
    rig.plat.flcClockOn = true ∧ rig.flc.op = .none := by decide

/-- The hypotheses that every clause of ProgramStartFollowsKeyAlignmentAndRange shares. -/
def programWrite (s : State) (v : Word) : Bool :=
  s.plat.flcClockOn && s.flc.op == .none && !v.getLsbD 1 && v.getLsbD 25 == s.flc.lve && v.getLsbD 0 && !v.getLsbD 2
    && v.extractLsb' 28 4 == s.flc.unlock

theorem witness_ProgramStart_locked :
    programWrite rig 0x30000001 = true ∧ rig.flc.unlock ≠ rig.params.unlockKey := by decide

theorem witness_ProgramStart_misaligned :
    (([(0x10000001 : Word), 0x1000000F, 0x10080001] : List Word).all fun a => decide (programWrite (unlocked rig a) 0x20000001 = true
      ∧ (unlocked rig a).flc.unlock = rig.params.unlockKey ∧ (unlocked rig a).flc.addr.toNat % 16 ≠ 0)) = true := by decide

theorem witness_ProgramStart_outOfRange :
    (([(0x0FFFFFF0 : Word), 0x10080000] : List Word).all fun a => decide (programWrite (unlocked rig a) 0x20000001 = true
      ∧ (unlocked rig a).flc.unlock = rig.params.unlockKey ∧ (unlocked rig a).flc.addr.toNat % 16 = 0
      ∧ ¬ (0x10000000 ≤ (unlocked rig a).flc.addr.toNat ∧ (unlocked rig a).flc.addr.toNat + 16 ≤ 0x10080000))) = true := by decide

theorem witness_ProgramStart_inRange :
    (([(0x10000000 : Word), 0x1007FFF0] : List Word).all fun a => decide (programWrite (unlocked rig a) 0x20000001 = true
      ∧ (unlocked rig a).flc.unlock = rig.params.unlockKey ∧ (unlocked rig a).flc.addr.toNat % 16 = 0
      ∧ 0x10000000 ≤ (unlocked rig a).flc.addr.toNat ∧ (unlocked rig a).flc.addr.toNat + 16 ≤ 0x10080000)) = true := by decide

/-- The hypotheses that every clause of EraseStartFollowsKeyCodeAndRange shares. -/
def eraseWrite (s : State) (v : Word) : Bool :=
  s.plat.flcClockOn && s.flc.op == .none && !v.getLsbD 1 && v.getLsbD 25 == s.flc.lve && !v.getLsbD 0 && v.getLsbD 2
    && v.extractLsb' 28 4 == s.flc.unlock && v.extractLsb' 8 8 == s.flc.eraseCode

theorem witness_EraseStart_locked :
    eraseWrite rig 0x30000004 = true ∧ rig.flc.unlock ≠ rig.params.unlockKey := by decide

theorem witness_EraseStart_code :
    eraseWrite (withFlc rig { rig.flc with unlock := 0x2 }) 0x20000004 = true
      ∧ (withFlc rig { rig.flc with unlock := 0x2 }).flc.eraseCode ≠ rig.params.pageEraseCode := by decide

theorem witness_EraseStart_outOfRange :
    (([(0x0FFFFFFF : Word), 0x10080000] : List Word).all fun a => decide (eraseWrite (unlocked rig a) 0x20005504 = true
      ∧ (unlocked rig a).flc.unlock = rig.params.unlockKey ∧ (unlocked rig a).flc.eraseCode = rig.params.pageEraseCode
      ∧ ¬ (0x10000000 ≤ (unlocked rig a).flc.addr.toNat ∧ (unlocked rig a).flc.addr.toNat < 0x10080000))) = true := by decide

theorem witness_EraseStart_inRange :
    (([(0x10000000 : Word), 0x1007FFFF] : List Word).all fun a => decide (eraseWrite (unlocked rig a) 0x20005504 = true
      ∧ (unlocked rig a).flc.unlock = rig.params.unlockKey ∧ (unlocked rig a).flc.eraseCode = rig.params.pageEraseCode
      ∧ 0x10000000 ≤ (unlocked rig a).flc.addr.toNat ∧ (unlocked rig a).flc.addr.toNat < 0x10080000)) = true := by decide

theorem witness_CtrlWrite_massErase :
    (0x30000002 : Word).getLsbD 1 = true := by decide

theorem witness_CtrlWrite_lve :
    (0x32000000 : Word).getLsbD 1 = false ∧ (0x32000000 : Word).getLsbD 25 ≠ rig.flc.lve := by decide

theorem witness_CtrlWrite_bothStarts :
    (0x30000005 : Word).getLsbD 1 = false ∧ (0x30000005 : Word).getLsbD 25 = rig.flc.lve
      ∧ (0x30000005 : Word).getLsbD 0 = true ∧ (0x30000005 : Word).getLsbD 2 = true := by decide

theorem witness_CtrlWrite_keyChange :
    (0x20000001 : Word).getLsbD 1 = false ∧ (0x20000001 : Word).getLsbD 25 = rig.flc.lve
      ∧ (0x20000001 : Word).getLsbD 0 ≠ (0x20000001 : Word).getLsbD 2
      ∧ (0x20000001 : Word).extractLsb' 28 4 ≠ rig.flc.unlock := by decide

theorem witness_CtrlWrite_codeChange :
    (0x30005504 : Word).getLsbD 1 = false ∧ (0x30005504 : Word).getLsbD 25 = rig.flc.lve
      ∧ (0x30005504 : Word).getLsbD 0 = false ∧ (0x30005504 : Word).getLsbD 2 = true
      ∧ (0x30005504 : Word).extractLsb' 28 4 = rig.flc.unlock
      ∧ (0x30005504 : Word).extractLsb' 8 8 ≠ rig.flc.eraseCode := by decide

theorem witness_CtrlWrite_noStart :
    (0x20005500 : Word).getLsbD 1 = false ∧ (0x20005500 : Word).getLsbD 25 = rig.flc.lve
      ∧ (0x20005500 : Word).getLsbD 0 = false ∧ (0x20005500 : Word).getLsbD 2 = false := by decide

theorem witness_IntrWrite_enable :
    (0x100 : Word).getLsbD 8 = true ∧ (0x200 : Word).getLsbD 9 = true := by decide

theorem witness_IntrWrite_plain :
    (0xFFFFFCFF : Word).getLsbD 8 = false ∧ (0xFFFFFCFF : Word).getLsbD 9 = false := by decide

theorem witness_IccWrites :
    ({ rig with icc := { rig.icc with busy := true } } : State).icc.busy = true ∧ rig.icc.busy = false := by decide

theorem witness_GcrWrite :
    (0x80 : Word).extractLsb' 7 25 ++ (0x80 : Word).extractLsb' 0 6 ≠ rig.gcr.other
      ∧ (0x40 : Word).extractLsb' 7 25 ++ (0x40 : Word).extractLsb' 0 6 = rig.gcr.other := by decide

theorem witness_FlcAccesses_off :
    State.reset.plat.flcClockOn = false := rfl

theorem witness_FlcAccesses_busy :
    (withOp rig aProgram).plat.flcClockOn = true ∧ (withOp rig aProgram).flc.op ≠ .none := by decide

theorem witness_BusAccess_misaligned :
    (([(1 : Word), 2, 3, 0x40029001, 0xFFFFFFFF] : List Word).all fun a => decide (a.toNat % 4 ≠ 0)) = true := by decide

theorem witness_BusAccess_clockOff :
    rig.params.regmap = Config.regmap ∧ Config.regmap.wf = true ∧ otherMap.wf = true
      ∧ (([(0x40029000 : Word), 0x40029FFC] : List Word).all fun a => decide (a.toNat % 4 = 0
        ∧ Config.regmap.flcBase.toNat ≤ a.toNat ∧ a.toNat ≤ Config.regmap.flcBase.toNat + 0xFFF
        ∧ State.reset.plat.flcClockOn = false)) = true := by decide

theorem witness_BusAccess_unlisted :
    (([(0x4002900C : Word), 0x40029FFC, 0x4002A000, 0x4002AFFC, 0x40000004, 0x400003FC] : List Word).all fun a => decide (a.toNat % 4 = 0
      ∧ rig.plat.flcClockOn = true
      ∧ ((0x40029000 ≤ a.toNat ∧ a.toNat ≤ 0x40029FFF) ∨ (0x4002A000 ≤ a.toNat ∧ a.toNat ≤ 0x4002AFFF)
        ∨ (0x40000000 ≤ a.toNat ∧ a.toNat ≤ 0x400003FF))
      ∧ ∀ r ∈ Config.allRegs, Config.regmap.addr r ≠ a)) = true
    ∧ Config.regmap.flcBase = 0x40029000 ∧ Config.regmap.iccBase = 0x4002A000 ∧ Config.regmap.gcrBase = 0x40000000
    ∧ ∀ r, r ∈ Config.allRegs := ⟨by decide, rfl, rfl, rfl, fun r => by cases r <;> decide⟩

theorem witness_FlashReads_word :
    rig.flc.op = .none ∧ rig.lfbFresh = true
      ∧ (([(0x10000000 : Word), 0x1007FFFC] : List Word).all fun a => decide (a.toNat % 4 = 0 ∧ 0x10000000 ≤ a.toNat ∧ a.toNat + 4 ≤ 0x10080000)) = true := by decide

theorem witness_FlashReads_byte :
    rig.flc.op = .none ∧ rig.lfbFresh = true
      ∧ (([(0x10000000 : Word), 0x1007FFFF] : List Word).all fun a => decide (0x10000000 ≤ a.toNat ∧ a.toNat < 0x10080000)) = true := by decide

/-- A rig whose buffer holds the last line of the array, stale. -/
def staleRig : State := { rig with lfb := some ⟨0x1007FFF0, 0⟩ }

theorem witness_StaleReads :
    staleRig.flc.op = .none ∧ (0x1007FFFC : Word).toNat % 4 = 0 ∧ 0x10000000 ≤ (0x1007FFFC : Word).toNat
      ∧ (0x1007FFFC : Word).toNat + 4 ≤ 0x10080000
      ∧ staleRig.lfb = some ⟨(0x1007FFFC : Word).toNat - (0x1007FFFC : Word).toNat % 16, 0⟩
      ∧ (0 : FlashWord) ≠ flashLine staleRig.flash ((0x1007FFFC : Word).toNat - (0x1007FFFC : Word).toNat % 16)
      ∧ 0x10000000 ≤ (0x1007FFFF : Word).toNat ∧ (0x1007FFFF : Word).toNat < 0x10080000
      ∧ staleRig.lfb = some ⟨(0x1007FFFF : Word).toNat - (0x1007FFFF : Word).toNat % 16, 0⟩ := by decide

theorem witness_InFlightReads :
    (withOp rig aProgram).flc.op ≠ .none
      ∧ (([(0x10000000 : Word), 0x1007FFFC] : List Word).all fun a => decide (a.toNat % 4 = 0 ∧ 0x10000000 ≤ a.toNat ∧ a.toNat + 4 ≤ 0x10080000 ∧ a.toNat < 0x10080000)) = true := by decide

theorem witness_FlashWindowFaults :
    (([(0x10000001 : Word), 0x1007FFFE]).all fun a => decide (a.toNat % 4 ≠ 0)) = true
      ∧ (([(0x0FFFFFFC : Word), 0x10080000]).all fun a => decide (a.toNat % 4 = 0
        ∧ ¬ (0x10000000 ≤ a.toNat ∧ a.toNat + 4 ≤ 0x10080000))) = true
      ∧ (([(0x0FFFFFFF : Word), 0x10080000]).all fun a => decide (¬ (0x10000000 ≤ a.toNat ∧ a.toNat < 0x10080000))) = true
      ∧ (([(0x10000000 : Word), 0x1007FFFF]).all fun a => decide (0x10000000 ≤ a.toNat ∧ a.toNat < 0x10080000)) = true := by decide

theorem witness_ProgramCompletion :
    Memory.wf (withOp rig aProgram).flash = true ∧ (withOp rig aProgram).flc.op = .program 0x10000000 0 true := by decide

theorem witness_EraseCompletion :
    Memory.wf (withOp rig (.erasePage 0x1007E000 true)).flash = true
      ∧ (withOp rig (.erasePage 0x1007E000 true)).flc.op = .erasePage 0x1007E000 true := by decide

theorem witness_EnginesComplete :
    ({ withOp rig aProgram with sched := [.flce] } : State).sched = [.flce] ∧ (withOp rig aProgram).flc.op ≠ .none
      ∧ ({ rig with sched := [.icce], icc := { rig.icc with busy := true } } : State).icc.busy = true
      ∧ ({ rig with sched := [.gcre], gcr := { rig.gcr with busy := true } } : State).gcr.busy = true := by decide

/-- A rig whose code is in flash. -/
def flashCode : Params := { rig.params with seqCodeInRam := false }

theorem witness_StepRunsTheCommand :
    (issued 13).seq.phase = .busy ∧ (issued 13).seq.cmd = some 13
      ∧ decode .cmd (bytesLe32 13) = .ok (.halt, []) ∧ (issued 13).sched = [] ∧ resetPending (issued 13) = false
      ∧ (issued 13).flc.op = .none ∧ (issued 13).icc.busy = false ∧ (issued 13).gcr.busy = false
      ∧ ({ issued 13 with sched := [.seq] } : State).sched = .seq :: [] ∧ (issued 13).params.seqCodeInRam = true := by
  refine ⟨rfl, rfl, rfl, ?_⟩; decide

theorem witness_StepFetchFault :
    ({ withOp (issued 13) aProgram with params := flashCode, sched := [.seq] } : State).params.seqCodeInRam = false
      ∧ (withOp (issued 13) aProgram).flc.op ≠ .none := by decide

theorem witness_StepRunsTheBusAccess :
    rig.seq.phase = .idle
      ∧ decodeWith otherRig.params.regmap (.mmio .r) (wordsToBytes [0x50000FFC, 0]) = .ok (.flcRCtrl, [0, 0, 0, 0])
      ∧ decodeWith rig.params.regmap (.mmio .r) (wordsToBytes [0x40029008, 0]) = .ok (.flcRCtrl, [0, 0, 0, 0])
      ∧ decodeWith rig.params.regmap (.mmio .w) (wordsToBytes [0x40029008, 5]) = .ok (.flcWCtrl 5, [])
      ∧ decodeWith rig.params.regmap (.mem .r .byte) (wordsToBytes [0x10000000, 0]) = .ok (.flashR8 0x10000000, [0, 0, 0, 0]) := 
  ⟨rfl, rfl, rfl, rfl, rfl⟩

theorem witness_CheckBounds :
    (placed 1 .main .boundsResult).At .main .boundsResult ∧ (placed 1 .main .boundsStatus).At .main .boundsStatus
      ∧ (placed 1 .main .boundsIdle).At .main .boundsIdle ∧ rig.seq.opa = some 0x10002000 ∧ rig.seq.opb = some 4 := ⟨⟨rfl, rfl⟩, ⟨rfl, rfl⟩, ⟨rfl, rfl⟩, rfl, rfl⟩

theorem witness_AlignmentChecks :
    (onlyOpa (placed 8 .main .checkAlign) 0x1000000F).Runs .writeWord .main .checkAlign
      ∧ (onlyOpa (placed 8 .main .checkAlign) 0x1000000F).seq.opf = none
      ∧ (placed 8 .main .checkAlign).Runs .writeWord .main .checkAlign ∧ (placed 11 .main .checkAlign).Runs .read32 .main .checkAlign ∧ (0x1000000F : Word).toNat % 16 ≠ 0
      ∧ (0x1007FFF0 : Word).toNat % 16 = 0 ∧ (0x10000003 : Word).toNat % 4 ≠ 0 ∧ (0x1007FFFC : Word).toNat % 4 = 0 := 
  ⟨⟨⟨rfl, rfl⟩, by decide, rfl⟩, rfl, placed_runs 8 _ _ (by decide), placed_runs 11 _ _ (by decide), by decide⟩

theorem witness_RangeChecks :
    (placed 8 .main .checkRange).Runs .writeWord .main .checkRange
      ∧ (placed 10 .main .checkRange).Runs .erasePage .main .checkRange
      ∧ (placed 11 .main .checkRange).Runs .read32 .main .checkRange
      ∧ (placed 12 .main .checkRange).Runs .read .main .checkRange
      ∧ (placed 9 .main .checkRange).Runs .write .main .checkRange
      ∧ (placed 9 .main .checkShape).Runs .write .main .checkShape
      ∧ rig.seq.bufIn = some [1, 2, 3, 4] ∧ rig.seq.opb = some 4 ∧ ([1, 2, 3, 4] : List Byte).length = (4 : Word).toNat
      ∧ ([1, 2, 3, 4] : List Byte).length ≠ (5 : Word).toNat := 
  ⟨placed_runs 8 _ _ (by decide), placed_runs 10 _ _ (by decide), placed_runs 11 _ _ (by decide),
    placed_runs 12 _ _ (by decide), placed_runs 9 _ _ (by decide), placed_runs 9 _ _ (by decide), by decide⟩

theorem witness_ClockChecks :
    (([(1000000 : Word), 255000000]).all fun f => decide (f.toNat % 1000000 = 0 ∧ 1 ≤ f.toNat / 1000000 ∧ f.toNat / 1000000 ≤ 255)) = true
      ∧ (([(0 : Word), 999999, 1500000, 256000000]).all fun f => decide (¬ (f.toNat % 1000000 = 0 ∧ 1 ≤ f.toNat / 1000000 ∧ f.toNat / 1000000 ≤ 255))) = true
      ∧ (placed 2 .main .checkClock).Runs .setClkdiv .main .checkClock ∧ (placed 2 .main .setDiv).Runs .setClkdiv .main .setDiv
      ∧ (placed 8 .main .checkClock).Runs .writeWord .main .checkClock ∧ (placed 8 .main .setDiv).Runs .writeWord .main .setDiv
      ∧ (placed 9 .main .checkClock).Runs .write .main .checkClock ∧ (placed 9 .main .setDiv).Runs .write .main .setDiv
      ∧ (placed 10 .main .checkClock).Runs .erasePage .main .checkClock
      ∧ (placed 10 .main .setDiv).Runs .erasePage .main .setDiv ∧ Follows .setClkdiv .main .setDiv (.line .main .l2)
      ∧ Follows .writeWord .main .setDiv (.line .word .w1) ∧ Follows .write .main .setDiv (.line .main .initCursor)
      ∧ Follows .erasePage .main .setDiv (.line .page .w1) := 
  ⟨by decide, by decide, placed_runs 2 _ _ (by decide), placed_runs 2 _ _ (by decide), placed_runs 8 _ _ (by decide),
    placed_runs 8 _ _ (by decide), placed_runs 9 _ _ (by decide), placed_runs 9 _ _ (by decide),
    placed_runs 10 _ _ (by decide), placed_runs 10 _ _ (by decide), rfl, rfl, rfl, rfl⟩

theorem witness_RmwReads :
    (placed 3 .main .d1).Runs .iccDisable .main .d1 ∧ Follows .iccDisable .main .d1 (.line .main .d2)
      ∧ (placed 4 .main .e5).Runs .iccEnable .main .e5 ∧ Follows .iccEnable .main .e5 (.line .main .e6)
      ∧ (placed 5 .main .f1).Runs .lfbFlush .main .f1 ∧ Follows .lfbFlush .main .f1 (.line .main .f2)
      ∧ (placed 6 .main .u1).Runs .unlock .main .u1 ∧ Follows .unlock .main .u1 (.line .main .u2)
      ∧ (placed 7 .main .k1).Runs .lock .main .k1 ∧ Follows .lock .main .k1 (.line .main .k2)
      ∧ (placed 8 .word .g6).Runs .writeWord .word .g6 ∧ Follows .writeWord .word .g6 (.line .word .g7)
      ∧ (placed 9 .tail .c1).Runs .write .tail .c1 ∧ Follows .write .tail .c1 (.line .tail .c2)
      ∧ (placed 10 .page .h4).Runs .erasePage .page .h4 ∧ Follows .erasePage .page .h4 (.line .page .h5)
      ∧ rig.plat.flcClockOn = true := 
  ⟨placed_runs 3 _ _ (by decide), rfl, placed_runs 4 _ _ (by decide), rfl, placed_runs 5 _ _ (by decide), rfl,
    placed_runs 6 _ _ (by decide), rfl, placed_runs 7 _ _ (by decide), rfl, placed_runs 8 _ _ (by decide), rfl,
    placed_runs 9 _ _ (by decide), rfl, placed_runs 10 _ _ (by decide), rfl, rfl⟩

/-- A rig in which every engine is at work, at a line. -/
def waiting (w : Word) (site : Site) (l : Line) (op : FlceOp) : State :=
  { placed w site l with
    flc := { rig.flc with op := op }, icc := { rig.icc with busy := true }, gcr := { rig.gcr with busy := true } }

theorem witness_Polls_wait :
    (waiting 2 .main .w1 aProgram).Runs .setClkdiv .main .w1 ∧ pollWaits .w1 (waiting 2 .main .w1 aProgram) = some (.flcCtrl, true)
      ∧ (waiting 8 .word .g8 aProgram).Runs .writeWord .word .g8 ∧ pollWaits .g8 (waiting 8 .word .g8 aProgram) = some (.flcCtrl, true)
      ∧ (waiting 10 .page .h6 (.erasePage 0x10000000 true)).Runs .erasePage .page .h6
      ∧ pollWaits .h6 (waiting 10 .page .h6 (.erasePage 0x10000000 true)) = some (.flcCtrl, true)
      ∧ (waiting 5 .main .f3 .none).Runs .lfbFlush .main .f3 ∧ pollWaits .f3 (waiting 5 .main .f3 .none) = some (.gcrSysctrl, true)
      ∧ (waiting 4 .main .e4 .none).Runs .iccEnable .main .e4 ∧ pollWaits .e4 (waiting 4 .main .e4 .none) = some (.iccCtrl, true) := 
  ⟨⟨⟨rfl, rfl⟩, by decide, rfl⟩, rfl, ⟨⟨rfl, rfl⟩, by decide, rfl⟩, rfl, ⟨⟨rfl, rfl⟩, by decide, rfl⟩, rfl,
    ⟨⟨rfl, rfl⟩, by decide, rfl⟩, rfl, ⟨⟨rfl, rfl⟩, by decide, rfl⟩, rfl⟩

theorem witness_Polls_go :
    (placed 6 .main .w1).Runs .unlock .main .w1 ∧ pollWaits .w1 (placed 6 .main .w1) = some (.flcCtrl, false)
      ∧ Follows .unlock .main .w1 (.line .main .u1)
      ∧ (placed 7 .main .w1).Runs .lock .main .w1 ∧ pollWaits .w1 (placed 7 .main .w1) = some (.flcCtrl, false)
      ∧ Follows .lock .main .w1 (.line .main .k1)
      ∧ (placed 9 .chunk .w7).Runs .write .chunk .w7 ∧ pollWaits .w7 (placed 9 .chunk .w7) = some (.flcCtrl, false)
      ∧ Follows .write .chunk .w7 (.line .chunk .k1)
      ∧ (placed 4 .main .e7).Runs .iccEnable .main .e7 ∧ pollWaits .e7 (placed 4 .main .e7) = some (.iccCtrl, false)
      ∧ Follows .iccEnable .main .e7 (.line .main .done) := 
  ⟨placed_runs 6 _ _ (by decide), rfl, rfl, placed_runs 7 _ _ (by decide), rfl, rfl, placed_runs 9 _ _ (by decide), rfl, rfl,
    placed_runs 4 _ _ (by decide), rfl, rfl⟩

/-- A line whose read-modify-write has read the register. -/
def read (w : Word) (site : Site) (l : Line) (r : Reg) : State := withT (placed w site l) (busRead r rig)

theorem read_runs (w : Word) (site : Site) (l : Line) (r : Reg) (h : Label.line site l ∈ programOf (decodeCmd w)) :
    (read w site l r).Runs (decodeCmd w) site l :=
  ⟨⟨rfl, rfl⟩, h, lineOperandsHeld_placed w site l _ _ _⟩

theorem witness_CacheGuardLines :
    (read 3 .main .d2 .iccCtrl).Runs .iccDisable .main .d2 ∧ Follows .iccDisable .main .d2 (.line .main .done)
      ∧ (read 3 .main .d2 .iccCtrl).seq.t = some (busRead .iccCtrl (read 3 .main .d2 .iccCtrl))
      ∧ (read 4 .main .e2 .iccCtrl).Runs .iccEnable .main .e2 ∧ Follows .iccEnable .main .e2 (.line .main .e3)
      ∧ (placed 4 .main .e3).Runs .iccEnable .main .e3 ∧ Follows .iccEnable .main .e3 (.line .main .e4)
      ∧ (read 4 .main .e6 .iccCtrl).Runs .iccEnable .main .e6 ∧ Follows .iccEnable .main .e6 (.line .main .e7)
      ∧ (read 5 .main .f2 .gcrSysctrl).Runs .lfbFlush .main .f2 ∧ Follows .lfbFlush .main .f2 (.line .main .f3)
      ∧ (read 5 .main .f2 .gcrSysctrl).seq.t = some (busRead .gcrSysctrl (read 5 .main .f2 .gcrSysctrl))
      ∧ rig.icc.busy = false := 
  ⟨read_runs 3 _ _ _ (by decide), rfl, rfl, read_runs 4 _ _ _ (by decide), rfl, placed_runs 4 _ _ (by decide), rfl,
    read_runs 4 _ _ _ (by decide), rfl, read_runs 5 _ _ _ (by decide), rfl, rfl, rfl⟩

theorem witness_GuardLines :
    (read 8 .word .c2 .flcIntr).Runs .writeWord .word .c2 ∧ Follows .writeWord .word .c2 (.line .word .l2)
      ∧ (read 8 .word .c2 .flcIntr).seq.t = some (busRead .flcIntr (read 8 .word .c2 .flcIntr))
      ∧ (placed 2 .main .l2).Runs .setClkdiv .main .l2 ∧ Follows .setClkdiv .main .l2 (.line .main .done)
      ∧ ({ rig.seq with div := some 0xFF } : Seq).div = some 0xFF
      ∧ (read 6 .main .u2 .flcCtrl).Runs .unlock .main .u2 ∧ Follows .unlock .main .u2 (.line .main .done)
      ∧ (read 6 .main .u2 .flcCtrl).seq.t = some (busRead .flcCtrl (read 6 .main .u2 .flcCtrl))
      ∧ (read 7 .main .k2 .flcCtrl).Runs .lock .main .k2 ∧ Follows .lock .main .k2 (.line .main .done)
      ∧ (read 7 .main .k2 .flcCtrl).seq.t = some (busRead .flcCtrl (read 7 .main .k2 .flcCtrl))
      ∧ rig.plat.flcClockOn = true ∧ rig.flc.op = .none := 
  ⟨read_runs 8 _ _ _ (by decide), rfl, rfl, placed_runs 2 _ _ (by decide), rfl, rfl, read_runs 6 _ _ _ (by decide), rfl, rfl,
    read_runs 7 _ _ _ (by decide), rfl, rfl, rfl, rfl⟩

theorem witness_WriteWordLines :
    (placed 8 .word .g1).Runs .writeWord .word .g1 ∧ Follows .writeWord .word .g1 (.line .word .g2)
      ∧ (placed 8 .word .g5).Runs .writeWord .word .g5 ∧ Follows .writeWord .word .g5 (.line .word .g6)
      ∧ (placed 8 .word .g1).seq.opa = some 0x10002000 ∧ (placed 8 .word .g2).seq.opd0 = some 0x44332211
      ∧ (placed 8 .word .g3).seq.opd1 = some 0x88776655 ∧ (placed 8 .word .g4).seq.opd2 = some 0xCCBBAA99
      ∧ (placed 8 .word .g5).seq.opd3 = some 0x00FFEEDD :=
  ⟨placed_runs 8 _ _ (by decide), rfl, placed_runs 8 _ _ (by decide), rfl, rfl, rfl, rfl, rfl, rfl⟩

theorem witness_WriteLines :
    ∀ site ∈ [Site.head, .chunk, .tail],
      (withCursor (placed 9 site .g1) 0x10002000 0).At site .g1
      ∧ Label.line site .g1 ∈ programOf .write
      ∧ lineOperandsHeld .write site .g1 (withCursor (placed 9 site .g1) 0x10002000 0).seq = true
      ∧ Follows .write site .g1 (.line site .g2)
      ∧ (site ≠ .chunk → (withCursor (placed 9 site .g1) 0x10002000 0).seq.w = some 0)
      ∧ (withCursor (placed 9 site .g1) 0x10002000 0).seq.bufIn = some [1, 2, 3, 4] := by
  intro site hs
  simp only [List.mem_cons, List.not_mem_nil, or_false] at hs
  rcases hs with rfl | rfl | rfl <;> exact ⟨⟨rfl, rfl⟩, by decide, rfl, rfl, fun _ => rfl, rfl⟩

/-- A full chunk of a WRITE with an aligned start: the merge buffer holds no value. -/
def firstChunk (l : Line) : State :=
  { placed 9 .chunk l with seq := { (placed 9 .chunk l).seq with p := some 0x10002000, i := some 0 } }

theorem witness_WriteLines_alignedChunk :
    (firstChunk .g2).Runs .write .chunk .g2 ∧ Follows .write .chunk .g2 (.line .chunk .g3)
      ∧ (firstChunk .g2).seq.p = some 0x10002000 ∧ (firstChunk .g2).seq.i = some 0 ∧ (firstChunk .g2).seq.w = none :=
  ⟨⟨⟨rfl, rfl⟩, by decide, rfl⟩, rfl, rfl, rfl, rfl⟩

theorem witness_StartLines :
    (∀ a ∈ [(0x10000000 : Word), 0x1007FFF0],
        (unlocked (withT (placed 8 .word .g7) 0x20005500) a).At .word .g7
        ∧ (unlocked (withT (placed 8 .word .g7) 0x20005500) a).seq.t
          = some (busRead .flcCtrl (unlocked (withT (placed 8 .word .g7) 0x20005500) a))
        ∧ (unlocked (withT (placed 8 .word .g7) 0x20005500) a).flc.unlock = rig.params.unlockKey
        ∧ (unlocked (withT (placed 8 .word .g7) 0x20005500) a).flc.addr.toNat % 16 = 0
        ∧ 0x10000000 ≤ (unlocked (withT (placed 8 .word .g7) 0x20005500) a).flc.addr.toNat
        ∧ (unlocked (withT (placed 8 .word .g7) 0x20005500) a).flc.addr.toNat + 16 ≤ 0x10080000)
      ∧ (∀ a ∈ [(0x10000000 : Word), 0x1007FFFF],
        (unlocked (withT (placed 10 .page .h5) 0x20005500) a).At .page .h5
        ∧ (unlocked (withT (placed 10 .page .h5) 0x20005500) a).seq.t
          = some (busRead .flcCtrl (unlocked (withT (placed 10 .page .h5) 0x20005500) a))
        ∧ (unlocked (withT (placed 10 .page .h5) 0x20005500) a).flc.unlock = rig.params.unlockKey
        ∧ (unlocked (withT (placed 10 .page .h5) 0x20005500) a).flc.eraseCode = rig.params.pageEraseCode
        ∧ 0x10000000 ≤ (unlocked (withT (placed 10 .page .h5) 0x20005500) a).flc.addr.toNat
        ∧ (unlocked (withT (placed 10 .page .h5) 0x20005500) a).flc.addr.toNat < 0x10080000)
      ∧ (placed 10 .page .h1).Runs .erasePage .page .h1 ∧ (read 10 .page .h3 .flcCtrl).Runs .erasePage .page .h3
      ∧ Follows .writeWord .word .g7 (.line .word .g8) ∧ Follows .erasePage .page .h5 (.line .page .h6)
      ∧ Follows .erasePage .page .h1 (.line .page .h2) ∧ Follows .erasePage .page .h3 (.line .page .h4)
      ∧ Label.line .word .g7 ∈ programOf .writeWord ∧ Label.line .page .h5 ∈ programOf .erasePage := by
  refine ⟨?_, ?_, placed_runs 10 _ _ (by decide), read_runs 10 _ _ _ (by decide), rfl, rfl, rfl, rfl, by decide, by decide⟩
  · intro a ha
    simp only [List.mem_cons, List.not_mem_nil, or_false] at ha
    rcases ha with rfl | rfl <;> exact ⟨⟨rfl, rfl⟩, by decide, rfl, by decide, by decide, by decide⟩
  · intro a ha
    simp only [List.mem_cons, List.not_mem_nil, or_false] at ha
    rcases ha with rfl | rfl <;> exact ⟨⟨rfl, rfl⟩, by decide, rfl, rfl, by decide, by decide⟩

theorem witness_DummyReads :
    (placed 5 .main .f4).Runs .lfbFlush .main .f4 ∧ Follows .lfbFlush .main .f4 (.line .main .f5)
      ∧ (placed 5 .main .f5).Runs .lfbFlush .main .f5 ∧ Follows .lfbFlush .main .f5 (.line .main .done)
      ∧ (placed 5 .main .f4).lfb = none ∧ rig.params.dummyReadAddr0.toNat % 4 = 0 ∧ rig.params.dummyReadAddr1.toNat % 4 = 0
      ∧ 0x10000000 ≤ rig.params.dummyReadAddr0.toNat ∧ rig.params.dummyReadAddr1.toNat + 4 ≤ 0x10080000 :=
  ⟨placed_runs 5 _ _ (by decide), rfl, placed_runs 5 _ _ (by decide), rfl, rfl, by decide⟩

theorem witness_ReadLines :
    (placed 11 .main .r1).Runs .read32 .main .r1 ∧ (withT (placed 11 .main .setResult) 5).At .main .setResult
      ∧ (placed 12 .main .initIndex).Runs .read .main .initIndex
      ∧ (withCursor (placed 12 .main .whileBytes) 0 3).At .main .whileBytes
      ∧ (withCursor (placed 12 .main .readByte) 0 3).At .main .readByte
      ∧ (withCursor (placed 12 .main .nextByte) 0 3).At .main .nextByte
      ∧ (withCursor (placed 12 .main .nextByte) 0 3).seq.i = some 3 ∧ rig.seq.opb = some 4 ∧ rig.lfbFresh = true
      ∧ 0x10000000 ≤ (0x1007FFFC : Word).toNat ∧ (0x1007FFFC : Word).toNat + (3 : Word).toNat < 0x10080000 := 
  ⟨placed_runs 11 _ _ (by decide), ⟨rfl, rfl⟩, placed_runs 12 _ _ (by decide), ⟨rfl, rfl⟩, ⟨rfl, rfl⟩, ⟨rfl, rfl⟩, by decide⟩

theorem witness_WriteCursor :
    (placed 9 .main .initCursor).At .main .initCursor ∧ (withCursor (placed 9 .main .ifHead) 0x10002005 0).At .main .ifHead
      ∧ (withCursor (placed 9 .head .bindWord) 0x10002005 0).At .head .bindWord
      ∧ (withCursor (placed 9 .head .bindCount) 0x10002005 0).At .head .bindCount
      ∧ (withCursor (placed 9 .main .whileChunks) 0 0).At .main .whileChunks
      ∧ (withCursor (placed 9 .main .ifTail) 0 0).At .main .ifTail
      ∧ (withCursor (placed 9 .head .advance) 0 0).At .head .advance
      ∧ (withCursor (placed 9 .chunk .advance) 0 0).At .chunk .advance
      ∧ (withCursor (placed 9 .tail .advance) 0 0).At .tail .advance
      ∧ (withCursor (placed 9 .tail .advance) 0 0).seq.p = some 0 ∧ (withCursor (placed 9 .tail .advance) 0 0).seq.i = some 0
      ∧ rig.seq.opa = some 0x10002000 ∧ rig.seq.opb = some 4 ∧ rig.seq.opf = some 8000000
      ∧ rig.seq.bufIn = some [1, 2, 3, 4] :=
  ⟨⟨rfl, rfl⟩, ⟨rfl, rfl⟩, ⟨rfl, rfl⟩, ⟨rfl, rfl⟩, ⟨rfl, rfl⟩, ⟨rfl, rfl⟩, ⟨rfl, rfl⟩, ⟨rfl, rfl⟩, ⟨rfl, rfl⟩, by decide⟩

theorem witness_WriteMerge :
    (withCursor (placed 9 .head .mergeCheck) 0x1007FFFF 0).At .head .mergeCheck
      ∧ (withCursor (placed 9 .head .m3) 0x1007FFFF 0).At .head .m3 ∧ Follows .write .head .m3 (.line .head .spliceBytes)
      ∧ (withCursor (placed 9 .tail .spliceBytes) 0x10000000 0).At .tail .spliceBytes
      ∧ (withCursor (placed 9 .tail .spliceBytes) 0x10000000 0).seq.w = some 0 ∧ (placed 9 .head .m0).seq.w = none
      ∧ 0x10000000 ≤ (0x1007FFFF : Word).toNat ∧ (0x1007FFFF : Word).toNat < 0x10080000
      ∧ (0x10000000 : Word).toNat % 16 = 0 ∧ rig.flc.op = .none ∧ rig.lfbFresh = true := 
  ⟨⟨rfl, rfl⟩, ⟨rfl, rfl⟩, rfl, ⟨rfl, rfl⟩, rfl, rfl, by decide⟩

theorem witness_LastLines :
    ∀ k ∈ [(2 : Word), 3, 4, 5, 6, 7, 8, 9, 10, 11, 12], (placed k .main .done).Runs (decodeCmd k) .main .done := by
  intro k hk
  simp only [List.mem_cons, List.not_mem_nil, or_false] at hk
  rcases hk with rfl | rfl | rfl | rfl | rfl | rfl | rfl | rfl | rfl | rfl | rfl <;> exact placed_runs _ _ _ (by decide)

theorem witness_HaltAndIllegal :
    (placed 13 .main .haltPanic).At .main .haltPanic ∧ (placed 0x18 .main .failIllegal).At .main .failIllegal
      ∧ ({ rig.seq with phase := .halted, step := some (.haltLoop 1) } : Seq).phase = .halted
      ∧ ({ rig.seq with phase := .halted, step := some (.haltLoop 1) } : Seq).step = some (.haltLoop 1)
      ∧ 1 < rig.params.haltBranchCount ∧ ¬ 2 < rig.params.haltBranchCount
      ∧ rig.params.seqCodeInRam = true := ⟨⟨rfl, rfl⟩, ⟨rfl, rfl⟩, rfl, rfl, by decide, by decide, rfl⟩

theorem witness_GuardCommands :
    (issued 3).Launched .iccDisable ∧ (issued 6).Launched .unlock ∧ (issued 7).Launched .lock ∧ (issued 2).Launched .setClkdiv
      ∧ (([(1 : Byte), 0xFF]).all fun d => decide ((BitVec.ofNat 32 (d.toNat * 1000000)).toNat = d.toNat * 1000000 ∧ d ≠ 0)) = true := 
  ⟨issued_launched 3 rfl, issued_launched 6 rfl, issued_launched 7 rfl, issued_launched 2 rfl, by decide⟩

theorem witness_CacheCommands :
    (issued 4).Launched .iccEnable ∧ (issued 5).Launched .lfbFlush := ⟨issued_launched 4 rfl, issued_launched 5 rfl⟩

theorem witness_ReadCommands :
    (withOpa (issued 11) 0x1007FFFC).Launched .read32 ∧ (withOpa (issued 12) 0x1007FFFC).Launched .read
      ∧ (withOpa (issued 12) 0x1007FFFC).lfbFresh = true ∧ (0x1007FFFC : Word).toNat % 4 = 0
      ∧ (0x1007FFFC : Word).toNat + (4 : Word).toNat ≤ 0x10080000 ∧ 0 < (4 : Word).toNat := 
  ⟨⟨rig_params, rfl, rfl, rfl, rfl, rfl, rfl, rfl, rfl, rfl, rfl, rfl, rfl⟩, ⟨rig_params, rfl, rfl, rfl, rfl, rfl, rfl, rfl, rfl, rfl, rfl, rfl, rfl⟩,
    rfl, by decide⟩

theorem witness_WriteWordCommand :
    (withOpa (issued 8) 0x1007FFF0).Launched .writeWord ∧ Memory.wf (withOpa (issued 8) 0x1007FFF0).flash = true
      ∧ (withOpa (issued 8) 0x1007FFF0).seq.opa = some 0x1007FFF0 ∧ (withOpa (issued 8) 0x1007FFF0).seq.opf = some 8000000
      ∧ (8000000 : Word).toNat = (8 : Byte).toNat * 1000000 ∧ (8 : Byte) ≠ 0 ∧ (0x1007FFF0 : Word).toNat % 16 = 0
      ∧ (0x1007FFF0 : Word).toNat + 16 ≤ 0x10080000 ∧ divisorRight rig.params 8 := 
  ⟨⟨rig_params, rfl, rfl, rfl, rfl, rfl, rfl, rfl, rfl, rfl, rfl, rfl, rfl⟩, rfl, rfl, rfl, rfl, by decide, by decide, by decide,
    by decide, by decide⟩

theorem witness_ErasePageCommand :
    (withOpa (issued 10) 0x1007FFFF).Launched .erasePage ∧ Memory.wf (withOpa (issued 10) 0x1007FFFF).flash = true
      ∧ (withOpa (issued 10) 0x1007FFFF).seq.opa = some 0x1007FFFF ∧ (withOpa (issued 10) 0x1007FFFF).seq.opf = some 8000000
      ∧ 0x10000000 ≤ (0x1007FFFF : Word).toNat ∧ (0x1007FFFF : Word).toNat < 0x10080000 ∧ divisorRight rig.params 8 := 
  ⟨⟨rig_params, rfl, rfl, rfl, rfl, rfl, rfl, rfl, rfl, rfl, rfl, rfl, rfl⟩, rfl, rfl, rfl, by decide, by decide, by decide, by decide⟩

theorem witness_WriteCommand :
    (withOpa (issued 9) 0x1007FFFC).Launched .write ∧ Memory.wf (withOpa (issued 9) 0x1007FFFC).flash = true
      ∧ (withOpa (issued 9) 0x1007FFFC).lfbFresh = true ∧ (withOpa (issued 9) 0x1007FFFC).seq.opa = some 0x1007FFFC
      ∧ (withOpa (issued 9) 0x1007FFFC).seq.opb = some 4 ∧ (withOpa (issued 9) 0x1007FFFC).seq.bufIn = some [1, 2, 3, 4]
      ∧ ([1, 2, 3, 4] : List Byte).length = (4 : Word).toNat ∧ divisorRight rig.params 8 ∧ ¬ divisorRight rig.params 9
      ∧ 0 < (4 : Word).toNat
      ∧ (0x1007FFFC : Word).toNat + (4 : Word).toNat ≤ 0x10080000 := 
  ⟨⟨rig_params, rfl, rfl, rfl, rfl, rfl, rfl, rfl, rfl, rfl, rfl, rfl, rfl⟩, rfl, rfl, rfl, rfl, rfl, rfl,
    ⟨by decide, by decide⟩, (fun h => absurd h.2 (by decide)), by decide, by decide⟩

theorem witness_Issue :
    State.reset.plat.ramLoaded = false ∧ ({ rig.plat with handleOwned := false } : Platform).ramLoaded = true
      ∧ ({ rig.plat with handleOwned := false } : Platform).handleOwned = false ∧ rig.plat.ramLoaded = true
      ∧ rig.plat.handleOwned = true := by decide

theorem witness_BootSteps :
    rig.lfbFresh = true ∧ rig.flc.op = .none ∧ State.reset.plat.flcClockOn = false ∧ rig.plat.flcClockOn = true
      ∧ rig.plat.handleOwned = true ∧ ({ rig.plat with handleOwned := false } : Platform).handleOwned = false := by decide

theorem witness_Reset :
    ({ withOp rig aProgram with hostQueue := [.reset] } : State).hostQueue = [.reset] ∧ rig.sched = []
      ∧ Memory.wf rig.flash = true ∧ rig.flc.op = .none ∧ (withOp rig aProgram).flc.op = .program 0x10000000 0 true
      ∧ (withOp rig (.erasePage 0x10002000 true)).flc.op = .erasePage 0x10002000 true := by decide

theorem witness_Fetch :
    (([(0x10000000 : Word), 0x1007FFFF]).all fun a => decide (0x10000000 ≤ a.toNat ∧ a.toNat < 0x10080000)) = true
      ∧ (withOp rig aProgram).flc.op ≠ .none ∧ rig.icc.en = true ∧ rig.icc.busy = false
      ∧ ({ rig.icc with busy := true } : Icc).busy = true ∧ linesFind rig.icc.lines 0x1007FFF0 = none
      ∧ linesFind [⟨0x1007FFF0, 7⟩] (0x1007FFFF - 0x1007FFFF % rig.params.iccLine) = some 7 ∧ rig.lfbFresh = true
      ∧ ({ rig.icc with en := false } : Icc).en = false := by decide

theorem witness_Unwritten :
    (∀ x ∈ [(Instr.checkBounds, Site.main, Line.boundsResult), (.setClkdiv, .main, .checkClock), (.writeWord, .main, .checkAlign),
          (.writeWord, .word, .g4), (.write, .main, .checkShape), (.write, .chunk, .g2), (.erasePage, .page, .h1),
          (.read32, .main, .r1), (.read, .main, .checkRange)],
        Label.line x.2.1 x.2.2 ∈ programOf x.1 ∧ lineOperandsHeld x.1 x.2.1 x.2.2 State.reset.seq = false)
      ∧ operandsHeld .writeWord rig.seq = true ∧ (placed 8 .word .g4).seq.step = some (.line .word .g4)
      ∧ State.reset.seq.result = none ∧ State.reset.seq.status = none ∧ State.reset.seq.bufOut = none
      ∧ ({ rig.seq with result := some 1, status := some 0, bufOut := some [] } : Seq).result = some 1 := by decide

theorem witness_Decoding :
    (∀ i ∈ [Instr.writeWord, .illegalRsv 8 1, .flcWCtrl 0xFFFFFFFF, .flashR8 0x1007FFFF], i.wf = true)
      ∧ Config.regmap.wf = true ∧ otherMap.wf = true ∧ otherMap.layout .flcAddr = []
      ∧ { otherMap with ctrlBits := [(0, 2)] }.layout .flcCtrl = [(0, 2)]
      ∧ decode (.mmio .w) [0x08, 0x90, 0x02, 0x40, 1, 2, 3, 4, 5] = .ok (.flcWCtrl 0x04030201, [5]) :=
  ⟨by decide, by decide, by decide, rfl, rfl, rfl⟩

theorem witness_IllegalWords :
    (([(1 : Word), 13]).all fun k => decide (1 ≤ k.toNat ∧ k.toNat ≤ 13)) = true ∧ (([(0 : Word), 14, 0xFFFFFFFF]).all fun k => decide (¬ (1 ≤ k.toNat ∧ k.toNat ≤ 13))) = true := by decide

/-- An erase in the middle of its command, its engine about to move. -/
def erasing : State :=
  withOp (unlocked { placed 10 .page .h6 with
      seq := { (placed 10 .page .h6).seq with div := some 0x64 }, icc := { rig.icc with en := false } } 0x10000000)
    (.erasePage 0x10000000 true)

theorem erasing_legal : erasing.Legal :=
  ⟨rfl, (by intro c h; cases h), by decide, (by intro l h; cases h), rfl, by decide, by decide⟩

theorem erasing_at (site : Site) (l : Line) (h : erasing.At site l) : site = .page ∧ l = .h6 := by
  have h2 := h.2
  simp only [erasing, withOp, unlocked, placed, Option.some.injEq, Label.line.injEq] at h2
  exact ⟨h2.1.symm, h2.2.symm⟩

theorem erasing_flow : erasing.Flow where
  params := rig_params
  phase := by decide
  quiet := by intro h hh; cases hh
  handle := fun _ => rfl
  clock := fun _ => rfl
  op := .inr (.inr ⟨.page, ⟨rfl, rfl⟩, rfl⟩)
  icce := .inl rfl
  pending := .inl rfl
  gcre := .inl rfl
  rmw := by rintro site l r h hr; obtain ⟨rfl, rfl⟩ := erasing_at _ _ h; cases hr
  off := fun _ _ _ _ _ _ => rfl
  offEnable := fun _ _ _ _ _ => rfl
  onEnable := by intro site h; cases (erasing_at _ _ h).2
  emptied := fun _ _ _ _ _ => .inl rfl
  noError := fun _ _ _ _ _ _ => rfl
  divisor := fun _ _ _ _ _ _ => rfl
  code := fun _ _ _ _ => rfl
  unlocked := fun _ _ _ _ _ _ => rfl
  locked := by rintro site l h _ h1 _; obtain ⟨rfl, rfl⟩ := erasing_at _ _ h; exact absurd h1 (by decide)
  lfb := .inl rfl
  dummy := by intro site h; cases (erasing_at _ _ h).2
  coherent := by intro h; cases h

/-- The hypotheses of StepsKeepTheLegalShape, StepsKeepTheFlow and OnlyAnEndingOperationChangesFlash. -/
theorem witness_StepsKeep :
    erasing.Legal ∧ erasing.Flow ∧ ∃ t, step erasing = .next t ∧ erasing.flc.op ≠ .none ∧ t.flc.op = .none := 
  ⟨erasing_legal, erasing_flow, _, rfl, by decide, rfl⟩

theorem rig_flow : rig.Flow where
  params := rig_params
  phase := by decide
  quiet := by intro h hh; cases hh
  handle := fun _ => rfl
  clock := fun _ => rfl
  op := .inl rfl
  icce := .inl rfl
  pending := .inl rfl
  gcre := .inl rfl
  rmw := fun _ _ _ h => absurd h.1 (by decide)
  off := fun _ _ h => absurd h.1 (by decide)
  offEnable := fun _ _ h => absurd h.1 (by decide)
  onEnable := fun _ h => absurd h.1 (by decide)
  emptied := fun _ _ h => absurd h.1 (by decide)
  noError := fun _ _ h => absurd h.1 (by decide)
  divisor := fun _ _ h => absurd h.1 (by decide)
  code := fun _ _ h => absurd h.1 (by decide)
  unlocked := fun _ _ h => absurd h.1 (by decide)
  locked := fun _ _ h => absurd h.1 (by decide)
  lfb := .inl rfl
  dummy := fun _ h => absurd h.1 (by decide)
  coherent := fun _ => rfl

theorem witness_IdleIsQuiet :
    rig.Flow ∧ Reaches 0 rig rig ∧ rig.seq.phase = .idle ∧ rig.icc.en = true := ⟨rig_flow, rfl, rfl, rfl⟩

/-- The last poll of WRITE_WORD's envelope, about to go on. -/
def ending : State :=
  { placed 8 .word .e7 with seq := { (placed 8 .word .e7).seq with div := some 0x64 } }

theorem ending_at (site : Site) (l : Line) (h : ending.At site l) : site = .word ∧ l = .e7 := by
  have h2 := h.2
  simp only [ending, placed, Option.some.injEq, Label.line.injEq] at h2
  exact ⟨h2.1.symm, h2.2.symm⟩

theorem ending_flow : ending.Flow where
  params := rig_params
  phase := by decide
  quiet := by intro h hh; cases hh
  handle := fun _ => rfl
  clock := fun _ => rfl
  op := .inl rfl
  icce := .inl rfl
  pending := .inl rfl
  gcre := .inl rfl
  rmw := by rintro site l r h hr; obtain ⟨rfl, rfl⟩ := ending_at _ _ h; cases hr
  off := by rintro site l h _ _ h1; obtain ⟨rfl, rfl⟩ := ending_at _ _ h; exact absurd h1 (by decide)
  offEnable := by rintro site l h _ h1; obtain ⟨rfl, rfl⟩ := ending_at _ _ h; exact absurd h1 (by decide)
  onEnable := fun _ _ => rfl
  emptied := fun _ _ _ _ _ => .inl rfl
  noError := fun _ _ _ _ _ _ => rfl
  divisor := fun _ _ _ _ _ _ => rfl
  code := by rintro site l h h1; obtain ⟨rfl, rfl⟩ := ending_at _ _ h; exact absurd h1 (by decide)
  unlocked := by rintro site l h _ _ h1; obtain ⟨rfl, rfl⟩ := ending_at _ _ h; exact absurd h1 (by decide)
  locked := fun _ _ _ _ _ _ => rfl
  lfb := .inl rfl
  dummy := by intro site h; cases (ending_at _ _ h).2
  coherent := fun _ => rfl

theorem witness_EnvelopeEnds :
    ending.Flow ∧ Site.word ≠ .main ∧ ending.At .word .e7
      ∧ ∃ t, step ending = .next t ∧ t.seq.phase = .busy ∧ t.seq.step ≠ ending.seq.step := 
  ⟨ending_flow, by decide, ⟨rfl, rfl⟩, _, rfl, rfl, by decide⟩

/-- A halted machine at the halt loop's second branch. -/
def stopped : State := { rig with seq := { rig.seq with phase := .halted, step := some (.haltLoop 1) } }

theorem witness_Halted :
    stopped.seq.phase = .halted ∧ resetPending stopped = false ∧ ∃ t, Reaches 2 stopped t := ⟨rfl, rfl, _, rfl⟩

theorem witness_OperationsStart :
    (unlocked (withT (placed 8 .word .g7) 0x20005500) 0x1007FFF0).flc.op = .none
      ∧ ∃ t, step (unlocked (withT (placed 8 .word .g7) 0x20005500) 0x1007FFF0) = .next t ∧ t.flc.op ≠ .none := 
  ⟨rfl, _, rfl, by decide⟩

/-- Every clause of HostMovesOnlyWhileIdleOrToReset: a ready head under the schedule, under the eager schedule, a head that must
wait for SEQ, and a fetch that waits for ICCE. -/
theorem witness_HostMoves :
    ({ rig with sched := [.host], hostQueue := [.issue 13] } : State).sched = .host :: [] ∧ rig.seq.phase = .idle
      ∧ rig.sched = [] ∧ rig.flc.op = .none ∧ rig.icc.busy = false ∧ rig.gcr.busy = false
      ∧ (issued 13).seq.phase ≠ .idle ∧ HostStep.issue 13 ≠ .reset
      ∧ (∃ t, step { issued 13 with hostQueue := [.issue 13] } = .next t)
      ∧ ({ rig.icc with busy := true } : Icc).busy = true ∧ rig.icc.en = true
      ∧ ∃ t, step { rig with hostQueue := [.fetch 0x10000000], icc := { rig.icc with busy := true } } = .next t :=
  ⟨rfl, rfl, rfl, rfl, rfl, rfl, by decide, by decide, ⟨_, rfl⟩, rfl, rfl, _, rfl⟩

end Sys2Proof.Tests
end

section
/-! SUPPORT. Which agent a step gives the move to, what SEQ's move is while a command runs, and what a poll does: the
equations behind the statements of the family of spec/00_scope.md. -/

namespace Sys2Proof.Machine

/-- `PEND` says whether an operation is in flight (R35). -/
theorem pend_eq_decide (f : Flc) : f.pend = decide (f.op ≠ .none) := by
  rw [Bool.eq_iff_iff, decide_eq_true_eq, ne_eq, ← pend_eq_false_iff, Bool.not_eq_false]

/-! ## The agent that moves (R10) -/

/-- An agent that the schedule names moves, if it has a step. -/
theorem step_of_scheduled {s : State} {a : Agent} {rest : List Agent} (hs : s.sched = a :: rest)
    (ha : agentReady a { s with sched := rest } = true) : step s = agentMove exec a { s with sched := rest } := by
  simp [step, stepWith, chooseAgent, hs, ha]

/-- With the schedule used up, the agent of the eager schedule moves. -/
theorem step_of_eager {s : State} {a : Agent} (hs : s.sched = []) (ha : eagerAgent s = some a) :
    step s = agentMove exec a s := by
  simp [step, stepWith, chooseAgent, hs, ha]

/-- While a command runs, the eager schedule gives the move to SEQ when no reset is pending and no engine is at work. -/
theorem eagerAgent_seq {s : State} (hp : s.seq.phase = .busy) (hr : resetPending s = false) (hop : s.flc.op = .none)
    (hicc : s.icc.busy = false) (hgcr : s.gcr.busy = false) : eagerAgent s = some .seq := by
  simp [eagerAgent, pend_eq_decide, hp, hr, hop, hicc, hgcr]

/-! ## The move of SEQ (R21, R352) -/

/-- The instruction that SEQ runs is the one that `SEQ.CMD`'s bytes decode to. -/
theorem fetchCommand_of_decode {s : State} {w : Word} {i : Instr} {more : List Byte} (hw : s.seq.cmd = some w)
    (hi : decode .cmd (bytesLe32 w) = .ok (i, more)) : fetchCommand s = some i := by
  simp [fetchCommand, hw, hi]

/-- SEQ runs the instruction at `SEQ.CMD`, unless its code would come from a flash that is at work. -/
theorem seqMove_of_busy (run : Instr → State → Res State) {s : State} {i : Instr} (hp : s.seq.phase = .busy)
    (hi : fetchCommand s = some i) (hc : s.params.seqCodeInRam = true ∨ s.flc.op = .none) :
    seqMove run s = run i s := by
  have hram : (!s.params.seqCodeInRam && s.flc.pend) = false := by
    rcases hc with hc | hc <;> simp [pend_eq_decide, hc]
  simp [seqMove, hram, hp, hi]

/-- Code that is not in RAM cannot be fetched while an operation is in flight. -/
theorem seqMove_of_code_in_flash (run : Instr → State → Res State) {s : State} (hc : s.params.seqCodeInRam = false)
    (hop : s.flc.op ≠ .none) : seqMove run s = .fault .fetchDuringFlashOp := by
  simp [seqMove, pend_eq_decide, hc, hop]

/-- Settles O18: the schedule, or with it used up the eager schedule, gives the step to SEQ, and SEQ's move is the
instruction at `SEQ.CMD` or the fault of R352. -/
theorem stepRunsTheCommandAtTheCommandRegister : Obligations.StepRunsTheCommandAtTheCommandRegister := by
  intro s w i hp hw hi
  have ready (rest : List Agent) : agentReady .seq { s with sched := rest } = true := by simp [agentReady, hp]
  refine ⟨fun rest hs hc => ?_, fun rest hs hc hop => ?_, fun hs hr hop hicc hgcr => ?_⟩
  · rw [step_of_scheduled hs (ready rest)]
    exact seqMove_of_busy exec hp (fetchCommand_of_decode hw hi) hc
  · rw [step_of_scheduled hs (ready rest)]
    exact seqMove_of_code_in_flash exec hc hop
  · rw [step_of_eager hs (eagerAgent_seq hp hr hop hicc hgcr)]
    exact seqMove_of_busy exec hp (fetchCommand_of_decode hw hi) (.inr hop)

/-! ## The polls (R14, R120) -/

/-- A poll with its clock domain on: one read of the register, and then the next line or the same one. -/
theorem pollReg_of_clock {r : Reg} {s : State} (p : Word → Bool) (goOn : State → Res State)
    (h : r.isFlc = true → s.plat.flcClockOn = true) :
    pollReg r p goOn s =
      if p (readReg r s) then goOn (s.afterRead r (busRead r s)) else .next (s.afterRead r (busRead r s)) := by
  simp only [pollReg, mmioRead_of_clock r s h, andThen_next, fields_busRead]
  rfl

/-- `SEQ.STEP` moves to the line that follows. -/
theorem advanceStep_of_follows {i : Instr} {site : Site} {l : Line} {n : Label} (h : Follows i site l n) (s : State) :
    advanceStep (programOf i) (.line site l) s = .next (s.movedTo n) := by
  unfold Follows at h
  simp only [advanceStep, h]
  rfl

/-- Each poll reads the register that `pollWaits` names, and its condition on the value read is that it need not wait
(R220, R241, R246, R202, R204). -/
theorem performLine_of_pollWaits {l : Line} {s : State} {r : Reg} {waits : Bool} (h : pollWaits l s = some (r, waits))
    (c : Ctx) (site : Site) (goOn : State → Res State) :
    ∃ p : Word → Bool, performLine c site l goOn s = pollReg r p goOn s ∧ p (readReg r s) = !waits := by
  cases l
  case w1 | w7 =>
    cases h
    exact ⟨fun t => !ctrlPend t, rfl, congrArg not ((ctrlPend_ctrlWord s.flc).trans (pend_eq_decide s.flc))⟩
  case g8 => cases h; exact ⟨fun t => !ctrlWr t, rfl, congrArg not (ctrlWr_ctrlWord s.flc)⟩
  case h6 => cases h; exact ⟨fun t => !ctrlPge t, rfl, congrArg not (ctrlPge_ctrlWord s.flc)⟩
  case f3 => cases h; exact ⟨fun t => !sysctrlFlush t, rfl, congrArg not (sysctrlFlush_sysctrlWord s.gcr)⟩
  case e4 | e7 => cases h; exact ⟨iccRdy, rfl, iccRdy_iccWord s.icc⟩
  all_goals cases h

/-- Settles O25: every poll is the one read of `pollReg`, whose two branches are the two clauses. -/
theorem pollLinesWaitWithoutBound : Obligations.PollLinesWaitWithoutBound := by
  rintro s i site l r waits ⟨⟨-, hstep⟩, hmem, -⟩ hpoll hclock
  obtain ⟨p, hline, hp⟩ := performLine_of_pollWaits hpoll (operandsOf i s.seq) site
    (advanceStep (programOf i) (.line site l))
  rw [exec_eq_performLine i site l s hstep hmem, hline, pollReg_of_clock p _ hclock, hp]
  constructor
  · rintro rfl
    rfl
  · rintro rfl n hn
    exact advanceStep_of_follows hn _

end Sys2Proof.Machine
end

section
/-! SUPPORT. What the machine's step does to the shape of a state: the frame of every move but the completion of FLCE and the
reset, and from it the statements of the family of spec/10_state.md on the legal shape and on the array. -/

namespace Sys2Proof.Machine

/-! ## The cache's map (R38) -/

/-- The canonical form of the cache's map, as a statement about the first line and the rest. -/
theorem linesWf_cons (l : CacheLine) (ls : List CacheLine) :
    linesWf (l :: ls) = true ↔
      lineAddr l.base = true ∧ (∀ l' ∈ ls, l.base < l'.base) ∧ linesWf ls = true := by
  induction ls generalizing l with
  | nil => simp [linesWf]
  | cons m ls ih =>
    simp only [linesWf, Bool.and_eq_true, decide_eq_true_eq, List.forall_mem_cons]
    constructor
    · rintro ⟨⟨hl, hlm⟩, hm⟩
      obtain ⟨-, hrest, -⟩ := (ih m).mp hm
      exact ⟨hl, ⟨hlm, fun l' hl' => hlm.trans (hrest l' hl')⟩, hm⟩
    · rintro ⟨hl, ⟨hlm, -⟩, hm⟩
      exact ⟨⟨hl, hlm⟩, hm⟩

/-- The lines of a map after an insertion: the new one, and lines it had before. -/
theorem mem_linesInsert {l : CacheLine} {ls : List CacheLine} {la : Nat} {d : FlashWord}
    (h : l ∈ linesInsert ls la d) : l = ⟨la, d⟩ ∨ l ∈ ls := by
  induction ls with
  | nil => exact .inl (List.mem_singleton.mp h)
  | cons m ls ih =>
    unfold linesInsert at h
    split at h
    · exact List.mem_cons.mp h
    · split at h
      · exact (List.mem_cons.mp h).imp_right (List.mem_cons_of_mem _)
      · rcases List.mem_cons.mp h with rfl | h
        · exact .inr List.mem_cons_self
        · exact (ih h).imp_right (List.mem_cons_of_mem _)

/-- Holding one more flash line keeps the canonical form of the cache's map. -/
theorem linesWf_linesInsert {ls : List CacheLine} {la : Nat} (d : FlashWord) (h : linesWf ls = true)
    (hla : lineAddr la = true) : linesWf (linesInsert ls la d) = true := by
  induction ls with
  | nil => exact hla
  | cons l ls ih =>
    obtain ⟨hl, hrest, hls⟩ := (linesWf_cons l ls).mp h
    unfold linesInsert
    split
    · next hlt =>
      refine (linesWf_cons _ _).mpr ⟨hla, List.forall_mem_cons.mpr ⟨hlt, fun l' hl' => ?_⟩, h⟩
      exact hlt.trans (hrest l' hl')
    · next hge =>
      split
      · next heq => exact (linesWf_cons _ _).mpr ⟨hla, fun l' hl' => heq ▸ hrest l' hl', hls⟩
      · next hne =>
        refine (linesWf_cons _ _).mpr ⟨hl, fun l' hl' => ?_, ih hls⟩
        rcases mem_linesInsert hl' with rfl | hl'
        · exact lt_of_le_of_ne (Nat.le_of_not_lt hge) (Ne.symm hne)
        · exact hrest l' hl'

/-- A flash address rounds down to a flash line at the cache's line size (R164). -/
theorem lineAddr_alignDown_of_iccLineOk {n a : Nat} (hn : iccLineOk n = true) (h : Config.flashBase ≤ a)
    (h' : a < Config.flashTop) : lineAddr (alignDown a n) = true := by
  simp only [iccLineOk, Bool.and_eq_true, decide_eq_true_eq] at hn
  obtain ⟨hn, hbase⟩ := hn
  have hdown : alignDown a n = n * (a / n) := Nat.sub_eq_of_eq_add (Nat.div_add_mod a n).symm
  have haligned : alignDown a n % 16 = 0 := by
    rw [hdown]
    exact Nat.mod_eq_zero_of_dvd (Dvd.dvd.mul_right (Nat.dvd_of_mod_eq_zero hn) _)
  have hlow : Config.flashBase ≤ alignDown a n := by
    rw [hdown, ← Nat.mul_div_cancel' (Nat.dvd_of_mod_eq_zero hbase)]
    exact Nat.mul_le_mul_left n (Nat.div_le_div_right h)
  have hhigh : alignDown a n < Config.flashTop := (Nat.sub_le a _).trans_lt h'
  exact (lineAddr_iff _).mpr ⟨haligned, hlow, hhigh⟩

theorem inFlash_iff (a : Word) : Config.inFlash a = true ↔ Config.flashBase ≤ a.toNat ∧ a.toNat < Config.flashTop :=
  decide_eq_true_iff

/-! ## Where the step counter fits the phase (R20, R21) -/

/-- A label of a command's pseudocode. -/
def Label.isLine : Label → Bool
  | .line _ _ => true
  | .haltLoop _ => false

/-- A command's list holds lines alone; the halt loop is in none (R21, R276). -/
theorem programOf_all_isLine (i : Instr) : (programOf i).all Label.isLine = true := by
  cases i <;> rfl

theorem phaseLegal_of_idle {s : State} (hp : s.seq.phase = .idle) (hs : s.seq.step = none) : s.phaseLegal = true := by
  simp [State.phaseLegal, hp, hs]

theorem phaseLegal_of_busy {s : State} {w : Word} {a : Label} (hp : s.seq.phase = .busy) (hs : s.seq.step = some a)
    (hw : s.seq.cmd = some w) (ha : a ∈ programOf (decodeCmd w)) : s.phaseLegal = true := by
  cases a with
  | line site l => simpa [State.phaseLegal, hp, hs, hw] using ha
  | haltLoop k => exact absurd (List.all_eq_true.mp (programOf_all_isLine _) _ ha) Bool.false_ne_true

theorem phaseLegal_of_halted {s : State} {k : Nat} (hp : s.seq.phase = .halted) (hs : s.seq.step = some (.haltLoop k))
    (hk : k < s.params.haltBranchCount) : s.phaseLegal = true := by
  simpa [State.phaseLegal, hp, hs] using hk

/-- The fit of the step counter reads the phase, the counter, the command word and the parameters. -/
theorem phaseLegal_congr {s t : State} (hparams : t.params = s.params) (hphase : t.seq.phase = s.seq.phase)
    (hstep : t.seq.step = s.seq.step) (hcmd : t.seq.cmd = s.seq.cmd) : t.phaseLegal = s.phaseLegal := by
  simp only [State.phaseLegal, hparams, hphase, hstep, hcmd]

/-- The halt loop has a first position (R9). -/
theorem haltBranchCount_pos {p : Params} (h : paramsWf p = true) : 0 < p.haltBranchCount :=
  lt_of_lt_of_le Nat.two_pos ((paramsWf_iff p).mp h).1

/-- Where a line of the running command leaves the step counter. -/
theorem LineEnd.phaseLegal {w : Word} {s t : State} (h : LineEnd (programOf (decodeCmd w)) s t)
    (hp : s.seq.phase = .busy) (hw : s.seq.cmd = some w) (hparams : paramsWf s.params = true)
    (hs : s.phaseLegal = true) : t.phaseLegal = true := by
  have hframe := h.frame
  cases h with
  | moved s' l ht hf hphase hl =>
    subst ht
    exact phaseLegal_of_busy (hphase.trans hp) rfl (hf.cmd.trans hw) hl
  | stayed hf hphase hstep => exact (phaseLegal_congr hf.params hphase hstep hf.cmd).trans hs
  | ended _ hphase hstep => exact phaseLegal_of_idle hphase hstep
  | halted hf hphase hstep =>
    exact phaseLegal_of_halted hphase hstep (by rw [hf.params]; exact haltBranchCount_pos hparams)

/-! ## The frame of a move -/

/-- What every move but the end of an operation and the reset does to the shape of a state: the parameters and the array stay,
an operation that starts is legal, and with well-formed parameters a line that the buffer or the cache takes is a flash line,
and a step counter that fits the phase goes on fitting it. -/
structure ShapeFrame (s t : State) : Prop where
  params : t.params = s.params
  flash : t.flash = s.flash
  op : t.flc.op = s.flc.op ∨ t.flc.op.legal = true
  lfb : t.lfb = s.lfb ∨ t.lfb = none ∨ ∃ l, t.lfb = some l ∧ (paramsWf s.params = true → lineAddr l.base = true)
  lines : t.icc.lines = s.icc.lines ∨ t.icc.lines = []
    ∨ ∃ la d, t.icc.lines = linesInsert s.icc.lines la d ∧ (paramsWf s.params = true → lineAddr la = true)
  phase : paramsWf s.params = true → s.phaseLegal = true → t.phaseLegal = true

/-- A move that leaves alone everything that the shape speaks of. -/
theorem ShapeFrame.of_eq {s t : State} (hparams : t.params = s.params) (hflash : t.flash = s.flash)
    (hop : t.flc.op = s.flc.op) (hlfb : t.lfb = s.lfb) (hlines : t.icc.lines = s.icc.lines)
    (hphase : t.seq.phase = s.seq.phase) (hstep : t.seq.step = s.seq.step) (hcmd : t.seq.cmd = s.seq.cmd) :
    ShapeFrame s t where
  params := hparams
  flash := hflash
  op := .inl hop
  lfb := .inl hlfb
  lines := .inl hlines
  phase _ h := (phaseLegal_congr hparams hphase hstep hcmd).trans h

/-- The frame of a line of a command, or of a bus access, is a frame of the shape. -/
theorem ShapeFrame.of_seqFrame {s t : State} (h : SeqFrame s t)
    (hphase : paramsWf s.params = true → s.phaseLegal = true → t.phaseLegal = true) : ShapeFrame s t where
  params := h.params
  flash := h.flash
  op := h.op
  lfb := h.lfb.imp_right (Or.imp_right fun ⟨l, hl, ha⟩ => ⟨l, hl, fun _ => ha⟩)
  lines := .inl h.lines
  phase := hphase

/-- A bus access moves no step counter. -/
theorem ShapeFrame.of_access {s t : State} (h : SeqFrame s t) (hseq : t.seq = s.seq) : ShapeFrame s t :=
  .of_seqFrame h fun _ hs => (phaseLegal_congr h.params (by rw [hseq]) (by rw [hseq]) h.cmd).trans hs

/-- What HOST saw is no part of the shape. -/
theorem ShapeFrame.seeWord {s t : State} (v : Word) (h : ShapeFrame s t) : ShapeFrame s (seeWord v t) :=
  ⟨h.params, h.flash, h.op, h.lfb, h.lines, h.phase⟩

/-! ## The moves of SEQ and of the engines -/

/-- One step of SEQ (R21, R276). -/
theorem ShapeFrame.seqMove {s t : State} (h : seqMove exec s = .next t) : ShapeFrame s t := by
  rcases seqMove_next s t h with ⟨-, rfl⟩ | ⟨hp, -, rfl⟩ | ⟨hp, w, c, hw, -, hrun⟩
  · exact .of_eq rfl rfl rfl rfl rfl rfl rfl rfl
  · exact .of_seqFrame (.goTo _ s) fun hparams _ => phaseLegal_of_halted hp rfl (haltBranchCount_pos hparams)
  · obtain ⟨site, l, -, hmem, hline⟩ := runLine_next _ c s t hrun
    have hend := performLine_next c _ site l s t (fun l' => jumpTarget_mem _ site l l' hmem) hline
    exact .of_seqFrame hend.frame (hend.phaseLegal hp hw)

/-- ICCE's step may empty the cache (R161). -/
theorem ShapeFrame.icceStep (s : State) : ShapeFrame s (icceStep s) := by
  unfold Machine.icceStep
  split
  · refine ⟨rfl, rfl, .inl rfl, .inl rfl, ?_, fun _ h => h⟩
    cases hinv : s.icc.invPending
    · exact .inl rfl
    · exact .inr (.inl rfl)
  · exact .of_eq rfl rfl rfl rfl rfl rfl rfl rfl

/-- GCRE's step empties the cache (R162). -/
theorem ShapeFrame.gcreStep (s : State) : ShapeFrame s (gcreStep s) := by
  unfold Machine.gcreStep
  split
  · exact ⟨rfl, rfl, .inl rfl, .inl rfl, .inr (.inl rfl), fun _ h => h⟩
  · exact .of_eq rfl rfl rfl rfl rfl rfl rfl rfl

/-! ## The moves of HOST -/

/-- A read of a line (R163) fills the buffer and changes nothing else of the shape. -/
theorem ShapeFrame.lineRead {la : Nat} {s : State} (hla : paramsWf s.params = true → lineAddr la = true) :
    ShapeFrame s (lineRead la s).2 := by
  obtain ⟨d, n, hread, -⟩ := lineRead_cases la s
  rw [hread]
  exact ⟨rfl, rfl, .inl rfl, .inr (.inr ⟨_, rfl, hla⟩), .inl rfl, fun _ h => h⟩

/-- The RAM copy may leave one line of the array in the buffer (R346). -/
theorem ShapeFrame.loadRam (s : State) : ShapeFrame s (loadRam s) := by
  unfold Machine.loadRam
  simp only
  split
  · exact .of_eq rfl rfl rfl rfl rfl rfl rfl rfl
  · next k hk =>
    split
    · exact ⟨rfl, rfl, .inl rfl, .inr (.inl rfl), .inl rfl, fun _ h => h⟩
    · have hline : lineAddr (Config.flashBase + 16 * k.toNat) = true := by
        rw [lineAddr_iff, Config.flashBase]
        omega
      obtain ⟨hp, hf, ho, hb, hl, hphase⟩ := ShapeFrame.lineRead
        (s := { s with plat := { s.plat with ramLoaded := true }, draws := s.draws + 1 }) fun _ => hline
      exact ⟨hp, hf, ho, hb, hl, hphase⟩

/-- What HOST's fetch does to the shape (R164): a line it misses in the cache goes there from the array or the buffer. -/
theorem ShapeFrame.fetchLine {a : Word} {s t : State} (h : fetchLine a s = .next t) : ShapeFrame s t := by
  unfold Machine.fetchLine at h
  split at h
  · simp at h
  · next hin =>
    obtain ⟨hlow, hhigh⟩ := (inFlash_iff a).mp (not_not.mp hin)
    have hla : paramsWf s.params = true → lineAddr (alignDown a.toNat s.params.iccLine) = true := fun hw =>
      have ⟨_, _, _, _, _, _, hicc⟩ := (paramsWf_iff _).mp hw
      lineAddr_alignDown_of_iccLineOk hicc hlow hhigh
    split at h
    · simp at h
    · simp only at h
      obtain ⟨d, n, hread, -⟩ := lineRead_cases (alignDown a.toNat s.params.iccLine) s
      rw [hread] at h
      split at h
      · split at h
        · cases h
          exact .of_eq rfl rfl rfl rfl rfl rfl rfl rfl
        · split at h
          · cases h
            exact .of_eq rfl rfl rfl rfl rfl rfl rfl rfl
          · cases h
            exact ⟨rfl, rfl, .inl rfl, .inr (.inr ⟨_, rfl, hla⟩), .inr (.inr ⟨_, d, rfl, hla⟩), fun _ h => h⟩
      · cases h
        exact ⟨rfl, rfl, .inl rfl, .inr (.inr ⟨_, rfl, hla⟩), .inl rfl, fun _ h => h⟩

/-- The issue of a command puts its first line into the step counter (R330). -/
theorem ShapeFrame.issueCommand {v : Word} {s t : State} (h : issueCommand v s = .next t) : ShapeFrame s t := by
  unfold Machine.issueCommand at h
  split at h
  · simp at h
  · split at h
    · simp at h
    · cases h
      have hfirst : firstLine (decodeCmd v) = some ((programOf (decodeCmd v)).head (programOf_decodeCmd_ne_nil v)) :=
        List.head?_eq_some_head _
      exact ⟨rfl, rfl, .inl rfl, .inl rfl, .inl rfl, fun _ _ =>
        phaseLegal_of_busy rfl hfirst rfl (List.head_mem _)⟩

/-- A register access by HOST's direction (R334 duty 4). -/
theorem ShapeFrame.hostMmio {dir : Dir} {a v : Word} {s t : State} (h : hostMmio exec dir a v s = .next t) :
    ShapeFrame s t := by
  rcases hostMmio_next dir a v s t h with ⟨r, h⟩ | ⟨r, x, h⟩
  · obtain ⟨-, rfl⟩ := readToHost_next r s t h
    exact .seeWord _ (.of_access (.log s _) rfl)
  · exact .of_access (.mmioWrite h) (seq_of_mmioWrite h)

/-- A flash access by HOST's direction (R334 duty 4). -/
theorem ShapeFrame.hostMem {dir : Dir} {width : Width} {a v : Word} {s t : State}
    (h : hostMem exec dir width a v s = .next t) : ShapeFrame s t := by
  rcases hostMem_next dir width a v s t h with ⟨b, h⟩ | ⟨b, h⟩
  all_goals
    obtain ⟨x, hx, ht⟩ := (andThen_eq_next _ _ _).mp h
    cases ht
  · exact .seeWord _ (.of_access (.memReadWord hx) (seq_of_memReadWord hx))
  · exact .seeWord _ (.of_access (.memReadByte hx) (seq_of_memReadByte hx))

/-- One step of HOST other than a reset (R330 to R335). -/
theorem ShapeFrame.hostStep {e : HostStep} {s t : State} (he : e ≠ .reset) (h : hostStep exec e s = .next t) :
    ShapeFrame s t := by
  cases e with
  | powerOnFlc => cases h; exact .of_eq rfl rfl rfl rfl rfl rfl rfl rfl
  | loadRam => cases h; exact .loadRam s
  | createHandle =>
    simp only [Machine.hostStep, createHandle] at h
    split at h
    · simp at h
    · split at h
      · simp at h
      · cases h; exact .of_eq rfl rfl rfl rfl rfl rfl rfl rfl
  | setOperand p v => cases h; cases p <;> exact .of_eq rfl rfl rfl rfl rfl rfl rfl rfl
  | setBufIn bs => cases h; exact .of_eq rfl rfl rfl rfl rfl rfl rfl rfl
  | issue v => exact .issueCommand h
  | readPort p =>
    obtain ⟨v, -, h⟩ := (need_eq_next _ _ _).mp h
    cases h
    exact .of_eq rfl rfl rfl rfl rfl rfl rfl rfl
  | readBufOut =>
    obtain ⟨bs, -, h⟩ := (need_eq_next _ _ _).mp h
    cases h
    exact .of_eq rfl rfl rfl rfl rfl rfl rfl rfl
  | fetch a => exact .fetchLine h
  | reset => exact absurd rfl he
  | mmio dir a v => exact .hostMmio h
  | mem dir width a v => exact .hostMem h

/-! ## One step of the machine -/

/-- What one step of the machine does to the shape: it ends an operation in flight, it resets, or it keeps the frame. The
machine has used up an entry of the schedule by then, and of HOST's queue where HOST moves. -/
theorem step_shape {s t : State} (h : step s = .next t) :
    ShapeFrame s t
      ∨ (∃ sch, s.flc.op ≠ .none ∧ t = flceStep { s with sched := sch })
      ∨ ∃ sch rest, t = resetStep { s with sched := sch, hostQueue := rest } := by
  have unscheduled {sch rest} (hf : ShapeFrame { s with sched := sch, hostQueue := rest } t) : ShapeFrame s t :=
    ⟨hf.params, hf.flash, hf.op, hf.lfb, hf.lines, hf.phase⟩
  obtain ⟨s', sch, rfl, h⟩ := step_cases s t h
  rcases h with rfl | ⟨-, h⟩ | ⟨hp, rfl⟩ | ⟨-, rfl⟩ | ⟨-, rfl⟩ | ⟨-, e, rest, -, h⟩
  · exact .inl (.of_eq rfl rfl rfl rfl rfl rfl rfl rfl)
  · exact .inl (unscheduled (ShapeFrame.seqMove h))
  · exact .inr (.inl ⟨sch, by simpa [pend_eq_decide] using hp, rfl⟩)
  · exact .inl (unscheduled (ShapeFrame.icceStep _))
  · exact .inl (unscheduled (ShapeFrame.gcreStep _))
  · by_cases he : e = .reset
    · subst he
      cases h
      exact .inr (.inr ⟨sch, rest, rfl⟩)
    · exact .inl (unscheduled (ShapeFrame.hostStep he h))

/-! ## The legal shape -/

theorem State.Legal.of_shapeFrame {s t : State} (hs : s.Legal) (h : ShapeFrame s t) : t.Legal where
  flash := by rw [h.flash]; exact hs.flash
  inFlash := by rw [h.flash]; exact hs.inFlash
  op := by
    rcases h.op with e | hop
    · rw [e]; exact hs.op
    · exact hop
  lfb := by
    intro l hl
    rcases h.lfb with e | e | ⟨l', e, hl'⟩
    · exact hs.lfb l (e ▸ hl)
    · cases e ▸ hl
    · cases e ▸ hl
      exact hl' hs.params
  lines := by
    rcases h.lines with e | e | ⟨la, d, e, hla⟩ <;> rw [e]
    · exact hs.lines
    · rfl
    · exact linesWf_linesInsert d hs.lines (hla hs.params)
  params := by rw [h.params]; exact hs.params
  phase := h.phase hs.params hs.phase

/-- The bytes of a legal program lie in the window (R147). -/
theorem FlceOp.legal_program {a : Word} {d : FlashWord} {ok : Bool} (h : (FlceOp.program a d ok).legal = true) :
    Config.flashBase ≤ a.toNat ∧ a.toNat + Config.wordSize ≤ Config.flashTop := by
  simp only [FlceOp.legal, lineAddr_iff] at h
  simp only [Config.flashBase, Config.wordSize, Config.flashTop]
  omega

/-- The bytes of a legal erase lie in the window (R148). -/
theorem FlceOp.legal_erasePage {p : Nat} {ok : Bool} (h : (FlceOp.erasePage p ok).legal = true) :
    Config.flashBase ≤ p ∧ p + Config.pageSize ≤ Config.flashTop := by
  simp only [FlceOp.legal, Bool.and_eq_true, decide_eq_true_eq] at h
  simp only [Config.flashBase, Config.pageSize, Config.flashTop] at *
  omega

/-- The end of an operation changes the array, which keeps its form and its window, and leaves nothing in flight. -/
theorem State.Legal.flceFinish {s : State} {m : Memory} (hs : s.Legal) (hm : Memory.wf m = true)
    (hwin : Memory.within Config.flashBase Config.flashTop m) (target : Nat) : (flceFinish m target s).Legal :=
  ⟨hm, hwin, rfl, hs.lfb, hs.lines, hs.params, hs.phase⟩

/-- FLCE's step keeps the legal shape (R160). -/
theorem State.Legal.flceStep {s : State} (hs : s.Legal) : (flceStep s).Legal := by
  have hop := hs.op
  rcases flceStep_cases s with ⟨-, e⟩ | ⟨a, d, ok, ho, e⟩ | ⟨p, ok, ho, e⟩ <;> rw [e]
  · exact hs
  · rw [ho] at hop
    exact hs.flceFinish (wf_programFlash _ hs.flash _ _ _ _)
      (within_programFlash _ _ _ _ _ _ _ (FlceOp.legal_program hop) hs.inFlash) _
  · rw [ho] at hop
    exact hs.flceFinish (wf_eraseFlash _ hs.flash _ _ _)
      (within_eraseFlash _ _ _ _ _ _ (FlceOp.legal_erasePage hop) hs.inFlash) _

/-- A reset in the middle of an operation draws bytes in the window only (R342). -/
theorem State.Legal.within_resetFlash {s : State} (hs : s.Legal) :
    Memory.within Config.flashBase Config.flashTop (resetFlash s) := by
  have hop := hs.op
  unfold resetFlash
  split
  · exact hs.inFlash
  · next a d ok ho =>
    rw [ho] at hop
    exact within_memFill _ _ _ _ _ _ (FlceOp.legal_program hop) hs.inFlash
  · next p ok ho =>
    rw [ho] at hop
    exact within_memFill _ _ _ _ _ _ (FlceOp.legal_erasePage hop) hs.inFlash

/-- The reset step leaves a legal state (R340, R342). -/
theorem State.Legal.resetStep {s : State} (hs : s.Legal) : (resetStep s).Legal where
  flash := wf_resetFlash s hs.flash
  inFlash := hs.within_resetFlash
  op := rfl
  lfb _ h := nomatch h
  lines := rfl
  params := hs.params
  phase := rfl

/-- Settles O53: a step keeps the frame of the shape, ends an operation on a legal target, or resets. -/
theorem stepsKeepTheLegalShape : Obligations.StepsKeepTheLegalShape := by
  intro s t hs h
  have rescheduled (sch rest) : State.Legal { s with sched := sch, hostQueue := rest } :=
    ⟨hs.flash, hs.inFlash, hs.op, hs.lfb, hs.lines, hs.params, hs.phase⟩
  rcases step_shape h with hframe | ⟨sch, -, rfl⟩ | ⟨sch, rest, rfl⟩
  · exact hs.of_shapeFrame hframe
  · exact (rescheduled sch s.hostQueue).flceStep
  · exact (rescheduled sch rest).resetStep

/-! ## Where the array changes -/

theorem flceStep_op (s : State) : (flceStep s).flc.op = .none := by
  rcases flceStep_cases s with ⟨ho, e⟩ | ⟨a, d, ok, -, e⟩ | ⟨p, ok, -, e⟩ <;> rw [e]
  · exact ho
  all_goals rfl

theorem resetFlash_of_none {s : State} (h : s.flc.op = .none) : resetFlash s = s.flash := by
  simp only [resetFlash, h]

/-- Settles O58: the frame of the shape keeps the array, FLCE's step ends an operation, and a reset ends one or keeps the
array. -/
theorem onlyAnEndingOperationChangesFlash : Obligations.OnlyAnEndingOperationChangesFlash := by
  intro s t h
  rcases step_shape h with hframe | ⟨sch, hop, rfl⟩ | ⟨sch, rest, rfl⟩
  · exact .inl hframe.flash
  · exact .inr ⟨hop, flceStep_op _⟩
  · by_cases hop : s.flc.op = .none
    · exact .inl (resetFlash_of_none (s := { s with sched := sch, hostQueue := rest }) hop)
    · exact .inr ⟨hop, rfl⟩

end Sys2Proof.Machine
end

section
/-! SUPPORT. The operands that each line of a command reads (spec/10_state.md R26, spec/30_encoding.md R104): which lines read
one, what such a line does where one is missing, and what the port gives it. -/

namespace Sys2Proof.Machine

/-- The lines that read an operand of their command, at some site (R104). -/
def Line.readsOperand : Line → Bool
  | .boundsResult | .checkShape | .checkAlign | .checkRange | .checkClock | .setDiv | .initCursor | .bindCount
  | .spliceBytes | .advance | .whileChunks | .ifTail | .r1 | .whileBytes | .readByte
  | .g1 | .g2 | .g3 | .g4 | .g5 | .h1 => true
  | _ => false

/-- The labels of the lines that read an operand. -/
def Label.readsOperand : Label → Bool
  | .line _ l => l.readsOperand
  | .haltLoop _ => false

/-- The lines of each command that read an operand, in the order of its pseudocode (R104, R181, R191, R241 to R247, R270,
R271). -/
def operandLines : Instr → List Label
  | .checkBounds => atSite .main [.boundsResult]
  | .setClkdiv => atSite .main [.checkClock, .setDiv]
  | .writeWord => atSite .main [.checkAlign, .checkRange, .checkClock, .setDiv] ++ atSite .word [.g1, .g2, .g3, .g4, .g5]
  | .write =>
    atSite .main [.checkShape, .checkRange, .checkClock, .setDiv, .initCursor]
      ++ atSite .head [.bindCount, .spliceBytes, .g1, .g2, .g3, .g4, .g5, .advance]
      ++ atSite .main [.whileChunks] ++ atSite .chunk [.g1, .g2, .g3, .g4, .g5, .advance]
      ++ atSite .main [.ifTail] ++ atSite .tail [.spliceBytes, .g1, .g2, .g3, .g4, .g5, .advance]
  | .erasePage => atSite .main [.checkRange, .checkClock, .setDiv] ++ atSite .page [.h1]
  | .read32 => atSite .main [.checkAlign, .checkRange, .r1]
  | .read => atSite .main [.checkRange, .whileBytes, .readByte]
  | _ => []

theorem filter_readsOperand_programOf (i : Instr) : (programOf i).filter Label.readsOperand = operandLines i := by
  cases i <;> rfl

/-- A line that reads an operand stands in the table of its command. -/
theorem mem_operandLines {i : Instr} {site : Site} {l : Line} (h : Label.line site l ∈ programOf i)
    (hl : l.readsOperand = true) : Label.line site l ∈ operandLines i := by
  rw [← filter_readsOperand_programOf]
  exact List.mem_filter.mpr ⟨h, hl⟩

/-- The operand behind lane `k` holds a value: OPD in WRITE_WORD, the buffer in a full chunk of WRITE (R107, R244). -/
def laneHeld (c : Ctx) (site : Site) (k : Nat) : Bool :=
  (site != .word || (c.lanes.getD k none).isSome) && (site != .chunk || c.bytes.isSome)

/-- The operands that one line reads hold values, as it has them in its context. -/
def lineCtxHeld (c : Ctx) (site : Site) (l : Line) : Bool :=
  match l with
  | .boundsResult | .checkRange => c.addr.isSome && c.rangeEnd.isSome
  | .checkShape => c.bytes.isSome && c.len.isSome
  | .checkAlign | .initCursor | .r1 | .readByte | .h1 => c.addr.isSome
  | .checkClock | .setDiv => c.freq.isSome
  | .bindCount | .whileChunks | .ifTail | .whileBytes => c.len.isSome
  | .spliceBytes => c.bytes.isSome && (site == .chunk || c.len.isSome)
  | .advance => site == .chunk || c.len.isSome
  | .g1 => site != .word || c.addr.isSome
  | .g2 => laneHeld c site 0
  | .g3 => laneHeld c site 1
  | .g4 => laneHeld c site 2
  | .g5 => laneHeld c site 3
  | _ => true

theorem need_eq_fault_of_isSome_eq_false {α β : Type} {x : Option α} (f : α → Res β) (h : x.isSome = false) :
    need x f = .fault .unwrittenRegister := by
  rw [Option.isSome_eq_false_iff, Option.isNone_iff_eq_none] at h
  rw [h, need_none]

/-- Two reads in a row fault where either register holds no value. -/
theorem need_need_eq_fault {α β γ : Type} {x : Option α} {y : Option β} (f : α → β → Res γ)
    (h : (x.isSome && y.isSome) = false) : (need x fun a => need y (f a)) = .fault .unwrittenRegister := by
  cases x with
  | none => rfl
  | some a => exact need_eq_fault_of_isSome_eq_false (f a) h

theorem partLen_eq_fault {c : Ctx} {site : Site} (h : (site == .chunk || c.len.isSome) = false) :
    partLen c site = .fault .unwrittenRegister := by
  obtain ⟨hsite, hlen⟩ := Bool.or_eq_false_iff.mp h
  cases site
  case chunk => cases hsite
  all_goals exact need_eq_fault_of_isSome_eq_false _ hlen

theorem laneLine_eq_fault {c : Ctx} {site : Site} {k : Nat} (r : Reg) (s : State) (h : laneHeld c site k = false) :
    laneLine c site k r s = .fault .unwrittenRegister := by
  have hlane : wordLane c site k s = .fault .unwrittenRegister := by
    obtain hopd | hbuf := Bool.and_eq_false_iff.mp h
    · cases site
      case word => exact need_eq_fault_of_isSome_eq_false _ hopd
      all_goals cases hopd
    · cases site
      case chunk => exact need_eq_fault_of_isSome_eq_false _ hbuf
      all_goals cases hbuf
  simp [laneLine, hlane]

/-- A line that lacks an operand faults before it does anything (R26). -/
theorem performLine_eq_fault {c : Ctx} {site : Site} {l : Line} (goOn : State → Res State) (s : State)
    (h : lineCtxHeld c site l = false) : performLine c site l goOn s = .fault .unwrittenRegister := by
  cases l
  case boundsResult | checkShape | checkRange => exact need_need_eq_fault _ h
  case checkAlign | initCursor | r1 | h1 | checkClock | setDiv | bindCount | whileChunks | ifTail | whileBytes =>
    exact need_eq_fault_of_isSome_eq_false _ h
  case readByte => simp [performLine, readByteLine, need_eq_fault_of_isSome_eq_false _ h]
  case spliceBytes =>
    simp only [performLine, spliceLine]
    cases hb : c.bytes with
    | none => rfl
    | some bs =>
      simp only [lineCtxHeld, hb] at h
      simp [partLen_eq_fault h]
  case advance => simp [performLine, advanceCursor, partLen_eq_fault h]
  case g1 =>
    obtain ⟨hsite, haddr⟩ := Bool.or_eq_false_iff.mp h
    have hword : site = .word := by simpa using hsite
    subst hword
    simp [performLine, wordAddress, need_eq_fault_of_isSome_eq_false _ haddr]
  case g2 | g3 | g4 | g5 => simp [performLine, laneLine_eq_fault _ s h]
  all_goals cases h

/-- A range's end needs both the address and the length (R105). -/
@[simp] theorem isSome_rangeStop (a n : Option Word) : (rangeStop a n).isSome = (a.isSome && n.isSome) := by
  cases a <;> cases n <;> rfl

/-- What holds of the site and the line of a label, if it is a line's. -/
def Label.OfLine (P : Site → Line → Prop) : Label → Prop
  | .line site l => P site l
  | .haltLoop _ => True

/-- The context of a command gives each line of its table what the port holds (R104). -/
theorem lineCtxHeld_operandLines (i : Instr) (q : Seq) :
    ∀ a ∈ operandLines i, a.OfLine fun site l => lineCtxHeld (operandsOf i q) site l = lineOperandsHeld i site l q := by
  cases i
  case checkBounds | setClkdiv | writeWord | write | erasePage | read32 | read =>
    simp [operandLines, atSite, Label.OfLine, lineCtxHeld, laneHeld, lineOperandsHeld, operandsOf, boundsOperands,
      clockOperands, wordOperands, writeOperands, eraseOperands, read32Operands, readOperands, bne, beq_eq_decide]
  all_goals exact List.forall_mem_nil _

/-- A line of a command has its operands in its context exactly where the port holds them (R104). -/
theorem lineCtxHeld_operandsOf (q : Seq) {i : Instr} {site : Site} {l : Line} (h : Label.line site l ∈ programOf i) :
    lineCtxHeld (operandsOf i q) site l = lineOperandsHeld i site l q := by
  cases hl : l.readsOperand with
  | false => cases l <;> first | rfl | cases hl
  | true => exact lineCtxHeld_operandLines i q _ (mem_operandLines h hl)

/-- Where the operands that R104 lists for a command hold values, so do those of each line of its table. -/
theorem lineOperandsHeld_operandLines {i : Instr} {q : Seq} (h : operandsHeld i q = true) :
    ∀ a ∈ operandLines i, a.OfLine fun site l => lineOperandsHeld i site l q = true := by
  cases i
  case checkBounds | setClkdiv | writeWord | write | erasePage | read32 | read =>
    simp only [operandsHeld, Bool.and_eq_true] at h
    simp [operandLines, atSite, Label.OfLine, lineOperandsHeld, h]
  all_goals exact List.forall_mem_nil _

/-- Where the operands that R104 lists for a command hold values, no line of it lacks one. -/
theorem lineOperandsHeld_of_operandsHeld {i : Instr} {q : Seq} {site : Site} {l : Line} (h : operandsHeld i q = true)
    (hmem : Label.line site l ∈ programOf i) : lineOperandsHeld i site l q = true := by
  cases hl : l.readsOperand with
  | false => cases l <;> first | rfl | cases hl
  | true => exact lineOperandsHeld_operandLines h _ (mem_operandLines hmem hl)

/-- HOST's read of a port register (R25, R26): the value goes to HOST, or the read faults. -/
theorem hostStep_readPort (p : Port) (s : State) :
    (portValue p s.seq = none → hostStep exec (.readPort p) s = .fault .unwrittenRegister)
      ∧ ∀ v, portValue p s.seq = some v → hostStep exec (.readPort p) s = .next { s with hostSeen := .word v } := by
  simp only [hostStep, readPort]
  constructor
  · intro h
    rw [h, need_none]
  · intro v h
    rw [h, need_some]
    rfl

/-- Settles O47: each line of a command faults where its context lacks an operand that it reads, and the context holds what the
port does. -/
theorem unwrittenRegistersFault : Obligations.UnwrittenRegistersFault := by
  intro s
  refine ⟨fun i site l hstep hmem => ⟨fun hheld => ?_, fun hall => lineOperandsHeld_of_operandsHeld hall hmem⟩,
    ?_, fun h => ?_, fun bs h => ?_⟩
  · rw [exec_eq_performLine i site l s hstep hmem]
    exact performLine_eq_fault _ s ((lineCtxHeld_operandsOf s.seq hmem).trans hheld)
  · simp only [List.forall_mem_cons]
    exact ⟨hostStep_readPort .cmd s, hostStep_readPort .opa s, hostStep_readPort .opb s, hostStep_readPort .opf s,
      hostStep_readPort .opd0 s, hostStep_readPort .opd1 s, hostStep_readPort .opd2 s, hostStep_readPort .opd3 s,
      hostStep_readPort .result s, hostStep_readPort .status s, List.forall_mem_nil _⟩
  · simp only [hostStep, readBufOut, h, need_none]
  · simp only [hostStep, readBufOut, h, need_some]

end Sys2Proof.Machine
end

section
/-! SUPPORT. The state after reset (spec/10_state.md R44, spec/70_reset_and_hazards.md R343, R348): the base case of the
invariants. -/

namespace Sys2Proof.Machine

/-- No line is about to be performed while SEQ is Idle. -/
theorem State.not_at_of_idle {s : State} (h : s.seq.phase = .idle) (site : Site) (l : Line) : ¬ s.At site l := by
  rintro ⟨hbusy, -⟩
  rw [h] at hbusy
  cases hbusy

/-- Reset leaves SEQ Idle (R343). -/
theorem reset_not_at (site : Site) (l : Line) : ¬ State.reset.At site l := State.not_at_of_idle rfl site l

/-- The reset state has an empty array, buffer and cache, nothing in flight and no step counter (R44, R343). -/
theorem reset_legal : State.reset.Legal where
  flash := wf_reset
  inFlash _ h := absurd h List.not_mem_nil
  op := rfl
  lfb _ h := nomatch h
  lines := rfl
  params := paramsWf_config
  phase := rfl

/-- The reset state is Idle, so it meets what the flow says of the lines of a command, and its engines are at rest (R348). -/
theorem reset_flow : State.reset.Flow where
  params := paramsWf_config
  phase := rfl
  quiet _ h := absurd h List.not_mem_nil
  handle h := nomatch h
  clock h := nomatch h
  op := .inl rfl
  icce := .inl rfl
  pending := .inl rfl
  gcre := .inl rfl
  rmw _ _ _ h := absurd h (reset_not_at _ _)
  off _ _ h := absurd h (reset_not_at _ _)
  offEnable _ _ h := absurd h (reset_not_at _ _)
  onEnable _ h := absurd h (reset_not_at _ _)
  emptied _ _ h := absurd h (reset_not_at _ _)
  noError _ _ h := absurd h (reset_not_at _ _)
  divisor _ _ h := absurd h (reset_not_at _ _)
  code _ _ h := absurd h (reset_not_at _ _)
  unlocked _ _ h := absurd h (reset_not_at _ _)
  locked _ _ h := absurd h (reset_not_at _ _)
  lfb := .inl rfl
  dummy _ h := absurd h (reset_not_at _ _)
  coherent _ := rfl

/-- Settles O52, by the two invariants' base cases. -/
theorem resetIsLegalAndInTheFlow : Obligations.ResetIsLegalAndInTheFlow := ⟨reset_legal, reset_flow⟩

end Sys2Proof.Machine
end

section
/-! SUPPORT. The alignment checks of WRITE_WORD and READ32 at their lines (R240 check 2, R270), and how a check fails (R303). -/

namespace Sys2Proof.Machine

/-- `fail(code)` in both postures, with the code's number (R300, R303). -/
theorem fail_eq_failed (code : Code) (s : State) : fail code s = s.failed code code.toWord := by
  rcases fail_cases code s with ⟨hposture, hfail⟩ | ⟨hposture, hfail⟩
  all_goals
    rw [hfail, State.failed, hposture]
    rfl

/-- The alignment line of a command that requires the address `a` to be a multiple of `m`: the failure with ALIGN, or the line
that follows. -/
theorem exec_checkAlign {i : Instr} {site : Site} {n : Label} {s : State} {a : Word} {m : Nat}
    (hrun : s.Runs i site .checkAlign) (ha : (operandsOf i s.seq).addr = some a) (hm : (operandsOf i s.seq).align = m)
    (hn : Follows i site .checkAlign n) :
    (a.toNat % m ≠ 0 → exec i s = .next (s.failed .align 1))
      ∧ (a.toNat % m = 0 → exec i s = .next (s.movedTo n)) := by
  obtain ⟨⟨-, hstep⟩, hmem, -⟩ := hrun
  have hline : exec i s = if a.toNat % m ≠ 0 then .next (fail .align s)
      else advanceStep (programOf i) (.line site .checkAlign) s := by
    rw [exec_eq_performLine i site .checkAlign s hstep hmem, performLine, ha, need_some, hm]
  constructor
  · intro hmisaligned
    rw [hline, if_pos hmisaligned, fail_eq_failed]
    rfl
  · intro haligned
    rw [hline, if_neg (not_not.mpr haligned), advanceStep_of_follows hn]

/-- Settles O21: both commands check alignment by the same line, at 16 and at 4, and their range check follows it. -/
theorem alignmentIsCheckedFirst : Obligations.AlignmentIsCheckedFirst := by
  intro s a ha
  exact ⟨fun hrun => exec_checkAlign hrun ha rfl rfl, fun hrun => exec_checkAlign hrun ha rfl rfl⟩

end Sys2Proof.Machine
end

section
/-! SUPPORT. Decoding and encoding (spec/30_encoding.md R100 to R103, R109, R121): a byte sequence and its words, a command word
and its fields, and the words of an instruction. The round trips of the family of spec/30_encoding.md are made on words
(`decodeWords_encodeWords`, `encodeWords_of_decodeWords`) and carried over to bytes by `decodeWith_eq_ok_iff`. -/

namespace Sys2Proof

open Sys2Proof.Machine

/-! ## Bytes and words (R11, R100) -/

/-- A word comes off the front of the bytes exactly when its own bytes stand there. -/
theorem takeWord_eq_some_iff (bs : List Byte) (w : Word) (rest : List Byte) :
    takeWord bs = some (w, rest) ↔ bs = bytesLe32 w ++ rest := by
  constructor
  · intro h
    unfold takeWord at h
    split at h
    · cases h
      simp [bytesLe32]
    · cases h
  · rintro rfl
    simp [takeWord, bytesLe32]

@[simp] theorem takeWord_bytesLe32_append (w : Word) (rest : List Byte) : takeWord (bytesLe32 w ++ rest) = some (w, rest) :=
  (takeWord_eq_some_iff _ w rest).mpr rfl

/-- The instruction that arrives as these words: `decodeWith` on words instead of bytes (`decodeWith_eq_ok_iff`). -/
def decodeWords (m : RegMap) : Arrival → List Word → Except Reject Instr
  | .cmd, [w] => .ok (decodeCmd w)
  | .mmio .r, [a] => decodeMmio m .r a 0
  | .mmio .w, [a, v] => decodeMmio m .w a v
  | .mem .r width, [a] => decodeMem .r width a 0
  | .mem .w width, [a, v] => decodeMem .w width a v
  | _, _ => .error .truncated

/-- An instruction put beside the rest of the bytes. -/
theorem map_pair_eq_ok {x : Except Reject Instr} {rest rest' : List Byte} {i : Instr}
    (h : x.map (fun j => (j, rest')) = .ok (i, rest)) : x = .ok i ∧ rest' = rest := by
  cases x with
  | error e => cases h
  | ok j =>
    cases h
    exact ⟨rfl, rfl⟩

/-- Decoding bytes takes the words of the format off their front and decodes those. -/
theorem decodeWith_eq_ok_iff (m : RegMap) (arr : Arrival) (bs : List Byte) (i : Instr) (rest : List Byte) :
    decodeWith m arr bs = .ok (i, rest) ↔ ∃ ws, decodeWords m arr ws = .ok i ∧ bs = wordsToBytes ws ++ rest := by
  constructor
  · intro h
    unfold decodeWith at h
    split at h
    case h_1 => cases h
    case h_2 w more hw =>
      rw [takeWord_eq_some_iff] at hw
      subst hw
      split at h
      case h_1 =>
        cases h
        exact ⟨[w], rfl, rfl⟩
      case h_2 | h_3 =>
        obtain ⟨hd, rfl⟩ := map_pair_eq_ok h
        exact ⟨[w], hd, rfl⟩
      case h_4 | h_5 =>
        split at h
        · cases h
        · next v rest' hv =>
          rw [takeWord_eq_some_iff] at hv
          subst hv
          obtain ⟨hd, rfl⟩ := map_pair_eq_ok h
          exact ⟨[w, v], hd, rfl⟩
  · rintro ⟨ws, hd, rfl⟩
    unfold decodeWords at hd
    split at hd
    case h_6 => cases hd
    case h_1 =>
      cases hd
      simp [decodeWith, wordsToBytes]
    all_goals
      simp only [decodeWith, wordsToBytes, List.append_assoc, List.nil_append, takeWord_bytesLe32_append, hd]
      rfl

/-! ## A command word and its fields (R101 to R103, R121) -/

@[simp] theorem opc_cmdWord (opc : BitVec 4) (rsv : BitVec 28) : (cmdWord opc rsv).extractLsb' 0 4 = opc := by
  ext k hk
  interval_cases k <;> simp [cmdWord]

@[simp] theorem rsv_cmdWord (opc : BitVec 4) (rsv : BitVec 28) : (cmdWord opc rsv).extractLsb' 4 28 = rsv := by
  ext k hk
  simp [cmdWord, show 4 + k < 32 by omega, BitVec.getLsbD_eq_getElem hk]

/-- Every word is the command word of its fields. -/
theorem cmdWord_fields (w : Word) : cmdWord (w.extractLsb' 0 4) (w.extractLsb' 4 28) = w := by
  ext k hk
  by_cases h : k < 4
  · simp [cmdWord, h, hk]
  · simp [cmdWord, h, hk, show k - 4 < 28 by omega, show 4 + (k - 4) = k by omega]

theorem decodeCmd_illegal0 (rsv : BitVec 28) : decodeCmd (cmdWord 0x0 rsv) = .illegal0 rsv := by simp [decodeCmd]

theorem decodeCmd_illegalE (rsv : BitVec 28) : decodeCmd (cmdWord 0xE rsv) = .illegalE rsv := by simp [decodeCmd]

theorem decodeCmd_illegalF (rsv : BitVec 28) : decodeCmd (cmdWord 0xF rsv) = .illegalF rsv := by simp [decodeCmd]

theorem reservedOpc_eq_false_iff (opc : BitVec 4) : reservedOpc opc = false ↔ opc ≠ 0x0 ∧ opc ≠ 0xE ∧ opc ≠ 0xF := by
  simp [reservedOpc, and_assoc]

theorem decodeCmd_illegalRsv {opc : BitVec 4} {rsv : BitVec 28} (hrsv : rsv ≠ 0) (hopc : reservedOpc opc = false) :
    decodeCmd (cmdWord opc rsv) = .illegalRsv opc rsv := by
  obtain ⟨h0, hE, hF⟩ := (reservedOpc_eq_false_iff opc).mp hopc
  simp only [decodeCmd, opc_cmdWord, rsv_cmdWord, if_neg h0, if_neg hE, if_neg hF, if_pos hrsv]

/-! ## The words of an instruction -/

/-- Where an instruction arrives does not depend on the map (R100). -/
theorem encodeWords_fst (m : RegMap) (i : Instr) : (encodeWords m i).1 = i.arrival := by cases i <;> rfl

theorem encodeWords_readInstr (m : RegMap) (r : Reg) : encodeWords m (readInstr r) = (.mmio .r, [m.addr r]) := by
  cases r <;> rfl

theorem encodeWords_writeInstr (m : RegMap) (r : Reg) (v : Word) :
    encodeWords m (writeInstr r v) = (.mmio .w, [m.addr r, v]) := by
  cases r <;> rfl

theorem wf_readInstr (r : Reg) : (readInstr r).wf = true := by cases r <;> rfl

theorem wf_writeInstr (r : Reg) (v : Word) : (writeInstr r v).wf = true := by cases r <;> rfl

/-- The map says nothing of a command's word. -/
theorem encodeWords_of_cmd (m m' : RegMap) {i : Instr} {ws : List Word} (h : encodeWords m' i = (.cmd, ws)) :
    encodeWords m i = (.cmd, ws) := by
  cases i <;> first | exact h | cases h

/-- A word whose reserved bits are zero and whose opcode is no reserved one is the word of the command that it selects. -/
theorem encodeWords_decodeCmd_of_legal (m : RegMap) {opc : BitVec 4} (hopc : reservedOpc opc = false) :
    (decodeCmd (cmdWord opc 0)).wf = true ∧ encodeWords m (decodeCmd (cmdWord opc 0)) = (.cmd, [cmdWord opc 0]) := by
  have sixteen : ∀ opc : BitVec 4, reservedOpc opc = false → (decodeCmd (cmdWord opc 0)).wf = true
      ∧ encodeWords Config.regmap (decodeCmd (cmdWord opc 0)) = (.cmd, [cmdWord opc 0]) := by decide
  obtain ⟨hwf, henc⟩ := sixteen opc hopc
  exact ⟨hwf, encodeWords_of_cmd m _ henc⟩

/-- What a command word decodes to is well formed, and its encoding is that word. -/
theorem encodeWords_decodeCmd (m : RegMap) (w : Word) :
    (decodeCmd w).wf = true ∧ encodeWords m (decodeCmd w) = (.cmd, [w]) := by
  rw [← cmdWord_fields w]
  generalize w.extractLsb' 0 4 = opc
  generalize w.extractLsb' 4 28 = rsv
  by_cases h0 : opc = 0x0
  · rw [h0, decodeCmd_illegal0]
    exact ⟨rfl, rfl⟩
  by_cases hE : opc = 0xE
  · rw [hE, decodeCmd_illegalE]
    exact ⟨rfl, rfl⟩
  by_cases hF : opc = 0xF
  · rw [hF, decodeCmd_illegalF]
    exact ⟨rfl, rfl⟩
  have hopc : reservedOpc opc = false := (reservedOpc_eq_false_iff opc).mpr ⟨h0, hE, hF⟩
  by_cases hrsv : rsv = 0
  · rw [hrsv]
    exact encodeWords_decodeCmd_of_legal m hopc
  · rw [decodeCmd_illegalRsv hrsv hopc]
    exact ⟨by simpa [Instr.wf, hopc] using hrsv, rfl⟩

/-- A well-formed map decodes a register's own address to the register (R109, R110). -/
theorem decodeMmio_addr {m : RegMap} (h : m.wf = true) (r : Reg) (v : Word) :
    decodeMmio m .r (m.addr r) v = .ok (readInstr r) ∧ decodeMmio m .w (m.addr r) v = .ok (writeInstr r v) := by
  obtain ⟨haligned, hreg, -⟩ := RegMap.wf_reg h r
  simp [decodeMmio, haligned, hreg]

/-- Decoding the words of a well-formed instruction gives it back. -/
theorem decodeWords_encodeWords {m : RegMap} (hm : m.wf = true) {i : Instr} (hi : i.wf = true) :
    decodeWords m (encodeWords m i).1 (encodeWords m i).2 = .ok i := by
  cases i
  case illegal0 rsv => exact congrArg Except.ok (decodeCmd_illegal0 rsv)
  case illegalE rsv => exact congrArg Except.ok (decodeCmd_illegalE rsv)
  case illegalF rsv => exact congrArg Except.ok (decodeCmd_illegalF rsv)
  case illegalRsv opc rsv =>
    obtain ⟨hrsv, hopc⟩ : rsv ≠ 0 ∧ reservedOpc opc = false := by simpa [Instr.wf] using hi
    exact congrArg Except.ok (decodeCmd_illegalRsv hrsv hopc)
  case flcRAddr | flcRClkdiv | flcRCtrl | flcRIntr | flcRData0 | flcRData1 | flcRData2 | flcRData3 | iccRCtrl
      | iccRInvalidate | gcrRSysctrl =>
    exact (decodeMmio_addr hm _ 0).1
  case flcWAddr v | flcWClkdiv v | flcWCtrl v | flcWIntr v | flcWData0 v | flcWData1 v | flcWData2 v | flcWData3 v
      | iccWCtrl v | iccWInvalidate v | gcrWSysctrl v =>
    exact (decodeMmio_addr hm _ v).2
  case flashR32 a | flashR8 a | flashW width a v => exact if_pos hi
  all_goals rfl

/-- What words decode to is well formed, and they are its words, on any map. -/
theorem encodeWords_of_decodeWords {m : RegMap} {arr : Arrival} {ws : List Word} {i : Instr}
    (h : decodeWords m arr ws = .ok i) : i.wf = true ∧ encodeWords m i = (arr, ws) := by
  unfold decodeWords at h
  split at h
  case h_1 w =>
    cases h
    exact encodeWords_decodeCmd m w
  case h_2 a =>
    obtain ⟨r, hr, rfl⟩ := decodeMmio_ok m .r a 0 i h
    rw [← RegMap.addr_of_regAt hr]
    exact ⟨wf_readInstr r, encodeWords_readInstr m r⟩
  case h_3 a v =>
    obtain ⟨r, hr, rfl⟩ := decodeMmio_ok m .w a v i h
    rw [← RegMap.addr_of_regAt hr]
    exact ⟨wf_writeInstr r v, encodeWords_writeInstr m r v⟩
  case h_4 width a =>
    unfold decodeMem at h
    split at h
    · next hin =>
      cases width <;> (cases h; exact ⟨hin, rfl⟩)
    · cases h
  case h_5 width a v =>
    unfold decodeMem at h
    split at h
    · next hin =>
      cases h
      exact ⟨hin, rfl⟩
    · cases h
  case h_6 => cases h

/-! ## Field positions (R9, log entry 6) -/

/-- Exchanging two bits of a word moves just those two. -/
theorem Machine.getLsbD_swapBits (i j : Fin 32) (w : Word) (k : Nat) :
    (swapBits i j w).getLsbD k = w.getLsbD (if k = i then j else if k = j then i else k) := by
  unfold swapBits
  split
  · next heq =>
    split_ifs with hi hj
    · rw [hi, heq]
    · rw [hj, heq]
    · rfl
  · next hne =>
    have hflip : w.getLsbD j = !w.getLsbD i := Bool.eq_not.mpr (Ne.symm hne)
    have hij : (i : Nat) ≠ j := fun e => hne (by rw [e])
    simp only [BitVec.getLsbD_xor, BitVec.getLsbD_twoPow]
    split_ifs with hi hj
    · simp only [hi, hflip, hij.symm, i.isLt, decide_true, decide_false, Bool.and_true, Bool.and_false, Bool.xor_false,
        Bool.xor_true]
    · simp only [hj, hflip, hij, j.isLt, decide_true, decide_false, Bool.and_true, Bool.and_false, Bool.xor_false,
        Bool.xor_true, Bool.not_not]
    · simp only [Ne.symm hi, Ne.symm hj, decide_false, Bool.and_false, Bool.xor_false]

/-- Settles O49: the words of an instruction stand at the front of the bytes and decode to it; the bus word of a register goes
through exchanges of two bits, each its own inverse. -/
theorem decodingUndoesEncoding : Obligations.DecodingUndoesEncoding := by
  refine ⟨fun m i rest hm hi => ?_, fun m r w => ⟨RegMap.fields_bus m r w, RegMap.bus_fields m r w, ?_, ?_⟩⟩
  · rw [decodeWith_eq_ok_iff, ← encodeWords_fst m i]
    exact ⟨_, decodeWords_encodeWords hm hi, rfl⟩
  · intro hlayout
    rw [RegMap.bus, hlayout]
    rfl
  · intro i j hlayout k
    rw [RegMap.bus, hlayout]
    exact getLsbD_swapBits i j w k

/-- Settles O50: bytes that decode start with words that decode, and those are the words of the instruction. -/
theorem encodingUndoesDecoding : Obligations.EncodingUndoesDecoding := by
  intro m arr bs i rest h
  obtain ⟨ws, hws, rfl⟩ := (decodeWith_eq_ok_iff m arr bs i rest).mp h
  obtain ⟨hwf, henc⟩ := encodeWords_of_decodeWords hws
  exact ⟨hwf, by rw [← encodeWords_fst m i, henc], by rw [encodeWith, henc]⟩

/-! ## The thirteen words (R121) -/

/-- A command word decodes to a well-formed instruction exactly when it is that instruction's word. -/
theorem decodeCmd_eq_iff {i : Instr} {c : Word} (hwf : i.wf = true)
    (hc : encodeWords Config.regmap i = (.cmd, [c])) (w : Word) : decodeCmd w = i ↔ w = c := by
  constructor
  · rintro rfl
    simpa [(encodeWords_decodeCmd _ w).2] using hc
  · rintro rfl
    have hdec := decodeWords_encodeWords Config.regmap_wf hwf
    rw [hc] at hdec
    exact Except.ok.inj hdec

/-- The words of the thirteen commands are 1 to 13. -/
theorem toNat_of_command {i : Instr} {w : Word}
    (hi : i ∈ [Instr.checkBounds, .setClkdiv, .iccDisable, .iccEnable, .lfbFlush, .unlock, .lock, .writeWord, .write,
      .erasePage, .read32, .read, .halt])
    (henc : encodeWords Config.regmap i = (.cmd, [w])) : 1 ≤ w.toNat ∧ w.toNat ≤ 13 := by
  fin_cases hi <;> (cases henc; decide)

/-- Settles O51: each command is selected by its own word alone, and a word that selects no command is illegal. -/
theorem everyOtherWordIsIllegal : Obligations.EveryOtherWordIsIllegal := by
  intro w
  iterate 13 refine ⟨decodeCmd_eq_iff rfl rfl w, ?_⟩
  intro hw
  refine decodeCmd_cases (fun i => decodeCmd w = i → ∃ rsv opc,
    i ∈ [Instr.illegal0 rsv, .illegalE rsv, .illegalF rsv, .illegalRsv opc rsv]) w ?_ ?_ ?_ ?_ ?_ rfl
  · intro i hi h
    obtain ⟨-, henc⟩ := encodeWords_decodeCmd Config.regmap w
    rw [h] at henc
    exact absurd (toNat_of_command hi henc) hw
  · exact fun rsv _ => ⟨rsv, 0, by simp⟩
  · exact fun rsv _ => ⟨rsv, 0, by simp⟩
  · exact fun rsv _ => ⟨rsv, 0, by simp⟩
  · exact fun opc rsv _ => ⟨rsv, opc, by simp⟩

/-- Bytes that are the encoding of a well-formed instruction decode to it, with the default map. -/
theorem decode_of_encode (i : Instr) {bs : List Byte} (hwf : i.wf = true) (hbs : encode i = bs) :
    decode i.arrival bs = .ok (i, []) := by
  subst hbs
  simpa [decode, encode] using decodingUndoesEncoding.1 Config.regmap i [] Config.regmap_wf hwf

/-- Settles O48: the written bytes are the encodings of these instructions, which decoding undoes. -/
theorem writtenWordsDecode : Obligations.WrittenWordsDecode :=
  ⟨decode_of_encode .writeWord rfl rfl, decode_of_encode (.illegalRsv 0x8 1) rfl rfl, decode_of_encode (.illegal0 0) rfl rfl,
    decode_of_encode .flcRCtrl rfl rfl, decode_of_encode (.iccWInvalidate 1) rfl rfl,
    decode_of_encode (.flashR32 0x10000004) rfl rfl⟩

end Sys2Proof
end

section
/-! SUPPORT. The first half of a read-modify-write at its lines (spec/30_encoding.md R120). -/

namespace Sys2Proof.Machine

/-- A line's register read with its clock domain on: the bus word in `SEQ.T`, and the access recorded. -/
theorem readToT_of_clock {r : Reg} {s : State} (h : r.isFlc = true → s.plat.flcClockOn = true) :
    readToT r s = .next (s.afterRead r (busRead r s)) := by
  simp only [readToT, mmioRead_of_clock r s h, andThen_next]
  rfl

/-- The line that reads a register for a read-modify-write is the one read of the register that `rmwReadReg` names. -/
theorem performLine_of_rmwReadReg {l : Line} {r : Reg} (h : rmwReadReg l = some r) (c : Ctx) (site : Site)
    (goOn : State → Res State) (s : State) : performLine c site l goOn s = andThen (readToT r s) goOn := by
  cases l
  case d1 | e1 | e5 | c1 | u1 | k1 | g6 | h2 | h4 | f1 =>
    cases h
    rfl
  all_goals cases h

/-- Settles O24: every such line is the one read into `SEQ.T`, and the next line follows. -/
theorem rmwReadLinesReadTheRegister : Obligations.RmwReadLinesReadTheRegister := by
  rintro s i site l r n ⟨⟨-, hstep⟩, hmem, -⟩ hread hn hclock
  rw [exec_eq_performLine i site l s hstep hmem, performLine_of_rmwReadReg hread, readToT_of_clock hclock, andThen_next]
  exact advanceStep_of_follows hn _

end Sys2Proof.Machine
end

section
/-! SUPPORT. The bus accesses by their registers (spec/40_register_surface.md R140 to R156): what a read returns, what a write
does where its rule answers, faults or refuses, and the equations of the write rules. -/

namespace Sys2Proof.Machine

/-! ## The reads (R141, R151, R154 to R156) -/

/-- A register read by HOST's direction returns the bus word of the register's fields. -/
theorem readToHost_of_fields (r : Reg) {s : State} {w : Word} (hw : readReg r s = w)
    (hclock : r.isFlc = true → s.plat.flcClockOn = true) :
    readToHost r s = .next (s.afterHostRead r (s.params.regmap.bus r w)) := by
  subst hw
  exact readToHost_of_clock r s hclock

/-- The fields of `FLC.CTRL` in the words of R111, with `PEND`, `WR` and `PGE` read off the operation in flight (R35). -/
theorem ctrlWord_eq_append_op (f : Flc) :
    ctrlWord f = (f.unlock ++ 0#2 ++ BitVec.ofBool f.lve ++ BitVec.ofBool (decide (f.op ≠ .none)) ++ 0#8 ++ f.eraseCode
      ++ 0#5 ++ BitVec.ofBool (match f.op with | .erasePage _ _ => true | _ => false) ++ 0#1
      ++ BitVec.ofBool (match f.op with | .program _ _ _ => true | _ => false) : Word) := by
  rw [ctrlWord_eq_append, pend_eq_decide]
  rfl

theorem clkdivWord_eq_append (f : Flc) : clkdivWord f = (0#24 ++ f.clkdiv : Word) := by
  rw [← setWidth_eq_append, clkdivWord, fieldAt, BitVec.shiftLeft_zero]

/-- Settles O1: each read returns the bus word of its register's fields, and the clock domain is on. -/
theorem flcReadsReturnTheirFields : Obligations.FlcReadsReturnTheirFields := by
  intro s hclock
  exact ⟨readToHost_of_fields .flcAddr rfl fun _ => hclock,
    readToHost_of_fields .flcClkdiv (clkdivWord_eq_append s.flc) fun _ => hclock,
    readToHost_of_fields .flcCtrl (ctrlWord_eq_append_op s.flc) fun _ => hclock,
    readToHost_of_fields .flcIntr (intrWord_eq_append s.flc) fun _ => hclock,
    readToHost_of_fields .flcData0 rfl fun _ => hclock, readToHost_of_fields .flcData1 rfl fun _ => hclock,
    readToHost_of_fields .flcData2 rfl fun _ => hclock, readToHost_of_fields .flcData3 rfl fun _ => hclock⟩

/-- Settles O2: these registers stand outside the FLC block, so no clock domain stops the read. -/
theorem iccAndGcrReadsReturnTheirFields : Obligations.IccAndGcrReadsReturnTheirFields := by
  intro s
  exact ⟨readToHost_of_fields .iccCtrl (iccWord_eq_append s.icc) nofun, readToHost_of_fields .iccInvalidate rfl nofun,
    readToHost_of_fields .gcrSysctrl (sysctrlWord_eq_append s.gcr) nofun⟩

/-! ## A write, by what the register's own rule does (R140, R142) -/

section Writes

variable (r : Reg) {v : Word} {s t : State}

/-- A write whose rule answers: the access is recorded. -/
theorem mmioWrite_of_next (hclock : r.isFlc = true → s.plat.flcClockOn = true)
    (h : writeReg r (s.params.regmap.fields r v) s = .next t) : mmioWrite r v s = .next (t.afterWrite r v) := by
  rw [mmioWrite_of_clock r v s hclock, h, andThen_next, ← (SeqFrame.writeReg h).params]
  rfl

/-- A write whose rule faults. -/
theorem mmioWrite_of_fault {f : Fault} (hclock : r.isFlc = true → s.plat.flcClockOn = true)
    (h : writeReg r (s.params.regmap.fields r v) s = .fault f) : mmioWrite r v s = .fault f := by
  rw [mmioWrite_of_clock r v s hclock, h, andThen_fault]

/-- A write whose rule refuses. -/
theorem mmioWrite_of_refused {f : Refusal} (hclock : r.isFlc = true → s.plat.flcClockOn = true)
    (h : writeReg r (s.params.regmap.fields r v) s = .refused f) : mmioWrite r v s = .refused f := by
  rw [mmioWrite_of_clock r v s hclock, h, andThen_refused]

/-- A write of an FLC register while an operation is in flight (R142). -/
theorem writeReg_of_inFlight (hr : r.isFlc = true) (hop : s.flc.op ≠ .none) : writeReg r v s = .fault .busyAccess := by
  have busy (x : Res State) : whenReady s x = .fault .busyAccess := by simp [whenReady, pend_eq_decide, hop]
  cases r
  case iccCtrl | iccInvalidate | gcrSysctrl => cases hr
  all_goals exact busy _

/-- An access to an FLC register with the clock domain off (R140 check 2). -/
theorem whenClocked_of_clock_off {α : Type} (hr : r.isFlc = true) (hclock : s.plat.flcClockOn = false) (x : Res α) :
    whenClocked r s x = .fault .clockDomainOff := by
  simp [whenClocked, hr, hclock]

theorem mmioWrite_of_clock_off (hr : r.isFlc = true) (hclock : s.plat.flcClockOn = false) :
    mmioWrite r v s = .fault .clockDomainOff := whenClocked_of_clock_off r hr hclock _

theorem readToHost_of_clock_off (hr : r.isFlc = true) (hclock : s.plat.flcClockOn = false) :
    readToHost r s = .fault .clockDomainOff := by
  rw [readToHost, mmioRead, whenClocked_of_clock_off r hr hclock, andThen_fault]

end Writes

/-- Settles O3: the rules of these registers store the value, the clock domain is on and nothing is in flight. -/
theorem flcPlainWritesStoreTheValue : Obligations.FlcPlainWritesStoreTheValue := by
  intro s v hclock hop
  have ready (x : Res State) : whenReady s x = x := whenReady_of_none s x hop
  exact ⟨mmioWrite_of_next .flcAddr (fun _ => hclock) (ready _), mmioWrite_of_next .flcClkdiv (fun _ => hclock) (ready _),
    mmioWrite_of_next .flcData0 (fun _ => hclock) (ready _), mmioWrite_of_next .flcData1 (fun _ => hclock) (ready _),
    mmioWrite_of_next .flcData2 (fun _ => hclock) (ready _), mmioWrite_of_next .flcData3 (fun _ => hclock) (ready _)⟩

/-- Settles O10: the clock domain is checked before anything else, and PEND before the write's own rule. -/
theorem flcAccessesFaultWithoutClockOrWhileBusy : Obligations.FlcAccessesFaultWithoutClockOrWhileBusy := by
  intro s v
  constructor
  · intro hclock
    have write (r : Reg) (hr : r.isFlc = true) : exec (writeInstr r v) s = .fault .clockDomainOff :=
      (exec_writeInstr r v s).trans (mmioWrite_of_clock_off r hr hclock)
    have read (r : Reg) (hr : r.isFlc = true) : exec (readInstr r) s = .fault .clockDomainOff :=
      (exec_readInstr r s).trans (readToHost_of_clock_off r hr hclock)
    simp only [List.forall_mem_cons]
    exact ⟨write .flcAddr rfl, write .flcClkdiv rfl, write .flcCtrl rfl, write .flcIntr rfl, write .flcData0 rfl,
      write .flcData1 rfl, write .flcData2 rfl, write .flcData3 rfl, read .flcAddr rfl, read .flcClkdiv rfl,
      read .flcCtrl rfl, read .flcIntr rfl, read .flcData0 rfl, read .flcData1 rfl, read .flcData2 rfl, read .flcData3 rfl,
      List.forall_mem_nil _⟩
  · intro hclock hop
    have write (r : Reg) (hr : r.isFlc = true) : exec (writeInstr r v) s = .fault .busyAccess :=
      (exec_writeInstr r v s).trans (mmioWrite_of_fault r (fun _ => hclock) (writeReg_of_inFlight r hr hop))
    simp only [List.forall_mem_cons]
    exact ⟨write .flcAddr rfl, write .flcClkdiv rfl, write .flcCtrl rfl, write .flcIntr rfl, write .flcData0 rfl,
      write .flcData1 rfl, write .flcData2 rfl, write .flcData3 rfl, List.forall_mem_nil _⟩

/-! ## A write of `FLC.CTRL` (R146 to R148) -/

/-- The clock bit of an operation is true exactly when the divisor matches the true clock (R167). -/
theorem clkOk_iff (p : Params) (f : Flc) : clkOk p f = true ↔ divisorRight p f.clkdiv := by
  simp [clkOk, divisorRight, Config.targetClkHz, BitVec.toNat_eq]

/-- A write of `FLC.CTRL` while nothing is in flight is `writeCtrl` on the word's fields. -/
theorem writeReg_flcCtrl {s : State} (hop : s.flc.op = .none) (u : Word) : writeReg .flcCtrl u s = writeCtrl u s :=
  whenReady_of_none s _ hop

section WriteCtrl

variable {u : Word} {s : State}

theorem writeCtrl_of_me (hme : ctrlMe u = true) : writeCtrl u s = .refused .massEraseNotModelled := if_pos hme

theorem writeCtrl_of_lve (hme : ctrlMe u = false) (hlve : ctrlLve u ≠ s.flc.lve) :
    writeCtrl u s = .refused .lveNotModelled := by
  simp [writeCtrl, hme, hlve]

theorem writeCtrl_of_both (hme : ctrlMe u = false) (hlve : ctrlLve u = s.flc.lve) (hwr : ctrlWr u = true)
    (hpge : ctrlPge u = true) : writeCtrl u s = .refused .simultaneousStart := by
  simp [writeCtrl, hme, hlve, hwr, hpge]

theorem writeCtrl_of_start_and_unlock (hme : ctrlMe u = false) (hlve : ctrlLve u = s.flc.lve)
    (hstart : ctrlWr u ≠ ctrlPge u) (hunlock : ctrlUnlock u ≠ s.flc.unlock) :
    writeCtrl u s = .refused .unlockAndStart := by
  cases hwr : ctrlWr u
  all_goals
    rw [hwr] at hstart
    simp [writeCtrl, hme, hlve, hwr, Bool.eq_not.mpr hstart.symm, hunlock]

theorem writeCtrl_of_start_and_code (hme : ctrlMe u = false) (hlve : ctrlLve u = s.flc.lve) (hwr : ctrlWr u = false)
    (hpge : ctrlPge u = true) (hunlock : ctrlUnlock u = s.flc.unlock) (hcode : ctrlEraseCode u ≠ s.flc.eraseCode) :
    writeCtrl u s = .refused .codeAndStart := by
  simp [writeCtrl, hme, hlve, hwr, hpge, hunlock, hcode]

/-- A write with neither start bit stores the key and the code (R146). -/
theorem writeCtrl_of_no_start (hme : ctrlMe u = false) (hlve : ctrlLve u = s.flc.lve) (hwr : ctrlWr u = false)
    (hpge : ctrlPge u = false) :
    writeCtrl u s = .next { s with flc := { s.flc with unlock := ctrlUnlock u, eraseCode := ctrlEraseCode u } } := by
  simp [writeCtrl, hme, hlve, hwr, hpge]

/-- A write of `WR = 1` that no refusal stops is a program start, with `ERASE_CODE` stored (R146, R147). -/
theorem writeCtrl_of_wr (hme : ctrlMe u = false) (hlve : ctrlLve u = s.flc.lve) (hwr : ctrlWr u = true)
    (hpge : ctrlPge u = false) (hunlock : ctrlUnlock u = s.flc.unlock) :
    writeCtrl u s = programStart s.flc.unlock { s with flc := { s.flc with eraseCode := ctrlEraseCode u } } := by
  simp [writeCtrl, hme, hlve, hwr, hpge, hunlock]

/-- A write of `PGE = 1` that no refusal stops is an erase start (R146, R148). -/
theorem writeCtrl_of_pge (hme : ctrlMe u = false) (hlve : ctrlLve u = s.flc.lve) (hwr : ctrlWr u = false)
    (hpge : ctrlPge u = true) (hunlock : ctrlUnlock u = s.flc.unlock) (hcode : ctrlEraseCode u = s.flc.eraseCode) :
    writeCtrl u s = eraseStart s.flc.unlock s.flc.eraseCode s := by
  simp [writeCtrl, hme, hlve, hwr, hpge, hunlock, hcode]

end WriteCtrl

/-- Settles O6: each refusal of R146 is a clause of `writeCtrl`, and the write with no start bit is its last. -/
theorem ctrlWriteRefusesOrStoresKeyAndCode : Obligations.CtrlWriteRefusesOrStoresKeyAndCode := by
  rintro s v u rfl hclock hop
  have refuse {f : Refusal} (h : writeCtrl (s.params.regmap.fields .flcCtrl v) s = .refused f) :
      exec (.flcWCtrl v) s = .refused f :=
    mmioWrite_of_refused .flcCtrl (fun _ => hclock) ((writeReg_flcCtrl hop _).trans h)
  exact ⟨fun hme => refuse (writeCtrl_of_me hme), fun hme hlve => refuse (writeCtrl_of_lve hme hlve),
    fun hme hlve hwr hpge => refuse (writeCtrl_of_both hme hlve hwr hpge),
    fun hme hlve hone hunlock => refuse (writeCtrl_of_start_and_unlock hme hlve hone hunlock),
    fun hme hlve hwr hpge hunlock hcode => refuse (writeCtrl_of_start_and_code hme hlve hwr hpge hunlock hcode),
    fun hme hlve hwr hpge => mmioWrite_of_next .flcCtrl (fun _ => hclock)
      ((writeReg_flcCtrl hop _).trans (writeCtrl_of_no_start hme hlve hwr hpge))⟩

/-- Settles O4: the write reaches `program_start`, whose checks come in the order of R147. -/
theorem programStartFollowsKeyAlignmentAndRange : Obligations.ProgramStartFollowsKeyAlignmentAndRange := by
  rintro s v u rfl hclock hop hme hlve hwr hpge hunlock
  have hstart := (writeReg_flcCtrl hop _).trans (writeCtrl_of_wr hme hlve hwr hpge hunlock)
  refine ⟨fun hkey => ?_, fun hkey halign => ?_, fun hkey halign hrange => ?_, fun hkey halign hlow hhigh => ?_⟩
  · exact mmioWrite_of_next .flcCtrl (fun _ => hclock) (hstart.trans (if_pos hkey))
  · exact mmioWrite_of_fault .flcCtrl (fun _ => hclock)
      (hstart.trans ((if_neg (not_not.mpr hkey)).trans (if_pos halign)))
  · exact mmioWrite_of_fault .flcCtrl (fun _ => hclock)
      (hstart.trans ((if_neg (not_not.mpr hkey)).trans ((if_neg (not_not.mpr halign)).trans (if_pos hrange))))
  · rw [← ofLanes_eq_append]
    exact ⟨clkOk s.params s.flc, clkOk_iff _ _, mmioWrite_of_next .flcCtrl (fun _ => hclock)
      (hstart.trans ((if_neg (not_not.mpr hkey)).trans
        ((if_neg (not_not.mpr halign)).trans (if_neg (not_not.mpr ⟨hlow, hhigh⟩)))))⟩

/-- Settles O5: the write reaches `erase_start`, whose checks come in the order of R148. -/
theorem eraseStartFollowsKeyCodeAndRange : Obligations.EraseStartFollowsKeyCodeAndRange := by
  rintro s v u rfl hclock hop hme hlve hwr hpge hunlock hcode
  have hstart := (writeReg_flcCtrl hop _).trans (writeCtrl_of_pge hme hlve hwr hpge hunlock hcode)
  refine ⟨fun hbad => mmioWrite_of_next .flcCtrl (fun _ => hclock) (hstart.trans ?_), fun hkey hpage hrange => ?_,
    fun hkey hpage hlow hhigh => ?_⟩
  · by_cases hkey : s.flc.unlock = s.params.unlockKey
    · exact (if_neg (not_not.mpr hkey)).trans (if_pos (hbad.resolve_left (not_not.mpr hkey)))
    · exact if_pos hkey
  · exact mmioWrite_of_fault .flcCtrl (fun _ => hclock)
      (hstart.trans ((if_neg (not_not.mpr hkey)).trans ((if_neg (not_not.mpr hpage)).trans (if_pos hrange))))
  · exact ⟨clkOk s.params s.flc, clkOk_iff _ _, mmioWrite_of_next .flcCtrl (fun _ => hclock)
      (hstart.trans ((if_neg (not_not.mpr hkey)).trans
        ((if_neg (not_not.mpr hpage)).trans (if_neg (not_not.mpr ⟨hlow, hhigh⟩)))))⟩

/-! ## The writes of `FLC.INTR`, of ICC and of GCR (R150, R152, R153, R156) -/

/-- Settles O7: R150's rule on the fields of the word written, with the clock domain on and nothing in flight. -/
theorem intrWriteClearsByZero : Obligations.IntrWriteClearsByZero := by
  rintro s v u rfl hclock hop
  have hrule (u : Word) : writeReg .flcIntr u s = writeIntr u s := whenReady_of_none s _ hop
  refine ⟨fun hie => mmioWrite_of_refused .flcIntr (fun _ => hclock) ((hrule _).trans (if_pos (Bool.or_eq_true_iff.mpr hie))),
    fun hdone haf => mmioWrite_of_next .flcIntr (fun _ => hclock) ((hrule _).trans (if_neg ?_))⟩
  rw [Bool.not_eq_true, Bool.or_eq_false_iff]
  exact ⟨hdone, haf⟩

/-- Settles O8: ICCE's BUSY decides both rules, and the registers need no clock domain. -/
theorem iccWritesEnableAndInvalidate : Obligations.IccWritesEnableAndInvalidate := by
  rintro s v u rfl
  constructor
  · intro hbusy
    exact ⟨mmioWrite_of_fault .iccCtrl nofun (if_pos hbusy), mmioWrite_of_fault .iccInvalidate nofun (if_pos hbusy)⟩
  · intro hbusy
    have hidle : ¬ s.icc.busy = true := Bool.not_eq_true _ ▸ hbusy
    exact ⟨mmioWrite_of_next .iccCtrl nofun (if_neg hidle), mmioWrite_of_next .iccInvalidate nofun (if_neg hidle)⟩

/-- Settles O9: the write is refused exactly where it changes OTHER. -/
theorem gcrWriteStartsAFlush : Obligations.GcrWriteStartsAFlush := by
  rintro s v u rfl
  rw [← sysctrlOther_eq_append]
  exact ⟨fun hother => mmioWrite_of_refused .gcrSysctrl nofun (if_pos hother),
    fun hother => mmioWrite_of_next .gcrSysctrl nofun (if_neg (not_not.mpr hother))⟩

/-! ## The checks of R140 at any address -/

/-- The rule of an access to a register in its direction. -/
def accessReg (dir : Dir) (r : Reg) (v : Word) (s : State) : Res State :=
  match dir with
  | .r => readToHost r s
  | .w => mmioWrite r v s

/-- A register access checks the clock domain itself; checking it before changes nothing. -/
theorem andThen_whenClocked_accessReg (dir : Dir) (r : Reg) (v : Word) (s : State) :
    andThen (whenClocked r s (.next r)) (fun r => accessReg dir r v s) = accessReg dir r v s := by
  by_cases hon : r.isFlc = true → s.plat.flcClockOn = true
  · rw [whenClocked_of_clock r s _ hon, andThen_next]
  · obtain ⟨hr, hoff⟩ : r.isFlc = true ∧ s.plat.flcClockOn = false := by simpa using hon
    rw [whenClocked_of_clock_off r hr hoff, andThen_fault]
    cases dir
    · exact (readToHost_of_clock_off r hr hoff).symm
    · exact (mmioWrite_of_clock_off r hr hoff).symm

/-- A register access by HOST's direction that decodes to no instruction stops as R140 says. -/
theorem hostMmio_of_error {s : State} {dir : Dir} {a : Word}
    (h : ∀ v, ∃ e, decodeMmio s.params.regmap dir a v = .error e) (v : Word) :
    hostMmio exec dir a v s = andThen (mmioCheck a s) fun _ => .refused .outsideSpaces := by
  cases dir
  · obtain ⟨e, he⟩ := h 0
    simp only [hostMmio, decode_mmio_r, he, Except.map]
  · obtain ⟨e, he⟩ := h v
    simp only [hostMmio, decode_mmio_w, he, Except.map]

/-- A register access by HOST's direction, on a machine with a well-formed map: the checks of R140 on the address, and then the
register's read or write. -/
theorem hostMmio_eq_mmioCheck {s : State} (hm : s.params.regmap.wf = true) (dir : Dir) (a v : Word) :
    hostMmio exec dir a v s = andThen (mmioCheck a s) fun r => accessReg dir r v s := by
  by_cases halign : a.toNat % 4 = 0
  · cases hreg : s.params.regmap.regAt a with
    | some r =>
      obtain rfl := RegMap.addr_of_regAt hreg
      rw [mmioCheck_addr r s hm, andThen_whenClocked_accessReg]
      cases dir
      · simp only [hostMmio, decode_mmio_r, (decodeMmio_addr hm r 0).1]
        exact exec_readInstr r s
      · simp only [hostMmio, decode_mmio_w, (decodeMmio_addr hm r v).2]
        exact exec_writeInstr r v s
    | none =>
      have unlisted (v : Word) : ∃ e, decodeMmio s.params.regmap dir a v = .error e := by
        simp only [decodeMmio, if_neg (not_not.mpr halign), hreg]
        split_ifs
        · exact ⟨_, rfl⟩
        · exact ⟨_, rfl⟩
      rw [hostMmio_of_error unlisted]
      simp only [mmioCheck, halign, hreg]
      split_ifs <;> rfl
  · rw [hostMmio_of_error fun v => ⟨_, if_pos halign⟩]
    simp only [mmioCheck, if_pos halign, andThen_fault]

/-- Settles O11: the access is the checks of `mmioCheck`, in the order of R140. -/
theorem busAccessChecksComeInOrder : Obligations.BusAccessChecksComeInOrder := by
  rintro s dir a v m rfl hm
  have hrun : hostStep exec (.mmio dir a v) s = andThen (mmioCheck a s) fun r => accessReg dir r v s :=
    hostMmio_eq_mmioCheck hm dir a v
  refine ⟨fun halign => ?_, fun halign hlow hhigh hclock => ?_, fun halign hclock hblock hreg => ?_⟩
  · rw [hrun, mmioCheck, if_pos halign, andThen_fault]
  · have hoff : (s.params.regmap.inFlcBlock a && !s.plat.flcClockOn) = true := by
      simp [RegMap.inFlcBlock, hlow, hhigh, hclock]
    rw [hrun, mmioCheck, if_neg (not_not.mpr halign), if_pos hoff, andThen_fault]
  · have hon : ¬ (s.params.regmap.inFlcBlock a && !s.plat.flcClockOn) = true := by
      simpa [RegMap.inFlcBlock] using hclock
    have hin : s.params.regmap.inRegBlock a = true := by
      simpa [RegMap.inRegBlock, RegMap.inFlcBlock, or_assoc] using hblock
    rw [hrun, mmioCheck, if_neg (not_not.mpr halign), if_neg hon, (RegMap.regAt_eq_none_iff _ a).mpr hreg]
    simp only [if_pos hin, andThen_refused]

end Sys2Proof.Machine
end

section
/-! SUPPORT. The flash read path and HOST's fetch (spec/40_register_surface.md R157 to R159, R163, R164): the bytes that a read
picks from its line, what a line read gives from a fresh and from a stale buffer, and the equations of the reads. -/

namespace Sys2Proof.Machine

/-! ## The bytes of a read in its line (R71, R74, R157) -/

/-- A byte of an address's line, counted from the address, is the array's byte there. -/
theorem flashByte_flashLine_wordBase (m : Memory) {a j : Nat} (h : a % 16 + j < 16) :
    flashByte (flashLine m (wordBase a)) (wordOffset a + j) = memRead m (a + j) := by
  rw [wordOffset, flashByte_flashLine m _ _ h, wordBase, alignDown, ← Nat.add_assoc, Nat.sub_add_cancel (Nat.mod_le a 16)]

/-- The array's word at an aligned address, taken from its line. -/
theorem wordAtOffset_flashLine (m : Memory) {a : Nat} (ha : a % 4 = 0) :
    wordAtOffset (flashLine m (wordBase a)) (wordOffset a) = flashWordAt m a := by
  have byte (j : Nat) (hj : j < 4) : flashByte (flashLine m (wordBase a)) (wordOffset a + j) = memRead m (a + j) :=
    flashByte_flashLine_wordBase m (by omega)
  rw [wordAtOffset, le32_eq_append, byte 1 (by decide), byte 2 (by decide), byte 3 (by decide)]
  rw [← Nat.add_zero (wordOffset a), byte 0 (by decide)]
  rfl

/-- The 32 bits of a line at the offset of an aligned address. -/
theorem wordAtOffset_eq_extractLsb' (d : FlashWord) {a : Nat} (ha : a % 4 = 0) :
    wordAtOffset d (wordOffset a) = d.extractLsb' (8 * (a % 16)) 32 := by
  have hoff : wordOffset a = 4 * (a % 16 / 4) := by rw [wordOffset]; omega
  rw [hoff, wordAtOffset_eq_flashLane, flashLane]
  congr 1
  omega

/-! ## A line read (R163) -/

section LineRead

variable {s : State}

/-- With an empty or fresh buffer a line read returns the array's line, and leaves it in the buffer. -/
theorem lineRead_of_lfbFresh (h : s.lfbFresh = true) (la : Nat) :
    lineRead la s = (flashLine s.flash la, { s with lfb := some ⟨la, flashLine s.flash la⟩ }) := by
  refine lineRead_fresh la s fun l hl hbase => ?_
  have hdata : l.data = flashLine s.flash l.base := by simpa [State.lfbFresh, lineFresh, hl] using h
  rw [hdata, hbase]

/-- A line that the buffer holds stale is served from the buffer, which keeps it, or from the array, which replaces it; either
way one draw is made (R12). -/
theorem lineRead_of_stale {la : Nat} {d : FlashWord} (hl : s.lfb = some ⟨la, d⟩) (hd : d ≠ flashLine s.flash la) :
    lineRead la s = (d, { s with draws := s.draws + 1 })
      ∨ lineRead la s
        = (flashLine s.flash la, { s with lfb := some ⟨la, flashLine s.flash la⟩, draws := s.draws + 1 }) := by
  by_cases hbit : Config.drawBit s.draws 0 = true
  · left
    simp [lineRead, hl, hd, hbit]
  · right
    simp [lineRead, hl, hd, hbit]

end LineRead

/-! ## The reads of the flash window (R157, R158) -/

section Reads

variable {s t : State} {a : Word} {d : FlashWord}

/-- A 32-bit read while nothing is in flight: the word of the line read. -/
theorem execFlashR32_of_lineRead {v : Word} (halign : a.toNat % 4 = 0) (hlow : Config.flashBase ≤ a.toNat)
    (hhigh : a.toNat + 4 ≤ Config.flashTop) (hop : s.flc.op = .none) (hread : lineRead (wordBase a.toNat) s = (d, t))
    (hv : wordAtOffset d (wordOffset a.toNat) = v) :
    execFlashR32 a s = .next ({ t with hostSeen := .word v }.afterFlashRead a v) := by
  have hidle : ¬ s.flc.pend = true := by simp [pend_eq_decide, hop]
  rw [execFlashR32, memReadWord, if_neg (not_not.mpr halign), if_neg (not_not.mpr ⟨hlow, hhigh⟩), if_neg hidle]
  simp only [hread, hv, andThen_next]
  rfl

/-- An 8-bit read while nothing is in flight: the byte of the line read, zero-extended. -/
theorem execFlashR8_of_lineRead {b : Byte} (hlow : Config.flashBase ≤ a.toNat) (hhigh : a.toNat < Config.flashTop)
    (hop : s.flc.op = .none) (hread : lineRead (wordBase a.toNat) s = (d, t))
    (hb : flashByte d (wordOffset a.toNat) = b) :
    execFlashR8 a s = .next ({ t with hostSeen := .word (0#24 ++ b) }.afterFlashRead a (0#24 ++ b)) := by
  have hidle : ¬ s.flc.pend = true := by simp [pend_eq_decide, hop]
  rw [execFlashR8, memReadByte, if_neg (not_not.mpr ⟨hlow, hhigh⟩), if_neg hidle]
  simp only [hread, hb, andThen_next, setWidth_eq_append]
  rfl

/-- A 32-bit read while an operation is in flight: a draw, and the buffer empties (R92). -/
theorem execFlashR32_of_inFlight (halign : a.toNat % 4 = 0) (hlow : Config.flashBase ≤ a.toNat)
    (hhigh : a.toNat + 4 ≤ Config.flashTop) (hop : s.flc.op ≠ .none) :
    execFlashR32 a s = .next ({ s with
      lfb := none, draws := s.draws + 1, hostSeen := .word (Config.drawWord s.draws 0) }.afterFlashRead a
        (Config.drawWord s.draws 0)) := by
  have hbusy : s.flc.pend = true := by simp [pend_eq_decide, hop]
  rw [execFlashR32, memReadWord, if_neg (not_not.mpr halign), if_neg (not_not.mpr ⟨hlow, hhigh⟩), if_pos hbusy]
  rfl

/-- An 8-bit read while an operation is in flight: a draw, and the buffer empties (R92). -/
theorem execFlashR8_of_inFlight (hlow : Config.flashBase ≤ a.toNat) (hhigh : a.toNat < Config.flashTop)
    (hop : s.flc.op ≠ .none) :
    execFlashR8 a s = .next ({ s with
      lfb := none, draws := s.draws + 1, hostSeen := .word (0#24 ++ Config.drawByte s.draws 0) }.afterFlashRead a
        (0#24 ++ Config.drawByte s.draws 0)) := by
  have hbusy : s.flc.pend = true := by simp [pend_eq_decide, hop]
  rw [execFlashR8, memReadByte, if_neg (not_not.mpr ⟨hlow, hhigh⟩), if_pos hbusy]
  simp only [andThen_next, setWidth_eq_append]
  rfl

end Reads

/-- Settles O12: with a fresh or empty buffer the line read is the array's, and the read picks its bytes. -/
theorem flashReadsReturnTheArray : Obligations.FlashReadsReturnTheArray := by
  intro s a hop hfresh
  have hread := lineRead_of_lfbFresh hfresh (wordBase a.toNat)
  exact ⟨fun halign hlow hhigh =>
      execFlashR32_of_lineRead halign hlow hhigh hop hread (wordAtOffset_flashLine s.flash halign),
    fun hlow hhigh =>
      execFlashR8_of_lineRead hlow hhigh hop hread
        (flashByte_flashLine_wordBase s.flash (j := 0) (Nat.mod_lt _ (by decide)))⟩

/-- Settles O13: a stale line comes from one of two places (`lineRead_of_stale`), and a read during an operation is a draw. -/
theorem staleAndInFlightReadsComplete : Obligations.StaleAndInFlightReadsComplete := by
  intro s a
  refine ⟨fun d hop halign hlow hhigh hl hd => ?_, fun d hop hlow hhigh hl hd => ?_,
    fun hop halign hlow hhigh => ⟨_, execFlashR32_of_inFlight halign hlow hhigh hop⟩,
    fun hop hlow hhigh => ⟨_, execFlashR8_of_inFlight hlow hhigh hop⟩⟩
  · refine (lineRead_of_stale hl hd).imp (fun hread => ?_) fun hread => ?_
    · exact execFlashR32_of_lineRead halign hlow hhigh hop hread (wordAtOffset_eq_extractLsb' d halign)
    · exact execFlashR32_of_lineRead halign hlow hhigh hop hread (wordAtOffset_flashLine s.flash halign)
  · refine (lineRead_of_stale hl hd).imp (fun hread => ?_) fun hread => ?_
    · exact execFlashR8_of_lineRead hlow hhigh hop hread rfl
    · exact execFlashR8_of_lineRead hlow hhigh hop hread
        (flashByte_flashLine_wordBase s.flash (j := 0) (Nat.mod_lt _ (by decide)))

theorem execFlashR32_of_fault {s : State} {a : Word} {f : Fault} (h : memReadWord a s = .fault f) :
    execFlashR32 a s = .fault f := by
  rw [execFlashR32, h, andThen_fault]

theorem execFlashR8_of_fault {s : State} {a : Word} {f : Fault} (h : memReadByte a s = .fault f) :
    execFlashR8 a s = .fault f := by
  rw [execFlashR8, h, andThen_fault]

/-- Settles O14: the checks of R157 to R159 come before anything else. -/
theorem flashWindowFaults : Obligations.FlashWindowFaults := by
  intro s a
  exact ⟨fun halign => execFlashR32_of_fault (if_pos halign),
    fun halign hrange => execFlashR32_of_fault ((if_neg (not_not.mpr halign)).trans (if_pos hrange)),
    fun hrange => execFlashR8_of_fault (if_pos hrange), fun width v hin => if_pos ((inFlash_iff a).mpr hin)⟩

/-! ## HOST's fetch (R38, R164) -/

/-- The cache's map after an insertion: the new line at its address, and every other address as before. -/
theorem linesFind_linesInsert (ls : List CacheLine) (la : Nat) (d : FlashWord) (x : Nat) :
    linesFind (linesInsert ls la d) x = if x = la then some d else linesFind ls x := by
  induction ls with
  | nil => simp [linesInsert, linesFind, eq_comm]
  | cons l ls ih =>
    unfold linesInsert
    by_cases hlt : la < l.base
    · rw [if_pos hlt, linesFind]
      simp only [eq_comm (a := la)]
    · rw [if_neg hlt]
      by_cases heq : la = l.base
      · rw [if_pos heq, linesFind, linesFind, heq]
        by_cases hx : l.base = x <;> simp [hx, eq_comm (a := x)]
      · rw [if_neg heq, linesFind, linesFind, ih]
        by_cases hx : l.base = x
        · rw [if_pos hx, if_pos hx, if_neg fun hxla : x = la => heq (hxla.symm.trans hx.symm)]
        · rw [if_neg hx, if_neg hx]

section Fetch

variable {s : State} {a : Word} {la : Nat}

/-- A fetch while nothing is in flight, with the cache on and its engine at rest, is served by the cache where it holds the
line. -/
theorem fetchLine_of_hit {d : FlashWord} (hin : Config.inFlash a = true) (hop : s.flc.op = .none)
    (hla : alignDown a.toNat s.params.iccLine = la) (hen : s.icc.en = true) (hbusy : s.icc.busy = false)
    (hfind : linesFind s.icc.lines la = some d) : fetchLine a s = .next { s with hostSeen := .line d } := by
  simp [fetchLine, hin, pend_eq_decide, hop, hla, hen, hbusy, hfind]

/-- Where the cache misses, a fetch with a fresh or empty buffer reads the array's line, which goes to the buffer and the map. -/
theorem fetchLine_of_miss (hin : Config.inFlash a = true) (hop : s.flc.op = .none)
    (hla : alignDown a.toNat s.params.iccLine = la) (hen : s.icc.en = true) (hbusy : s.icc.busy = false)
    (hfind : linesFind s.icc.lines la = none) (hfresh : s.lfbFresh = true) :
    fetchLine a s = .next { s with
      lfb := some ⟨la, flashLine s.flash la⟩
      icc := { s.icc with lines := linesInsert s.icc.lines la (flashLine s.flash la) }
      hostSeen := .line (flashLine s.flash la) } := by
  simp [fetchLine, hin, pend_eq_decide, hop, hla, hen, hbusy, hfind, lineRead_of_lfbFresh hfresh]

/-- With the cache off, a fetch reads the line through the buffer alone. -/
theorem fetchLine_of_cache_off (hin : Config.inFlash a = true) (hop : s.flc.op = .none)
    (hla : alignDown a.toNat s.params.iccLine = la) (hen : s.icc.en = false) (hfresh : s.lfbFresh = true) :
    fetchLine a s = .next { s with
      lfb := some ⟨la, flashLine s.flash la⟩
      hostSeen := .line (flashLine s.flash la) } := by
  simp [fetchLine, hin, pend_eq_decide, hop, hla, hen, lineRead_of_lfbFresh hfresh]

/-- A fetch waits for the engine of an enabled cache: it stays HOST's next step. -/
theorem fetchLine_of_icce_busy (hin : Config.inFlash a = true) (hop : s.flc.op = .none) (hen : s.icc.en = true)
    (hbusy : s.icc.busy = true) : fetchLine a s = .next { s with hostQueue := .fetch a :: s.hostQueue } := by
  simp [fetchLine, hin, pend_eq_decide, hop, hen, hbusy]

theorem fetchLine_of_inFlight (hin : Config.inFlash a = true) (hop : s.flc.op ≠ .none) :
    fetchLine a s = .fault .fetchDuringFlashOp := by
  simp [fetchLine, hin, pend_eq_decide, hop]

end Fetch

/-- Settles O46: the cases of R164 in its order, and the cache's map after a miss. -/
theorem fetchGoesThroughTheCache : Obligations.FetchGoesThroughTheCache := by
  intro s a la hlow hhigh hla
  have hin : Config.inFlash a = true := (inFlash_iff a).mpr ⟨hlow, hhigh⟩
  exact ⟨fun hop => fetchLine_of_inFlight hin hop, fun hop hen hbusy => fetchLine_of_icce_busy hin hop hen hbusy,
    fun hop hen hbusy => ⟨fun d hfind => fetchLine_of_hit hin hop hla hen hbusy hfind, fun hfind hfresh =>
      ⟨_, fetchLine_of_miss hin hop hla hen hbusy hfind hfresh, linesFind_linesInsert _ _ _⟩⟩,
    fun hop hen hfresh => fetchLine_of_cache_off hin hop hla hen hfresh⟩

end Sys2Proof.Machine
end

section
/-! SUPPORT. The completion engines in a step (spec/40_register_surface.md R160 to R162, R165, R166): what each completion
leaves. -/

namespace Sys2Proof.Machine

/-! ## FLCE (R160, R165, R166) -/

theorem flceStep_of_program {s : State} {a : Word} {d : FlashWord} {ok : Bool} (h : s.flc.op = .program a d ok) :
    flceStep s = flceFinish (programFlash s.flash a.toNat d ok s.draws) a.toNat s := by
  simp only [flceStep, h]

theorem flceStep_of_erasePage {s : State} {p : Nat} {ok : Bool} (h : s.flc.op = .erasePage p ok) :
    flceStep s = flceFinish (eraseFlash s.flash p ok s.draws) p s := by
  simp only [flceStep, h]

/-- Settles O15: the completion of a program fills the word's sixteen bytes, each ANDed where the clock was right. -/
theorem programCompletionClearsBits : Obligations.ProgramCompletionClearsBits := by
  intro s a d ok hwf hop
  rw [flceStep_of_program hop, flceFinish_flash]
  refine ⟨rfl, wf_programFlash _ hwf _ _ _ _, fun x hx => ?_, fun hok j hj => ?_⟩
  · rw [memRead_programFlash _ hwf, if_neg hx]
  · rw [memRead_programFlash _ hwf, if_pos (by omega), Nat.add_sub_cancel_left, programByte, if_pos hok, flashByte]

/-- Settles O16: the completion of an erase changes the page's bytes alone, and erases them where the clock was right. -/
theorem eraseCompletionSetsThePage : Obligations.EraseCompletionSetsThePage := by
  intro s p ok hwf hop
  rw [flceStep_of_erasePage hop, flceFinish_flash]
  refine ⟨rfl, wf_eraseFlash _ hwf _ _ _, fun x hx => ?_, fun hok x hlow hhigh => ?_⟩
  · exact (memRead_eraseFlash _ hwf p ok _ x).trans (if_neg hx)
  · exact (memRead_eraseFlash _ hwf p ok _ x).trans ((if_pos ⟨hlow, hhigh⟩).trans (if_pos hok))

/-! ## ICCE and GCRE (R161, R162) -/

theorem icceStep_of_busy {s : State} (h : s.icc.busy = true) :
    icceStep s = { s with
      icc := { s.icc with
        busy := false, invPending := false, lines := if s.icc.invPending then [] else s.icc.lines }
      history := .record .icce .complete 0 0 :: s.history } := if_pos h

theorem gcreStep_of_busy {s : State} (h : s.gcr.busy = true) :
    gcreStep s = { s with
      gcr := { s.gcr with busy := false }
      icc := { s.icc with lines := [] }
      history := .record .gcre .complete 0 0 :: s.history } := if_pos h

/-- Settles O17: an engine at work has a step, so it moves where the schedule names it, and its move is its completion. -/
theorem enginesCompleteWhenTheyMove : Obligations.EnginesCompleteWhenTheyMove := by
  intro s rest
  refine ⟨fun hs hop => ?_, fun hs hbusy => ?_, fun hs hbusy => ?_⟩
  · have hready : agentReady .flce { s with sched := rest } = true := by simp [agentReady, pend_eq_decide, hop]
    exact step_of_scheduled hs hready
  · exact (step_of_scheduled (a := .icce) hs hbusy).trans (congrArg Host.Outcome.next (icceStep_of_busy hbusy))
  · exact (step_of_scheduled (a := .gcre) hs hbusy).trans (congrArg Host.Outcome.next (gcreStep_of_busy hbusy))

end Sys2Proof.Machine
end

section
/-! SUPPORT. Where an operation starts (spec/20_memory.md R83, spec/40_register_surface.md R146 to R148): every move of the
machine leaves the flash controller as it was, or as a register write left it, or with nothing in flight; and a register write
starts an operation only with the key in the lock. -/

namespace Sys2Proof.Machine

/-! ## What a register write can start -/

/-- What holds where an operation has come into flight between `s` and `t`: the key, the clock domain, and a legal target. -/
structure StartsLegally (s t : State) : Prop where
  key : s.flc.unlock = s.params.unlockKey
  clock : s.plat.flcClockOn = true
  program : ∀ a d ok, t.flc.op = .program a d ok →
    a.toNat % 16 = 0 ∧ 0x10000000 ≤ a.toNat ∧ a.toNat + 16 ≤ 0x10080000
  erase : ∀ p ok, t.flc.op = .erasePage p ok →
    s.flc.eraseCode = s.params.pageEraseCode ∧ p % 0x2000 = 0 ∧ 0x10000000 ≤ p ∧ p + 0x2000 ≤ 0x10080000

/-- A register write puts an operation in flight only as a write of `FLC.CTRL`. -/
theorem writeReg_starts {r : Reg} {v : Word} {s t : State} (h : writeReg r v s = .next t) (hop : s.flc.op = .none)
    (hstart : t.flc.op ≠ .none) : r = .flcCtrl ∧ writeCtrl v s = .next t := by
  cases r
  case flcCtrl => exact ⟨rfl, (whenReady_next _ _ _ h).2⟩
  case iccCtrl | iccInvalidate | gcrSysctrl =>
    obtain ⟨-, -, hflc, -⟩ := writeReg_frame _ v s t h
    rw [hflc rfl] at hstart
    exact absurd hop hstart
  case flcIntr =>
    obtain ⟨-, hrule⟩ := whenReady_next _ _ _ h
    unfold writeIntr at hrule
    split at hrule
    · cases hrule
    · cases hrule
      exact absurd hop hstart
  all_goals
    obtain ⟨-, hrule⟩ := whenReady_next _ _ _ h
    cases hrule
    exact absurd hop hstart

/-- A register access that puts an operation in flight does so legally (R147, R148). -/
theorem mmioWrite_starts {r : Reg} {v : Word} {s t : State} (h : mmioWrite r v s = .next t) (hop : s.flc.op = .none)
    (hstart : t.flc.op ≠ .none) : StartsLegally s t := by
  obtain ⟨hclock, u, hu, rfl⟩ := mmioWrite_next r v s t h
  obtain ⟨rfl, hctrl⟩ := writeReg_starts hu hop hstart
  obtain ⟨-, -, hcases⟩ := writeCtrl_next _ _ _ hctrl
  rcases hcases with ⟨-, -, rfl⟩ | ⟨-, -, -, hprog⟩ | ⟨-, -, -, -, herase⟩
  · exact absurd hop hstart
  · rcases programStart_next _ _ _ hprog with ⟨-, rfl⟩ | ⟨hkey, halign, hlow, hhigh, rfl⟩
    · exact absurd hop hstart
    · refine ⟨hkey, hclock rfl, fun a d ok ha => ?_, fun p ok hp => nomatch hp⟩
      cases ha
      exact ⟨halign, hlow, hhigh⟩
  · rcases eraseStart_next _ _ _ _ herase with ⟨-, rfl⟩ | ⟨hkey, hcode, hlow, hhigh, rfl⟩
    · exact absurd hop hstart
    · refine ⟨hkey, hclock rfl, fun a d ok ha => (nomatch ha), fun p ok hp => ?_⟩
      cases hp
      simp only [Config.flashBase, Config.flashTop] at hlow hhigh
      refine ⟨hcode, ?_⟩
      simp only [pageBase, alignDown]
      omega

/-! ## What each move does to the flash controller -/

/-- The flash controller is as it was, or as a register write left it, or it has nothing in flight. -/
def FlcMoved (s t : State) : Prop :=
  t.flc = s.flc ∨ (∃ r v u, mmioWrite r v s = .next u ∧ t.flc = u.flc) ∨ t.flc.op = .none

theorem FlcMoved.of_eq {s t : State} (h : t.flc = s.flc) : FlcMoved s t := .inl h

theorem FlcMoved.of_write {r : Reg} {v : Word} {s t u : State} (h : mmioWrite r v s = .next u) (ht : t.flc = u.flc) :
    FlcMoved s t := .inr (.inl ⟨r, v, u, h, ht⟩)

/-- An operation that such a move puts in flight starts legally. -/
theorem FlcMoved.startsLegally {s t : State} (h : FlcMoved s t) (hop : s.flc.op = .none) (hstart : t.flc.op ≠ .none) :
    StartsLegally s t := by
  rcases h with e | ⟨r, v, u, hu, e⟩ | hnone
  · exact absurd (e ▸ hop) hstart
  · rw [e] at hstart
    obtain ⟨hkey, hclock, hprog, herase⟩ := mmioWrite_starts hu hop hstart
    exact ⟨hkey, hclock, fun a d ok ha => hprog a d ok (e ▸ ha), fun p ok hp => herase p ok (e ▸ hp)⟩
  · exact absurd hnone hstart

theorem flc_of_mmioRead {r : Reg} {s : State} {x : Word × State} (h : mmioRead r s = .next x) : x.2.flc = s.flc := by
  obtain ⟨-, rfl⟩ := mmioRead_next r s x h
  rfl

theorem flc_of_memReadWord {a : Word} {s : State} {x : Word × State} (h : memReadWord a s = .next x) :
    x.2.flc = s.flc := by
  obtain ⟨-, -, -, ⟨-, rfl⟩ | ⟨-, d, n, -, -, rfl⟩⟩ := memReadWord_next a s x h
  · rfl
  · rfl

theorem flc_of_memReadByte {a : Word} {s : State} {x : Byte × State} (h : memReadByte a s = .next x) :
    x.2.flc = s.flc := by
  obtain ⟨-, -, ⟨-, rfl⟩ | ⟨-, d, n, -, -, rfl⟩⟩ := memReadByte_next a s x h
  · rfl
  · rfl

theorem flc_of_lineRead (la : Nat) (s : State) : (lineRead la s).2.flc = s.flc := by
  obtain ⟨d, n, hread, -⟩ := lineRead_cases la s
  rw [hread]

theorem flc_fail (code : Code) (s : State) : (fail code s).flc = s.flc := by
  rcases fail_cases code s with ⟨-, e⟩ | ⟨-, e⟩ <;> rw [e]
  · rfl
  · rfl

/-! ## Where an operation's answer satisfies a predicate -/

/-- Where `x` answers a state, the state satisfies `P`. -/
def Ensures (P : State → Prop) (x : Res State) : Prop := ∀ t, x = .next t → P t

section Ensures

variable {α : Type} {P : State → Prop}

theorem Ensures.next {t : State} (h : P t) : Ensures P (.next t) := by
  rintro u ⟨⟩
  exact h

theorem Ensures.fault (f : Fault) : Ensures P (.fault f) := fun _ h => nomatch h

theorem Ensures.need {x : Option α} {f : α → Res State} (h : ∀ a, Ensures P (f a)) : Ensures P (need x f) := by
  intro t ht
  obtain ⟨a, -, ha⟩ := (need_eq_next _ _ _).mp ht
  exact h a t ha

theorem Ensures.needWork {x : Option α} {f : α → Res State} (h : ∀ a, Ensures P (f a)) : Ensures P (needWork x f) := by
  intro t ht
  obtain ⟨a, -, ha⟩ := (needWork_eq_next _ _ _).mp ht
  exact h a t ha

theorem Ensures.andThen {x : Res α} {f : α → Res State} (h : ∀ a, x = .next a → Ensures P (f a)) :
    Ensures P (andThen x f) := by
  intro t ht
  obtain ⟨a, hx, ha⟩ := (andThen_eq_next _ _ _).mp ht
  exact h a hx t ha

theorem Ensures.ite {c : Prop} [Decidable c] {x y : Res State} (hx : Ensures P x) (hy : Ensures P y) :
    Ensures P (if c then x else y) := by
  split
  · exact hx
  · exact hy

end Ensures

/-! ## The lines of the commands -/

section Lines

variable {prog : List Label} {here : Label} {s s' : State}

/-- Moving the step counter keeps what was done to the flash controller. -/
theorem Ensures.advance (h : FlcMoved s s') : Ensures (FlcMoved s) (advanceStep prog here s') := by
  intro t ht
  obtain ⟨l, -, rfl⟩ := advanceStep_next prog here s' t ht
  exact h

theorem Ensures.readLine (r : Reg) : Ensures (FlcMoved s) (Machine.andThen (readToT r s) (advanceStep prog here)) :=
  .andThen fun u hu => by
    obtain ⟨x, hx, hu⟩ := (andThen_eq_next _ _ _).mp hu
    cases hu
    exact .advance (.of_eq (flc_of_mmioRead hx))

theorem Ensures.pollLine (r : Reg) (p : Word → Bool) : Ensures (FlcMoved s) (pollReg r p (advanceStep prog here) s) :=
  .andThen fun _ hx => .ite (.advance (.of_eq (flc_of_mmioRead hx))) (.next (.of_eq (flc_of_mmioRead hx)))

theorem Ensures.writeLine (r : Reg) (w : Word) :
    Ensures (FlcMoved s) (Machine.andThen (writeFields r w s) (advanceStep prog here)) :=
  .andThen fun _ hu => .advance (.of_write hu rfl)

theorem Ensures.writeFromTLine (r : Reg) (f : Word → Word) :
    Ensures (FlcMoved s) (Machine.andThen (writeFromT r f s) (advanceStep prog here)) :=
  .andThen fun u hu => by
    obtain ⟨v, -, hu⟩ := (needWork_eq_next _ _ _).mp hu
    exact .advance (.of_write hu rfl)

theorem Ensures.laneLine (c : Ctx) (site : Site) (k : Nat) (r : Reg) :
    Ensures (FlcMoved s) (Machine.andThen (laneLine c site k r s) (advanceStep prog here)) :=
  .andThen fun u hu => by
    obtain ⟨v, -, hu⟩ := (andThen_eq_next _ _ _).mp hu
    exact .advance (.of_write hu rfl)

theorem Ensures.mergeLine (site : Site) (k : Nat) :
    Ensures (FlcMoved s) (Machine.andThen (mergeLine site k s) (advanceStep prog here)) :=
  .andThen fun u hu => by
    obtain ⟨p, -, hu⟩ := (needWork_eq_next _ _ _).mp hu
    obtain ⟨x, hx, hu⟩ := (andThen_eq_next _ _ _).mp hu
    cases hu
    exact .advance (.of_eq (flc_of_memReadWord hx))

end Lines

/-- What one line of a command does to the flash controller: a line that writes a register does that write, and every other
line leaves the controller alone. -/
theorem performLine_flc (c : Ctx) (prog : List Label) (here : Label) (site : Site) (l : Line) (s : State) :
    Ensures (FlcMoved s) (performLine c site l (advanceStep prog here) s) := by
  have kept : FlcMoved s s := .of_eq rfl
  have failed (code : Code) : Ensures (FlcMoved s) (.next (fail code s)) := .next (.of_eq (flc_fail code s))
  cases l <;> simp only [performLine]
  -- the lines that access a register
  case w1 | w7 | g8 | h6 | f3 | e4 | e7 => exact .pollLine _ _
  case d1 | c1 | u1 | k1 | g6 | h2 | h4 | f1 | e1 | e5 => exact .readLine _
  case d2 | c2 | u2 | k2 | g7 | h3 | h5 | f2 | e2 | e6 => exact .writeFromTLine _ _
  case l2 => exact .needWork fun _ => .writeLine _ _
  case g1 => exact .andThen fun _ _ => .writeLine _ _
  case g2 | g3 | g4 | g5 => exact .laneLine _ _ _ _
  case h1 => exact .need fun _ => .writeLine _ _
  case e3 => exact .writeLine _ _
  -- the lines that read flash
  case m0 | m1 | m2 | m3 => exact .mergeLine _ _
  case f4 | f5 => exact .andThen fun _ hx => .advance (.of_eq (flc_of_memReadWord hx))
  case r1 => exact .need fun _ => .andThen fun _ hx => .advance (.of_eq (flc_of_memReadWord hx))
  case readByte =>
    refine .andThen fun u hu => .advance (.of_eq ?_)
    obtain ⟨a, -, hu⟩ := (need_eq_next _ _ _).mp hu
    obtain ⟨i, -, hu⟩ := (needWork_eq_next _ _ _).mp hu
    obtain ⟨x, hx, hu⟩ := (andThen_eq_next _ _ _).mp hu
    cases hu
    exact flc_of_memReadByte hx
  -- the internal lines
  case failIllegal => exact failed _
  case haltPanic | boundsIdle | done => exact .next kept
  case boundsStatus | initIndex => exact .advance kept
  case boundsResult => exact .need fun _ => .need fun _ => .advance kept
  case checkShape => exact .need fun _ => .need fun _ => .ite (.fault _) (.advance kept)
  case checkAlign => exact .need fun _ => .ite (failed _) (.advance kept)
  case checkRange => exact .need fun _ => .need fun _ => .ite (.advance kept) (failed _)
  case checkClock => exact .need fun _ => .ite (.advance kept) (failed _)
  case setDiv => exact .need fun _ => .needWork fun _ => .advance kept
  case initCursor => exact .need fun _ => .advance kept
  case ifHead => exact .needWork fun _ => .ite (.advance kept) (.next kept)
  case bindWord | setResult => exact .needWork fun _ => .advance kept
  case bindCount => exact .need fun _ => .needWork fun _ => .needWork fun _ => .advance kept
  case mergeCheck => exact .needWork fun _ => .ite (.advance kept) (failed _)
  case spliceBytes =>
    refine .andThen fun u hu => ?_
    obtain ⟨w, rfl⟩ := spliceLine_next hu
    exact .advance kept
  case advance =>
    refine .andThen fun u hu => ?_
    obtain ⟨p, i, rfl⟩ := advanceCursor_next hu
    exact .ite (.next kept) (.advance kept)
  case whileChunks | ifTail | whileBytes => exact .need fun _ => .needWork fun _ => .ite (.advance kept) (.next kept)
  case nextByte => exact .needWork fun _ => .next kept

/-! ## The moves of the agents -/

theorem seqMove_flc (s : State) : Ensures (FlcMoved s) (seqMove exec s) := by
  intro t h
  rcases seqMove_next s t h with ⟨-, rfl⟩ | ⟨-, -, rfl⟩ | ⟨-, w, c, -, -, hrun⟩
  · exact .of_eq rfl
  · exact .of_eq rfl
  · obtain ⟨site, l, -, -, hline⟩ := runLine_next _ c s t hrun
    exact performLine_flc c _ _ site l s t hline

theorem icceStep_flc (s : State) : (icceStep s).flc = s.flc := by
  unfold icceStep
  split
  · rfl
  · rfl

theorem gcreStep_flc (s : State) : (gcreStep s).flc = s.flc := by
  unfold gcreStep
  split
  · rfl
  · rfl

theorem loadRam_flc (s : State) : (loadRam s).flc = s.flc := by
  unfold loadRam
  simp only
  split
  · rfl
  · split
    · rfl
    · exact flc_of_lineRead _ _

theorem fetchLine_flc (a : Word) (s : State) : Ensures (FlcMoved s) (fetchLine a s) := by
  have read : (lineRead (alignDown a.toNat s.params.iccLine) s).2.flc = s.flc := flc_of_lineRead _ s
  refine .ite (.fault _) (.ite (.fault _) (.ite (.ite (.next (.of_eq rfl)) ?_) (.next (.of_eq read))))
  split
  · exact .next (.of_eq rfl)
  · exact .next (.of_eq read)

/-- One step of HOST: a register write by its direction is a write, a reset leaves nothing in flight (R340), and no other step
touches the controller. -/
theorem hostStep_flc (e : HostStep) (s : State) : Ensures (FlcMoved s) (hostStep exec e s) := by
  have kept : FlcMoved s s := .of_eq rfl
  cases e with
  | powerOnFlc => exact .next kept
  | loadRam => exact .next (.of_eq (loadRam_flc s))
  | createHandle => exact .ite (.fault _) (.ite (.fault _) (.next kept))
  | setOperand p v => cases p <;> exact .next kept
  | setBufIn bs => exact .next kept
  | issue v => exact .ite (.fault _) (.ite (.fault _) (.next kept))
  | readPort p => exact .need fun _ => .next kept
  | readBufOut => exact .need fun _ => .next kept
  | fetch a => exact fetchLine_flc a s
  | reset => exact .next (.inr (.inr rfl))
  | mmio dir a v =>
    intro t h
    rcases hostMmio_next dir a v s t h with ⟨r, h⟩ | ⟨r, x, h⟩
    · obtain ⟨-, rfl⟩ := readToHost_next r s t h
      exact kept
    · exact .of_write h rfl
  | mem dir width a v =>
    intro t h
    rcases hostMem_next dir width a v s t h with ⟨b, h⟩ | ⟨b, h⟩
    all_goals
      obtain ⟨x, hx, ht⟩ := (andThen_eq_next _ _ _).mp h
      cases ht
    · exact .of_eq (flc_of_memReadWord hx)
    · exact .of_eq (flc_of_memReadByte hx)

/-- What one step of the machine does to the flash controller. The entries of the schedule and of HOST's queue that it uses up
are no part of what a register write reads. -/
theorem step_flc {s t : State} (h : step s = .next t) : ∃ sch q, FlcMoved { s with sched := sch, hostQueue := q } t := by
  obtain ⟨s', sch, rfl, h⟩ := step_cases s t h
  rcases h with rfl | ⟨-, h⟩ | ⟨-, rfl⟩ | ⟨-, rfl⟩ | ⟨-, rfl⟩ | ⟨-, e, rest, -, h⟩
  · exact ⟨sch, s.hostQueue, .of_eq rfl⟩
  · exact ⟨sch, s.hostQueue, seqMove_flc _ t h⟩
  · exact ⟨sch, s.hostQueue, .inr (.inr (flceStep_op _))⟩
  · exact ⟨sch, s.hostQueue, .of_eq (icceStep_flc _)⟩
  · exact ⟨sch, s.hostQueue, .of_eq (gcreStep_flc _)⟩
  · exact ⟨sch, rest, hostStep_flc e _ t h⟩

/-- Settles O59: an operation comes into flight only by a register write, which starts it legally, and the array changes only
where an operation ends. -/
theorem operationsStartUnlockedAndInRange : Obligations.OperationsStartUnlockedAndInRange := by
  intro s t h hop hstart
  obtain ⟨sch, q, hmoved⟩ := step_flc h
  obtain ⟨hkey, hclock, hprog, herase⟩ := hmoved.startsLegally hop hstart
  have hflash := (onlyAnEndingOperationChangesFlash s t h).resolve_right fun hends => hends.1 hop
  exact ⟨hkey, hclock, hflash, hprog, herase⟩

end Sys2Proof.Machine
end

section
/-! SUPPORT. The Address Validator (spec/41_address_validator.md): the three lines of CHECK_BOUNDS, the range check of each
command that has one, and WRITE's shape check before it. -/

namespace Sys2Proof.Machine

/-- The bounds check on its two ends (R180). -/
theorem checkBounds_iff (start stop : Nat) :
    checkBounds start stop = true ↔ 0x10000000 ≤ start ∧ start ≤ 0x10080000 ∧ 0x10000000 ≤ stop ∧ stop ≤ 0x10080000
      ∧ start < stop := by
  simp only [checkBounds, Bool.and_eq_true, decide_eq_true_eq, and_assoc]
  rfl

/-- The end of a range by its length, where the address and the length hold values (R105). -/
theorem rangeStop_of_eq_some {x y : Option Word} {a n : Word} (ha : x = some a) (hn : y = some n) :
    rangeStop x y = some (a.toNat + n.toNat) := by
  subst ha hn
  rfl

/-- The range line of a command that checks `len` bytes from the address `a`: the line that follows, or the failure with
BOUNDS. The end is a natural, so it does not wrap. -/
theorem exec_checkRange {i : Instr} {site : Site} {n : Label} {s : State} {a : Word} {len : Nat}
    (hrun : s.Runs i site .checkRange) (ha : (operandsOf i s.seq).addr = some a)
    (hend : (operandsOf i s.seq).rangeEnd = some (a.toNat + len)) (hn : Follows i site .checkRange n) :
    exec i s = .next (if 0x10000000 ≤ a.toNat ∧ 0 < len ∧ a.toNat + len ≤ 0x10080000
      then s.movedTo n else s.failed .bounds 2) := by
  obtain ⟨⟨-, hstep⟩, hmem, -⟩ := hrun
  rw [exec_eq_performLine i site .checkRange s hstep hmem, performLine, ha, need_some, hend, need_some,
    checkBounds_add, advanceStep_of_follows hn, fail_eq_failed]
  simp only [decide_eq_true_eq]
  split
  · rfl
  · rfl

/-- The range line of a command whose range is a fixed number of bytes from OPA, which is not 0. -/
theorem exec_checkRange_of_pos {i : Instr} {site : Site} {n : Label} {s : State} {a : Word} {len : Nat}
    (hlen : 0 < len) (hrun : s.Runs i site .checkRange) (hopa : s.seq.opa = some a)
    (haddr : (operandsOf i s.seq).addr = s.seq.opa)
    (hend : (operandsOf i s.seq).rangeEnd = s.seq.opa.map (·.toNat + len)) (hn : Follows i site .checkRange n) :
    exec i s = .next (if 0x10000000 ≤ a.toNat ∧ a.toNat + len ≤ 0x10080000
      then s.movedTo n else s.failed .bounds 2) := by
  rw [hopa] at haddr hend
  simpa only [hlen, true_and] using exec_checkRange hrun haddr hend hn

/-- WRITE's shape line: the fault where the buffer's length is not the length operand, or the range check. -/
theorem exec_write_checkShape {s : State} {n : Word} {bs : List Byte} (hrun : s.Runs .write .main .checkShape)
    (hbuf : s.seq.bufIn = some bs) (hb : s.seq.opb = some n) :
    (bs.length ≠ n.toNat → exec .write s = .fault .operandMismatch)
      ∧ (bs.length = n.toNat → exec .write s = .next (s.movedTo (.line .main .checkRange))) := by
  obtain ⟨⟨-, hstep⟩, hmem, -⟩ := hrun
  have hlen : (operandsOf .write s.seq).len = some n.toNat := congrArg (Option.map fun x : Word => x.toNat) hb
  have hbytes : (operandsOf .write s.seq).bytes = some bs := hbuf
  have hn : Follows .write .main .checkShape (.line .main .checkRange) := rfl
  have hline : exec .write s = if bs.length ≠ n.toNat then .fault .operandMismatch
      else advanceStep (programOf .write) (.line .main .checkShape) s := by
    rw [exec_eq_performLine .write .main .checkShape s hstep hmem, performLine, hbytes, need_some, hlen, need_some]
  constructor
  · intro hmismatch
    rw [hline, if_pos hmismatch]
  · intro hmatch
    rw [hline, if_neg (not_not.mpr hmatch), advanceStep_of_follows hn]

/-- Settles O22: the five commands check their ranges by the same line, at the lengths 16, 1, 4 and `len`, and WRITE compares
its buffer with `len` at the line before. -/
theorem rangesAreCheckedWithoutWrap : Obligations.RangesAreCheckedWithoutWrap := by
  intro s a ha
  refine ⟨fun hrun => ?writeWord, fun hrun => ?erasePage, fun hrun => ?read32, fun n hb =>
    ⟨fun hrun => ?read, fun hrun => ?write, fun bs hbuf hrun => exec_write_checkShape hrun hbuf hb⟩⟩
  case writeWord => exact exec_checkRange_of_pos (by decide : 0 < 16) hrun ha rfl rfl rfl
  case erasePage => exact exec_checkRange_of_pos (by decide : 0 < 1) hrun ha rfl rfl rfl
  case read32 => exact exec_checkRange_of_pos (by decide : 0 < 4) hrun ha rfl rfl rfl
  case read => exact exec_checkRange hrun ha (rangeStop_of_eq_some ha hb) rfl
  case write => exact exec_checkRange hrun ha (rangeStop_of_eq_some ha hb) rfl

/-- The first line of CHECK_BOUNDS: the answer goes to RESULT (R181). -/
theorem exec_boundsResult {s : State} {a b : Word} (hat : s.At .main .boundsResult) (ha : s.seq.opa = some a)
    (hb : s.seq.opb = some b) :
    exec .checkBounds s = .next ({ s with seq := { s.seq with
      result := some (if 0x10000000 ≤ a.toNat ∧ a.toNat ≤ 0x10080000 ∧ 0x10000000 ≤ b.toNat ∧ b.toNat ≤ 0x10080000
        ∧ a.toNat < b.toNat then 1 else 0) } }.movedTo (.line .main .boundsStatus)) := by
  have haddr : (operandsOf .checkBounds s.seq).addr = some a := ha
  have hend : (operandsOf .checkBounds s.seq).rangeEnd = some b.toNat := congrArg (Option.map fun x : Word => x.toNat) hb
  have hn : Follows .checkBounds .main .boundsResult (.line .main .boundsStatus) := rfl
  rw [exec_eq_performLine .checkBounds .main .boundsResult s hat.2 (by decide), performLine, haddr, need_some, hend,
    need_some]
  simp only [checkBounds_iff]
  exact advanceStep_of_follows hn _

/-- Settles O20: the answer is `checkBounds` of the two operands, and the two lines after it set STATUS and end the command. -/
theorem checkBoundsAnswersTheRange : Obligations.CheckBoundsAnswersTheRange := by
  intro s
  refine ⟨fun a b ha hb hat => exec_boundsResult hat ha hb, fun hat => ?status, fun hat => ?idle⟩
  case status =>
    have hn : Follows .checkBounds .main .boundsStatus (.line .main .boundsIdle) := rfl
    rw [exec_eq_performLine .checkBounds .main .boundsStatus s hat.2 (by decide)]
    exact advanceStep_of_follows hn (setStatus .ok s)
  case idle =>
    rw [exec_eq_performLine .checkBounds .main .boundsIdle s hat.2 (by decide)]
    rfl

end Sys2Proof.Machine
end

section
/-! SUPPORT. The clock divisor (spec/42_clock_divisor.md) and the writing lines around an operation (R193, R221 to R223): the
clock check and the divisor it leaves, and what a writing line of a command does by its register's rule. -/

namespace Sys2Proof.Machine

/-! ## The clock check and the divisor (R190 to R192) -/

/-- The commands with a clock check read their frequency from OPF, and take its divisor at the line after the check
(R191, R240). -/
theorem freq_of_checkClock (q : Seq) :
    ∀ i ∈ [Instr.setClkdiv, .writeWord, .write, .erasePage],
      (operandsOf i q).freq = q.opf ∧ Follows i .main .checkClock (.line .main .setDiv) := by
  simp only [List.forall_mem_cons]
  exact ⟨⟨rfl, rfl⟩, ⟨rfl, rfl⟩, ⟨rfl, rfl⟩, ⟨rfl, rfl⟩, List.forall_mem_nil _⟩

section ClockLines

variable {i : Instr} {site : Site} {n : Label} {s : State} {f : Word}

/-- The clock line where the frequency has a divisor: the line that follows. -/
theorem exec_checkClock_of_some {d : Byte} (hrun : s.Runs i site .checkClock) (hf : (operandsOf i s.seq).freq = some f)
    (hd : clkdivOf f = some d) (hn : Follows i site .checkClock n) : exec i s = .next (s.movedTo n) := by
  obtain ⟨⟨-, hstep⟩, hmem, -⟩ := hrun
  rw [exec_eq_performLine i site .checkClock s hstep hmem, performLine, hf, need_some, hd, Option.isSome_some,
    if_pos rfl, advanceStep_of_follows hn]

/-- The clock line where the frequency has no divisor: the failure with CLOCK. -/
theorem exec_checkClock_of_none (hrun : s.Runs i site .checkClock) (hf : (operandsOf i s.seq).freq = some f)
    (hd : clkdivOf f = none) : exec i s = .next (s.failed .clock 3) := by
  obtain ⟨⟨-, hstep⟩, hmem, -⟩ := hrun
  rw [exec_eq_performLine i site .checkClock s hstep hmem, performLine, hf, need_some, hd, Option.isSome_none,
    if_neg Bool.false_ne_true, fail_eq_failed]
  rfl

/-- The line after the clock check: the divisor of the frequency in `SEQ.DIV`. -/
theorem exec_setDiv {d : Byte} (hrun : s.Runs i site .setDiv) (hf : (operandsOf i s.seq).freq = some f)
    (hd : clkdivOf f = some d) (hn : Follows i site .setDiv n) :
    exec i s = .next ({ s with seq := { s.seq with div := some d } }.movedTo n) := by
  obtain ⟨⟨-, hstep⟩, hmem, -⟩ := hrun
  rw [exec_eq_performLine i site .setDiv s hstep hmem, performLine, hf, need_some, hd, needWork_some,
    advanceStep_of_follows hn]

end ClockLines

/-- Settles O23: the four commands check the clock by the same two lines, and `clkdivOf_eq` says which frequencies have a
divisor. -/
theorem clockIsCheckedAndDivided : Obligations.ClockIsCheckedAndDivided := by
  intro s f hopf i hi
  obtain ⟨hfreq, hcheck⟩ := freq_of_checkClock s.seq i hi
  rw [hopf] at hfreq
  have hdiv := clkdivOf_eq f
  refine ⟨fun hrun => ⟨fun hok => ?passes, fun hbad => ?fails⟩, fun hrun hok n hn => ?divides⟩
  case passes => exact exec_checkClock_of_some hrun hfreq (hdiv.trans (if_pos hok)) hcheck
  case fails => exact exec_checkClock_of_none hrun hfreq (hdiv.trans (if_neg hbad))
  case divides => exact exec_setDiv hrun hfreq (hdiv.trans (if_pos hok)) hn

/-! ## The writing lines of a command (R120) -/

section WriteLines

variable {i : Instr} {site : Site} {l : Line} {n : Label} {r : Reg} {s t : State}

/-- A line that writes the fields `w`: what the register's own rule makes of them, with the access recorded, and the line that
follows. -/
theorem exec_writeLine {w : Word} (hrun : s.Runs i site l) (hn : Follows i site l n)
    (hclock : r.isFlc = true → s.plat.flcClockOn = true)
    (hline : ∀ goOn, performLine (operandsOf i s.seq) site l goOn s = andThen (writeFields r w s) goOn)
    (hwrite : writeReg r w s = .next t) :
    exec i s = .next ((t.afterWrite r (s.params.regmap.bus r w)).movedTo n) := by
  obtain ⟨⟨-, hstep⟩, hmem, -⟩ := hrun
  have hfields : writeReg r (s.params.regmap.fields r (s.params.regmap.bus r w)) s = .next t := by
    rw [RegMap.fields_bus, hwrite]
  rw [exec_eq_performLine i site l s hstep hmem, hline, writeFields, mmioWrite_of_next r hclock hfields, andThen_next,
    advanceStep_of_follows hn]

/-- The second half of a read-modify-write, while the register is as it was read: a write of `f` of the register's fields. -/
theorem exec_writeFromTLine {f : Word → Word} (hrun : s.Runs i site l) (hn : Follows i site l n)
    (hclock : r.isFlc = true → s.plat.flcClockOn = true) (ht : s.seq.t = some (busRead r s))
    (hline : ∀ goOn, performLine (operandsOf i s.seq) site l goOn s = andThen (writeFromT r f s) goOn)
    (hwrite : writeReg r (f (readReg r s)) s = .next t) :
    exec i s = .next ((t.afterWrite r (s.params.regmap.bus r (f (readReg r s)))).movedTo n) := by
  refine exec_writeLine hrun hn hclock (fun goOn => ?_) hwrite
  rw [hline, writeFromT, ht, needWork_some, fields_busRead]

end WriteLines

/-! ## The words and the effects of C2, U2 and K2 (R221 to R223) -/

/-- `FLC.INTR with AF := 0` (R221). -/
theorem withAfClear_readReg (s : State) :
    withAfClear (readReg .flcIntr s) = (0#31 ++ BitVec.ofBool s.flc.done : Word) := by
  apply BitVec.eq_of_getLsbD_eq
  intro i hi
  simp only [BitVec.getLsbD_append]
  interval_cases i <;> simp [withAfClear, readReg, intrWord, fieldAt, bitAt]

/-- `T with UNLOCK := k`, the key in front of the 28 bits that are kept (R222, R223). -/
theorem withUnlock_eq_append (t : Word) (k : BitVec 4) : withUnlock t k = (t &&& 0x0FFFFFFF) ||| (k ++ 0#28) := by
  have hkey : fieldAt k 28 = (k ++ 0#28 : Word) := by
    apply BitVec.eq_of_getLsbD_eq
    intro i hi
    simp only [BitVec.getLsbD_append]
    interval_cases i <;> simp [fieldAt]
  rw [withUnlock, hkey]

section Effects

variable {s : State}

/-- Writing `FLC.INTR` back with `AF` clear clears that flag and no other. -/
theorem writeReg_withAfClear (hop : s.flc.op = .none) :
    writeReg .flcIntr (withAfClear (readReg .flcIntr s)) s = .next { s with flc := { s.flc with af := false } } := by
  simp [writeReg, readReg, whenReady_of_none s _ hop, writeIntr]

/-- Writing `FLC.CTRL` back with a key in `UNLOCK` stores the key and starts nothing. -/
theorem writeReg_withUnlock (hop : s.flc.op = .none) (k : BitVec 4) :
    writeReg .flcCtrl (withUnlock (readReg .flcCtrl s) k) s = .next { s with flc := { s.flc with unlock := k } } := by
  rw [writeReg_flcCtrl hop, writeCtrl_of_no_start]
  all_goals simp [readReg, wr_false_of_none _ hop, pge_false_of_none _ hop]

/-- Writing a divisor to `FLC.CLKDIV` stores it (R193). -/
theorem writeReg_divisor (hop : s.flc.op = .none) (d : Byte) :
    writeReg .flcClkdiv (0#24 ++ d) s = .next { s with flc := { s.flc with clkdiv := d } } := by
  rw [← setWidth_eq_append, writeReg, whenReady_of_none s _ hop, clkdivField_setWidth]

end Effects

/-- Settles O27: C2, U2 and K2 write a register back with one field replaced, and L2 writes the divisor. -/
theorem guardLinesWriteTheController : Obligations.GuardLinesWriteTheController := by
  intro s i site l n hrun hn hclock hop
  refine ⟨?c2, ?l2, ?u2, ?k2⟩
  case c2 =>
    rintro rfl ht
    rw [← withAfClear_readReg]
    exact exec_writeFromTLine (f := withAfClear) hrun hn (fun _ => hclock) ht (fun _ => rfl) (writeReg_withAfClear hop)
  case l2 =>
    rintro rfl d hd
    refine exec_writeLine hrun hn (fun _ => hclock) (fun goOn => ?_) (writeReg_divisor hop d)
    rw [performLine, hd, needWork_some, setWidth_eq_append]
  case u2 =>
    rintro rfl ht
    rw [← withUnlock_eq_append]
    exact exec_writeFromTLine (f := fun t => withUnlock t s.params.unlockKey) hrun hn (fun _ => hclock) ht (fun _ => rfl)
      (writeReg_withUnlock hop _)
  case k2 =>
    rintro rfl ht
    rw [← withUnlock_eq_append]
    exact exec_writeFromTLine (f := fun t => withUnlock t s.params.lockKey) hrun hn (fun _ => hclock) ht (fun _ => rfl)
      (writeReg_withUnlock hop _)

end Sys2Proof.Machine
end

section
/-! SUPPORT. Whole commands under the eager schedule (spec/95_test_vectors.md section 0; log entry 7): a command that runs alone
is its own lines, one a step, and the guard commands run from their issue to their end. -/

namespace Sys2Proof.Machine

/-! ## Steps of a command that runs alone (R10, R20, R84) -/

theorem Reaches.refl (s : State) : Reaches 0 s s := rfl

/-- One step, and then `k` more. -/
theorem Reaches.cons {k : Nat} {s t u : State} (h : step s = .next t) (hk : Reaches k t u) : Reaches (k + 1) s u := by
  have hstep : Sys2Proof.core.step s = .next t := h
  simpa only [Reaches, Host.Core.run, hstep] using hk

/-- The operands of a command do not depend on the step counter and the working registers (R23, R27, R104). -/
theorem operandsHeld_with (i : Instr) (q : Seq) (step : Option Label) (div : Option Byte) (w : Option FlashWord)
    (p ix t : Option Word) :
    operandsHeld i { q with step := step, div := div, w := w, p := p, i := ix, t := t } = operandsHeld i q := by
  cases i <;> rfl

/-- A line that another follows is a line of its list. -/
theorem mem_of_lineAfter {prog : List Label} {here n : Label} (h : lineAfter prog here = some n) : here ∈ prog := by
  induction prog with
  | nil => simp [lineAfter] at h
  | cons a prog ih =>
    cases prog with
    | nil => simp [lineAfter] at h
    | cons b rest =>
      rw [lineAfter] at h
      split at h
      · next ha => exact ha ▸ List.mem_cons_self
      · exact List.mem_cons_of_mem a (ih h)

/-- SEQ runs the command `i`, whose operands are held, with the clock domain on, and the eager schedule gives no other agent the
step: the schedule is used up, no reset is pending and no engine is at work. -/
structure State.RunsAlone (s : State) (i : Instr) : Prop where
  phase : s.seq.phase = .busy
  cmd : s.seq.cmd.map decodeCmd = some i
  operands : operandsHeld i s.seq = true
  clock : s.plat.flcClockOn = true
  op : s.flc.op = .none
  icce : s.icc.busy = false
  gcre : s.gcr.busy = false
  sched : s.sched = []
  noReset : resetPending s = false

section RunsAlone

variable {i : Instr} {s t u : State}

/-- A command just issued runs alone. -/
theorem State.Launched.runsAlone (h : s.Launched i) : s.RunsAlone i where
  phase := h.phase
  cmd := h.cmd
  operands := h.operands
  clock := h.clock
  op := h.op
  icce := h.icce
  gcre := h.gcre
  sched := h.sched
  noReset := h.noReset

/-- The step of the machine is the command's. -/
theorem State.RunsAlone.step_eq (h : s.RunsAlone i) : step s = exec i s := by
  have hagent : eagerAgent s = some .seq := eagerAgent_seq h.phase h.noReset h.op h.icce h.gcre
  rw [step_of_eager h.sched hagent]
  exact seqMove_of_busy exec h.phase ((fetchCommand_eq s).trans h.cmd) (.inr h.op)

/-- The line of the command at which `SEQ.STEP` stands is a line that it runs. -/
theorem State.RunsAlone.runs (h : s.RunsAlone i) {site : Site} {l : Line} (hstep : s.seq.step = some (.line site l))
    (hmem : Label.line site l ∈ programOf i) : s.Runs i site l :=
  ⟨⟨h.phase, hstep⟩, hmem, lineOperandsHeld_of_operandsHeld h.operands hmem⟩

/-! What a line does while the command runs alone leaves it alone, unless it starts an engine. -/

theorem State.RunsAlone.movedTo (h : s.RunsAlone i) (n : Label) : (s.movedTo n).RunsAlone i :=
  { h with operands := (operandsHeld_with i s.seq _ _ _ _ _ _).trans h.operands }

theorem State.RunsAlone.afterRead (h : s.RunsAlone i) (r : Reg) (v : Word) : (s.afterRead r v).RunsAlone i :=
  { h with operands := (operandsHeld_with i s.seq _ _ _ _ _ _).trans h.operands }

theorem State.RunsAlone.withDiv (h : s.RunsAlone i) (d : Option Byte) :
    { s with seq := { s.seq with div := d } }.RunsAlone i :=
  { h with operands := (operandsHeld_with i s.seq _ _ _ _ _ _).trans h.operands }

theorem State.RunsAlone.afterWrite (h : s.RunsAlone i) (r : Reg) (v : Word) : (s.afterWrite r v).RunsAlone i :=
  { h with }

theorem State.RunsAlone.withControllers (h : s.RunsAlone i) {f : Flc} {c : Icc} (hop : f.op = .none)
    (hicce : c.busy = false) : { s with flc := f, icc := c }.RunsAlone i :=
  { h with op := hop, icce := hicce }

/-- `wait_ready` with nothing in flight: one read of `FLC.CTRL`, and the line that follows (R220). -/
theorem State.RunsAlone.exec_w1 (h : s.RunsAlone i) {site : Site} {n : Label}
    (hstep : s.seq.step = some (.line site .w1)) (hn : Follows i site .w1 n) :
    exec i s = .next ((s.afterRead .flcCtrl (busRead .flcCtrl s)).movedTo n) := by
  have hpoll : pollWaits .w1 s = some (.flcCtrl, false) := by simp [pollWaits, h.op]
  exact (pollLinesWaitWithoutBound s i site .w1 .flcCtrl false (h.runs hstep (mem_of_lineAfter hn)) hpoll
    fun _ => h.clock).2 rfl n hn

/-! ## Completion -/

/-- From `s` the running command ends with `OK`, and leaves the state `t` but for the history, `SEQ.STATUS` and what the end of a
command clears. -/
def State.CompletesAs (s t : State) : Prop := ∃ k hist, Reaches k s { t.completed with history := hist }

/-- Working registers and the history do not count in the state that a command leaves. -/
theorem State.CompletesAs.congr {v : State} (h : s.CompletesAs t)
    (htv : ∀ hist, { t.completed with history := hist } = { v.completed with history := hist }) : s.CompletesAs v := by
  obtain ⟨k, hist, hk⟩ := h
  exact ⟨k, hist, htv hist ▸ hk⟩

/-- What a completion leaves of the sequencer and of the rest, where the command leaves the port as it was. -/
theorem State.CompletesAs.result (h : s.CompletesAs t) (hseq : t.seq = s.seq) :
    ∃ k u, Reaches k s u ∧ SeqDone s u 0 ∧ PortKept s u ∧ u.flc = t.flc ∧ u.icc = t.icc ∧ u.gcr = t.gcr ∧ u.lfb = t.lfb
      ∧ u.flash = t.flash ∧ u.plat = t.plat ∧ u.params = t.params := by
  obtain ⟨k, hist, hk⟩ := h
  refine ⟨k, _, hk, ?done, ?kept, rfl, rfl, rfl, rfl, rfl, rfl, rfl⟩
  case done => constructor <;> simp [State.completed, hseq]
  case kept => constructor <;> simp [State.completed, hseq]

/-- The last line of a command (R25, R300). -/
theorem State.RunsAlone.completes_of_done (h : s.RunsAlone i) (hstep : s.seq.step = some (.line .main .done))
    (hmem : Label.line .main .done ∈ programOf i) : s.CompletesAs s := by
  have hline : exec i s = .next s.completed := by
    rw [exec_eq_performLine i .main .done s hstep hmem]
    rfl
  exact ⟨1, _, .cons (h.step_eq.trans hline) (.refl _)⟩

/-- One line of a command that runs alone, and the rest of the command. -/
theorem State.RunsAlone.completes_of_line (h : s.RunsAlone i) (hline : exec i s = .next t) (ht : t.CompletesAs u) :
    s.CompletesAs u := by
  obtain ⟨k, hist, hk⟩ := ht
  exact ⟨k + 1, hist, .cons (h.step_eq.trans hline) hk⟩

/-- The rest of a command whose last three lines read a register, write it back with a field replaced by `f`, and complete. The
write's rule stores the field in the controller of flash or of the cache, and starts nothing. -/
theorem State.RunsAlone.completes_of_rmw (h : s.RunsAlone i) {lr lw : Line} {r : Reg} {f : Word → Word} {flc : Flc}
    {icc : Icc} (hstep : s.seq.step = some (.line .main lr)) (hread : rmwReadReg lr = some r)
    (hlr : Follows i .main lr (.line .main lw)) (hlw : Follows i .main lw (.line .main .done))
    (hu : u = (s.afterRead r (busRead r s)).movedTo (.line .main lw))
    (hline : ∀ c goOn, performLine c .main lw goOn u = andThen (writeFromT r f u) goOn)
    (hwrite : writeReg r (f (readReg r u)) u = .next { u with flc := flc, icc := icc })
    (hop : flc.op = .none) (hicce : icc.busy = false) : s.CompletesAs { s with flc := flc, icc := icc } := by
  have hrest : u.RunsAlone i := hu ▸ (h.afterRead r _).movedTo _
  have hustep : u.seq.step = some (.line .main lw) := hu ▸ rfl
  have hut : u.seq.t = some (busRead r u) := by
    subst hu
    cases r <;> rfl
  have hreads : exec i s = .next u := hu ▸ rmwReadLinesReadTheRegister s i .main lr r _
    (h.runs hstep (mem_of_lineAfter hlr)) hread hlr fun _ => h.clock
  have hwrites := exec_writeFromTLine (hrest.runs hustep (mem_of_lineAfter hlw)) hlw (fun _ => hrest.clock) hut
    (hline _) hwrite
  have hdone := ((hrest.withControllers hop hicce).afterWrite r
    (u.params.regmap.bus r (f (readReg r u)))).movedTo (.line .main .done)
  have hend := h.completes_of_line hreads (hrest.completes_of_line hwrites
    (hdone.completes_of_done rfl (lineAfter_mem _ _ _ hlw)))
  subst hu
  exact hend.congr fun _ => rfl

end RunsAlone

/-! ## The guard commands (R191, R201, R225, R226) -/

/-- Writing `ICC.CTRL` back with `EN` clear disables the cache and leaves ICCE at rest (R200). -/
theorem writeReg_withEn_false {s : State} (hicce : s.icc.busy = false) :
    writeReg .iccCtrl (withEn (readReg .iccCtrl s) false) s = .next { s with icc := { s.icc with en := false } } := by
  simp [writeReg, writeIccCtrl, hicce]

/-- A frequency that is a multiple of 1 MHz by a byte other than 0 has that byte as its divisor (R190). -/
theorem clkdivOf_of_eq_mul {f : Word} {d : Byte} (hf : f.toNat = d.toNat * 1000000) (hd : d ≠ 0) :
    clkdivOf f = some d := by
  have hpos : d.toNat ≠ 0 := fun h => hd (BitVec.eq_of_toNat_eq h)
  have hquot : f.toNat / 1000000 = d.toNat := by omega
  rw [clkdivOf_eq, hquot, if_pos (by omega), BitVec.ofNat_toNat, BitVec.setWidth_eq]

/-- UNLOCK and LOCK: `wait_ready`, and `FLC.CTRL` read and written back with a key in `UNLOCK` (R225, R226). -/
theorem State.RunsAlone.completes_of_key {i : Instr} {s : State} (h : s.RunsAlone i) {lr lw : Line} {k : BitVec 4}
    (hstep : s.seq.step = some (.line .main .w1)) (hw1 : Follows i .main .w1 (.line .main lr))
    (hread : rmwReadReg lr = some .flcCtrl) (hlr : Follows i .main lr (.line .main lw))
    (hlw : Follows i .main lw (.line .main .done))
    (hline : ∀ c goOn u, u.params = s.params →
      performLine c .main lw goOn u = andThen (writeFromT .flcCtrl (fun t => withUnlock t k) u) goOn) :
    s.CompletesAs { s with flc := { s.flc with unlock := k } } := by
  have hrest := (h.afterRead .flcCtrl (busRead .flcCtrl s)).movedTo (.line .main lr)
  have hwrites := (hrest.afterRead .flcCtrl (busRead .flcCtrl s)).movedTo (.line .main lw)
  have hend := hrest.completes_of_rmw rfl hread hlr hlw rfl (fun c goOn => hline c goOn _ rfl)
    (writeReg_withUnlock hwrites.op k) hwrites.op hwrites.icce
  exact h.completes_of_line (h.exec_w1 hstep hw1) (hend.congr fun _ => rfl)

section GuardCommands

variable {s : State}

theorem iccDisable_completes (h : s.Launched .iccDisable) :
    s.CompletesAs { s with icc := { s.icc with en := false } } :=
  h.runsAlone.completes_of_rmw (lr := .d1) (lw := .d2) (f := fun t => withEn t false) h.step rfl rfl rfl rfl
    (fun _ _ => rfl) (writeReg_withEn_false h.icce) h.op h.icce

theorem unlock_completes (h : s.Launched .unlock) :
    s.CompletesAs { s with flc := { s.flc with unlock := s.params.unlockKey } } :=
  h.runsAlone.completes_of_key (lr := .u1) (lw := .u2) h.step rfl rfl rfl rfl fun _ _ u hu => by rw [performLine, hu]

theorem lock_completes (h : s.Launched .lock) :
    s.CompletesAs { s with flc := { s.flc with unlock := s.params.lockKey } } :=
  h.runsAlone.completes_of_key (lr := .k1) (lw := .k2) h.step rfl rfl rfl rfl fun _ _ u hu => by rw [performLine, hu]

theorem setClkdiv_completes (h : s.Launched .setClkdiv) {f : Word} {d : Byte} (hopf : s.seq.opf = some f)
    (hdiv : clkdivOf f = some d) : s.CompletesAs { s with flc := { s.flc with clkdiv := d } } := by
  have hcheck := (h.runsAlone.afterRead .flcCtrl (busRead .flcCtrl s)).movedTo (.line .main .checkClock)
  have hset := hcheck.movedTo (.line .main .setDiv)
  have hwrite := (hset.withDiv (some d)).movedTo (.line .main .l2)
  have hdone := ((hwrite.withControllers (f := { s.flc with clkdiv := d }) h.op h.icce).afterWrite .flcClkdiv
    (s.params.regmap.bus .flcClkdiv (0#24 ++ d))).movedTo (.line .main .done)
  refine h.runsAlone.completes_of_line (h.runsAlone.exec_w1 h.step rfl) ?_
  refine hcheck.completes_of_line (exec_checkClock_of_some (hcheck.runs rfl (by decide)) hopf hdiv rfl) ?_
  refine hset.completes_of_line (exec_setDiv (hset.runs rfl (by decide)) hopf hdiv rfl) ?_
  obtain ⟨-, hl2, -⟩ := guardLinesWriteTheController _ .setClkdiv .main .l2 _ (hwrite.runs rfl (by decide)) rfl
    hwrite.clock hwrite.op
  refine hwrite.completes_of_line (hl2 rfl d rfl) ?_
  exact (hdone.completes_of_done rfl (by decide)).congr fun _ => rfl

end GuardCommands

/-- Settles O37: each of the four commands runs alone, one line a step, and its last line completes it. -/
theorem guardCommandsCompleteWithTheirField : Obligations.GuardCommandsCompleteWithTheirField := by
  intro s
  refine ⟨fun h => ?iccDisable, fun h => ?unlock, fun h => ?lock, fun h f d hopf hf hd => ?setClkdiv⟩
  case iccDisable =>
    obtain ⟨k, t, hk, hdone, hkept, hflc, hicc, hrest⟩ := (iccDisable_completes h).result rfl
    exact ⟨k, t, hk, hdone, hkept, hicc, hflc, hrest⟩
  case unlock => exact (unlock_completes h).result rfl
  case lock => exact (lock_completes h).result rfl
  case setClkdiv => exact (setClkdiv_completes h hopf (clkdivOf_of_eq_mul hf hd)).result rfl

end Sys2Proof.Machine
end

section
/-! SUPPORT. The Cache Guard's lines (spec/43_cache_guard.md): the words that its writing lines write and what the registers' rules
make of them (R200, R202, R204), and the dummy reads (R204, R206). -/

namespace Sys2Proof.Machine

/-! ## The words and the effects of D2, E2, E6 and F2 -/

section Effects

variable {s : State}

/-- `ICC.CTRL with EN := b`, while ICCE is at rest: `RDY` at bit 16 and `EN` at bit 0 (R114). -/
theorem withEn_readReg (hicce : s.icc.busy = false) (b : Bool) :
    withEn (readReg .iccCtrl s) b = (0#15 ++ 1#1 ++ 0#15 ++ BitVec.ofBool b : Word) := by
  rw [readReg, iccWord_eq_append, hicce]
  cases s.icc.en <;> cases b <;> rfl

/-- Writing `ICC.CTRL` back with `EN = b`, while ICCE is at rest: ICCE starts where the cache comes from off to on (R152). -/
theorem writeReg_withEn (hicce : s.icc.busy = false) (b : Bool) :
    writeReg .iccCtrl (withEn (readReg .iccCtrl s) b) s
      = .next { s with icc := { s.icc with en := b, busy := !s.icc.en && b } } := by
  simp [writeReg, writeIccCtrl, hicce]

/-- Writing `ICC.INVALIDATE` starts ICCE with an invalidation (R153). -/
theorem writeReg_iccInvalidate (hicce : s.icc.busy = false) (v : Word) :
    writeReg .iccInvalidate v s = .next { s with icc := { s.icc with busy := true, invPending := true } } := by
  simp [writeReg, writeInvalidate, hicce]

/-- Writing `GCR.SYSCTRL` back with `ICC0_FLUSH` set starts GCRE, and OTHER is kept (R156). -/
theorem writeReg_withFlush :
    writeReg .gcrSysctrl (withFlush (readReg .gcrSysctrl s)) s
      = .next { s with gcr := { s.gcr with busy := true } } := by
  simp [writeReg, readReg, writeSysctrl]

end Effects

/-- Settles O26: D2, E2, E6 and F2 write a register back with one field replaced, and E3 writes `ICC.INVALIDATE`. -/
theorem cacheGuardLinesWrite : Obligations.CacheGuardLinesWrite := by
  intro s i site l n hrun hn
  refine ⟨fun hl ht hicce => ?disable, ?e3, ?e6, ?f2⟩
  case disable =>
    have hline (goOn : State → Res State) : performLine (operandsOf i s.seq) site l goOn s
        = andThen (writeFromT .iccCtrl (fun t => withEn t false) s) goOn := by
      rcases hl with rfl | rfl
      · rfl
      · rfl
    have hword : withEn (readReg .iccCtrl s) false = 0x00010000 := withEn_readReg hicce false
    rw [← hword]
    exact exec_writeFromTLine (f := fun t => withEn t false) hrun hn nofun ht hline (writeReg_withEn_false hicce)
  case e3 =>
    rintro rfl hicce
    exact exec_writeLine hrun hn nofun (fun _ => rfl) (writeReg_iccInvalidate hicce 1)
  case e6 =>
    rintro rfl ht hicce
    have hword : withEn (readReg .iccCtrl s) true = 0x00010001 := withEn_readReg hicce true
    have hwrite := writeReg_withEn hicce true
    rw [Bool.and_true] at hwrite
    rw [← hword]
    exact exec_writeFromTLine (f := fun t => withEn t true) hrun hn nofun ht (fun _ => rfl) hwrite
  case f2 =>
    rintro rfl ht
    exact exec_writeFromTLine (f := withFlush) hrun hn nofun ht (fun _ => rfl) writeReg_withFlush

/-! ## The dummy reads (R204, R206) -/

section DummyReads

variable {i : Instr} {site : Site} {l : Line} {n : Label} {s t : State} {a : Word} {d : FlashWord}

/-- A 32-bit read by a line while nothing is in flight: the word of the line read, and the access recorded (R157). -/
theorem memReadWord_of_lineRead (haddr : dummyAddrOk a = true) (hop : s.flc.op = .none)
    (hread : lineRead (wordBase a.toNat) s = (d, t)) :
    memReadWord a s = .next (wordAtOffset d (wordOffset a.toNat),
      t.afterFlashRead a (wordAtOffset d (wordOffset a.toNat))) := by
  obtain ⟨halign, hlow, hhigh⟩ := (dummyAddrOk_iff a).mp haddr
  have hidle : ¬ s.flc.pend = true := by simp [pend_eq_decide, hop]
  rw [memReadWord, if_neg (not_not.mpr halign), if_neg (not_not.mpr ⟨hlow, hhigh⟩), if_neg hidle]
  simp only [hread]
  rfl

/-- A dummy read at its line: what the line read leaves, the access recorded, and the line that follows. -/
theorem exec_dummyRead (hl : l = .f4 ∧ a = s.params.dummyReadAddr0 ∨ l = .f5 ∧ a = s.params.dummyReadAddr1)
    (hrun : s.Runs i site l) (hn : Follows i site l n) (haddr : dummyAddrOk a = true) (hop : s.flc.op = .none)
    (hread : lineRead (wordBase a.toNat) s = (d, t)) :
    exec i s = .next ((t.afterFlashRead a (wordAtOffset d (wordOffset a.toNat))).movedTo n) := by
  obtain ⟨⟨-, hstep⟩, hmem, -⟩ := hrun
  have hline (goOn : State → Res State) : performLine (operandsOf i s.seq) site l goOn s
      = andThen (memReadWord a s) fun x => goOn x.2 := by
    rcases hl with ⟨rfl, rfl⟩ | ⟨rfl, rfl⟩
    · rfl
    · rfl
  rw [exec_eq_performLine i site l s hstep hmem, hline, memReadWord_of_lineRead haddr hop hread, andThen_next]
  exact advanceStep_of_follows hn _

end DummyReads

/-- Settles O31: the line read is the array's, for the buffer holds no stale copy of it. -/
theorem dummyReadsFillTheBuffer : Obligations.DummyReadsFillTheBuffer := by
  intro s i site l a n hop hl halign hlow hhigh hfresh hrun hn
  have hread := lineRead_fresh (wordBase a.toNat) s <| by
    rintro ⟨b, d⟩ hlfb rfl
    exact hfresh d hlfb
  have hexec := exec_dummyRead hl hrun hn ((dummyAddrOk_iff a).mpr ⟨halign, hlow, hhigh⟩) hop hread
  rwa [wordAtOffset_flashLine s.flash halign] at hexec

end Sys2Proof.Machine
end

section
/-! SUPPORT. The cache commands under the eager schedule (spec/43_cache_guard.md R203, R205 to R207; log entry 7): a running
command followed from line to line, with the step of an engine where a line has started one, and ICC_ENABLE and LFB_FLUSH from
their issue to their end. -/

namespace Sys2Proof.Machine

/-! ## A state but for the step counter, `SEQ.T` and the history -/

/-- `s` with `SEQ.STEP` at a label, and with some `SEQ.T` and history. -/
def State.standingAt (s : State) (n : Label) (tv : Option Word) (hist : List Event) : State :=
  { s with seq := { s.seq with step := some n, t := tv }, history := hist }

section StandingAt

variable (s : State) (n : Label) (tv : Option Word) (hist : List Event)

theorem busRead_standingAt (r : Reg) : busRead r (s.standingAt n tv hist) = busRead r s := by
  cases r <;> rfl

theorem pollWaits_standingAt (l : Line) : pollWaits l (s.standingAt n tv hist) = pollWaits l s := by
  cases l <;> rfl

theorem lineRead_standingAt (la : Nat) :
    lineRead la (s.standingAt n tv hist) = ((lineRead la s).1, (lineRead la s).2.standingAt n tv hist) := by
  unfold lineRead
  cases hl : s.lfb with
  | none => simp only [State.standingAt, hl]
  | some l =>
    simp only [State.standingAt, hl]
    split_ifs <;> simp only [hl]

end StandingAt

/-- From the label `n`, whatever `SEQ.T` and the history are, the command that runs in `s` ends with `OK` and leaves `t`. -/
def State.CompletesFrom (s : State) (n : Label) (t : State) : Prop :=
  ∀ tv hist, (s.standingAt n tv hist).CompletesAs t

theorem State.CompletesFrom.completesAs {s t : State} {n : Label} (h : s.CompletesFrom n t) (hstep : s.seq.step = some n) :
    s.CompletesAs t := by
  have hs : s.standingAt n s.seq.t s.history = s := by rw [State.standingAt, ← hstep]
  exact hs ▸ h s.seq.t s.history

/-! ## One line, and the rest of the command -/

section LineByLine

variable {i : Instr} {site : Site} {l l' : Line} {r : Reg} {n : Label} {s s' t : State}

theorem State.RunsAlone.standingAt (h : s.RunsAlone i) (n : Label) (tv : Option Word) (hist : List Event) :
    (s.standingAt n tv hist).RunsAlone i :=
  { h with operands := (operandsHeld_with i s.seq _ _ _ _ _ _).trans h.operands }

theorem State.RunsAlone.withLfb (h : s.RunsAlone i) (b : Option CacheLine) (k : Nat) :
    { s with lfb := b, draws := k }.RunsAlone i :=
  { h with }

/-- At a line that another follows, it is this line that the command runs. -/
theorem State.RunsAlone.runs_standingAt (h : s.RunsAlone i) (hn : Follows i site l n) (tv : Option Word)
    (hist : List Event) : (s.standingAt (.line site l) tv hist).Runs i site l :=
  (h.standingAt _ tv hist).runs rfl (mem_of_lineAfter hn)

/-- The last line (R25, R300). -/
theorem State.RunsAlone.completesFrom_done (h : s.RunsAlone i) (hmem : Label.line .main .done ∈ programOf i) :
    s.CompletesFrom (.line .main .done) s :=
  fun tv hist => ((h.standingAt _ tv hist).completes_of_done rfl hmem).congr fun _ => rfl

/-- A poll that need not wait (R120). -/
theorem State.RunsAlone.completesFrom_poll (h : s.RunsAlone i) (hpoll : pollWaits l s = some (r, false))
    (hn : Follows i site l n) (hrest : s.CompletesFrom n t) : s.CompletesFrom (.line site l) t := by
  intro tv hist
  obtain ⟨-, hgoes⟩ := pollLinesWaitWithoutBound _ i site l r false (h.runs_standingAt hn tv hist)
    ((pollWaits_standingAt s _ tv hist l).trans hpoll) fun _ => h.clock
  exact (h.standingAt _ tv hist).completes_of_line (hgoes rfl n hn) (hrest _ _)

/-- A line that writes the fields `w`, whose effect takes `s` to `s'`. -/
theorem State.RunsAlone.completesFrom_write (h : s.RunsAlone i) {w : Word} (hn : Follows i site l n)
    (hline : ∀ c goOn u, performLine c site l goOn u = andThen (writeFields r w u) goOn)
    (hwrite : ∀ n tv hist, writeReg r w (s.standingAt n tv hist) = .next (s'.standingAt n tv hist))
    (hrest : s'.CompletesFrom n t) : s.CompletesFrom (.line site l) t := by
  intro tv hist
  have hexec := exec_writeLine (h.runs_standingAt hn tv hist) hn (fun _ => h.clock) (fun goOn => hline _ goOn _)
    (hwrite _ tv hist)
  exact (h.standingAt _ tv hist).completes_of_line hexec (hrest _ _)

/-- The two lines that read a register and write it back as `f` makes it (R120), whose effect takes `s` to `s'`. -/
theorem State.RunsAlone.completesFrom_rmw (h : s.RunsAlone i) {f : Word → Word} (hread : rmwReadReg l = some r)
    (hl : Follows i site l (.line site l')) (hn : Follows i site l' n)
    (hline : ∀ c goOn u, performLine c site l' goOn u = andThen (writeFromT r f u) goOn)
    (hwrite : ∀ n tv hist, writeReg r (f (readReg r (s.standingAt n tv hist))) (s.standingAt n tv hist)
      = .next (s'.standingAt n tv hist))
    (hrest : s'.CompletesFrom n t) : s.CompletesFrom (.line site l) t := by
  intro tv hist
  have hreads := rmwReadLinesReadTheRegister _ i site l r _ (h.runs_standingAt hl tv hist) hread hl fun _ => h.clock
  refine (h.standingAt _ tv hist).completes_of_line hreads ?_
  rw [busRead_standingAt]
  have hexec (hist' : List Event) := exec_writeFromTLine (h.runs_standingAt hn (some (busRead r s)) hist') hn
    (fun _ => h.clock) (congrArg some (busRead_standingAt s _ _ _ r).symm) (fun goOn => hline _ goOn _) (hwrite _ _ _)
  exact (h.standingAt (.line site l') (some (busRead r s)) _).completes_of_line (hexec _) (hrest _ _)

/-- A dummy read (R204), whose line read takes `s` to `s'`. -/
theorem State.RunsAlone.completesFrom_dummyRead (h : s.RunsAlone i) {a : Word} {d : FlashWord}
    (hl : l = .f4 ∧ a = s.params.dummyReadAddr0 ∨ l = .f5 ∧ a = s.params.dummyReadAddr1) (hn : Follows i site l n)
    (haddr : dummyAddrOk a = true) (hread : lineRead (wordBase a.toNat) s = (d, s')) (hrest : s'.CompletesFrom n t) :
    s.CompletesFrom (.line site l) t := by
  intro tv hist
  have hread' : lineRead (wordBase a.toNat) (s.standingAt (.line site l) tv hist)
      = (d, s'.standingAt (.line site l) tv hist) := by
    rw [lineRead_standingAt, hread]
  exact (h.standingAt _ tv hist).completes_of_line
    (exec_dummyRead hl (h.runs_standingAt hn tv hist) hn haddr h.op hread') (hrest _ _)

/-! ## The step of an engine that a line has started -/

/-- The eager schedule gives the move to ICCE where it is at work, no reset is pending and nothing is in flight. -/
theorem eagerAgent_icce (hr : resetPending s = false) (hop : s.flc.op = .none) (hicc : s.icc.busy = true) :
    eagerAgent s = some .icce := by
  simp [eagerAgent, pend_eq_decide, hr, hop, hicc]

/-- The eager schedule gives the move to GCRE where it is at work, no reset is pending and no other engine is. -/
theorem eagerAgent_gcre (hr : resetPending s = false) (hop : s.flc.op = .none) (hicc : s.icc.busy = false)
    (hgcr : s.gcr.busy = true) : eagerAgent s = some .gcre := by
  simp [eagerAgent, pend_eq_decide, hr, hop, hicc, hgcr]

/-- ICCE at work has the next step, and completes (R161). -/
theorem State.RunsAlone.completesFrom_icce (h : s.RunsAlone i) {c : Icc} (hbusy : c.busy = true)
    (hrest : { s with icc := { c with
      busy := false, invPending := false, lines := if c.invPending then [] else c.lines } }.CompletesFrom n t) :
    { s with icc := c }.CompletesFrom n t := by
  intro tv hist
  have hstep := step_of_eager (s := { s with icc := c }.standingAt n tv hist) h.sched
    (eagerAgent_icce h.noReset h.op hbusy)
  rw [agentMove, icceStep_of_busy hbusy] at hstep
  obtain ⟨k, hist', hk⟩ := hrest tv _
  exact ⟨k + 1, hist', .cons hstep hk⟩

/-- GCRE at work has the next step, and completes (R162). -/
theorem State.RunsAlone.completesFrom_gcre (h : s.RunsAlone i)
    (hrest : { s with icc := { s.icc with lines := [] } }.CompletesFrom n t) :
    { s with gcr := { s.gcr with busy := true } }.CompletesFrom n t := by
  intro tv hist
  have hstep := step_of_eager (s := { s with gcr := { s.gcr with busy := true } }.standingAt n tv hist) h.sched
    (eagerAgent_gcre h.noReset h.op h.icce rfl)
  have hrested : { s.gcr with busy := false } = s.gcr := by rw [← h.gcre]
  rw [agentMove, gcreStep_of_busy rfl] at hstep
  simp only [State.standingAt, hrested] at hstep
  obtain ⟨k, hist', hk⟩ := hrest tv _
  exact ⟨k + 1, hist', .cons hstep hk⟩

end LineByLine

/-! ## ICC_ENABLE and LFB_FLUSH (R203, R205) -/

section CacheCommands

variable {s : State}

/-- ICC_ENABLE: the cache goes off, ICCE invalidates it, and it comes on again with no line (R202). -/
theorem iccEnable_completes (h : s.Launched .iccEnable) :
    s.CompletesAs { s with icc := { en := true, lines := [], busy := false, invPending := false } } := by
  have hoff := h.runsAlone.withControllers (c := { s.icc with en := false }) h.op h.icce
  have hempty := h.runsAlone.withControllers (c := { en := false, lines := [], busy := false, invPending := false })
    h.op rfl
  have hon := h.runsAlone.withControllers (c := { en := true, lines := [], busy := false, invPending := false }) h.op rfl
  refine State.CompletesFrom.completesAs ?_ h.step
  refine h.runsAlone.completesFrom_rmw (l := .e1) (l' := .e2)
    (s' := { s with icc := { s.icc with en := false } }) rfl rfl rfl (fun _ _ _ => rfl)
    (fun _ _ _ => writeReg_withEn_false h.icce) ?_
  refine hoff.completesFrom_write (l := .e3)
    (s' := { s with icc := { s.icc with en := false, busy := true, invPending := true } }) rfl (fun _ _ _ => rfl)
    (fun n tv hist => writeReg_iccInvalidate (hoff.standingAt n tv hist).icce 1) ?_
  refine hoff.completesFrom_icce rfl ?_
  refine hempty.completesFrom_poll (l := .e4) rfl rfl ?_
  refine hempty.completesFrom_rmw (l := .e5) (l' := .e6)
    (s' := { s with icc := { en := true, lines := [], busy := true, invPending := false } }) rfl rfl rfl (fun _ _ _ => rfl)
    (fun _ _ _ => writeReg_withEn rfl true) ?_
  refine hempty.completesFrom_icce rfl ?_
  exact hon.completesFrom_poll (l := .e7) rfl rfl (hon.completesFrom_done (by decide))

/-- LFB_FLUSH: GCRE empties the cache, the first dummy read puts some line of its own into the buffer, whatever the buffer held,
and the second finds that other line there and reads its own from the array (R204, R206). -/
theorem lfbFlush_completes (h : s.Launched .lfbFlush) :
    ∃ n, s.CompletesAs { s with
      lfb := some ⟨wordBase s.params.dummyReadAddr1.toNat, flashLine s.flash (wordBase s.params.dummyReadAddr1.toNat)⟩
      icc := { s.icc with lines := [] }
      draws := n } := by
  obtain ⟨-, -, haddr0, haddr1, hlines, -⟩ := (paramsWf_iff _).mp h.params
  have hempty := h.runsAlone.withControllers (c := { s.icc with lines := [] }) h.op h.icce
  obtain ⟨d, n, hread0, -⟩ := lineRead_cases (wordBase s.params.dummyReadAddr0.toNat)
    { s with icc := { s.icc with lines := [] } }
  have hread1 := lineRead_fresh (wordBase s.params.dummyReadAddr1.toNat)
    { s with
      icc := { s.icc with lines := [] }
      lfb := some ⟨wordBase s.params.dummyReadAddr0.toNat, d⟩
      draws := n } <| by
    rintro l ⟨⟩ hbase
    exact absurd hbase hlines
  refine ⟨n, State.CompletesFrom.completesAs ?_ h.step⟩
  refine h.runsAlone.completesFrom_rmw (l := .f1) (l' := .f2)
    (s' := { s with gcr := { s.gcr with busy := true } }) rfl rfl rfl (fun _ _ _ => rfl)
    (fun _ _ _ => writeReg_withFlush) ?_
  refine h.runsAlone.completesFrom_gcre ?_
  refine hempty.completesFrom_poll (l := .f3) (congrArg (fun b => some (Reg.gcrSysctrl, b)) h.gcre) rfl ?_
  refine hempty.completesFrom_dummyRead (l := .f4) (.inl ⟨rfl, rfl⟩) rfl haddr0 hread0 ?_
  refine (hempty.withLfb _ n).completesFrom_dummyRead (l := .f5) (.inr ⟨rfl, rfl⟩) rfl haddr1 hread1 ?_
  exact (hempty.withLfb _ n).completesFrom_done (by decide)

end CacheCommands

/-- Settles O38: both commands run alone but for the engines that their lines start (`iccEnable_completes`,
`lfbFlush_completes`). -/
theorem cacheCommandsLeaveCacheAndBufferClean : Obligations.CacheCommandsLeaveCacheAndBufferClean := by
  intro s
  refine ⟨fun h => ?iccEnable, fun h => ?lfbFlush⟩
  case iccEnable =>
    obtain ⟨k, t, hk, hdone, hkept, hflc, hicc, hrest⟩ := (iccEnable_completes h).result rfl
    exact ⟨k, t, hk, hdone, hkept, hicc, hflc, hrest⟩
  case lfbFlush =>
    obtain ⟨n, hends⟩ := lfbFlush_completes h
    obtain ⟨k, t, hk, hdone, hkept, hflc, hicc, hgcr, hlfb, hrest⟩ := hends.result rfl
    exact ⟨k, t, hk, hdone, hkept, hlfb, hicc, hflc, hgcr, hrest⟩

end Sys2Proof.Machine
end

section
/-! SUPPORT. The discipline of the Write Guard (spec/44_write_protection.md R224, R227, R228) as claims: each thing that
`State.Flow` says of a state, with the lines at which it is due, which lines of a command may break it and which bring it about.
-/

namespace Sys2Proof.Machine

/-! ## The claims and where they are due -/

/-- A thing that the flow of a command says of a state at some lines of the commands, or between commands too. -/
inductive Claim where
  | opNone | opProgram | opErase
  | icceRest | pendingRest | pendingBusy | gcreRest
  | read (r : Reg)
  | off | on | emptying | emptied
  | noError | divisor | code | unlocked | locked
  | fresh | dummy | coherent

/-- What a claim says of a state. -/
def Claim.Holds (s : State) : Claim → Prop
  | .opNone => s.flc.op = .none
  | .opProgram => s.flc.op = .none ∨ s.flc.wr = true
  | .opErase => s.flc.op = .none ∨ s.flc.pge = true
  | .icceRest => s.icc.busy = false
  | .pendingRest => s.icc.invPending = false
  | .pendingBusy => s.icc.invPending = false ∨ s.icc.busy = true
  | .gcreRest => s.gcr.busy = false
  | .read r => s.seq.t = some (busRead r s)
  | .off => s.icc.en = false
  | .on => s.icc.en = true
  | .emptying => s.icc.lines = [] ∨ s.icc.busy = true ∧ s.icc.invPending = true
  | .emptied => s.icc.lines = []
  | .noError => s.flc.af = false
  | .divisor => s.seq.div = some s.flc.clkdiv
  | .code => s.flc.eraseCode = s.params.pageEraseCode
  | .unlocked => s.flc.unlock = s.params.unlockKey
  | .locked => s.flc.unlock = s.params.lockKey
  | .fresh => s.lfbFresh = true
  | .dummy => ∃ d, s.lfb = some ⟨wordBase s.params.dummyReadAddr0.toNat, d⟩
  | .coherent => s.icc.en = true → s.linesFresh = true

/-- A line of an envelope's own site, between two stages of it (R224). -/
def inEnvelope (site : Site) (l : Line) (lo hi : Nat) : Bool :=
  site != .main && decide (lo ≤ envelopeStage l) && decide (envelopeStage l ≤ hi)

/-- Where SEQ stands: at a line of a command, or at none (Idle, or Halted). -/
def State.place (s : State) : Option (Site × Line) :=
  match s.seq.phase, s.seq.step with
  | .busy, some (.line site l) => some (site, l)
  | _, _ => none

/-- The claims that a line finds true. -/
def Claim.dueAt (site : Site) (l : Line) : Claim → Bool
  | .opNone => l != .g8 && l != .h6
  | .opProgram => l == .g8
  | .opErase => l == .h6
  | .icceRest => l != .e4 && l != .e7
  | .pendingRest => l != .e4
  | .pendingBusy => l == .e4
  | .gcreRest => l != .f3
  | .read r => rmwReg l == some r
  | .off => inEnvelope site l 3 29 || (decide (26 ≤ envelopeStage l) && decide (envelopeStage l ≤ 29))
  | .on => l == .e7
  | .emptying => l == .e4
  | .emptied => decide (28 ≤ envelopeStage l) && decide (envelopeStage l ≤ 30)
  | .noError => inEnvelope site l 5 30
  | .divisor => inEnvelope site l 6 30
  | .code => l == .h4 || l == .h5
  | .unlocked => inEnvelope site l 8 18
  | .locked => inEnvelope site l 19 30
  | .fresh => !inEnvelope site l 15 23
  | .dummy => l == .f5
  | .coherent => true

/-- The claims that hold wherever no command runs (R228, R250, R351). -/
def Claim.dueAtRest : Claim → Bool
  | .opNone | .icceRest | .pendingRest | .gcreRest | .fresh | .coherent => true
  | _ => false

/-- The claims that a place finds true. -/
def Claim.due (c : Claim) : Option (Site × Line) → Bool
  | none => c.dueAtRest
  | some (site, l) => c.dueAt site l

/-- The flow of a command, with what it says of each line as claims. -/
structure State.Disciplined (s : State) : Prop where
  params : paramsWf s.params = true
  phase : s.phaseLegal = true
  quiet : ∀ h ∈ s.hostQueue, h.quiet = true
  handle : s.plat.handleOwned = true → s.plat.flcClockOn = true
  clock : s.seq.phase = .busy → s.plat.flcClockOn = true
  claims : ∀ c : Claim, c.due s.place = true → c.Holds s

/-! ## The flow of a command is its claims -/

theorem at_iff_place {s : State} {site : Site} {l : Line} : s.At site l ↔ s.place = some (site, l) := by
  unfold State.At State.place
  split
  · next hp hs => simp [hp, hs]
  · next hne =>
    simp only [reduceCtorEq, iff_false]
    rintro ⟨hp, hs⟩
    exact hne site l hp hs

/-- A place is a line or none. -/
theorem State.place_cases (s : State) : (s.place = none ∧ ∀ site l, ¬ s.At site l) ∨ ∃ site l, s.place = some (site, l) := by
  cases h : s.place with
  | none => exact .inl ⟨rfl, fun site l hat => by simp [at_iff_place.mp hat] at h⟩
  | some p => exact .inr ⟨p.1, p.2, rfl⟩

theorem at_iff_of_place {s : State} {site site' : Site} {l l' : Line} (h : s.place = some (site, l)) :
    s.At site' l' ↔ site = site' ∧ l = l' := by
  simp [at_iff_place, h]

theorem inEnvelope_iff {site : Site} {l : Line} {lo hi : Nat} :
    inEnvelope site l lo hi = true ↔ site ≠ .main ∧ lo ≤ envelopeStage l ∧ envelopeStage l ≤ hi := by
  simp [inEnvelope, and_assoc]

/-- Between commands the flow says what is at rest (R228, R250, R351). -/
theorem State.Flow.holds_at_rest {s : State} (h : s.Flow) (hnot : ∀ site l, ¬ s.At site l) {c : Claim}
    (hc : c.dueAtRest = true) : c.Holds s := by
  obtain ⟨hop, hicce, hpending, hgcre, hfresh⟩ := And.intro h.op <| And.intro h.icce <| And.intro h.pending <|
    And.intro h.gcre h.lfb
  simp only [hnot, false_and, and_false, exists_false, or_false] at hop hicce hpending hgcre hfresh
  cases c
  case opNone => exact hop
  case icceRest => exact hicce
  case pendingRest => exact hpending
  case gcreRest => exact hgcre
  case fresh => exact hfresh
  case coherent => exact h.coherent
  all_goals cases hc

/-- What the flow says of the line at which SEQ stands. -/
theorem State.Flow.holds_at {s : State} {site : Site} {l : Line} (h : s.Flow) (hat : s.At site l) {c : Claim}
    (hc : c.dueAt site l = true) : c.Holds s := by
  have at_iff (site' : Site) (l' : Line) : s.At site' l' ↔ site = site' ∧ l = l' := at_iff_of_place (at_iff_place.mp hat)
  obtain ⟨hop, hicce, hpending, hgcre, hfresh⟩ := And.intro h.op <| And.intro h.icce <| And.intro h.pending <|
    And.intro h.gcre h.lfb
  simp only [at_iff, and_assoc, exists_and_left, exists_eq_left'] at hop hicce hpending hgcre hfresh
  have hemptied := h.emptied site l hat
  cases c <;> simp only [Claim.dueAt, Bool.and_eq_true, Bool.or_eq_true, Bool.not_eq_true', bne_iff_ne, beq_iff_eq,
    decide_eq_true_eq, inEnvelope_iff, ← Bool.not_eq_true] at hc
  case opNone => simpa [Claim.Holds, hc] using hop
  case opProgram => simpa [Claim.Holds, hc] using hop
  case opErase => simpa [Claim.Holds, hc] using hop
  case icceRest => simpa [Claim.Holds, hc] using hicce
  case pendingRest => simpa [Claim.Holds, hc] using hpending
  case pendingBusy => exact hpending.imp_right And.left
  case gcreRest => simpa [Claim.Holds, hc] using hgcre
  case read r => exact h.rmw site l r hat hc
  case off =>
    rcases hc with ⟨hsite, hlo, hhi⟩ | ⟨hlo, hhi⟩
    · exact h.off site l hat hsite hlo hhi
    · exact h.offEnable site l hat hlo hhi
  case on => exact h.onEnable site (hc ▸ hat)
  case emptying =>
    subst hc
    exact (hemptied (by decide) (by decide)).imp_right And.right
  case emptied =>
    refine (hemptied (Nat.le_of_succ_le hc.1) hc.2).resolve_right ?_
    rintro ⟨rfl, -⟩
    exact absurd hc.1 (by decide)
  case noError => exact h.noError site l hat hc.1 hc.2.1 hc.2.2
  case divisor => exact h.divisor site l hat hc.1 hc.2.1 hc.2.2
  case code => exact h.code site l hat hc
  case unlocked => exact h.unlocked site l hat hc.1 hc.2.1 hc.2.2
  case locked => exact h.locked site l hat hc.1 hc.2.1 hc.2.2
  case fresh => exact hfresh.resolve_right hc
  case dummy => exact h.dummy site (hc ▸ hat)
  case coherent => exact h.coherent

theorem State.Flow.disciplined {s : State} (h : s.Flow) : s.Disciplined := by
  refine ⟨h.params, h.phase, h.quiet, h.handle, h.clock, fun c hc => ?_⟩
  rcases s.place_cases with ⟨hp, hnot⟩ | ⟨site, l, hp⟩ <;> rw [hp] at hc
  · exact h.holds_at_rest hnot hc
  · exact h.holds_at (at_iff_place.mpr hp) hc

/-- A claim that is due at a line holds where SEQ stands there. -/
theorem State.Disciplined.at {s : State} {site : Site} {l : Line} (h : s.Disciplined) (hat : s.At site l) (c : Claim)
    (hc : c.dueAt site l = true) : c.Holds s := by
  refine h.claims c ?_
  rw [at_iff_place.mp hat]
  exact hc

theorem dueAt_inEnvelope {site : Site} {l : Line} {lo hi : Nat} (hsite : site ≠ .main) (hlo : lo ≤ envelopeStage l)
    (hhi : envelopeStage l ≤ hi) : inEnvelope site l lo hi = true :=
  inEnvelope_iff.mpr ⟨hsite, hlo, hhi⟩

/-- A claim that is due at rest holds, or SEQ stands at a line at which it is not due. -/
theorem State.Disciplined.holds_or_at {s : State} (h : s.Disciplined) (c : Claim) (hrest : c.dueAtRest = true) :
    c.Holds s ∨ ∃ site l, s.At site l ∧ c.dueAt site l = false := by
  by_cases hdue : c.due s.place = true
  · exact .inl (h.claims c hdue)
  · rcases s.place_cases with ⟨hp, -⟩ | ⟨site, l, hp⟩ <;> rw [hp] at hdue
    · exact absurd hrest hdue
    · exact .inr ⟨site, l, at_iff_place.mpr hp, Bool.not_eq_true _ ▸ hdue⟩

theorem eq_e4_of_stage {l : Line} (h : envelopeStage l = 27) : l = .e4 := by
  cases l
  case e4 => rfl
  all_goals cases h

/-- The claims give the flow back: where one that is due at rest is not due, the line is the one that the flow names. -/
theorem State.Disciplined.flow {s : State} (h : s.Disciplined) : s.Flow where
  params := h.params
  phase := h.phase
  quiet := h.quiet
  handle := h.handle
  clock := h.clock
  op := by
    obtain hop | ⟨site, l, hat, hl⟩ := h.holds_or_at .opNone rfl
    · exact .inl hop
    · obtain rfl | rfl : l = .g8 ∨ l = .h6 := by simpa [Claim.dueAt, or_iff_not_imp_left] using hl
      · exact (h.at hat .opProgram rfl).imp_right fun hwr => .inl ⟨site, hat, hwr⟩
      · exact (h.at hat .opErase rfl).imp_right fun hpge => .inr ⟨site, hat, hpge⟩
  icce := by
    obtain hbusy | ⟨site, l, hat, hl⟩ := h.holds_or_at .icceRest rfl
    · exact .inl hbusy
    · obtain rfl | rfl : l = .e4 ∨ l = .e7 := by simpa [Claim.dueAt, or_iff_not_imp_left] using hl
      · exact .inr (.inl ⟨site, hat⟩)
      · exact .inr (.inr ⟨site, hat⟩)
  pending := by
    obtain hpend | ⟨site, l, hat, hl⟩ := h.holds_or_at .pendingRest rfl
    · exact .inl hpend
    · obtain rfl : l = .e4 := by simpa [Claim.dueAt] using hl
      exact (h.at hat .pendingBusy rfl).imp_right fun hbusy => ⟨hbusy, site, hat⟩
  gcre := by
    obtain hbusy | ⟨site, l, hat, hl⟩ := h.holds_or_at .gcreRest rfl
    · exact .inl hbusy
    · obtain rfl : l = .f3 := by simpa [Claim.dueAt] using hl
      exact .inr ⟨site, hat⟩
  rmw site l r hat hr := h.at hat (.read r) (by simp [Claim.dueAt, hr])
  off site l hat hsite hlo hhi := h.at hat .off (by simp [Claim.dueAt, dueAt_inEnvelope hsite hlo hhi])
  offEnable site l hat hlo hhi := h.at hat .off (by simp [Claim.dueAt, hlo, hhi])
  onEnable site hat := h.at hat .on rfl
  emptied site l hat hlo hhi := by
    by_cases hl : l = .e4
    · subst hl
      exact (h.at hat .emptying rfl).imp_right fun hbusy => ⟨rfl, hbusy⟩
    · have hstage : 28 ≤ envelopeStage l := lt_of_le_of_ne hlo fun hstage => hl (eq_e4_of_stage hstage.symm)
      exact .inl (h.at hat .emptied (by simp [Claim.dueAt, hstage, hhi]))
  noError site l hat hsite hlo hhi := h.at hat .noError (dueAt_inEnvelope hsite hlo hhi)
  divisor site l hat hsite hlo hhi := h.at hat .divisor (dueAt_inEnvelope hsite hlo hhi)
  code site l hat hl := h.at hat .code (by simpa [Claim.dueAt] using hl)
  unlocked site l hat hsite hlo hhi := h.at hat .unlocked (dueAt_inEnvelope hsite hlo hhi)
  locked site l hat hsite hlo hhi := h.at hat .locked (dueAt_inEnvelope hsite hlo hhi)
  lfb := by
    obtain hfresh | ⟨site, l, hat, hl⟩ := h.holds_or_at .fresh rfl
    · exact .inl hfresh
    · exact .inr ⟨site, l, hat, inEnvelope_iff.mp (by simpa [Claim.dueAt] using hl)⟩
  dummy site hat := h.at hat .dummy rfl
  coherent := by
    obtain hcoherent | ⟨site, l, -, hl⟩ := h.holds_or_at .coherent rfl
    · exact hcoherent
    · cases hl

end Sys2Proof.Machine
end

section
/-! SUPPORT. What a line of a command does to the controllers, the buffer and the working registers, where it starts from the
claims that are due there, and where it leaves SEQ. -/

namespace Sys2Proof.Machine

/-! ## The effect of a line -/

/-- A part of the state outside SEQ that a line may change. -/
inductive Part where
  | flc | icc | gcr | lfb

/-- The part that a line may change, if any. -/
def Line.changes : Line → Option Part
  | .c2 | .l2 | .u2 | .k2 | .g1 | .g2 | .g3 | .g4 | .g5 | .g7 | .h1 | .h3 | .h5 => some .flc
  | .d2 | .e2 | .e3 | .e6 => some .icc
  | .f2 => some .gcr
  | .m0 | .m1 | .m2 | .m3 | .r1 | .readByte | .f4 | .f5 => some .lfb
  | _ => none

/-- The flash controller after a line. -/
inductive FlcEffect (s : State) : Line → Flc → Prop where
  | kept {l : Line} (hl : l.changes ≠ some .flc) : FlcEffect s l s.flc
  | clearError : FlcEffect s .c2 { s.flc with af := false }
  | divisor {d : Byte} (hd : s.seq.div = some d) : FlcEffect s .l2 { s.flc with clkdiv := d }
  | unlock : FlcEffect s .u2 { s.flc with unlock := s.params.unlockKey }
  | lock : FlcEffect s .k2 { s.flc with unlock := s.params.lockKey }
  | operands {l : Line} (hl : l ∈ [.g1, .g2, .g3, .g4, .g5, .h1]) (a d0 d1 d2 d3 : Word) :
    FlcEffect s l { s.flc with addr := a, data0 := d0, data1 := d1, data2 := d2, data3 := d3 }
  | code : FlcEffect s .h3 { s.flc with eraseCode := s.params.pageEraseCode }
  | program (a : Word) (d : FlashWord) (ok : Bool) : FlcEffect s .g7 { s.flc with op := .program a d ok }
  | erase (p : Nat) (ok : Bool) : FlcEffect s .h5 { s.flc with op := .erasePage p ok }

/-- The cache controller after a line. -/
inductive IccEffect (s : State) : Line → Icc → Prop where
  | kept {l : Line} (hl : l.changes ≠ some .icc) : IccEffect s l s.icc
  | disable {l : Line} (hl : l = .d2 ∨ l = .e2) : IccEffect s l { s.icc with en := false }
  | invalidate : IccEffect s .e3 { s.icc with busy := true, invPending := true }
  | enable : IccEffect s .e6 { s.icc with en := true, busy := true }

/-- The global control block after a line. -/
inductive GcrEffect (s : State) : Line → Gcr → Prop where
  | kept {l : Line} (hl : l.changes ≠ some .gcr) : GcrEffect s l s.gcr
  | flush : GcrEffect s .f2 { s.gcr with busy := true }

/-- The line-fill buffer after a line: a read leaves the line that it reads, from the array or from the buffer. -/
inductive LfbEffect (s : State) : Line → Option CacheLine → Prop where
  | kept {l : Line} (hl : l.changes ≠ some .lfb) : LfbEffect s l s.lfb
  | read {l : Line} {la : Nat} {d : FlashWord} (hl : l.changes = some .lfb)
    (hd : d = flashLine s.flash la ∨ s.lfb = some ⟨la, d⟩)
    (h4 : l = .f4 → la = wordBase s.params.dummyReadAddr0.toNat)
    (h5 : l = .f5 → la = wordBase s.params.dummyReadAddr1.toNat) : LfbEffect s l (some ⟨la, d⟩)

/-- What a line that goes on does. -/
structure LineEffect (s : State) (l : Line) (t : State) : Prop where
  params : t.params = s.params
  flash : t.flash = s.flash
  flc : FlcEffect s l t.flc
  icc : IccEffect s l t.icc
  gcr : GcrEffect s l t.gcr
  lfb : LfbEffect s l t.lfb
  div : l = .setDiv ∨ t.seq.div = s.seq.div
  read : ∀ r, rmwReadReg l = some r → t.seq.t = some (busRead r s)

/-- The line that a line goes on to: the one after it in the list, or the one that a branch names. -/
def NextLine (prog : List Label) (site : Site) (l : Line) (n : Label) : Prop :=
  lineAfter prog (.line site l) = some n ∨ ∃ l', jumpTarget site l = some l' ∧ n = .line .main l'

/-- How one line ends, and what it has done: it goes on, it is a poll that waits, or it ends or halts the command. -/
inductive LineOutcome (prog : List Label) (site : Site) (l : Line) (s t : State) : Prop where
  | goes (n : Label) (hn : NextLine prog site l n) (hpoll : ∀ r, pollWaits l s ≠ some (r, true))
    (he : LineEffect s l t) (hphase : t.seq.phase = s.seq.phase) (hstep : t.seq.step = some n)
  | waits (r : Reg) (hpoll : pollWaits l s = some (r, true)) (ht : t = s.afterRead r (busRead r s))
  | leaves (hl : envelopeStage l = 31) (hphase : t.seq.phase ≠ .busy)
    (ht : t = { s with seq := t.seq, history := t.history })

section Effects

variable {s t : State} {l : Line} {r : Reg}

/-- A line that changes nothing outside SEQ and reads no register for a write. -/
theorem LineEffect.ofSeq (hl : l.changes = none) (hread : rmwReadReg l = none)
    (hdiv : l = .setDiv ∨ t.seq.div = s.seq.div)
    (ht : t = { s with seq := t.seq, history := t.history }) : LineEffect s l t := by
  have kept (p : Part) : l.changes ≠ some p := by simp [hl]
  rw [ht]
  exact ⟨rfl, rfl, .kept (kept _), .kept (kept _), .kept (kept _), .kept (kept _), hdiv, by simp [hread]⟩

/-- A line that reads a register for the write that follows. -/
theorem LineEffect.afterRead (hl : l.changes = none) (hread : rmwReadReg l = some r) :
    LineEffect s l (s.afterRead r (busRead r s)) := by
  have kept (p : Part) : l.changes ≠ some p := by simp [hl]
  refine ⟨rfl, rfl, .kept (kept _), .kept (kept _), .kept (kept _), .kept (kept _), .inr rfl, fun r' hr' => ?_⟩
  cases hread.symm.trans hr'
  rfl

/-- A line that changes the flash controller. -/
theorem LineEffect.ofFlc {f : Flc} (hl : l.changes = some .flc) (hread : rmwReadReg l = .none) (hf : FlcEffect s l f) :
    LineEffect s l { s with flc := f } :=
  ⟨rfl, rfl, hf, .kept (by simp [hl]), .kept (by simp [hl]), .kept (by simp [hl]), .inr rfl, by simp [hread]⟩

/-- A line that changes the cache controller. -/
theorem LineEffect.ofIcc {c : Icc} (hl : l.changes = some .icc) (hread : rmwReadReg l = .none) (hc : IccEffect s l c) :
    LineEffect s l { s with icc := c } :=
  ⟨rfl, rfl, .kept (by simp [hl]), hc, .kept (by simp [hl]), .kept (by simp [hl]), .inr rfl, by simp [hread]⟩

/-- F2. -/
theorem LineEffect.flush : LineEffect s .f2 { s with gcr := { s.gcr with busy := true } } :=
  ⟨rfl, rfl, .kept nofun, .kept nofun, .flush, .kept nofun, .inr rfl, nofun⟩

/-- A line that reads a line of flash, with nothing else changed outside SEQ. -/
theorem LineEffect.ofLfb {b : Option CacheLine} (hl : l.changes = some .lfb) (hread : rmwReadReg l = .none)
    (hb : LfbEffect s l b) (hdiv : t.seq.div = s.seq.div)
    (ht : t = { s with lfb := b, seq := t.seq, draws := t.draws, history := t.history }) : LineEffect s l t := by
  rw [ht]
  exact ⟨rfl, rfl, .kept (by simp [hl]), .kept (by simp [hl]), .kept (by simp [hl]), hb, .inr hdiv, by simp [hread]⟩

/-- A line that loads the address or a data lane of an operation (R241, R246). -/
theorem LineEffect.ofOperand {u : State} {v : Word} (hl : l ∈ [.g1, .g2, .g3, .g4, .g5, .h1])
    (hr : r ∈ [.flcAddr, .flcData0, .flcData1, .flcData2, .flcData3]) (hu : writeReg r v s = .next u) :
    LineEffect s l u := by
  have hclass : l.changes = some .flc ∧ rmwReadReg l = none := by
    fin_cases hl <;> exact ⟨rfl, rfl⟩
  fin_cases hr
  all_goals
    obtain ⟨-, hu⟩ := whenReady_next _ _ _ hu
    cases hu
    exact .ofFlc hclass.1 hclass.2 (.operands hl _ _ _ _ _)

/-- The effect of a line does not read the history. -/
theorem LineEffect.log (e : Event) (h : LineEffect s l t) : LineEffect s l (t.log e) :=
  ⟨h.params, h.flash, h.flc, h.icc, h.gcr, h.lfb, h.div, h.read⟩

/-- The effect of a line does not read the step counter. -/
theorem LineEffect.goTo (n : Label) (h : LineEffect s l t) : LineEffect s l (goTo n t) :=
  ⟨h.params, h.flash, h.flc, h.icc, h.gcr, h.lfb, h.div, h.read⟩

/-- A 32-bit flash read by a line, with nothing in flight. -/
theorem lfbEffect_of_memReadWord {a : Word} {x : Word × State} (hop : s.flc.op = .none) (h : memReadWord a s = .next x)
    (hl : l.changes = some .lfb) (h4 : l = .f4 → a = s.params.dummyReadAddr0) (h5 : l = .f5 → a = s.params.dummyReadAddr1) :
    LfbEffect s l x.2.lfb ∧ x.2 = { s with lfb := x.2.lfb, draws := x.2.draws, history := x.2.history } := by
  obtain ⟨-, -, -, ⟨hp, -⟩ | ⟨-, d, n, -, hd, rfl⟩⟩ := memReadWord_next a s x h
  · simp [pend_eq_decide, hop] at hp
  · exact ⟨.read hl hd (fun h => by rw [h4 h]) (fun h => by rw [h5 h]), rfl⟩

/-- An 8-bit flash read by a line, with nothing in flight. -/
theorem lfbEffect_of_memReadByte {a : Word} {x : Byte × State} (hop : s.flc.op = .none) (h : memReadByte a s = .next x) :
    LfbEffect s .readByte x.2.lfb ∧ x.2 = { s with lfb := x.2.lfb, draws := x.2.draws, history := x.2.history } := by
  obtain ⟨-, -, ⟨hp, -⟩ | ⟨-, d, n, -, hd, rfl⟩⟩ := memReadByte_next a s x h
  · simp [pend_eq_decide, hop] at hp
  · exact ⟨.read rfl hd nofun nofun, rfl⟩

end Effects

/-! ## What the writing lines write -/

section Writes

variable {s : State}

/-- Writing `FLC.CTRL` back with a code in `ERASE_CODE` stores the code and starts nothing (R246). -/
theorem writeReg_withEraseCode (hop : s.flc.op = .none) (c : Byte) :
    writeReg .flcCtrl (withEraseCode (readReg .flcCtrl s) c) s = .next { s with flc := { s.flc with eraseCode := c } } := by
  rw [writeReg_flcCtrl hop, writeCtrl_of_no_start]
  all_goals simp [readReg, wr_false_of_none _ hop, pge_false_of_none _ hop]

/-- Writing `FLC.CTRL` back with `WR` set is a program start (R241, R147). -/
theorem writeReg_withWr (hop : s.flc.op = .none) :
    writeReg .flcCtrl (withWr (readReg .flcCtrl s)) s = programStart s.flc.unlock s := by
  rw [writeReg_flcCtrl hop, writeCtrl_of_wr]
  all_goals simp [readReg, pge_false_of_none _ hop]

/-- Writing `FLC.CTRL` back with `PGE` set is an erase start (R246, R148). -/
theorem writeReg_withPge (hop : s.flc.op = .none) :
    writeReg .flcCtrl (withPge (readReg .flcCtrl s)) s = eraseStart s.flc.unlock s.flc.eraseCode s := by
  rw [writeReg_flcCtrl hop, writeCtrl_of_pge]
  all_goals simp [readReg, wr_false_of_none _ hop]
end Writes

/-! ## The outcome of a line -/

section Outcomes

variable {prog : List Label} {site : Site} {l : Line} {s u : State} {r : Reg} {n : Label}

theorem Ensures.goesOn (hpoll : ∀ r, pollWaits l s ≠ some (r, true)) (he : LineEffect s l u)
    (hphase : u.seq.phase = s.seq.phase) :
    Ensures (LineOutcome prog site l s) (advanceStep prog (.line site l) u) := by
  intro t ht
  obtain ⟨n, hn, rfl⟩ := advanceStep_next prog _ u t ht
  exact .goes n (.inl hn) hpoll (he.goTo n) hphase rfl

/-- A line that goes on with nothing outside SEQ changed. -/
theorem Ensures.internal (hl : l.changes = none) (hread : rmwReadReg l = none) (hpoll : pollWaits l s = none)
    (q : Seq) (hdiv : l = .setDiv ∨ q.div = s.seq.div) (hphase : q.phase = s.seq.phase) :
    Ensures (LineOutcome prog site l s) (advanceStep prog (.line site l) { s with seq := q }) :=
  .goesOn (by simp [hpoll]) (.ofSeq hl hread hdiv rfl) hphase

/-- A line that branches with nothing outside SEQ changed. -/
theorem Ensures.jumps {l' : Line} (hj : jumpTarget site l = some l') (hl : l.changes = none) (hread : rmwReadReg l = none)
    (hpoll : pollWaits l s = none) (q : Seq) (hdiv : q.div = s.seq.div) (hphase : q.phase = s.seq.phase) :
    Ensures (LineOutcome prog site l s) (.next (goTo (.line .main l') { s with seq := q })) :=
  .next (.goes _ (.inr ⟨l', hj, rfl⟩) (by simp [hpoll])
    (.goTo _ (.ofSeq (t := { s with seq := q }) hl hread (.inr hdiv) rfl)) hphase rfl)

theorem Ensures.pollOutcome {waits : Bool} (c : Ctx) (hpoll : pollWaits l s = some (r, waits)) (hl : l.changes = none)
    (hread : rmwReadReg l = none) :
    Ensures (LineOutcome prog site l s) (performLine c site l (advanceStep prog (.line site l)) s) := by
  obtain ⟨p, hline, hp⟩ := performLine_of_pollWaits hpoll c site (advanceStep prog (.line site l))
  rw [hline]
  refine .andThen fun x hx => ?_
  obtain ⟨-, rfl⟩ := mmioRead_next r s x hx
  rw [fields_busRead, hp]
  cases waits with
  | true => exact .next (.waits r hpoll rfl)
  | false => exact .goesOn (by simp [hpoll]) (.ofSeq hl hread (.inr rfl) rfl) rfl

theorem Ensures.readOutcome (hread : rmwReadReg l = some r) (hl : l.changes = none)
    (hpoll : pollWaits l s = none) :
    Ensures (LineOutcome prog site l s) (Machine.andThen (readToT r s) (advanceStep prog (.line site l))) :=
  .andThen fun u hu => by
    obtain ⟨x, hx, hu⟩ := (andThen_eq_next _ _ _).mp hu
    obtain ⟨-, rfl⟩ := mmioRead_next r s x hx
    cases hu
    exact .goesOn (by simp [hpoll]) (.afterRead hl hread) rfl

theorem Ensures.writeOutcome {w : Word} (hpoll : pollWaits l s = none)
    (he : ∀ u, writeReg r w s = .next u → LineEffect s l u) :
    Ensures (LineOutcome prog site l s) (Machine.andThen (writeFields r w s) (advanceStep prog (.line site l))) :=
  .andThen fun t ht => by
    obtain ⟨-, u, hu, rfl⟩ := mmioWrite_next r _ s t ht
    rw [RegMap.fields_bus] at hu
    refine .goesOn (by simp [hpoll]) ((he u hu).log _) ?_
    rw [log_seq, (writeReg_frame r w s u hu).1]

theorem Ensures.rmwOutcome {f : Word → Word} (hpoll : pollWaits l s = none)
    (ht : s.seq.t = some (busRead r s)) (he : ∀ u, writeReg r (f (readReg r s)) s = .next u → LineEffect s l u) :
    Ensures (LineOutcome prog site l s) (Machine.andThen (writeFromT r f s) (advanceStep prog (.line site l))) := by
  rw [writeFromT, ht, needWork_some, fields_busRead]
  exact .writeOutcome hpoll he

theorem Ensures.failOutcome (code : Code) (hl : envelopeStage l = 31) :
    Ensures (LineOutcome prog site l s) (.next (fail code s)) := by
  rcases fail_cases code s with ⟨-, e⟩ | ⟨-, e⟩ <;> rw [e]
  · exact .next (.leaves hl nofun rfl)
  · exact .next (.leaves hl nofun rfl)

theorem Ensures.mergeOutcome (k : Nat) (hl : l.changes = some .lfb) (hread : rmwReadReg l = none)
    (hpoll : pollWaits l s = none) (hop : s.flc.op = .none) (hdummy : l ≠ .f4 ∧ l ≠ .f5) :
    Ensures (LineOutcome prog site l s) (Machine.andThen (Machine.mergeLine site k s) (advanceStep prog (.line site l))) :=
  .andThen fun u hu => by
    obtain ⟨p, -, hu⟩ := (needWork_eq_next _ _ _).mp hu
    obtain ⟨x, hx, hu⟩ := (andThen_eq_next _ _ _).mp hu
    cases hu
    have hseq := seq_of_memReadWord hx
    obtain ⟨hb, ht⟩ := lfbEffect_of_memReadWord hop hx hl (absurd · hdummy.1) (absurd · hdummy.2)
    exact .goesOn (by simp [hpoll]) (.ofLfb hl hread hb (by simp [hseq]) (by rw [ht])) (by simp [hseq])

theorem Ensures.dummyOutcome {a : Word} (hl : l.changes = some .lfb) (hread : rmwReadReg l = none)
    (hpoll : pollWaits l s = none) (hop : s.flc.op = .none) (h4 : l = .f4 → a = s.params.dummyReadAddr0)
    (h5 : l = .f5 → a = s.params.dummyReadAddr1) :
    Ensures (LineOutcome prog site l s)
      (Machine.andThen (memReadWord a s) fun x => advanceStep prog (.line site l) x.2) :=
  .andThen fun x hx => by
    obtain ⟨hb, hx'⟩ := lfbEffect_of_memReadWord hop hx hl h4 h5
    have hseq := seq_of_memReadWord hx
    exact .goesOn (by simp [hpoll]) (.ofLfb hl hread hb (by rw [hseq]) (by rw [hx'])) (by rw [hseq])

theorem Ensures.laneOutcome {c : Ctx} {k : Nat} (hl : l ∈ [.g1, .g2, .g3, .g4, .g5, .h1])
    (hr : r ∈ [.flcAddr, .flcData0, .flcData1, .flcData2, .flcData3]) (hpoll : pollWaits l s = none) :
    Ensures (LineOutcome prog site l s) (Machine.andThen (Machine.laneLine c site k r s) (advanceStep prog (.line site l))) :=
  fun t ht => by
    obtain ⟨u, hu, ht⟩ := (andThen_eq_next _ _ _).mp ht
    obtain ⟨v, -, hu⟩ := (andThen_eq_next _ _ _).mp hu
    exact Ensures.writeOutcome hpoll (fun _ => .ofOperand hl hr) t ((andThen_eq_next _ _ _).mpr ⟨u, hu, ht⟩)

end Outcomes

/-- What a line of a command does, from the claims that are due there. -/
theorem performLine_outcome (c : Ctx) (prog : List Label) (site : Site) (l : Line) (s : State)
    (hsite : 8 ≤ envelopeStage l → envelopeStage l ≤ 16 → site ≠ .main)
    (hs : ∀ c : Claim, c.dueAt site l = true → c.Holds s) :
    Ensures (LineOutcome prog site l s) (performLine c site l (advanceStep prog (.line site l)) s) := by
  have hop (h : (l != .g8 && l != .h6) = true) : s.flc.op = .none := hs .opNone h
  have hicce (h : (l != .e4 && l != .e7) = true) : s.icc.busy = false := hs .icceRest h
  have ht {r : Reg} (h : (rmwReg l == some r) = true) : s.seq.t = some (busRead r s) := hs (.read r) h
  cases l
  -- the lines that access a register
  case w1 | w7 | g8 | h6 | f3 | e4 | e7 => exact .pollOutcome c rfl rfl rfl
  all_goals simp only [performLine]
  case d1 | c1 | u1 | k1 | g6 | h2 | h4 | f1 | e1 | e5 => exact .readOutcome rfl rfl rfl
  case d2 | e2 =>
    refine .rmwOutcome (f := fun t => withEn t false) rfl (ht rfl) fun u hu => ?_
    cases (writeReg_withEn_false (hicce rfl)).symm.trans hu
    exact .ofIcc rfl rfl (.disable (by simp))
  case c2 =>
    refine .rmwOutcome rfl (ht rfl) fun u hu => ?_
    cases (writeReg_withAfClear (hop rfl)).symm.trans hu
    exact .ofFlc rfl rfl .clearError
  case l2 =>
    refine fun t h => ?_
    obtain ⟨d, hd, h⟩ := (needWork_eq_next _ _ _).mp h
    refine Ensures.writeOutcome rfl (fun u hu => ?_) t h
    rw [setWidth_eq_append] at hu
    cases (writeReg_divisor (hop rfl) d).symm.trans hu
    exact .ofFlc rfl rfl (.divisor hd)
  case u2 =>
    refine .rmwOutcome (f := fun t => withUnlock t s.params.unlockKey) rfl (ht rfl) fun u hu => ?_
    cases (writeReg_withUnlock (hop rfl) _).symm.trans hu
    exact .ofFlc rfl rfl .unlock
  case k2 =>
    refine .rmwOutcome (f := fun t => withUnlock t s.params.lockKey) rfl (ht rfl) fun u hu => ?_
    cases (writeReg_withUnlock (hop rfl) _).symm.trans hu
    exact .ofFlc rfl rfl .lock
  case g7 =>
    refine .rmwOutcome rfl (ht rfl) fun u hu => ?_
    rw [writeReg_withWr (hop rfl)] at hu
    have hkey : s.flc.unlock = s.params.unlockKey :=
      hs .unlocked (dueAt_inEnvelope (hsite (by decide) (by decide)) (by decide) (by decide))
    obtain ⟨hnot, -⟩ | ⟨-, -, -, -, rfl⟩ := programStart_next _ _ _ hu
    · exact absurd hkey hnot
    · exact .ofFlc rfl rfl (.program _ _ _)
  case h3 =>
    refine .rmwOutcome (f := fun t => withEraseCode t s.params.pageEraseCode) rfl (ht rfl) fun u hu => ?_
    cases (writeReg_withEraseCode (hop rfl) _).symm.trans hu
    exact .ofFlc rfl rfl .code
  case h5 =>
    refine .rmwOutcome rfl (ht rfl) fun u hu => ?_
    rw [writeReg_withPge (hop rfl)] at hu
    have hkey : s.flc.unlock = s.params.unlockKey :=
      hs .unlocked (dueAt_inEnvelope (hsite (by decide) (by decide)) (by decide) (by decide))
    have hcode : s.flc.eraseCode = s.params.pageEraseCode := hs .code rfl
    obtain ⟨hnot, -⟩ | ⟨-, -, -, -, rfl⟩ := eraseStart_next _ _ _ _ hu
    · exact absurd hnot (by simp [hkey, hcode])
    · exact .ofFlc rfl rfl (.erase _ _)
  case f2 =>
    refine .rmwOutcome rfl (ht rfl) fun u hu => ?_
    cases writeReg_withFlush.symm.trans hu
    exact .flush
  case e3 =>
    refine .writeOutcome rfl fun u hu => ?_
    cases (writeReg_iccInvalidate (hicce rfl) 1).symm.trans hu
    exact .ofIcc rfl rfl .invalidate
  case e6 =>
    refine .rmwOutcome (f := fun t => withEn t true) rfl (ht rfl) fun u hu => ?_
    have hoff : s.icc.en = false := hs .off (by simp [Claim.dueAt, envelopeStage])
    have hwrite := writeReg_withEn (hicce rfl) true
    rw [hoff] at hwrite
    cases hwrite.symm.trans hu
    exact .ofIcc rfl rfl .enable
  case g1 => exact .andThen fun _ _ => .writeOutcome rfl fun _ => .ofOperand (by simp) (by simp)
  case h1 => exact .need fun _ => .writeOutcome rfl fun _ => .ofOperand (by simp) (by simp)
  case g2 | g3 | g4 | g5 => exact .laneOutcome (by simp) (by simp) rfl
  -- the lines that read flash
  case m0 | m1 | m2 | m3 => exact .mergeOutcome _ rfl rfl rfl (hop rfl) ⟨nofun, nofun⟩
  case f4 => exact .dummyOutcome rfl rfl rfl (hop rfl) (fun _ => rfl) nofun
  case f5 => exact .dummyOutcome rfl rfl rfl (hop rfl) nofun fun _ => rfl
  case r1 =>
    refine .need fun a => .andThen fun x hx => ?_
    obtain ⟨hb, hx'⟩ := lfbEffect_of_memReadWord (l := .r1) (hop rfl) hx rfl nofun nofun
    have hseq := seq_of_memReadWord hx
    exact .goesOn nofun (.ofLfb rfl rfl hb (by simp [hseq]) (by rw [hx']; rfl)) (by simp [hseq])
  case readByte =>
    refine .andThen fun u hu => ?_
    obtain ⟨a, -, hu⟩ := (need_eq_next _ _ _).mp hu
    obtain ⟨i, -, hu⟩ := (needWork_eq_next _ _ _).mp hu
    obtain ⟨x, hx, hu⟩ := (andThen_eq_next _ _ _).mp hu
    cases hu
    obtain ⟨hb, hx'⟩ := lfbEffect_of_memReadByte (hop rfl) hx
    have hseq := seq_of_memReadByte hx
    exact .goesOn nofun (.ofLfb rfl rfl hb (by simp [hseq]) (by rw [hx'])) (by simp [hseq])
  -- the internal lines
  case failIllegal => exact .failOutcome _ rfl
  case haltPanic | boundsIdle | done => exact .next (.leaves rfl nofun rfl)
  case boundsStatus | initIndex => exact .internal rfl rfl rfl _ (.inr rfl) rfl
  case boundsResult => exact .need fun _ => .need fun _ => .internal rfl rfl rfl _ (.inr rfl) rfl
  case checkShape => exact .need fun _ => .need fun _ => .ite (.fault _) (.internal rfl rfl rfl _ (.inr rfl) rfl)
  case checkAlign => exact .need fun _ => .ite (.failOutcome _ rfl) (.internal rfl rfl rfl _ (.inr rfl) rfl)
  case checkRange =>
    exact .need fun _ => .need fun _ => .ite (.internal rfl rfl rfl _ (.inr rfl) rfl) (.failOutcome _ rfl)
  case checkClock => exact .need fun _ => .ite (.internal rfl rfl rfl _ (.inr rfl) rfl) (.failOutcome _ rfl)
  case setDiv => exact .need fun _ => .needWork fun _ => .internal rfl rfl rfl _ (.inl rfl) rfl
  case initCursor => exact .need fun _ => .internal rfl rfl rfl _ (.inr rfl) rfl
  case ifHead => exact .needWork fun _ => .ite (.internal rfl rfl rfl _ (.inr rfl) rfl) (.jumps rfl rfl rfl rfl _ rfl rfl)
  case bindWord | setResult => exact .needWork fun _ => .internal rfl rfl rfl _ (.inr rfl) rfl
  case bindCount => exact .need fun _ => .needWork fun _ => .needWork fun _ => .internal rfl rfl rfl _ (.inr rfl) rfl
  case mergeCheck => exact .needWork fun _ => .ite (.internal rfl rfl rfl _ (.inr rfl) rfl) (.failOutcome _ rfl)
  case spliceBytes =>
    refine .andThen fun u hu => ?_
    obtain ⟨w, rfl⟩ := spliceLine_next hu
    exact .internal rfl rfl rfl _ (.inr rfl) rfl
  case advance =>
    refine .andThen fun u hu => ?_
    obtain ⟨p, i, rfl⟩ := advanceCursor_next hu
    split
    · next hchunk => exact .jumps (l := .advance) (if_pos hchunk) rfl rfl rfl _ rfl rfl
    · exact .internal rfl rfl rfl _ (.inr rfl) rfl
  case whileChunks | ifTail | whileBytes =>
    exact .need fun _ => .needWork fun _ => .ite (.internal rfl rfl rfl _ (.inr rfl) rfl) (.jumps rfl rfl rfl rfl _ rfl rfl)
  case nextByte => exact .needWork fun _ => .jumps rfl rfl rfl rfl _ rfl rfl

/-! ## What an effect makes of each field -/

section Fields

variable {s : State} {l : Line} {f : Flc} {c : Icc} {g : Gcr}

theorem ne_of_changes_ne {p : Part} {l' : Line} (hl : l.changes ≠ some p) (hl' : l'.changes = some p) : l ≠ l' := by
  rintro rfl
  exact hl hl'

theorem FlcEffect.op_eq (h : FlcEffect s l f) (hg : l ≠ .g7) (hh : l ≠ .h5) : f.op = s.flc.op := by
  cases h
  case program => exact absurd rfl hg
  case erase => exact absurd rfl hh
  all_goals rfl

theorem FlcEffect.wr_of_g7 (h : FlcEffect s .g7 f) : f.wr = true := by
  cases h
  case program => rfl
  case kept hl => exact absurd rfl hl
  case operands hl => simp at hl

theorem FlcEffect.pge_of_h5 (h : FlcEffect s .h5 f) : f.pge = true := by
  cases h
  case erase => rfl
  case kept hl => exact absurd rfl hl
  case operands hl => simp at hl

theorem FlcEffect.af_eq (h : FlcEffect s l f) : f.af = if l = .c2 then false else s.flc.af := by
  cases h
  case kept hl => exact (if_neg (ne_of_changes_ne hl rfl)).symm
  case operands hl => exact (if_neg (by rintro rfl; simp at hl)).symm
  all_goals rfl

theorem FlcEffect.eraseCode_eq (h : FlcEffect s l f) :
    f.eraseCode = if l = .h3 then s.params.pageEraseCode else s.flc.eraseCode := by
  cases h
  case kept hl => exact (if_neg (ne_of_changes_ne hl rfl)).symm
  case operands hl => exact (if_neg (by rintro rfl; simp at hl)).symm
  all_goals rfl

theorem FlcEffect.unlock_eq (h : FlcEffect s l f) :
    f.unlock = if l = .u2 then s.params.unlockKey else if l = .k2 then s.params.lockKey else s.flc.unlock := by
  cases h
  case kept hl => rw [if_neg (ne_of_changes_ne hl rfl), if_neg (ne_of_changes_ne hl rfl)]
  case operands hl => rw [if_neg (by rintro rfl; simp at hl), if_neg (by rintro rfl; simp at hl)]
  all_goals rfl

theorem FlcEffect.clkdiv_eq (h : FlcEffect s l f) :
    if l = .l2 then s.seq.div = some f.clkdiv else f.clkdiv = s.flc.clkdiv := by
  cases h
  case kept hl => rw [if_neg (ne_of_changes_ne hl rfl)]
  case divisor hd => exact hd
  case operands hl => rw [if_neg (by rintro rfl; simp at hl)]
  all_goals rfl

theorem IccEffect.lines_eq (h : IccEffect s l c) : c.lines = s.icc.lines := by
  cases h <;> rfl

theorem IccEffect.busy_eq (h : IccEffect s l c) : c.busy = if l = .e3 ∨ l = .e6 then true else s.icc.busy := by
  cases h
  case kept hl => rw [if_neg (not_or.mpr ⟨ne_of_changes_ne hl rfl, ne_of_changes_ne hl rfl⟩)]
  case disable hl => rcases hl with rfl | rfl <;> rfl
  all_goals rfl

theorem IccEffect.invPending_eq (h : IccEffect s l c) : c.invPending = if l = .e3 then true else s.icc.invPending := by
  cases h
  case kept hl => rw [if_neg (ne_of_changes_ne hl rfl)]
  case disable hl => rcases hl with rfl | rfl <;> rfl
  all_goals rfl

theorem IccEffect.en_eq (h : IccEffect s l c) :
    c.en = if l = .d2 ∨ l = .e2 then false else if l = .e6 then true else s.icc.en := by
  cases h
  case kept hl =>
    rw [if_neg (not_or.mpr ⟨ne_of_changes_ne hl rfl, ne_of_changes_ne hl rfl⟩), if_neg (ne_of_changes_ne hl rfl)]
  case disable hl => rw [if_pos hl]
  all_goals rfl

theorem GcrEffect.busy_eq (h : GcrEffect s l g) : g.busy = if l = .f2 then true else s.gcr.busy := by
  cases h
  case kept hl => rw [if_neg (ne_of_changes_ne hl rfl)]
  case flush => rfl

theorem FlcEffect.eq_of_ne (h : FlcEffect s l f) (hl : l.changes ≠ some .flc) : f = s.flc := by
  cases h
  case kept => rfl
  case operands hmem => fin_cases hmem <;> exact absurd rfl hl
  all_goals exact absurd rfl hl

theorem IccEffect.eq_of_ne (h : IccEffect s l c) (hl : l.changes ≠ some .icc) : c = s.icc := by
  cases h
  case kept => rfl
  case disable hmem => rcases hmem with rfl | rfl <;> exact absurd rfl hl
  all_goals exact absurd rfl hl

theorem GcrEffect.eq_of_ne (h : GcrEffect s l g) (hl : l.changes ≠ some .gcr) : g = s.gcr := by
  cases h
  case kept => rfl
  case flush => exact absurd rfl hl

theorem LfbEffect.eq_of_ne {b : Option CacheLine} (h : LfbEffect s l b) (hl : l.changes ≠ some .lfb) : b = s.lfb := by
  cases h
  case kept => rfl
  case read hread _ _ _ => exact absurd hread hl

/-- A line that reads a register for a write changes nothing outside SEQ. -/
theorem changes_of_rmwReadReg {r : Reg} (h : rmwReadReg l = some r) : l.changes = none := by
  cases l
  case d1 | e1 | e5 | c1 | u1 | k1 | g6 | h2 | h4 | f1 => rfl
  all_goals cases h

end Fields

end Sys2Proof.Machine
end

section
/-! SUPPORT. Why the claims hold at every line: which lines may break a claim and which bring it about, that no command breaks a
claim before a line where it is due, and that a step of each agent keeps the claims. -/

namespace Sys2Proof.Machine

/-! ## Which lines break a claim, and which bring it about -/

/-- A line that may make a claim false. A claim that is due at one line of an envelope alone counts as broken there. -/
def Claim.brokenBy : Claim → Line → Bool
  | .opNone, l => l == .g7 || l == .h5
  | .icceRest, l => l == .e3 || l == .e6
  | .pendingRest, l => l == .e3
  | .gcreRest, l => l == .f2
  | .off, l | .coherent, l => l == .e6
  | .divisor, l => l == .l2 || l == .setDiv
  | .unlocked, l => l == .k2
  | .locked, l => l == .u2
  | .emptied, _ | .noError, _ | .code, _ | .fresh, _ => false
  | .opProgram, _ | .opErase, _ | .pendingBusy, _ | .emptying, _ | .on, _ | .read _, _ | .dummy, _ => true

/-- A line after which a claim holds, if the claims that are due at the line do. -/
def Claim.madeBy : Claim → Line → Bool
  | .opNone, l => l == .g8 || l == .h6
  | .opProgram, l => l == .g7
  | .opErase, l => l == .h5
  | .icceRest, l => l == .e4 || l == .e7
  | .pendingRest, l | .emptied, l => l == .e4
  | .pendingBusy, l | .emptying, l => l == .e3
  | .gcreRest, l => l == .f3
  | .read r, l => rmwReadReg l == some r
  | .off, l => l == .d2 || l == .e2
  | .on, l | .coherent, l => l == .e6
  | .noError, l => l == .c2
  | .divisor, l => l == .l2
  | .code, l => l == .h3
  | .unlocked, l => l == .u2
  | .locked, l => l == .k2
  | .fresh, l => l == .f5
  | .dummy, l => l == .f4

/-- A claim that is due at the second of two lines is due at the first, which keeps it, or the first brings it about. -/
def Claim.handedOn (site : Site) (l : Line) (site' : Site) (l' : Line) (c : Claim) : Bool :=
  !c.dueAt site' l' || (c.dueAt site l && !c.brokenBy l) || c.madeBy l

/-- Every claim. -/
def allClaims : List Claim :=
  [.opNone, .opProgram, .opErase, .icceRest, .pendingRest, .pendingBusy, .gcreRest, .off, .on, .emptying, .emptied,
    .noError, .divisor, .code, .unlocked, .locked, .fresh, .dummy, .coherent]
  ++ Config.allRegs.map .read

theorem mem_allClaims (c : Claim) : c ∈ allClaims := by
  cases c
  case read r => exact List.mem_append_right _ (List.mem_map_of_mem (Config.mem_allRegs r))
  all_goals exact List.mem_append_left _ (by simp)

/-- Every claim is handed on from a line to another. -/
def Label.handsOnTo : Label → Label → Bool
  | .line site l, .line site' l' => allClaims.all (Claim.handedOn site l site' l')
  | _, _ => true

/-- A line hands every claim on to the line that a branch of it names. -/
def Label.handsOnAtBranch : Label → Bool
  | .line site l =>
    match jumpTarget site l with
    | some l' => Label.handsOnTo (.line site l) (.line .main l')
    | none => true
  | .haltLoop _ => true

/-- A line from the start of an operation to its end stands in an envelope. -/
def Label.guarded : Label → Bool
  | .line site l => site != .main || !(decide (8 ≤ envelopeStage l) && decide (envelopeStage l ≤ 16))
  | .haltLoop _ => true

/-- Each line of a list hands every claim on to the lines that it goes on to. -/
def handsOn (prog : List Label) : Bool :=
  (prog.zip prog.tail).all (fun p => p.1.handsOnTo p.2) && prog.all Label.handsOnAtBranch

theorem handsOn_writeProgram : handsOn writeProgram = true := by decide +kernel

theorem handsOn_programOf (i : Instr) : handsOn (programOf i) = true := by
  cases i
  case write => exact handsOn_writeProgram
  all_goals rfl

theorem guarded_programOf (i : Instr) : (programOf i).all Label.guarded = true := by
  cases i <;> rfl

/-! ## A line keeps what it does not break, and brings about what it is for -/

section Keeps

variable {site : Site} {s t : State} {l : Line}

/-- The freshness of the cache's lines does not change over a line. -/
theorem LineEffect.linesFresh_eq (h : LineEffect s l t) : t.linesFresh = s.linesFresh := by
  rw [State.linesFresh, State.linesFresh, h.flash, h.icc.lines_eq]

/-- The line that a fresh buffer holds, or that the array gives, is fresh. -/
theorem LineEffect.lfbFresh (h : LineEffect s l t) (hs : s.lfbFresh = true) : t.lfbFresh = true := by
  have hlfb := h.lfb
  rw [State.lfbFresh, h.flash]
  generalize t.lfb = b at hlfb ⊢
  cases hlfb
  case kept => exact hs
  case read hd _ _ =>
    rcases hd with rfl | hd
    · exact beq_self_eq_true _
    · rwa [State.lfbFresh, hd] at hs

/-- A line keeps every claim that it does not break. -/
theorem LineEffect.keeps (h : LineEffect s l t) (c : Claim) (hb : c.brokenBy l = false) (hc : c.Holds s) : c.Holds t := by
  cases c <;> simp only [Claim.brokenBy, Bool.or_eq_false_iff, beq_eq_false_iff_ne] at hb
  case opNone => exact (h.flc.op_eq hb.1 hb.2).trans hc
  case icceRest =>
    rw [Claim.Holds, h.icc.busy_eq, if_neg (not_or.mpr hb)]
    exact hc
  case pendingRest =>
    rw [Claim.Holds, h.icc.invPending_eq, if_neg hb]
    exact hc
  case gcreRest =>
    rw [Claim.Holds, h.gcr.busy_eq, if_neg hb]
    exact hc
  case off =>
    rw [Claim.Holds, h.icc.en_eq, if_neg hb, hc, ite_self]
  case emptied => exact h.icc.lines_eq.trans hc
  case noError => rw [Claim.Holds, h.flc.af_eq, hc, ite_self]
  case divisor =>
    have hclkdiv := h.flc.clkdiv_eq
    rw [if_neg hb.1] at hclkdiv
    rw [Claim.Holds, hclkdiv, h.div.resolve_left hb.2]
    exact hc
  case code => rw [Claim.Holds, h.params, h.flc.eraseCode_eq, hc, ite_self]
  case unlocked => rw [Claim.Holds, h.params, h.flc.unlock_eq, if_neg hb, hc, ite_self]
  case locked => rw [Claim.Holds, h.params, h.flc.unlock_eq, if_neg hb, hc, ite_self]
  case fresh => exact h.lfbFresh hc
  case coherent =>
    intro hen
    rw [h.icc.en_eq, if_neg hb] at hen
    rw [h.linesFresh_eq]
    by_cases hl : l = .d2 ∨ l = .e2
    · rw [if_pos hl] at hen
      cases hen
    · rw [if_neg hl] at hen
      exact hc hen
  all_goals cases hb

/-- A line that changes nothing outside SEQ leaves every register as it reads. -/
theorem LineEffect.busRead_eq (h : LineEffect s l t) (hl : l.changes = none) (r : Reg) : busRead r t = busRead r s := by
  have hflc := h.flc.eq_of_ne (by simp [hl])
  have hicc := h.icc.eq_of_ne (by simp [hl])
  have hgcr := h.gcr.eq_of_ne (by simp [hl])
  cases r <;> simp only [busRead, readReg, h.params, hflc, hicc, hgcr]

/-- The poll of an operation goes on once the operation is no longer in flight (R241, R246). -/
theorem opNone_of_poll (hpoll : ∀ r, pollWaits l s ≠ some (r, true))
    (hs : l = .g8 ∧ Claim.opProgram.Holds s ∨ l = .h6 ∧ Claim.opErase.Holds s) : s.flc.op = .none := by
  have hpoll := hpoll .flcCtrl
  rcases hs with ⟨rfl, hop | hop⟩ | ⟨rfl, hop | hop⟩
  · exact hop
  · cases he : s.flc.op <;> simp_all [pollWaits, Flc.wr]
  · exact hop
  · cases he : s.flc.op <;> simp_all [pollWaits, Flc.pge]

/-- A poll of the cache controller goes on once ICCE is at rest (R202). -/
theorem icceRest_of_poll (hpoll : ∀ r, pollWaits l s ≠ some (r, true)) (hl : l = .e4 ∨ l = .e7) : s.icc.busy = false := by
  rcases hl with rfl | rfl
  all_goals simpa [pollWaits] using hpoll .iccCtrl

/-- The second dummy read leaves its own line, fresh: the buffer holds the first one's, which is another (R206). -/
theorem LineEffect.lfbFresh_of_f5 (h : LineEffect s .f5 t) (hparams : paramsWf s.params = true)
    (hs : Claim.dummy.Holds s) : t.lfbFresh = true := by
  obtain ⟨-, -, -, -, hlines, -⟩ := (paramsWf_iff _).mp hparams
  obtain ⟨d0, hd0⟩ := hs
  have hlfb := h.lfb
  rw [State.lfbFresh, h.flash]
  generalize t.lfb = b at hlfb ⊢
  cases hlfb
  case kept hl => exact absurd rfl hl
  case read hd _ h5 =>
    rcases hd with rfl | hd
    · exact beq_self_eq_true _
    · rw [hd0] at hd
      cases hd
      exact absurd (h5 rfl) hlines

/-- A line brings about the claims that it is for, from the claims that are due at it. -/
theorem LineEffect.makes (h : LineEffect s l t) (hparams : paramsWf s.params = true)
    (hpoll : ∀ r, pollWaits l s ≠ some (r, true)) (hs : ∀ c : Claim, c.dueAt site l = true → c.Holds s) (c : Claim)
    (hm : c.madeBy l = true) : c.Holds t := by
  cases c <;> simp only [Claim.madeBy, Bool.or_eq_true, beq_iff_eq] at hm
  case opNone =>
    rw [Claim.Holds, h.flc.op_eq (by rintro rfl; simp at hm) (by rintro rfl; simp at hm)]
    exact opNone_of_poll hpoll <| hm.imp (fun hl => ⟨hl, hs _ (beq_iff_eq.mpr hl)⟩) (fun hl => ⟨hl, hs _ (beq_iff_eq.mpr hl)⟩)
  case opProgram => subst hm; exact .inr h.flc.wr_of_g7
  case opErase => subst hm; exact .inr h.flc.pge_of_h5
  case icceRest =>
    rw [Claim.Holds, h.icc.busy_eq, if_neg (by rcases hm with rfl | rfl <;> simp)]
    exact icceRest_of_poll hpoll hm
  case pendingRest =>
    subst hm
    rw [Claim.Holds, h.icc.invPending_eq, if_neg (by simp)]
    exact (hs .pendingBusy rfl).resolve_right (by simp [icceRest_of_poll hpoll (.inl rfl)])
  case emptied =>
    subst hm
    rw [Claim.Holds, h.icc.lines_eq]
    exact (hs .emptying rfl).resolve_right (by simp [icceRest_of_poll hpoll (.inl rfl)])
  case pendingBusy => subst hm; exact .inr h.icc.busy_eq
  case emptying => subst hm; exact .inr ⟨h.icc.busy_eq, h.icc.invPending_eq⟩
  case gcreRest =>
    subst hm
    rw [Claim.Holds, h.gcr.busy_eq, if_neg (by simp)]
    simpa [pollWaits] using hpoll .gcrSysctrl
  case read r => exact (h.read r hm).trans (congrArg some (h.busRead_eq (changes_of_rmwReadReg hm) r).symm)
  case off => rw [Claim.Holds, h.icc.en_eq, if_pos hm]
  case on => subst hm; exact h.icc.en_eq
  case coherent =>
    subst hm
    intro _
    have hempty : s.icc.lines = [] := hs .emptied rfl
    rw [State.linesFresh, h.icc.lines_eq, hempty, List.all_nil]
  case noError => rw [Claim.Holds, h.flc.af_eq, if_pos hm]
  case divisor =>
    subst hm
    exact (h.div.resolve_left nofun).trans h.flc.clkdiv_eq
  case code => rw [Claim.Holds, h.flc.eraseCode_eq, if_pos hm, h.params]
  case unlocked => rw [Claim.Holds, h.flc.unlock_eq, if_pos hm, h.params]
  case locked => subst hm; rw [Claim.Holds, h.params]; exact h.flc.unlock_eq
  case fresh => subst hm; exact h.lfbFresh_of_f5 hparams (hs .dummy rfl)
  case dummy =>
    subst hm
    have hlfb := h.lfb
    rw [Claim.Holds, h.params]
    generalize t.lfb = b at hlfb ⊢
    cases hlfb
    case kept hl => exact absurd rfl hl
    case read d _ _ h4 _ => exact ⟨d, by rw [h4 rfl]⟩

end Keeps

end Sys2Proof.Machine
end

section
/-! SUPPORT. Every step keeps the discipline of the Write Guard, agent by agent, and what it gives between commands and at the end
of an envelope (spec/44_write_protection.md R224, R227, R228; spec/43_cache_guard.md R250). -/

namespace Sys2Proof.Machine

/-! ## From line to line -/

/-- A line and the one after it stand next to each other in the list. -/
theorem mem_zip_of_lineAfter {prog : List Label} {here n : Label} (h : lineAfter prog here = some n) :
    (here, n) ∈ prog.zip prog.tail := by
  induction prog with
  | nil => simp [lineAfter] at h
  | cons a prog ih =>
    cases prog with
    | nil => simp [lineAfter] at h
    | cons b rest =>
      rw [lineAfter] at h
      split at h
      · next ha =>
        cases h
        exact ha ▸ List.mem_cons_self
      · exact List.mem_cons_of_mem _ (ih h)

theorem handedOn_of_handsOnTo {site site' : Site} {l l' : Line} (h : Label.handsOnTo (.line site l) (.line site' l') = true)
    (c : Claim) : c.handedOn site l site' l' = true :=
  List.all_eq_true.mp h c (mem_allClaims c)

/-- A line of a command goes on to a line to which it hands every claim on. -/
theorem NextLine.handedOn {i : Instr} {site : Site} {l : Line} {n : Label} (hmem : Label.line site l ∈ programOf i)
    (hn : NextLine (programOf i) site l n) :
    ∃ site' l', n = .line site' l' ∧ ∀ c : Claim, c.handedOn site l site' l' = true := by
  obtain ⟨hpairs, hbranches⟩ := Bool.and_eq_true_iff.mp (handsOn_programOf i)
  rcases hn with hn | ⟨l', hj, rfl⟩
  · have hpair := List.all_eq_true.mp hpairs _ (mem_zip_of_lineAfter hn)
    have hline := List.all_eq_true.mp (programOf_all_isLine i) _ (lineAfter_mem _ _ _ hn)
    cases n with
    | line site' l' => exact ⟨site', l', rfl, handedOn_of_handsOnTo hpair⟩
    | haltLoop k => cases hline
  · have hbranch := List.all_eq_true.mp hbranches _ hmem
    simp only [Label.handsOnAtBranch, hj] at hbranch
    exact ⟨.main, l', rfl, handedOn_of_handsOnTo hbranch⟩

/-- From an operation's start to its end a command stands in an envelope (R224). -/
theorem site_ne_main_of_mem {i : Instr} {site : Site} {l : Line} (hmem : Label.line site l ∈ programOf i)
    (hlo : 8 ≤ envelopeStage l) (hhi : envelopeStage l ≤ 16) : site ≠ .main := by
  have := List.all_eq_true.mp (guarded_programOf i) _ hmem
  simpa [Label.guarded, hlo, hhi] using this

/-- What SEQ is at is a line of the command that it runs. -/
theorem mem_programOf_of_at {s : State} {site : Site} {l : Line} (h : s.phaseLegal = true) (hat : s.At site l) :
    ∃ w, s.seq.cmd = some w ∧ Label.line site l ∈ programOf (decodeCmd w) := by
  obtain ⟨hphase, hstep⟩ := hat
  cases hcmd : s.seq.cmd with
  | none => simp [State.phaseLegal, hphase, hstep, hcmd] at h
  | some w => exact ⟨w, rfl, by simpa [State.phaseLegal, hphase, hstep, hcmd] using h⟩

/-! ## Between commands -/

/-- The claims that are due between commands hold. -/
def State.AtRest (s : State) : Prop := ∀ c : Claim, c.dueAtRest = true → c.Holds s

/-- The claims between commands read nothing of SEQ. -/
theorem State.AtRest.of_eq {s t : State} (hs : s.AtRest) (hflc : t.flc = s.flc) (hicc : t.icc = s.icc)
    (hgcr : t.gcr = s.gcr) (hlfb : t.lfb = s.lfb) (hflash : t.flash = s.flash) : t.AtRest := by
  intro c hc
  have hold := hs c hc
  cases c
  case opNone | icceRest | pendingRest | gcreRest | fresh | coherent =>
    simpa only [Claim.Holds, State.lfbFresh, State.linesFresh, hflc, hicc, hgcr, hlfb, hflash] using hold
  all_goals cases hc

/-- A line that may end or halt a command finds the claims between commands true. -/
theorem dueAt_of_dueAtRest {site : Site} {l : Line} (hl : envelopeStage l = 31) {c : Claim} (hc : c.dueAtRest = true) :
    c.dueAt site l = true := by
  have hne {l' : Line} (h : envelopeStage l' ≠ 31) : (l != l') = true := bne_iff_ne.mpr fun e => h (e ▸ hl)
  cases c
  case opNone | icceRest => exact Bool.and_eq_true_iff.mpr ⟨hne (by decide), hne (by decide)⟩
  case pendingRest | gcreRest => exact hne (by decide)
  case fresh => simp [Claim.dueAt, inEnvelope, hl]
  case coherent => rfl
  all_goals cases hc

theorem place_eq_none {s : State} (h : s.seq.phase ≠ .busy) : s.place = none := by
  unfold State.place
  split
  · next hp _ => exact absurd hp h
  · rfl

theorem State.Disciplined.atRest {s : State} (h : s.Disciplined) (hphase : s.seq.phase ≠ .busy) : s.AtRest := by
  intro c hc
  exact h.claims c (by rw [place_eq_none hphase]; exact hc)

/-! ## The step of SEQ -/

section Seq

variable {s t : State} {prog : List Label} {site : Site} {l : Line}

/-- A poll is no write of a read-modify-write. -/
theorem rmwReg_of_pollWaits {x : Reg × Bool} (h : pollWaits l s = some x) : rmwReg l = none := by
  cases l
  case w1 | w7 | g8 | h6 | f3 | e4 | e7 => rfl
  all_goals cases h

/-- The claims at the place where a line leaves SEQ. -/
theorem LineOutcome.claims {i : Instr} (h : LineOutcome (programOf i) site l s t) (hat : s.At site l)
    (hmem : Label.line site l ∈ programOf i) (hparams : paramsWf s.params = true)
    (hs : ∀ c : Claim, c.dueAt site l = true → c.Holds s) (c : Claim) (hc : c.due t.place = true) : c.Holds t := by
  cases h with
  | goes n hn hpoll he hphase hstep =>
    obtain ⟨site', l', rfl, hon⟩ := hn.handedOn hmem
    rw [at_iff_place.mp ⟨hphase.trans hat.1, hstep⟩] at hc
    change c.dueAt site' l' = true at hc
    have hon := hon c
    rw [Claim.handedOn, hc, Bool.not_true, Bool.false_or, Bool.or_eq_true, Bool.and_eq_true] at hon
    rcases hon with ⟨hdue, hkept⟩ | hmade
    · exact he.keeps c (by simpa using hkept) (hs c hdue)
    · exact he.makes hparams hpoll hs c hmade
  | waits r hpoll ht =>
    subst ht
    rw [show (s.afterRead r (busRead r s)).place = some (site, l) from at_iff_place.mp hat] at hc
    have hold := hs c hc
    cases c
    case read r' =>
      change (rmwReg l == some r') = true at hc
      rw [rmwReg_of_pollWaits hpoll] at hc
      cases hc
    all_goals exact hold
  | leaves hl hphase ht =>
    rw [place_eq_none hphase] at hc
    have hrest : s.AtRest := fun c hc => hs c (dueAt_of_dueAtRest hl hc)
    rw [ht]
    exact hrest.of_eq (t := { s with seq := t.seq, history := t.history }) rfl rfl rfl rfl rfl c hc

theorem State.Disciplined.seqMove (hs : s.Disciplined) (h : seqMove exec s = .next t) : t.Disciplined := by
  have hshape := ShapeFrame.seqMove h
  have hparams : paramsWf t.params = true := by rw [hshape.params]; exact hs.params
  have hlegal := hshape.phase hs.params hs.phase
  rcases seqMove_next s t h with ⟨-, rfl⟩ | ⟨hp, -, rfl⟩ | ⟨hp, w, ctx, hw, -, hrun⟩
  · exact hs
  · have hnot : s.seq.phase ≠ .busy := by simp [hp]
    refine ⟨hparams, hlegal, hs.quiet, hs.handle, hs.clock, fun c hc => ?_⟩
    rw [place_eq_none (s := goTo _ s) hnot] at hc
    exact (hs.atRest hnot).of_eq rfl rfl rfl rfl rfl c hc
  · obtain ⟨site, l, hstep, hmem, hline⟩ := runLine_next _ ctx s t hrun
    have hat : s.At site l := ⟨hp, hstep⟩
    have hframe := (performLine_next ctx _ site l s t (fun l' => jumpTarget_mem _ site l l' hmem) hline).frame
    have hout := performLine_outcome ctx _ site l s (site_ne_main_of_mem hmem) (hs.at hat) t hline
    refine ⟨hparams, hlegal, hframe.hostQueue ▸ hs.quiet, hframe.plat ▸ hs.handle, fun _ => hframe.plat ▸ hs.clock hp,
      hout.claims hat hmem hs.params (hs.at hat)⟩

end Seq

/-! ## The steps of the engines -/

section Engines

variable {s t : State}

/-- An operation is in flight only at the poll of an envelope that follows its start (R228). -/
theorem State.Disciplined.at_of_inFlight (hs : s.Disciplined) (hop : s.flc.op ≠ .none) :
    ∃ site l, s.At site l ∧ site ≠ .main ∧ (l = .g8 ∨ l = .h6) := by
  obtain hnone | ⟨site, l, hat, hl⟩ := hs.holds_or_at .opNone rfl
  · exact absurd hnone hop
  · have hpoll : l = .g8 ∨ l = .h6 := by simpa [Claim.dueAt, or_iff_not_imp_left] using hl
    obtain ⟨w, -, hmem⟩ := mem_programOf_of_at hs.phase hat
    refine ⟨site, l, hat, ?_, hpoll⟩
    rcases hpoll with rfl | rfl
    · exact site_ne_main_of_mem hmem (by decide) (by decide)
    · exact site_ne_main_of_mem hmem (by decide) (by decide)

/-- A move that leaves SEQ where it is keeps the discipline, if it keeps the claims that are due there. -/
theorem State.Disciplined.of_claims (hs : s.Disciplined) {site : Site} {l : Line} (hat : s.At site l)
    (hparams : t.params = s.params) (hseq : t.seq = s.seq) (hplat : t.plat = s.plat) (hqueue : t.hostQueue = s.hostQueue)
    (hkeeps : ∀ c : Claim, c.dueAt site l = true → c.Holds s → c.Holds t) : t.Disciplined where
  params := hparams ▸ hs.params
  phase := (phaseLegal_congr hparams (by rw [hseq]) (by rw [hseq]) (by rw [hseq])).trans hs.phase
  quiet := hqueue ▸ hs.quiet
  handle := hplat ▸ hs.handle
  clock := by rw [hplat, hseq]; exact hs.clock
  claims c hc := by
    have hat' : t.At site l := by rw [State.At, hseq]; exact hat
    rw [at_iff_place.mp hat'] at hc
    exact hkeeps c hc (hs.at hat c hc)

/-- FLCE ends an operation while the cache is off, and leaves the buffer stale where it may be (R160, R224, R250). -/
theorem State.Disciplined.flceFinish (hs : s.Disciplined) (hop : s.flc.op ≠ .none) (m : Memory) (a : Nat) :
    (flceFinish m a s).Disciplined := by
  obtain ⟨site, l, hat, hsite, hl⟩ := hs.at_of_inFlight hop
  have hstage : envelopeStage l = 15 := by rcases hl with rfl | rfl <;> rfl
  refine hs.of_claims hat rfl rfl rfl rfl fun c hc hold => ?_
  cases c
  case opNone => rfl
  case opProgram | opErase => exact .inl rfl
  case read => rcases hl with rfl | rfl <;> cases hc
  case fresh => simp [Claim.dueAt, inEnvelope, hsite, hstage] at hc
  case coherent =>
    have hoff : s.icc.en = false := hs.at hat .off (by simp [Claim.dueAt, inEnvelope, hsite, hstage])
    intro hen
    exact absurd (hoff.symm.trans hen) Bool.noConfusion
  all_goals exact hold

theorem State.Disciplined.flceStep (hs : s.Disciplined) : (flceStep s).Disciplined := by
  rcases flceStep_cases s with ⟨-, e⟩ | ⟨a, d, ok, hop, e⟩ | ⟨p, ok, hop, e⟩ <;> rw [e]
  · exact hs
  · exact hs.flceFinish (by simp [hop]) _ _
  · exact hs.flceFinish (by simp [hop]) _ _

/-- ICCE completes at a poll of `enable_icache` (R161, R202). -/
theorem State.Disciplined.icceStep (hs : s.Disciplined) (hbusy : s.icc.busy = true) : (icceStep s).Disciplined := by
  obtain hrest | ⟨site, l, hat, hl⟩ := hs.holds_or_at .icceRest rfl
  · exact absurd (hrest.symm.trans hbusy) Bool.noConfusion
  have hpoll : l = .e4 ∨ l = .e7 := by simpa [Claim.dueAt, or_iff_not_imp_left] using hl
  rw [icceStep_of_busy hbusy]
  refine hs.of_claims hat rfl rfl rfl rfl fun c hc hold => ?_
  cases c
  case icceRest | pendingRest => rfl
  case pendingBusy => exact .inl rfl
  case read => rcases hpoll with rfl | rfl <;> cases hc
  case emptied => exact (congrArg (ite _ []) hold).trans (ite_self _)
  case emptying =>
    left
    rcases hold with hempty | ⟨-, hinv⟩
    · exact (congrArg (ite _ []) hempty).trans (ite_self _)
    · exact if_pos hinv
  case coherent =>
    intro hen
    simp only [State.linesFresh]
    split
    · rfl
    · exact hold hen
  all_goals exact hold

/-- GCRE completes at the poll of `flush_line_buffer` (R162, R204). -/
theorem State.Disciplined.gcreStep (hs : s.Disciplined) (hbusy : s.gcr.busy = true) : (gcreStep s).Disciplined := by
  obtain hrest | ⟨site, l, hat, hl⟩ := hs.holds_or_at .gcreRest rfl
  · exact absurd (hrest.symm.trans hbusy) Bool.noConfusion
  obtain rfl : l = .f3 := by simpa [Claim.dueAt] using hl
  rw [gcreStep_of_busy hbusy]
  refine hs.of_claims hat rfl rfl rfl rfl fun c hc hold => ?_
  cases c
  case gcreRest | emptied => rfl
  case emptying => exact .inl rfl
  case coherent => exact fun _ => rfl
  case read => cases hc
  all_goals exact hold

end Engines

/-! ## The steps of HOST -/

section Host

variable {s t : State}

/-- A line read between commands leaves the buffer fresh (R163). -/
theorem State.AtRest.lineRead (hs : s.AtRest) (la : Nat) : (lineRead la s).2.AtRest := by
  rw [lineRead_of_lfbFresh (hs .fresh rfl)]
  intro c hc
  cases c
  case fresh => exact beq_self_eq_true _
  case opNone | icceRest | pendingRest | gcreRest | coherent => exact hs _ hc
  all_goals cases hc

/-- A fetch between commands fills the buffer and the cache with fresh lines (R164). -/
theorem State.AtRest.fetchLine (hs : s.AtRest) (a : Word) : Ensures State.AtRest (fetchLine a s) := by
  have hread := hs.lineRead (alignDown a.toNat s.params.iccLine)
  refine .ite (.fault _) (.ite (.fault _) (.ite (.ite (.next ?waits) ?enabled) (.next ?off)))
  case waits => exact hs.of_eq rfl rfl rfl rfl rfl
  case off => exact hread.of_eq rfl rfl rfl rfl rfl
  case enabled =>
    split
    · exact .next (hs.of_eq rfl rfl rfl rfl rfl)
    · rw [lineRead_of_lfbFresh (hs .fresh rfl)] at hread ⊢
      refine .next fun c hc => ?_
      have hold := hread c hc
      cases c
      case coherent =>
        intro hen
        refine List.all_eq_true.mpr fun l hl => ?_
        rcases mem_linesInsert hl with rfl | hl
        · exact beq_self_eq_true _
        · exact List.all_eq_true.mp (hold hen) l hl
      case opNone | icceRest | pendingRest | gcreRest | fresh => exact hold
      all_goals cases hc

/-- LoadRam between commands leaves the buffer fresh (R346). -/
theorem State.AtRest.loadRam (hs : s.AtRest) : (loadRam s).AtRest := by
  have hloaded : State.AtRest { s with plat := { s.plat with ramLoaded := true }, draws := s.draws + 1 } :=
    hs.of_eq rfl rfl rfl rfl rfl
  unfold Machine.loadRam
  simp only
  split
  · exact hloaded
  · split
    · next hp =>
      have hop : s.flc.op = .none := hs .opNone rfl
      simp [pend_eq_decide, hop] at hp
    · exact hloaded.lineRead _

/-- Nothing is in flight and nothing is held after a reset (R340, R348). -/
theorem resetStep_atRest (s : State) : (resetStep s).AtRest := by
  intro c hc
  cases c
  case opNone | icceRest | pendingRest | gcreRest | fresh => rfl
  case coherent => exact fun _ => rfl
  all_goals cases hc

/-- A step of HOST between commands leaves the claims between commands true. -/
theorem State.AtRest.hostStep (hs : s.AtRest) {e : HostStep} (he : e.quiet = true) :
    Ensures State.AtRest (hostStep exec e s) := by
  cases e with
  | powerOnFlc => exact .next (hs.of_eq rfl rfl rfl rfl rfl)
  | loadRam => exact .next hs.loadRam
  | createHandle => exact .ite (.fault _) (.ite (.fault _) (.next (hs.of_eq rfl rfl rfl rfl rfl)))
  | setOperand p v => cases p <;> exact .next (hs.of_eq rfl rfl rfl rfl rfl)
  | setBufIn bs => exact .next (hs.of_eq rfl rfl rfl rfl rfl)
  | issue v => exact .ite (.fault _) (.ite (.fault _) (.next (hs.of_eq rfl rfl rfl rfl rfl)))
  | readPort p => exact .need fun _ => .next (hs.of_eq rfl rfl rfl rfl rfl)
  | readBufOut => exact .need fun _ => .next (hs.of_eq rfl rfl rfl rfl rfl)
  | fetch a => exact hs.fetchLine a
  | reset => exact .next (resetStep_atRest s)
  | mmio | mem => cases he

/-- What a quiet step of HOST between commands leaves of its queue, of the platform and of SEQ. -/
structure HostOutcome (s t : State) : Prop where
  quiet : ∀ h ∈ t.hostQueue, h.quiet = true
  handle : t.plat.handleOwned = true → t.plat.flcClockOn = true
  place : t.seq.phase ≠ .busy
    ∨ t.plat.handleOwned = true ∧ t.seq.phase = .busy ∧ ∃ v, t.seq.step = firstLine (decodeCmd v)

theorem State.Disciplined.hostOutcome (hs : s.Disciplined) (hidle : s.seq.phase = .idle) (hphase : t.seq.phase = s.seq.phase)
    (hqueue : t.hostQueue = s.hostQueue) (hplat : t.plat = s.plat) : HostOutcome s t :=
  ⟨hqueue ▸ hs.quiet, hplat ▸ hs.handle, .inl (by rw [hphase, hidle]; nofun)⟩

theorem State.Disciplined.fetchOutcome (hs : s.Disciplined) (hidle : s.seq.phase = .idle) (a : Word) :
    Ensures (HostOutcome s) (fetchLine a s) := by
  obtain ⟨d, n, hread, -⟩ := lineRead_cases (alignDown a.toNat s.params.iccLine) s
  unfold fetchLine
  simp only [hread]
  refine .ite (.fault _) (.ite (.fault _) (.ite (.ite (.next ?waits) ?enabled) (.next (hs.hostOutcome hidle rfl rfl rfl))))
  case waits => exact ⟨List.forall_mem_cons.mpr ⟨rfl, hs.quiet⟩, hs.handle, .inl (by rw [hidle]; nofun)⟩
  case enabled =>
    split
    · exact .next (hs.hostOutcome hidle rfl rfl rfl)
    · exact .next (hs.hostOutcome hidle rfl rfl rfl)

theorem State.Disciplined.loadRamOutcome (hs : s.Disciplined) (hidle : s.seq.phase = .idle) : HostOutcome s (loadRam s) := by
  have hnot : s.seq.phase ≠ .busy := by rw [hidle]; nofun
  unfold loadRam
  simp only
  split
  · exact ⟨hs.quiet, hs.handle, .inl hnot⟩
  · next k _ =>
    split
    · exact ⟨hs.quiet, hs.handle, .inl hnot⟩
    · obtain ⟨d, n, hread, -⟩ := lineRead_cases (Config.flashBase + 16 * k.toNat)
        { s with plat := { s.plat with ramLoaded := true }, draws := s.draws + 1 }
      rw [hread]
      exact ⟨hs.quiet, hs.handle, .inl hnot⟩

theorem State.Disciplined.stepOutcome (hs : s.Disciplined) (hidle : s.seq.phase = .idle) {e : HostStep}
    (he : e.quiet = true) : Ensures (HostOutcome s) (Machine.hostStep exec e s) := by
  have hnot : s.seq.phase ≠ .busy := by rw [hidle]; nofun
  cases e with
  | powerOnFlc => exact .next ⟨hs.quiet, fun _ => rfl, .inl hnot⟩
  | loadRam => exact .next (hs.loadRamOutcome hidle)
  | createHandle =>
    intro t h
    simp only [Machine.hostStep, createHandle] at h
    split at h
    · cases h
    · next hclock =>
      split at h
      · cases h
      · cases h
        exact ⟨hs.quiet, fun _ => not_not.mp hclock, .inl hnot⟩
  | setOperand p v => cases p <;> exact .next (hs.hostOutcome hidle rfl rfl rfl)
  | setBufIn bs => exact .next (hs.hostOutcome hidle rfl rfl rfl)
  | issue v =>
    intro t h
    simp only [Machine.hostStep, issueCommand] at h
    split at h
    · cases h
    · split at h
      · cases h
      · next howned =>
        cases h
        exact ⟨hs.quiet, hs.handle, .inr ⟨not_not.mp howned, rfl, v, rfl⟩⟩
  | readPort p => exact .need fun _ => .next (hs.hostOutcome hidle rfl rfl rfl)
  | readBufOut => exact .need fun _ => .next (hs.hostOutcome hidle rfl rfl rfl)
  | fetch a => exact hs.fetchOutcome hidle a
  | reset => exact .next ⟨hs.quiet, nofun, .inl nofun⟩
  | mmio | mem => cases he

end Host

/-- The first line of a command asks for nothing that does not hold between commands. -/
def Label.startsAtRest : Label → Bool
  | .line site l => allClaims.all fun c => !c.dueAt site l || c.dueAtRest
  | .haltLoop _ => true

theorem startsAtRest_firstLine (i : Instr) : (firstLine i).all Label.startsAtRest = true := by
  cases i <;> rfl

/-- The claims at the place where HOST leaves SEQ. -/
theorem HostOutcome.claims {s t : State} (h : HostOutcome s t) (hrest : t.AtRest) (c : Claim)
    (hc : c.due t.place = true) : c.Holds t := by
  rcases h.place with hnot | ⟨-, hphase, v, hstep⟩
  · rw [place_eq_none hnot] at hc
    exact hrest c hc
  · have hfirst := startsAtRest_firstLine (decodeCmd v)
    rw [← hstep] at hfirst
    rcases t.place_cases with ⟨hp, -⟩ | ⟨site, l, hp⟩ <;> rw [hp] at hc
    · exact hrest c hc
    · obtain ⟨-, hl⟩ := at_iff_place.mpr hp
      rw [hl] at hfirst
      have := List.all_eq_true.mp hfirst c (mem_allClaims c)
      change c.dueAt site l = true at hc
      rw [hc] at this
      exact hrest c (by simpa using this)

theorem HostOutcome.clock {s t : State} (h : HostOutcome s t) (hphase : t.seq.phase = .busy) :
    t.plat.flcClockOn = true := by
  rcases h.place with hnot | ⟨howned, -⟩
  · exact absurd hphase hnot
  · exact h.handle howned

/-- A reset leaves the discipline of a machine at rest (R340, R347). -/
theorem State.Disciplined.resetStep {s : State} (hs : s.Disciplined) : (resetStep s).Disciplined :=
  ⟨hs.params, rfl, hs.quiet, nofun, nofun, resetStep_atRest s⟩

/-! ## Every step -/

/-- HOST takes a step other than a reset only while SEQ is Idle (R331). -/
theorem idle_of_hostReady {s : State} {e : HostStep} {rest : List HostStep} (hqueue : s.hostQueue = e :: rest)
    (he : e ≠ .reset) (h : hostReady s = true) : s.seq.phase = .idle := by
  unfold hostReady at h
  rw [hqueue] at h
  split at h
  · cases h
  · next hr => exact absurd (List.cons.inj hr).1 he
  · exact beq_iff_eq.mp (Bool.and_eq_true_iff.mp h).1
  · exact beq_iff_eq.mp h

/-- HOST's step keeps the discipline, its entry already taken off the queue. -/
theorem State.Disciplined.hostStep {s t : State} (hs : s.Disciplined) {e : HostStep} (hquiet : e.quiet = true)
    (hidle : e ≠ .reset → s.seq.phase = .idle) (h : hostStep exec e s = .next t) : t.Disciplined := by
  by_cases he : e = .reset
  · subst he
    cases h
    exact hs.resetStep
  · have hshape := ShapeFrame.hostStep he h
    have hrest := (hs.atRest (by rw [hidle he]; nofun)).hostStep hquiet t h
    have hout := hs.stepOutcome (hidle he) hquiet t h
    exact ⟨hshape.params ▸ hs.params, hshape.phase hs.params hs.phase, hout.quiet, hout.handle, hout.clock,
      hout.claims hrest⟩

/-- What is the model's own, the schedule and HOST's queue, counts for the discipline only by what stands in the queue. -/
theorem State.Disciplined.rescheduled {s : State} (hs : s.Disciplined) (sch : List Agent) {queue : List HostStep}
    (hq : ∀ h ∈ queue, h.quiet = true) : State.Disciplined { s with sched := sch, hostQueue := queue } :=
  ⟨hs.params, hs.phase, hq, hs.handle, hs.clock, fun c hc => by
    have hold := hs.claims c hc
    cases c <;> exact hold⟩

/-- Whichever agent moves, the discipline is kept. -/
theorem State.Disciplined.step {s t : State} (hs : s.Disciplined) (h : step s = .next t) : t.Disciplined := by
  obtain ⟨s', sch, rfl, h⟩ := step_cases s t h
  have hs' := hs.rescheduled sch hs.quiet
  rcases h with rfl | ⟨-, h⟩ | ⟨-, rfl⟩ | ⟨hbusy, rfl⟩ | ⟨hbusy, rfl⟩ | ⟨hready, e, rest, hqueue, h⟩
  · exact hs'
  · exact hs'.seqMove h
  · exact hs'.flceStep
  · exact hs'.icceStep hbusy
  · exact hs'.gcreStep hbusy
  · obtain ⟨hquiet, hrest⟩ := List.forall_mem_cons.mp (hqueue ▸ hs'.quiet)
    exact (hs.rescheduled sch hrest).hostStep hquiet 
      (fun he => idle_of_hostReady (s := { s with sched := sch }) hqueue he hready) h

/-- Settles O54: the flow of a command is its claims at each line, and the step of each agent keeps them. -/
theorem stepsKeepTheFlow : Obligations.StepsKeepTheFlow :=
  fun _ _ hs h => (hs.disciplined.step h).flow

/-! ## Any number of steps -/

/-- The first of some steps, and the others. -/
theorem Reaches.of_succ {k : Nat} {s t : State} (h : Reaches (k + 1) s t) : ∃ u, step s = .next u ∧ Reaches k u t := by
  simp only [Reaches, Host.Core.run] at h
  split at h
  · next u hu => exact ⟨u, hu, h⟩
  · cases h
  · cases h

theorem Reaches.flow {k : Nat} {s t : State} (hs : s.Flow) (h : Reaches k s t) : t.Flow := by
  induction k generalizing s with
  | zero =>
    cases h
    exact hs
  | succ k ih =>
    obtain ⟨u, hu, hk⟩ := h.of_succ
    exact ih (stepsKeepTheFlow s u hs hu) hk

/-- Settles O55: between commands the claims between commands hold, and the cache is coherent at every step. -/
theorem idleIsQuietAndFresh : Obligations.IdleIsQuietAndFresh := by
  intro s t k hs h
  have ht := h.flow hs
  refine ⟨fun hidle => ?_, ht.coherent⟩
  have hrest := ht.disciplined.atRest (by simp [hidle])
  exact ⟨hrest .opNone rfl, hrest .icceRest rfl, hrest .pendingRest rfl, hrest .gcreRest rfl, hrest .fresh rfl⟩

/-! ## The end of an envelope -/

theorem flceStep_seq (s : State) : (flceStep s).seq = s.seq := by
  rcases flceStep_cases s with ⟨-, e⟩ | ⟨_, _, _, -, e⟩ | ⟨_, _, -, e⟩ <;> rw [e]
  · rfl
  · rfl

/-- A step that moves SEQ from one line of a running command to another is that line's: no other agent moves SEQ but a reset,
which ends the command. -/
theorem State.Flow.lineOutcome {s t : State} {site : Site} {l : Line} (hs : s.Flow) (hat : s.At site l)
    (h : step s = .next t) (hphase : t.seq.phase = .busy) (hstep : t.seq.step ≠ s.seq.step) :
    ∃ sch prog, LineOutcome prog site l { s with sched := sch } t := by
  obtain ⟨s', sch, rfl, h⟩ := step_cases s t h
  have hs' := hs.disciplined.rescheduled sch hs.quiet
  rcases h with rfl | ⟨-, h⟩ | ⟨-, rfl⟩ | ⟨hbusy, rfl⟩ | ⟨hbusy, rfl⟩ | ⟨hready, e, rest, hqueue, h⟩
  · exact absurd rfl hstep
  · rcases seqMove_next _ t h with ⟨hp, -⟩ | ⟨hp, -⟩ | ⟨-, w, ctx, -, -, hrun⟩
    · cases hat.1.symm.trans hp
    · cases hat.1.symm.trans hp
    · obtain ⟨site', l', hstep', hmem, hline⟩ := runLine_next _ ctx _ t hrun
      cases hat.2.symm.trans hstep'
      exact ⟨sch, _, performLine_outcome ctx _ site l _ (site_ne_main_of_mem hmem) (hs'.at hat) t hline⟩
  · exact absurd (by rw [flceStep_seq]) hstep
  · exact absurd (by rw [icceStep_of_busy hbusy]) hstep
  · exact absurd (by rw [gcreStep_of_busy hbusy]) hstep
  · by_cases he : e = .reset
    · subst he
      cases h
      cases hphase
    · cases hat.1.symm.trans (idle_of_hostReady (s := { s with sched := sch }) hqueue he hready)

/-- The last poll of `enable_icache` goes on once ICCE is at rest, and changes neither the controllers nor the buffer (R202). -/
theorem LineOutcome.of_e7 {prog : List Label} {site : Site} {s t : State} (h : LineOutcome prog site .e7 s t)
    (hstep : t.seq.step ≠ s.seq.step) :
    s.icc.busy = false ∧ t.flc = s.flc ∧ t.icc = s.icc ∧ t.lfb = s.lfb ∧ t.flash = s.flash ∧ t.seq.div = s.seq.div := by
  cases h with
  | goes n _ hpoll he _ _ =>
    exact ⟨icceRest_of_poll hpoll (.inr rfl), he.flc.eq_of_ne nofun, he.icc.eq_of_ne nofun, he.lfb.eq_of_ne nofun, he.flash,
      he.div.resolve_left nofun⟩
  | waits r _ ht => exact absurd (by rw [ht]; rfl) hstep
  | leaves hl => cases hl

/-- Settles O56: what is due at E7 still holds where its poll goes on, for the poll changes only `SEQ.T`. -/
theorem envelopeEndsReadyLockedAndClean : Obligations.EnvelopeEndsReadyLockedAndClean := by
  intro s t site hs hsite hat h hphase hstep
  obtain ⟨sch, prog, hout⟩ := hs.lineOutcome hat h hphase hstep
  obtain ⟨hbusy, hflc, hicc, hlfb, hflash, hdiv⟩ := hout.of_e7 hstep
  have hclaim (c : Claim) (hc : c.dueAt site .e7 = true) : c.Holds s := hs.disciplined.at hat c hc
  rw [hflc, hicc, hdiv, State.lfbFresh, hlfb, hflash]
  have hlocked := hclaim .locked (dueAt_inEnvelope hsite (by decide) (by decide))
  have hnoError := hclaim .noError (dueAt_inEnvelope hsite (by decide) (by decide))
  have hdivisor := hclaim .divisor (dueAt_inEnvelope hsite (by decide) (by decide))
  exact ⟨hclaim .opNone rfl, hlocked, hnoError, hclaim .on rfl, hbusy, hclaim .emptied rfl, hclaim .pendingRest rfl,
    hclaim .fresh (by simp [Claim.dueAt, inEnvelope, envelopeStage]), hdivisor⟩

end Sys2Proof.Machine
end

section
/-! SUPPORT. A running command followed from line to line with its bus accesses (spec/44_write_protection.md R224; log
entry 7): the kinds of line of an envelope under the eager schedule, the steps of the engines that the lines start, and the
last line of the command. -/

namespace Sys2Proof.Machine

/-! ## Runs and bus accesses one after the other -/

theorem Reaches.trans {j k : Nat} {s t u : State} (hj : Reaches j s t) (hk : Reaches k t u) : Reaches (j + k) s u := by
  induction j generalizing s with
  | zero =>
    cases hj
    rwa [Nat.zero_add]
  | succ j ih =>
    obtain ⟨v, hv, hrest⟩ := Reaches.of_succ hj
    rw [Nat.succ_add]
    exact .cons hv (ih hrest)

/-- The newer records are the later accesses. -/
theorem busTrace_append (new old : List Event) : busTrace (new ++ old) = busTrace old ++ busTrace new := by
  simp [busTrace]

/-- Some steps of the machine lead from the label `n` in `s` to the label `n'` in `s'`, whatever `SEQ.T` and the history are,
and SEQ's bus accesses on the way are `tr`, oldest first. -/
def State.Advances (s : State) (n : Label) (s' : State) (n' : Label) (tr : List (EventKind × Word)) : Prop :=
  ∀ tv hist, ∃ k tv' new, Reaches k (s.standingAt n tv hist) (s'.standingAt n' tv' (new ++ hist)) ∧ busTrace new = tr

theorem State.Advances.trans {s t u : State} {n m l : Label} {tr tr' : List (EventKind × Word)}
    (hst : s.Advances n t m tr) (htu : t.Advances m u l tr') : s.Advances n u l (tr ++ tr') := by
  intro tv hist
  obtain ⟨j, tv₁, new₁, hj, rfl⟩ := hst tv hist
  obtain ⟨k, tv₂, new₂, hk, rfl⟩ := htu tv₁ (new₁ ++ hist)
  rw [← List.append_assoc] at hk
  exact ⟨j + k, tv₂, new₂ ++ new₁, hj.trans hk, busTrace_append new₂ new₁⟩

/-- One step of the machine that adds the records `es`. -/
theorem State.Advances.of_step {s s' : State} {n n' : Label} {tr : List (EventKind × Word)}
    (h : ∀ tv hist, ∃ tv' es,
      step (s.standingAt n tv hist) = .next (s'.standingAt n' tv' (es ++ hist)) ∧ busTrace es = tr) :
    s.Advances n s' n' tr := by
  intro tv hist
  obtain ⟨tv', es, hstep, htr⟩ := h tv hist
  exact ⟨1, tv', es, .cons hstep (.refl _), htr⟩

/-- One step of the machine that records one bus access of SEQ. -/
theorem State.Advances.of_access {s s' : State} {n n' : Label} {kind : EventKind} {a : Word}
    (h : ∀ tv hist, ∃ tv' v,
      step (s.standingAt n tv hist) = .next (s'.standingAt n' tv' (.record .seq kind a v :: hist))) :
    s.Advances n s' n' [(kind, a)] := by
  refine .of_step fun tv hist => ?_
  obtain ⟨tv', v, hstep⟩ := h tv hist
  exact ⟨tv', [.record .seq kind a v], hstep, rfl⟩

/-- Each of these labels but the last is followed by the next of them in the list of `i`. -/
def InOrder (i : Instr) : List Label → Prop
  | a :: b :: rest => lineAfter (programOf i) a = some b ∧ InOrder i (b :: rest)
  | _ => True

/-! ## The lines of a command that runs alone -/

section Lines

variable {i : Instr} {site : Site} {l l' : Line} {r : Reg} {n : Label} {s s' : State}

/-- A line that is no bus access. -/
theorem State.RunsAlone.advances_internal (h : s.RunsAlone i)
    (hexec : ∀ tv hist, exec i (s.standingAt (.line site l) tv hist) = .next (s'.standingAt n tv hist)) :
    s.Advances (.line site l) s' n [] :=
  .of_step fun tv hist => ⟨tv, [], (h.standingAt _ tv hist).step_eq.trans (hexec tv hist), rfl⟩

/-- A poll that need not wait (R120). -/
theorem State.RunsAlone.advances_poll (h : s.RunsAlone i) (hpoll : pollWaits l s = some (r, false))
    (hn : Follows i site l n) : s.Advances (.line site l) s n (regTrace s.params.regmap [(.mmioR, r)]) := by
  refine .of_access fun tv hist => ?_
  obtain ⟨-, hgoes⟩ := pollLinesWaitWithoutBound _ i site l r false (h.runs_standingAt hn tv hist)
    ((pollWaits_standingAt s _ tv hist l).trans hpoll) fun _ => h.clock
  exact ⟨_, _, (h.standingAt _ tv hist).step_eq.trans (hgoes rfl n hn)⟩

/-- The record of a write and the move to the next line, after a write that kept the parameters. -/
theorem movedTo_afterWrite_standingAt (hparams : s'.params = s.params) (m : Label) (tv : Option Word) (hist : List Event)
    (v : Word) : ((s'.standingAt m tv hist).afterWrite r v).movedTo n
      = s'.standingAt n tv (.record .seq .mmioW (s.params.regmap.addr r) v :: hist) := by
  rw [← hparams]
  rfl

/-- A line that writes the fields `w`, whose effect takes `s` to `s'`. -/
theorem State.RunsAlone.advances_write (h : s.RunsAlone i) {w : Word} (hn : Follows i site l n)
    (hline : ∀ tv hist goOn, performLine (operandsOf i (s.standingAt (.line site l) tv hist).seq) site l goOn
        (s.standingAt (.line site l) tv hist) = andThen (writeFields r w (s.standingAt (.line site l) tv hist)) goOn)
    (hwrite : ∀ n tv hist, writeReg r w (s.standingAt n tv hist) = .next (s'.standingAt n tv hist)) :
    s.Advances (.line site l) s' n (regTrace s.params.regmap [(.mmioW, r)]) := by
  refine .of_access fun tv hist => ?_
  have hparams : s'.params = s.params := (SeqFrame.writeReg (hwrite n tv hist)).params
  have hexec := exec_writeLine (h.runs_standingAt hn tv hist) hn (fun _ => h.clock) (hline tv hist) (hwrite _ tv hist)
  rw [movedTo_afterWrite_standingAt hparams] at hexec
  exact ⟨tv, _, (h.standingAt _ tv hist).step_eq.trans hexec⟩

/-- The first half of a read-modify-write (R120) leaves the register's bus word in `SEQ.T`. -/
theorem State.RunsAlone.step_rmwRead (h : s.RunsAlone i) (hread : rmwReadReg l = some r) (hn : Follows i site l n)
    (tv : Option Word) (hist : List Event) :
    step (s.standingAt (.line site l) tv hist)
      = .next (s.standingAt n (some (busRead r s))
          (.record .seq .mmioR (s.params.regmap.addr r) (busRead r s) :: hist)) := by
  have hexec := rmwReadLinesReadTheRegister _ i site l r _ (h.runs_standingAt hn tv hist) hread hn fun _ => h.clock
  rw [busRead_standingAt] at hexec
  exact (h.standingAt _ tv hist).step_eq.trans hexec

/-- The second half of a read-modify-write (R120), whose effect takes `s` to `s'`. -/
theorem State.RunsAlone.step_rmwWrite (h : s.RunsAlone i) {f : Word → Word} (hn : Follows i site l n)
    (hline : ∀ c tv hist goOn, performLine c site l goOn (s.standingAt (.line site l) tv hist)
        = andThen (writeFromT r f (s.standingAt (.line site l) tv hist)) goOn)
    (hwrite : ∀ n tv hist, writeReg r (f (readReg r (s.standingAt n tv hist))) (s.standingAt n tv hist)
      = .next (s'.standingAt n tv hist)) (hist : List Event) :
    ∃ v, step (s.standingAt (.line site l) (some (busRead r s)) hist)
      = .next (s'.standingAt n (some (busRead r s)) (.record .seq .mmioW (s.params.regmap.addr r) v :: hist)) := by
  have hparams : s'.params = s.params := (SeqFrame.writeReg (hwrite n none hist)).params
  have hexec := exec_writeFromTLine (h.runs_standingAt hn (some (busRead r s)) hist) hn (fun _ => h.clock)
    (congrArg some (busRead_standingAt s _ _ _ r).symm) (hline _ _ _) (hwrite _ _ _)
  rw [movedTo_afterWrite_standingAt hparams] at hexec
  exact ⟨_, (h.standingAt _ _ hist).step_eq.trans hexec⟩

/-- The two lines that read a register and write it back as `f` makes it (R120), whose effect takes `s` to `s'`. -/
theorem State.RunsAlone.advances_rmw (h : s.RunsAlone i) {f : Word → Word} (hread : rmwReadReg l = some r)
    (hl : Follows i site l (.line site l')) (hn : Follows i site l' n)
    (hline : ∀ c tv hist goOn, performLine c site l' goOn (s.standingAt (.line site l') tv hist)
        = andThen (writeFromT r f (s.standingAt (.line site l') tv hist)) goOn)
    (hwrite : ∀ n tv hist, writeReg r (f (readReg r (s.standingAt n tv hist))) (s.standingAt n tv hist)
      = .next (s'.standingAt n tv hist)) :
    s.Advances (.line site l) s' n (regTrace s.params.regmap [(.mmioR, r), (.mmioW, r)]) := by
  intro tv hist
  have hreads := h.step_rmwRead hread hl tv hist
  obtain ⟨v, hwrites⟩ := h.step_rmwWrite hn hline hwrite
    (.record .seq .mmioR (s.params.regmap.addr r) (busRead r s) :: hist)
  exact ⟨2, _, [.record .seq .mmioW (s.params.regmap.addr r) v,
    .record .seq .mmioR (s.params.regmap.addr r) (busRead r s)], .cons hreads (.cons hwrites (.refl _)), rfl⟩

/-- A dummy read (R204), whose line read takes `s` to `s'`. -/
theorem State.RunsAlone.advances_dummyRead (h : s.RunsAlone i) {a : Word} {d : FlashWord}
    (hl : l = .f4 ∧ a = s.params.dummyReadAddr0 ∨ l = .f5 ∧ a = s.params.dummyReadAddr1) (hn : Follows i site l n)
    (haddr : dummyAddrOk a = true) (hread : lineRead (wordBase a.toNat) s = (d, s')) :
    s.Advances (.line site l) s' n [(.memR, a)] := by
  refine .of_access fun tv hist => ?_
  have hread' : lineRead (wordBase a.toNat) (s.standingAt (.line site l) tv hist)
      = (d, s'.standingAt (.line site l) tv hist) := by
    rw [lineRead_standingAt, hread]
  have hexec := exec_dummyRead (s := s.standingAt (.line site l) tv hist) hl (h.runs_standingAt hn tv hist) hn haddr h.op
    hread'
  exact ⟨tv, _, (h.standingAt _ tv hist).step_eq.trans hexec⟩

end Lines

/-! ## The step of an engine that a line has started -/

section EngineSteps

variable {i : Instr} {s : State}

/-- ICCE at work has the next step, and completes (R161). -/
theorem State.RunsAlone.advances_icce (h : s.RunsAlone i) {c : Icc} (hbusy : c.busy = true) (n : Label) :
    { s with icc := c }.Advances n
      { s with icc := { c with
        busy := false, invPending := false, lines := if c.invPending then [] else c.lines } } n [] := by
  refine .of_step fun tv hist => ⟨tv, [.record .icce .complete 0 0], ?_, rfl⟩
  have hstep := step_of_eager (s := { s with icc := c }.standingAt n tv hist) h.sched
    (eagerAgent_icce h.noReset h.op hbusy)
  rwa [agentMove, icceStep_of_busy hbusy] at hstep

/-- GCRE at work has the next step, and completes (R162). -/
theorem State.RunsAlone.advances_gcre (h : s.RunsAlone i) (n : Label) :
    { s with gcr := { s.gcr with busy := true } }.Advances n { s with icc := { s.icc with lines := [] } } n [] := by
  refine .of_step fun tv hist => ⟨tv, [.record .gcre .complete 0 0], ?_, rfl⟩
  have hrested : { s.gcr with busy := false } = s.gcr := by rw [← h.gcre]
  have hstep := step_of_eager (s := { s with gcr := { s.gcr with busy := true } }.standingAt n tv hist) h.sched
    (eagerAgent_gcre h.noReset h.op h.icce rfl)
  rw [agentMove, gcreStep_of_busy rfl] at hstep
  simp only [State.standingAt, hrested] at hstep
  exact hstep

/-- The eager schedule gives the move to FLCE where an operation is in flight, no reset is pending and FLCE may not
stall. -/
theorem eagerAgent_flce (hr : resetPending s = false) (hop : s.flc.op ≠ .none)
    (hfair : s.params.engineMayStall = false) : eagerAgent s = some .flce := by
  simp [eagerAgent, pend_eq_decide, hr, hop, hfair]

end EngineSteps

/-- The last line (R25, R300): the command that has come from its label `n` to there completes, and its history is the bus
accesses on the way and the end of the command. -/
theorem State.Advances.completes {i : Instr} {n : Label} {s t : State} {tr : List (EventKind × Word)}
    (h : s.Advances n t (.line .main .done) tr) (hstep : s.seq.step = some n) (ht : t.RunsAlone i)
    (hmem : Label.line .main .done ∈ programOf i) :
    ∃ k new, Reaches k s { t.completed with history := new ++ s.history } ∧ busTrace new = tr := by
  have hs : s.standingAt n s.seq.t s.history = s := by rw [State.standingAt, ← hstep]
  obtain ⟨k, tv, new, hk, rfl⟩ := h s.seq.t s.history
  rw [hs] at hk
  have hlast := ht.standingAt (.line .main .done) tv (new ++ s.history)
  have hdone : exec i (t.standingAt (.line .main .done) tv (new ++ s.history))
      = .next (t.standingAt (.line .main .done) tv (new ++ s.history)).completed := by
    rw [exec_eq_performLine i .main .done _ rfl hmem]
    rfl
  exact ⟨k + 1, .cmdEnd (t.seq.cmd.getD 0) :: new, hk.trans (.cons (hlast.step_eq.trans hdone) (.refl _)),
    (busTrace_append [_] new).trans (List.append_nil _)⟩

end Sys2Proof.Machine
end

section
/-! SUPPORT. The parts of an envelope under the eager schedule (spec/44_write_protection.md R224; spec/43_cache_guard.md
R202, R204): what the lines of the two guards leave of the state, each with its bus accesses in their order. -/

namespace Sys2Proof.Machine

/-! ## What the lines leave -/

/-- `s` with the cache disabled (R200). -/
def State.cacheOff (s : State) : State := { s with icc := { s.icc with en := false } }

/-- `s` with `AF` clear (R221). -/
def State.flagCleared (s : State) : State := { s with flc := { s.flc with af := false } }

/-- `s` with a divisor in `FLC.CLKDIV` (R193). -/
def State.dividedBy (s : State) (d : Byte) : State := { s with flc := { s.flc with clkdiv := d } }

/-- `s` with a key in `UNLOCK` (R222, R223). -/
def State.keyed (s : State) (k : BitVec 4) : State := { s with flc := { s.flc with unlock := k } }

/-- `s` with no line in the cache (R162). -/
def State.cacheEmptied (s : State) : State := { s with icc := { s.icc with lines := [] } }

/-- The line of the second dummy read, of the array `m` (R204, R206). -/
def dummyLine (p : Params) (m : Memory) : CacheLine :=
  ⟨wordBase p.dummyReadAddr1.toNat, flashLine m (wordBase p.dummyReadAddr1.toNat)⟩

/-- `s` with a line in the line-fill buffer, after `k` draws (R163). -/
def State.buffered (s : State) (line : CacheLine) (k : Nat) : State := { s with lfb := some line, draws := k }

/-- `s` with ICCE at rest, no line in the cache, and the cache on or off (R161). -/
def State.cacheAtRest (s : State) (b : Bool) : State :=
  { s with icc := { en := b, lines := [], busy := false, invPending := false } }

/-- `s` with the target of an operation in `FLC.ADDR` (R241, R246). -/
def State.aimedAt (s : State) (a : Word) : State := { s with flc := { s.flc with addr := a } }

/-- `s` with the four lanes of a word in the data registers (R241). -/
def State.loaded (s : State) (d : Nat → Word) : State :=
  { s with flc := { s.flc with data0 := d 0, data1 := d 1, data2 := d 2, data3 := d 3 } }

/-- `s` with the page erase code in `ERASE_CODE` (R246). -/
def State.coded (s : State) : State := { s with flc := { s.flc with eraseCode := s.params.pageEraseCode } }

/-- `s` with an operation in flight (R35). -/
def State.operating (s : State) (op : FlceOp) : State := { s with flc := { s.flc with op := op } }

/-- `s` after an operation that leaves the array `m` (R160). -/
def State.operated (s : State) (m : Memory) : State :=
  { s with flc := { s.flc with op := .none, done := true }, flash := m, draws := s.draws + 1 }

section Lines

variable {i : Instr} {site : Site} {n : Label} {s : State}

theorem State.RunsAlone.cacheOff (h : s.RunsAlone i) : s.cacheOff.RunsAlone i := { h with }

theorem State.RunsAlone.flagCleared (h : s.RunsAlone i) : s.flagCleared.RunsAlone i := { h with }

theorem State.RunsAlone.dividedBy (h : s.RunsAlone i) (d : Byte) : (s.dividedBy d).RunsAlone i := { h with }

theorem State.RunsAlone.keyed (h : s.RunsAlone i) (k : BitVec 4) : (s.keyed k).RunsAlone i := { h with }

theorem State.RunsAlone.cacheEmptied (h : s.RunsAlone i) : s.cacheEmptied.RunsAlone i := { h with }

theorem State.RunsAlone.buffered (h : s.RunsAlone i) (line : CacheLine) (k : Nat) : (s.buffered line k).RunsAlone i :=
  { h with }

theorem State.RunsAlone.cacheAtRest (h : s.RunsAlone i) (b : Bool) : (s.cacheAtRest b).RunsAlone i :=
  { h with icce := rfl }

theorem State.RunsAlone.aimedAt (h : s.RunsAlone i) (a : Word) : (s.aimedAt a).RunsAlone i := { h with }

theorem State.RunsAlone.loaded (h : s.RunsAlone i) (d : Nat → Word) : (s.loaded d).RunsAlone i := { h with }

theorem State.RunsAlone.coded (h : s.RunsAlone i) : s.coded.RunsAlone i := { h with }

theorem State.RunsAlone.operated (h : s.RunsAlone i) (m : Memory) : (s.operated m).RunsAlone i := { h with op := rfl }

/-- FLCE at work has the next step, and completes with the array `m` (R160). -/
theorem State.RunsAlone.advances_flce (h : s.RunsAlone i) (hfair : s.params.engineMayStall = false) {op : FlceOp}
    (hop : op ≠ .none) (m : Memory) (target : Nat)
    (n : Label)
    (hfinish : ∀ tv hist, flceStep ((s.operating op).standingAt n tv hist)
      = flceFinish m target ((s.operating op).standingAt n tv hist)) :
    (s.operating op).Advances n (s.operated m) n [] := by
  refine .of_step fun tv hist => ⟨tv, [.record .flce .complete (BitVec.ofNat 32 target) 0], ?_, rfl⟩
  have hstep := step_of_eager (s := (s.operating op).standingAt n tv hist) h.sched (eagerAgent_flce h.noReset hop hfair)
  rw [agentMove, hfinish] at hstep
  exact hstep

/-! ## The guard's own lines (R193, R200, R220 to R223) -/

/-- `wait_ready` with nothing in flight (R220). -/
theorem State.RunsAlone.advances_wait (h : s.RunsAlone i) {l : Line} (hl : l = .w1 ∨ l = .w7)
    (hn : Follows i site l n) : s.Advances (.line site l) s n (regTrace s.params.regmap [(.mmioR, .flcCtrl)]) := by
  refine h.advances_poll ?_ hn
  rcases hl with rfl | rfl
  · simp [pollWaits, h.op]
  · simp [pollWaits, h.op]

/-- `disable_icache` (R200), and the first two lines of `enable_icache` (R202). -/
theorem State.RunsAlone.advances_disable (h : s.RunsAlone i) {l l' : Line}
    (hl : l = .d1 ∧ l' = .d2 ∨ l = .e1 ∧ l' = .e2) (hread : Follows i site l (.line site l'))
    (hn : Follows i site l' n) :
    s.Advances (.line site l) s.cacheOff n (regTrace s.params.regmap [(.mmioR, .iccCtrl), (.mmioW, .iccCtrl)]) := by
  refine h.advances_rmw (f := fun t => withEn t false) ?_ hread hn (fun _ _ _ _ => ?_)
    fun n tv hist => writeReg_withEn_false (h.standingAt n tv hist).icce
  · rcases hl with ⟨rfl, rfl⟩ | ⟨rfl, rfl⟩ <;> rfl
  · rcases hl with ⟨rfl, rfl⟩ | ⟨rfl, rfl⟩ <;> rfl

/-- `clear_errors` (R221). -/
theorem State.RunsAlone.advances_clear (h : s.RunsAlone i) (hread : Follows i site .c1 (.line site .c2))
    (hn : Follows i site .c2 n) :
    s.Advances (.line site .c1) s.flagCleared n (regTrace s.params.regmap [(.mmioR, .flcIntr), (.mmioW, .flcIntr)]) :=
  h.advances_rmw rfl hread hn (fun _ _ _ _ => rfl) fun n tv hist => writeReg_withAfClear (h.standingAt n tv hist).op

/-- Line L2 writes the divisor in `SEQ.DIV` (R193). -/
theorem performLine_l2 {d : Byte} {c : Ctx} {goOn : State → Res State} (hdiv : s.seq.div = some d) :
    performLine c site .l2 goOn s = andThen (writeFields .flcClkdiv (0#24 ++ d) s) goOn := by
  rw [performLine, hdiv, needWork_some, setWidth_eq_append]

theorem State.RunsAlone.advances_divide (h : s.RunsAlone i) {d : Byte} (hdiv : s.seq.div = some d)
    (hn : Follows i site .l2 n) :
    s.Advances (.line site .l2) (s.dividedBy d) n (regTrace s.params.regmap [(.mmioW, .flcClkdiv)]) :=
  h.advances_write hn (fun _ _ _ => performLine_l2 hdiv) fun n tv hist => writeReg_divisor (h.standingAt n tv hist).op d

/-- `unlock` (R222). -/
theorem State.RunsAlone.advances_unlock (h : s.RunsAlone i) (hread : Follows i site .u1 (.line site .u2))
    (hn : Follows i site .u2 n) :
    s.Advances (.line site .u1) (s.keyed s.params.unlockKey) n
      (regTrace s.params.regmap [(.mmioR, .flcCtrl), (.mmioW, .flcCtrl)]) :=
  h.advances_rmw (f := fun t => withUnlock t s.params.unlockKey) rfl hread hn (fun _ _ _ _ => rfl)
    fun n tv hist => writeReg_withUnlock (h.standingAt n tv hist).op _

/-- `lock` (R223). -/
theorem State.RunsAlone.advances_lock (h : s.RunsAlone i) (hread : Follows i site .k1 (.line site .k2))
    (hn : Follows i site .k2 n) :
    s.Advances (.line site .k1) (s.keyed s.params.lockKey) n
      (regTrace s.params.regmap [(.mmioR, .flcCtrl), (.mmioW, .flcCtrl)]) :=
  h.advances_rmw (f := fun t => withUnlock t s.params.lockKey) rfl hread hn (fun _ _ _ _ => rfl)
    fun n tv hist => writeReg_withUnlock (h.standingAt n tv hist).op _

/-! ## The envelope before its operation (R224, steps 1 to 5) -/

/-- `s` with the cache disabled, `AF` clear, the divisor `d` and the controller unlocked. -/
def State.opened (s : State) (d : Byte) : State := ((s.cacheOff.flagCleared).dividedBy d).keyed s.params.unlockKey

theorem State.RunsAlone.opened (h : s.RunsAlone i) (d : Byte) : (s.opened d).RunsAlone i :=
  ((h.cacheOff.flagCleared).dividedBy d).keyed _

theorem State.RunsAlone.advances_opened (h : s.RunsAlone i) {d : Byte} (hdiv : s.seq.div = some d)
    (hn : InOrder i (atSite site [.w1, .d1, .d2, .c1, .c2, .l2, .u1, .u2] ++ [n])) :
    s.Advances (.line site .w1) (s.opened d) n (envelopeHead s.params.regmap) := by
  obtain ⟨hw1, hd1, hd2, hc1, hc2, hl2, hu1, hu2, -⟩ := hn
  have hready := h.advances_wait (.inl rfl) hw1
  have hdisabled := h.advances_disable (.inl ⟨rfl, rfl⟩) hd1 hd2
  have hcleared := h.cacheOff.advances_clear hc1 hc2
  have hdivided := h.cacheOff.flagCleared.advances_divide hdiv hl2
  have hunlocked := (h.cacheOff.flagCleared.dividedBy d).advances_unlock hu1 hu2
  exact hready.trans (hdisabled.trans (hcleared.trans (hdivided.trans hunlocked)))

/-! ## The lines of the cache (R202, R204) -/

/-- Lines F1 to F3: GCRE empties the cache (R204, R162). -/
theorem State.RunsAlone.advances_emptyCache (h : s.RunsAlone i) (hf1 : Follows i site .f1 (.line site .f2))
    (hf2 : Follows i site .f2 (.line site .f3)) (hf3 : Follows i site .f3 n) :
    s.Advances (.line site .f1) s.cacheEmptied n
      (regTrace s.params.regmap [(.mmioR, .gcrSysctrl), (.mmioW, .gcrSysctrl), (.mmioR, .gcrSysctrl)]) := by
  have hstarted := h.advances_rmw (s' := { s with gcr := { s.gcr with busy := true } }) (f := withFlush) rfl hf1 hf2
    (fun _ _ _ _ => rfl) fun _ _ _ => writeReg_withFlush
  have hpolled := h.cacheEmptied.advances_poll (l := .f3) (congrArg (fun b => some (Reg.gcrSysctrl, b)) h.gcre) hf3
  exact hstarted.trans ((h.advances_gcre _).trans hpolled)

/-- Lines F4 and F5: the first dummy read puts some line of its own into the buffer, whatever the buffer held, and the
second finds that other line there and reads its own from the array (R204, R206). -/
theorem State.RunsAlone.advances_dummyReads (h : s.RunsAlone i) (hp : paramsWf s.params = true)
    (hf4 : Follows i site .f4 (.line site .f5)) (hf5 : Follows i site .f5 n) :
    ∃ k, s.Advances (.line site .f4) (s.buffered (dummyLine s.params s.flash) k) n
      [(.memR, s.params.dummyReadAddr0), (.memR, s.params.dummyReadAddr1)] := by
  obtain ⟨-, -, haddr0, haddr1, hlines, -⟩ := (paramsWf_iff _).mp hp
  obtain ⟨d, k, hread0, -⟩ := lineRead_cases (wordBase s.params.dummyReadAddr0.toNat) s
  have hread1 := lineRead_fresh (wordBase s.params.dummyReadAddr1.toNat)
    (s.buffered ⟨wordBase s.params.dummyReadAddr0.toNat, d⟩ k) <| by
      rintro line ⟨⟩ hbase
      exact absurd hbase hlines
  have hfirst := h.advances_dummyRead (.inl ⟨rfl, rfl⟩) hf4 haddr0 hread0
  have hsecond := (h.buffered ⟨wordBase s.params.dummyReadAddr0.toNat, d⟩ k).advances_dummyRead (.inr ⟨rfl, rfl⟩) hf5
    haddr1 hread1
  exact ⟨k, hfirst.trans hsecond⟩

/-- Lines E3 and E4: ICCE invalidates a cache that is off (R153, R161). -/
theorem State.RunsAlone.advances_invalidate (h : s.RunsAlone i) (he3 : Follows i site .e3 (.line site .e4))
    (he4 : Follows i site .e4 n) :
    s.cacheOff.Advances (.line site .e3) (s.cacheAtRest false) n
      (regTrace s.params.regmap [(.mmioW, .iccInvalidate), (.mmioR, .iccCtrl)]) := by
  have hstarted := h.cacheOff.advances_write
    (s' := { s with icc := { s.icc with en := false, busy := true, invPending := true } }) (w := 1) he3
    (fun _ _ _ => rfl) fun n tv hist => writeReg_iccInvalidate (h.cacheOff.standingAt n tv hist).icce 1
  have hdone := h.advances_icce (c := { s.icc with en := false, busy := true, invPending := true }) rfl (.line site .e4)
  have hpolled := (h.cacheAtRest false).advances_poll (l := .e4) rfl he4
  exact hstarted.trans (hdone.trans hpolled)

/-- Lines E5 to E7: the empty cache comes on, and ICCE has nothing to do (R202, R161). -/
theorem State.RunsAlone.advances_enable (h : s.RunsAlone i) (he5 : Follows i site .e5 (.line site .e6))
    (he6 : Follows i site .e6 (.line site .e7)) (he7 : Follows i site .e7 n) :
    (s.cacheAtRest false).Advances (.line site .e5) (s.cacheAtRest true) n
      (regTrace s.params.regmap [(.mmioR, .iccCtrl), (.mmioW, .iccCtrl), (.mmioR, .iccCtrl)]) := by
  have hstarted := (h.cacheAtRest false).advances_rmw
    (s' := { s with icc := { en := true, lines := [], busy := true, invPending := false } }) (f := fun t => withEn t true)
    rfl he5 he6 (fun _ _ _ _ => rfl) fun _ _ _ => writeReg_withEn rfl true
  have hdone := h.advances_icce (c := { en := true, lines := [], busy := true, invPending := false }) rfl (.line site .e7)
  have hpolled := (h.cacheAtRest true).advances_poll (l := .e7) rfl he7
  exact hstarted.trans (hdone.trans hpolled)

/-! ## The envelope after its operation (R224, steps 7 to 10) -/

/-- `s` locked, with the second dummy line in the buffer after `k` draws, and the cache enabled and empty. -/
def State.closed (s : State) (k : Nat) : State :=
  ((s.keyed s.params.lockKey).buffered (dummyLine s.params s.flash) k).cacheAtRest true

theorem State.RunsAlone.closed (h : s.RunsAlone i) (k : Nat) : (s.closed k).RunsAlone i :=
  ((h.keyed _).buffered _ k).cacheAtRest true

theorem State.RunsAlone.advances_closed (h : s.RunsAlone i) (hp : paramsWf s.params = true)
    (hn : InOrder i (atSite site ([.w7, .k1, .k2] ++ flushLineBuffer ++ enableIcache) ++ [n])) :
    ∃ k, s.Advances (.line site .w7) (s.closed k) n (envelopeTail s.params) := by
  obtain ⟨hw7, hk1, hk2, hf1, hf2, hf3, hf4, hf5, he1, he2, he3, he4, he5, he6, he7, -⟩ := hn
  have hlock := h.keyed s.params.lockKey
  have hempty := hlock.cacheEmptied
  obtain ⟨k, hread⟩ := hempty.advances_dummyReads hp hf4 hf5
  have hfull := hempty.buffered (dummyLine s.params s.flash) k
  have hready := h.advances_wait (.inr rfl) hw7
  have hlocked := h.advances_lock hk1 hk2
  have hemptied := hlock.advances_emptyCache hf1 hf2 hf3
  have hdisabled := hfull.advances_disable (.inr ⟨rfl, rfl⟩) he1 he2
  have hinvalidated := hfull.advances_invalidate he3 he4
  have henabled := hfull.advances_enable he5 he6 he7
  have hcached := hdisabled.trans (hinvalidated.trans henabled)
  exact ⟨k, hready.trans (hlocked.trans (hemptied.trans (hread.trans hcached)))⟩

end Lines
end Sys2Proof.Machine
end

section
/-! SUPPORT. The operation of an envelope under the eager schedule (spec/45_program_erase.md R241, R246;
spec/40_register_surface.md R147, R148, R160): the word program and the page erase from their first line to the poll that
follows their completion, with their bus accesses and the array they leave. -/

namespace Sys2Proof.Machine

section Lines

variable {i : Instr} {site : Site} {n : Label} {s : State}

/-- From `s` to `u` an operation of an envelope has run: what it leaves as it was, and the controller at rest (R241, R246,
R160). -/
structure State.Operates (s u : State) : Prop where
  seq : u.seq = s.seq
  params : u.params = s.params
  plat : u.plat = s.plat
  gcr : u.gcr = s.gcr
  op : u.flc.op = .none
  doneFlag : u.flc.done = true
  af : u.flc.af = s.flc.af
  clkdiv : u.flc.clkdiv = s.flc.clkdiv
  lve : u.flc.lve = s.flc.lve

/-! ## `word_program` (R241) -/

/-- The word program of `i` at `site` is invoked with the address `a` and the lanes `d`, at whatever line SEQ stands. -/
def State.GivesWord (s : State) (i : Instr) (site : Site) (a : Word) (d : Nat → Word) : Prop :=
  ∀ u : State, (∃ step t, u.seq = { s.seq with step := step, t := t }) →
    wordAddress (operandsOf i u.seq) site u = .next a ∧ ∀ k < 4, wordLane (operandsOf i u.seq) site k u = .next (d k)

/-- Line G1 writes the address that the program is invoked with. -/
theorem performLine_g1 {c : Ctx} {goOn : State → Res State} {a : Word} (ha : wordAddress c site s = .next a) :
    performLine c site .g1 goOn s = andThen (writeFields .flcAddr a s) goOn := by
  rw [performLine, ha, andThen_next]

/-- A lane's line writes the lane to its data register. -/
theorem State.RunsAlone.advances_lane (h : s.RunsAlone i) {s' : State} {l : Line} {r : Reg} {k : Nat} {v : Word}
    (hline : ∀ c u goOn, performLine c site l goOn u = andThen (laneLine c site k r u) goOn) (hn : Follows i site l n)
    (hv : ∀ tv hist, wordLane (operandsOf i (s.standingAt (.line site l) tv hist).seq) site k
      (s.standingAt (.line site l) tv hist) = .next v)
    (hwrite : ∀ n tv hist, writeReg r v (s.standingAt n tv hist)
      = whenReady (s.standingAt n tv hist) (.next (s'.standingAt n tv hist))) :
    s.Advances (.line site l) s' n (regTrace s.params.regmap [(.mmioW, r)]) := by
  refine h.advances_write (w := v) hn (fun tv hist goOn => ?_) fun n tv hist => ?_
  · rw [hline, laneLine, hv, andThen_next]
  · exact (hwrite n tv hist).trans (whenReady_of_none _ _ (h.standingAt n tv hist).op)

/-- Lines G2 to G5: the four lanes of the word. -/
theorem State.RunsAlone.advances_lanes (h : s.RunsAlone i) {a : Word} {d : Nat → Word} (hword : s.GivesWord i site a d)
    (hg2 : Follows i site .g2 (.line site .g3)) (hg3 : Follows i site .g3 (.line site .g4))
    (hg4 : Follows i site .g4 (.line site .g5)) (hg5 : Follows i site .g5 n) :
    s.Advances (.line site .g2) (s.loaded d) n (regTrace s.params.regmap
      [(.mmioW, .flcData0), (.mmioW, .flcData1), (.mmioW, .flcData2), (.mmioW, .flcData3)]) := by
  have h1 := h.withControllers (f := { s.flc with data0 := d 0 }) h.op h.icce
  have h2 := h.withControllers (f := { s.flc with data0 := d 0, data1 := d 1 }) h.op h.icce
  have h3 := h.withControllers (f := { s.flc with data0 := d 0, data1 := d 1, data2 := d 2 }) h.op h.icce
  have hlane0 := h.advances_lane (s' := { s with flc := { s.flc with data0 := d 0 } }) (fun _ _ _ => rfl) hg2
    (fun _ _ => (hword _ ⟨_, _, rfl⟩).2 0 (by decide)) fun _ _ _ => rfl
  have hlane1 := h1.advances_lane (s' := { s with flc := { s.flc with data0 := d 0, data1 := d 1 } })
    (fun _ _ _ => rfl) hg3 (fun _ _ => (hword _ ⟨_, _, rfl⟩).2 1 (by decide)) fun _ _ _ => rfl
  have hlane2 := h2.advances_lane (s' := { s with flc := { s.flc with data0 := d 0, data1 := d 1, data2 := d 2 } })
    (fun _ _ _ => rfl) hg4 (fun _ _ => (hword _ ⟨_, _, rfl⟩).2 2 (by decide)) fun _ _ _ => rfl
  have hlane3 := h3.advances_lane (s' := s.loaded d) (fun _ _ _ => rfl) hg5
    (fun _ _ => (hword _ ⟨_, _, rfl⟩).2 3 (by decide)) fun _ _ _ => rfl
  exact hlane0.trans (hlane1.trans (hlane2.trans hlane3))

/-- The program that FLCE is given when it starts in `s` (R147). -/
def State.opProgram (s : State) : FlceOp :=
  .program s.flc.addr (ofLanes s.flc.data0 s.flc.data1 s.flc.data2 s.flc.data3) (clkOk s.params s.flc)

/-- The array when the program that starts in `s` completes (R165). -/
def State.flashProgrammed (s : State) : Memory :=
  programFlash s.flash s.flc.addr.toNat (ofLanes s.flc.data0 s.flc.data1 s.flc.data2 s.flc.data3) (clkOk s.params s.flc)
    s.draws

/-- A program start with the key in the lock and a target that is an aligned word of flash (R147). -/
theorem programStart_of_legal {key : BitVec 4} (hkey : key = s.params.unlockKey) (halign : s.flc.addr.toNat % 16 = 0)
    (hlow : 0x10000000 ≤ s.flc.addr.toNat) (hhigh : s.flc.addr.toNat + 16 ≤ 0x10080000) :
    programStart key s = .next (s.operating s.opProgram) :=
  (if_neg (not_not.mpr hkey)).trans ((if_neg (not_not.mpr halign)).trans (if_neg (not_not.mpr ⟨hlow, hhigh⟩)))

/-- Lines G6 to G8 where the start is accepted: FLCE programs the word (R241, R147, R160). -/
theorem State.RunsAlone.advances_program (h : s.RunsAlone i) (hfair : s.params.engineMayStall = false)
    (hkey : s.flc.unlock = s.params.unlockKey) (halign : s.flc.addr.toNat % 16 = 0)
    (hlow : 0x10000000 ≤ s.flc.addr.toNat) (hhigh : s.flc.addr.toNat + 16 ≤ 0x10080000)
    (hg6 : Follows i site .g6 (.line site .g7)) (hg7 : Follows i site .g7 (.line site .g8)) (hg8 : Follows i site .g8 n) :
    s.Advances (.line site .g6) (s.operated s.flashProgrammed) n
      (regTrace s.params.regmap [(.mmioR, .flcCtrl), (.mmioW, .flcCtrl), (.mmioR, .flcCtrl)]) := by
  have hstarted := h.advances_rmw (s' := s.operating s.opProgram) (f := withWr) rfl hg6 hg7 (fun _ _ _ _ => rfl)
    fun n tv hist => (writeReg_withWr (h.standingAt n tv hist).op).trans
      (programStart_of_legal (s := s.standingAt n tv hist) hkey halign hlow hhigh)
  have hdone := h.advances_flce hfair (op := s.opProgram) nofun s.flashProgrammed s.flc.addr.toNat (.line site .g8)
    fun tv hist => flceStep_of_program (s := (s.operating s.opProgram).standingAt _ tv hist) rfl
  exact hstarted.trans (hdone.trans ((h.operated _).advances_poll (l := .g8) rfl hg8))

/-- `s` with the word at `a` programmed with the lanes `d` (R241, R165). -/
def State.programmed (s : State) (a : Word) (d : Nat → Word) : State :=
  ((s.aimedAt a).loaded d).operated ((s.aimedAt a).loaded d).flashProgrammed

theorem State.operates_programmed (s : State) (a : Word) (d : Nat → Word) : s.Operates (s.programmed a d) := by
  constructor <;> rfl

theorem flash_programmed (s : State) (a : Word) (d : Nat → Word) :
    (s.programmed a d).flash = programFlash s.flash a.toNat (ofLanes (d 0) (d 1) (d 2) (d 3))
      (clkOk s.params ((s.aimedAt a).loaded d).flc) s.draws := by
  simp only [State.programmed, State.operated, State.flashProgrammed, State.loaded, State.aimedAt]

theorem wf_programmed (hwf : Memory.wf s.flash = true) (a : Word) (d : Nat → Word) :
    Memory.wf (s.programmed a d).flash = true := by
  rw [flash_programmed]
  exact wf_programFlash _ hwf _ _ _ _

/-- A byte outside the word (R165). -/
theorem memRead_programmed_of_outside (hwf : Memory.wf s.flash = true) {a : Word} {x : Nat}
    (hx : ¬ (a.toNat ≤ x ∧ x < a.toNat + 16)) (d : Nat → Word) :
    memRead (s.programmed a d).flash x = memRead s.flash x := by
  rw [flash_programmed, memRead_programFlash _ hwf, if_neg hx]

/-- A byte of the word, where the divisor is right (R165). -/
theorem memRead_programmed (hwf : Memory.wf s.flash = true) (hright : divisorRight s.params s.flc.clkdiv) {j : Nat}
    (hj : j < 16) (a : Word) (d : Nat → Word) : memRead (s.programmed a d).flash (a.toNat + j)
      = memRead s.flash (a.toNat + j) &&& flashByte (ofLanes (d 0) (d 1) (d 2) (d 3)) j := by
  have hclk : clkOk s.params ((s.aimedAt a).loaded d).flc = true := (clkOk_iff _ _).mpr hright
  rw [flash_programmed, memRead_programFlash _ hwf, if_pos (by omega), hclk, Nat.add_sub_cancel_left, programByte,
    if_pos rfl]

theorem State.RunsAlone.programmed (h : s.RunsAlone i) (a : Word) (d : Nat → Word) : (s.programmed a d).RunsAlone i :=
  ((h.aimedAt a).loaded d).operated _

theorem State.RunsAlone.advances_programmed (h : s.RunsAlone i) (hfair : s.params.engineMayStall = false) {a : Word}
    {d : Nat → Word} (hword : s.GivesWord i site a d) (hkey : s.flc.unlock = s.params.unlockKey)
    (halign : a.toNat % 16 = 0) (hlow : 0x10000000 ≤ a.toNat) (hhigh : a.toNat + 16 ≤ 0x10080000)
    (hn : InOrder i (atSite site wordProgram ++ [n])) :
    s.Advances (.line site .g1) (s.programmed a d) n (wordProgramTrace s.params.regmap) := by
  obtain ⟨hg1, hg2, hg3, hg4, hg5, hg6, hg7, hg8, -⟩ := hn
  have haimed := h.advances_write (s' := s.aimedAt a) hg1
    (fun tv hist goOn => performLine_g1 (hword (s.standingAt (.line site .g1) tv hist) ⟨_, _, rfl⟩).1)
    fun n tv hist => whenReady_of_none _ _ (h.standingAt n tv hist).op
  have hlanes := (h.aimedAt a).advances_lanes (d := d) hword hg2 hg3 hg4 hg5
  have hprogram := ((h.aimedAt a).loaded d).advances_program hfair hkey halign hlow hhigh hg6 hg7 hg8
  exact haimed.trans (hlanes.trans hprogram)

/-! ## `erase_op` (R246) -/

/-- The erase that FLCE is given when it starts in `s` (R148). -/
def State.opErase (s : State) : FlceOp := .erasePage (pageBase s.flc.addr.toNat) (clkOk s.params s.flc)

/-- The array when the erase that starts in `s` completes (R166). -/
def State.flashErased (s : State) : Memory :=
  eraseFlash s.flash (pageBase s.flc.addr.toNat) (clkOk s.params s.flc) s.draws

/-- An erase start with the key in the lock, the page erase code, and a target in flash (R148). -/
theorem eraseStart_of_legal {key : BitVec 4} {code : Byte} (hkey : key = s.params.unlockKey)
    (hcode : code = s.params.pageEraseCode) (hlow : 0x10000000 ≤ s.flc.addr.toNat)
    (hhigh : s.flc.addr.toNat < 0x10080000) :
    eraseStart key code s = .next (s.operating s.opErase) :=
  (if_neg (not_not.mpr hkey)).trans ((if_neg (not_not.mpr hcode)).trans (if_neg (not_not.mpr ⟨hlow, hhigh⟩)))

/-- Lines H4 to H6 where the start is accepted: FLCE erases the page (R246, R148, R160). -/
theorem State.RunsAlone.advances_erase (h : s.RunsAlone i) (hfair : s.params.engineMayStall = false)
    (hkey : s.flc.unlock = s.params.unlockKey) (hcode : s.flc.eraseCode = s.params.pageEraseCode)
    (hlow : 0x10000000 ≤ s.flc.addr.toNat) (hhigh : s.flc.addr.toNat < 0x10080000)
    (hh4 : Follows i site .h4 (.line site .h5)) (hh5 : Follows i site .h5 (.line site .h6)) (hh6 : Follows i site .h6 n) :
    s.Advances (.line site .h4) (s.operated s.flashErased) n
      (regTrace s.params.regmap [(.mmioR, .flcCtrl), (.mmioW, .flcCtrl), (.mmioR, .flcCtrl)]) := by
  have hstarted := h.advances_rmw (s' := s.operating s.opErase) (f := withPge) rfl hh4 hh5 (fun _ _ _ _ => rfl)
    fun n tv hist => (writeReg_withPge (h.standingAt n tv hist).op).trans
      (eraseStart_of_legal (s := s.standingAt n tv hist) hkey hcode hlow hhigh)
  have hdone := h.advances_flce hfair (op := s.opErase) nofun s.flashErased (pageBase s.flc.addr.toNat)
    (.line site .h6) fun tv hist => flceStep_of_erasePage (s := (s.operating s.opErase).standingAt _ tv hist) rfl
  exact hstarted.trans (hdone.trans ((h.operated _).advances_poll (l := .h6) rfl hh6))

/-- `s` with the page that holds `a` erased (R246, R166). -/
def State.erased (s : State) (a : Word) : State :=
  (s.aimedAt a).coded.operated (s.aimedAt a).coded.flashErased

theorem State.operates_erased (s : State) (a : Word) : s.Operates (s.erased a) := by
  constructor <;> rfl

theorem flash_erased (s : State) (a : Word) : (s.erased a).flash
    = eraseFlash s.flash (pageBase a.toNat) (clkOk s.params (s.aimedAt a).coded.flc) s.draws := by
  simp only [State.erased, State.operated, State.flashErased, State.coded, State.aimedAt]

theorem wf_erased (hwf : Memory.wf s.flash = true) (a : Word) : Memory.wf (s.erased a).flash = true := by
  rw [flash_erased]
  exact wf_eraseFlash _ hwf _ _ _

/-- A byte outside the page (R166). -/
theorem memRead_erased_of_outside (hwf : Memory.wf s.flash = true) {a : Word} {x : Nat}
    (hx : ¬ (pageBase a.toNat ≤ x ∧ x < pageBase a.toNat + Config.pageSize)) :
    memRead (s.erased a).flash x = memRead s.flash x := by
  rw [flash_erased, memRead_eraseFlash _ hwf, if_neg hx]

/-- A byte of the page, where the divisor is right (R166). -/
theorem memRead_erased (hwf : Memory.wf s.flash = true) (hright : divisorRight s.params s.flc.clkdiv) {a : Word} {x : Nat}
    (hx : pageBase a.toNat ≤ x ∧ x < pageBase a.toNat + Config.pageSize) : memRead (s.erased a).flash x = 0xFF := by
  have hclk : clkOk s.params (s.aimedAt a).coded.flc = true := (clkOk_iff _ _).mpr hright
  rw [flash_erased, memRead_eraseFlash _ hwf, if_pos hx, hclk, if_pos rfl]

theorem State.RunsAlone.erased (h : s.RunsAlone i) (a : Word) : (s.erased a).RunsAlone i :=
  (h.aimedAt a).coded.operated _

/-- Line H1 writes the address operand. -/
theorem performLine_h1 {c : Ctx} {goOn : State → Res State} {a : Word} (ha : c.addr = some a) :
    performLine c site .h1 goOn s = andThen (writeFields .flcAddr a s) goOn := by
  rw [performLine, ha, need_some]

theorem State.RunsAlone.advances_erased (h : s.RunsAlone i) (hfair : s.params.engineMayStall = false) {a : Word}
    (haddr : ∀ step t, (operandsOf i { s.seq with step := step, t := t }).addr = some a)
    (hkey : s.flc.unlock = s.params.unlockKey) (hlow : 0x10000000 ≤ a.toNat) (hhigh : a.toNat < 0x10080000)
    (hn : InOrder i (atSite site eraseOp ++ [n])) :
    s.Advances (.line site .h1) (s.erased a) n (eraseTrace s.params.regmap) := by
  obtain ⟨hh1, hh2, hh3, hh4, hh5, hh6, -⟩ := hn
  have haimed := h.advances_write (s' := s.aimedAt a) hh1 (fun tv hist goOn => performLine_h1 (haddr _ _))
    fun n tv hist => whenReady_of_none _ _ (h.standingAt n tv hist).op
  have hcoded := (h.aimedAt a).advances_rmw (s' := (s.aimedAt a).coded)
    (f := fun t => withEraseCode t s.params.pageEraseCode) rfl hh2 hh3 (fun _ _ _ _ => rfl)
    fun n tv hist => writeReg_withEraseCode ((h.aimedAt a).standingAt n tv hist).op _
  have herase := (h.aimedAt a).coded.advances_erase hfair hkey rfl hlow hhigh hh4 hh5 hh6
  exact haimed.trans (hcoded.trans herase)

end Lines
end Sys2Proof.Machine
end

section
/-! SUPPORT. WRITE_WORD and ERASE_PAGE from their issue to their end under the eager schedule (spec/45_program_erase.md
R240, R242, R247): their checks, and one envelope round their operation. -/

namespace Sys2Proof.Machine

/-! ## The checks of a mutating command (R240) -/

/-- `s` with the divisor that the clock check leaves in `SEQ.DIV` (R190). -/
def State.divisorTaken (s : State) (d : Byte) : State := { s with seq := { s.seq with div := some d } }

/-- The range check, the clock check and the divisor, where both checks pass. -/
theorem State.RunsAlone.advances_checked {i : Instr} {n : Label} {s : State} (h : s.RunsAlone i) {a f : Word} {d : Byte}
    {len : Nat} (hlen : 0 < len)
    (haddr : ∀ q, (operandsOf i q).addr = q.opa) (hend : ∀ q, (operandsOf i q).rangeEnd = q.opa.map (·.toNat + len))
    (hfreq : ∀ q, (operandsOf i q).freq = q.opf)
    (hopa : s.seq.opa = some a) (hopf : s.seq.opf = some f) (hdiv : clkdivOf f = some d)
    (hrange : 0x10000000 ≤ a.toNat ∧ a.toNat + len ≤ 0x10080000)
    (hn : InOrder i [.line .main .checkRange, .line .main .checkClock, .line .main .setDiv, n]) :
    s.Advances (.line .main .checkRange) (s.divisorTaken d) n [] := by
  obtain ⟨hcheckRange, hcheckClock, hsetDiv, -⟩ := hn
  have hf (n : Label) (tv : Option Word) (hist : List Event) :
      (operandsOf i (s.standingAt n tv hist).seq).freq = some f := (hfreq _).trans hopf
  have hranged := h.advances_internal (s' := s) (n := .line .main .checkClock) fun tv hist => by
    have hexec := exec_checkRange_of_pos hlen (h.runs_standingAt hcheckRange tv hist) hopa (haddr _) (hend _) hcheckRange
    rwa [if_pos hrange] at hexec
  have hclocked := h.advances_internal (s' := s) (n := .line .main .setDiv) fun tv hist =>
    exec_checkClock_of_some (h.runs_standingAt hcheckClock tv hist) (hf _ tv hist) hdiv hcheckClock
  have htaken := h.advances_internal (s' := s.divisorTaken d) fun tv hist =>
    exec_setDiv (h.runs_standingAt hsetDiv tv hist) (hf _ tv hist) hdiv hsetDiv
  exact hranged.trans (hclocked.trans htaken)

/-! ## A command that is checks and one envelope (R242, R247) -/

section OneEnvelope

variable {i : Instr} {site : Site} {l : Line} {first : Label} {s u : State} {d : Byte} {tr : List (EventKind × Word)}

/-- What the envelope leaves of the sequencer at the command's end. -/
theorem seqDone_of_closed (hu : ((s.divisorTaken d).opened d).Operates u) (k : Nat) (hist : List Event) :
    SeqDone s { (u.closed k).completed with history := hist } 0
      ∧ PortKept s { (u.closed k).completed with history := hist } := by
  have hq : ({ (u.closed k).completed with history := hist } : State).seq = s.completed.seq := by
    change u.completed.seq = s.completed.seq
    simp only [State.completed, hu.seq]
    rfl
  constructor
  · constructor <;> rw [hq] <;> rfl
  · constructor <;> rw [hq] <;> rfl

/-- What the envelope leaves beside the array and the sequencer (R227, R307). -/
theorem guardDone_of_closed (hu : ((s.divisorTaken d).opened d).Operates u) (k : Nat) (hist : List Event) :
    GuardDone s { (u.closed k).completed with history := hist } d where
  op := hu.op
  unlock := congrArg Params.lockKey hu.params
  af := hu.af
  doneFlag := hu.doneFlag
  clkdiv := hu.clkdiv
  lve := hu.lve
  icc := rfl
  gcr := hu.gcr
  lfb := congrArg (fun p => some (dummyLine p u.flash)) hu.params
  plat := hu.plat
  params := hu.params

/-- A command from its issue to its end: the checks, the head of the envelope, the operation, which leaves `u`, and the
tail. -/
theorem State.Launched.completes_envelope (h : s.Launched i) (hfirst : firstLine i = some first)
    (hchecks : s.Advances first (s.divisorTaken d) (.line site .w1) [])
    (hhead : InOrder i (atSite site [.w1, .d1, .d2, .c1, .c2, .l2, .u1, .u2] ++ [.line site l]))
    (hop : ((s.divisorTaken d).opened d).Advances (.line site l) u (.line site .w7) tr) (hrun : u.RunsAlone i)
    (hu : ((s.divisorTaken d).opened d).Operates u)
    (htail : InOrder i (atSite site ([.w7, .k1, .k2] ++ flushLineBuffer ++ enableIcache) ++ [.line .main .done]))
    (hdone : Label.line .main .done ∈ programOf i) :
    ∃ k t new, Reaches k s t ∧ SeqDone s t 0 ∧ GuardDone s t d ∧ PortKept s t
      ∧ t.flc = { u.flc with unlock := u.params.lockKey } ∧ t.flash = u.flash ∧ t.history = new ++ s.history
      ∧ busTrace new = envelopeHead s.params.regmap ++ tr ++ envelopeTail s.params := by
  have hdivided : (s.divisorTaken d).RunsAlone i := h.runsAlone.withDiv _
  have hparams : u.params = s.params := hu.params
  have hopens := hdivided.advances_opened rfl hhead
  obtain ⟨draws, hcloses⟩ := hrun.advances_closed (hparams ▸ h.params) htail
  rw [hparams] at hcloses
  have hall := hchecks.trans ((hopens.trans hop).trans hcloses)
  obtain ⟨k, new, hreach, htrace⟩ := hall.completes (h.step.trans hfirst) (hrun.closed draws) hdone
  obtain ⟨hseq, hport⟩ := seqDone_of_closed hu draws (new ++ s.history)
  exact ⟨k, _, new, hreach, hseq, guardDone_of_closed hu _ _, hport, rfl, rfl, rfl, htrace⟩

end OneEnvelope

/-! ## WRITE_WORD -/

section WriteWord

variable {s : State} {a d0 d1 d2 d3 f : Word} {d : Byte}

/-- WRITE_WORD programs the word of its operands (R242). -/
theorem givesWord_writeWord (hopa : s.seq.opa = some a) (hd0 : s.seq.opd0 = some d0) (hd1 : s.seq.opd1 = some d1)
    (hd2 : s.seq.opd2 = some d2) (hd3 : s.seq.opd3 = some d3) :
    s.GivesWord .writeWord .word a fun k => [d0, d1, d2, d3].getD k 0 := by
  rintro u ⟨step, t, hu⟩
  have haddr : (operandsOf .writeWord u.seq).addr = some a := by
    rw [hu]
    exact hopa
  have hlanes : (operandsOf .writeWord u.seq).lanes = [some d0, some d1, some d2, some d3] := by
    rw [hu, ← hd0, ← hd1, ← hd2, ← hd3]
    rfl
  refine ⟨by rw [wordAddress, haddr, need_some], fun k hk => ?_⟩
  rw [wordLane, hlanes]
  interval_cases k <;> rfl

/-- The checks of WRITE_WORD (R240, R242). -/
theorem writeWord_checks (h : s.RunsAlone .writeWord) (hopa : s.seq.opa = some a) (hopf : s.seq.opf = some f)
    (hdiv : clkdivOf f = some d) (halign : a.toNat % 16 = 0) (hlow : 0x10000000 ≤ a.toNat)
    (hhigh : a.toNat + 16 ≤ 0x10080000) :
    s.Advances (.line .main .checkAlign) (s.divisorTaken d) (.line .word .w1) [] := by
  have hn : Follows .writeWord .main .checkAlign (.line .main .checkRange) := rfl
  have haligned := h.advances_internal (s' := s) fun tv hist =>
    (exec_checkAlign (h.runs_standingAt hn tv hist) hopa rfl hn).2 halign
  exact haligned.trans (h.advances_checked (len := 16) (by decide) (fun _ => rfl) (fun _ => rfl) (fun _ => rfl) hopa hopf
    hdiv ⟨hlow, hhigh⟩ (by repeat' constructor))

end WriteWord

/-- Settles O40: the command is its checks and one envelope round the word program, and the array is the one that the
program leaves. -/
theorem writeWordProgramsOneWord : Obligations.WriteWordProgramsOneWord := by
  intro s a d0 d1 d2 d3 f d h hwf hopa hd0 hd1 hd2 hd3 hopf hf hd halign hlow hhigh
  have hdiv := clkdivOf_of_eq_mul hf hd
  have hopened : ((s.divisorTaken d).opened d).RunsAlone .writeWord := (h.runsAlone.withDiv _).opened d
  have hprograms := hopened.advances_programmed (n := .line .word .w7) h.fair
    (givesWord_writeWord hopa hd0 hd1 hd2 hd3) rfl halign hlow hhigh (by repeat' constructor)
  obtain ⟨k, t, new, hreach, hseq, hguard, hport, hflc, hflash, hhist, htrace⟩ := h.completes_envelope rfl
    (writeWord_checks h.runsAlone hopa hopf hdiv halign hlow hhigh) (by repeat' constructor) hprograms
    (hopened.programmed a _) (State.operates_programmed _ a _)
    (by repeat' constructor) (by decide)
  refine ⟨k, t, new, hreach, hseq, hguard, ?wf, hport, ?addr, ?data0, ?data1, ?data2, ?data3, ?code,
    fun x hx => ?outside, fun hright j hj => ?word, hhist, htrace⟩
  case wf =>
    rw [hflash]
    exact wf_programmed (s := (s.divisorTaken d).opened d) hwf _ _
  case outside =>
    rw [hflash]
    exact memRead_programmed_of_outside (s := (s.divisorTaken d).opened d) hwf hx _
  case word =>
    rw [hflash, memRead_programmed (s := (s.divisorTaken d).opened d) hwf hright hj, ofLanes_eq_append]
    rfl
  all_goals
    rw [hflc]
    rfl

/-! ## ERASE_PAGE -/

/-- Settles O41: the command is its checks and one envelope round the erase, and the array is the one that the erase
leaves. -/
theorem erasePageErasesOnePage : Obligations.ErasePageErasesOnePage := by
  intro s a f d h hwf hopa hopf hf hd hlow hhigh
  have hdiv := clkdivOf_of_eq_mul hf hd
  have hopened : ((s.divisorTaken d).opened d).RunsAlone .erasePage := (h.runsAlone.withDiv _).opened d
  have hchecked := h.runsAlone.advances_checked (n := .line .page .w1) (len := 1) (by decide) (fun _ => rfl)
    (fun _ => rfl) (fun _ => rfl) hopa hopf hdiv ⟨hlow, hhigh⟩ (by repeat' constructor)
  have herases := hopened.advances_erased (site := .page) (n := .line .page .w7) h.fair (fun _ _ => hopa) rfl hlow hhigh
    (by repeat' constructor)
  obtain ⟨k, t, new, hreach, hseq, hguard, hport, hflc, hflash, hhist, htrace⟩ := h.completes_envelope rfl hchecked
    (by repeat' constructor) herases (hopened.erased a) (State.operates_erased _ a)
    (by repeat' constructor) (by decide)
  refine ⟨k, t, new, hreach, hseq, hguard, ?wf, hport, ?addr, ?data0, ?data1, ?data2, ?data3, ?code,
    fun x hx => ?outside, fun hright x hlow hhigh => ?page, hhist, htrace⟩
  case wf =>
    rw [hflash]
    exact wf_erased (s := (s.divisorTaken d).opened d) hwf _
  case outside =>
    rw [hflash]
    exact memRead_erased_of_outside (s := (s.divisorTaken d).opened d) hwf hx
  case page =>
    rw [hflash]
    exact memRead_erased (s := (s.divisorTaken d).opened d) hwf hright ⟨hlow, hhigh⟩
  all_goals
    rw [hflc]
    rfl

end Sys2Proof.Machine
end

section
/-! SUPPORT. The lines of `word_program` and of `erase_op` that load the controller and start its operation
(spec/45_program_erase.md R241, R242, R244, R246): what each writes, in WRITE_WORD, WRITE and ERASE_PAGE. -/

namespace Sys2Proof.Machine

/-! ## The address and the lanes (R241 G1 to G5) -/

section LoadLines

variable {i : Instr} {site : Site} {l : Line} {n : Label} {s t : State}

/-- Line G1: the address that the program is invoked with. -/
theorem exec_g1 {a : Word} (hrun : s.Runs i site .g1) (hn : Follows i site .g1 n) (hclock : s.plat.flcClockOn = true)
    (hop : s.flc.op = .none) (ha : wordAddress (operandsOf i s.seq) site s = .next a) :
    exec i s = .next (({ s with flc := { s.flc with addr := a } }.afterWrite .flcAddr a).movedTo n) :=
  exec_writeLine hrun hn (fun _ => hclock) (fun _ => performLine_g1 ha) (whenReady_of_none s _ hop)

/-- A line of G2 to G5: lane `k` of the word that the program is invoked with. -/
theorem exec_laneLine {k : Nat} {r : Reg} {v : Word} (hrun : s.Runs i site l) (hn : Follows i site l n)
    (hclock : s.plat.flcClockOn = true) (hop : s.flc.op = .none)
    (hline : ∀ goOn, performLine (operandsOf i s.seq) site l goOn s
      = andThen (laneLine (operandsOf i s.seq) site k r s) goOn)
    (hv : wordLane (operandsOf i s.seq) site k s = .next v) (hwrite : writeReg r v s = whenReady s (.next t)) :
    exec i s = .next ((t.afterWrite r (s.params.regmap.bus r v)).movedTo n) := by
  refine exec_writeLine hrun hn (fun _ => hclock) (fun goOn => ?_) (hwrite.trans (whenReady_of_none s _ hop))
  rw [hline, laneLine, hv, andThen_next]

end LoadLines

/-- Settles O28: each of the five lines is a write of the operand that it reads. -/
theorem writeWordLoadsAddressAndLanes : Obligations.WriteWordLoadsAddressAndLanes := by
  intro s l n v hat hn hclock hop
  have runs (hheld : lineOperandsHeld .writeWord .word l s.seq = true) : s.Runs .writeWord .word l :=
    ⟨hat, mem_of_lineAfter hn, hheld⟩
  refine ⟨?g1, ?g2, ?g3, ?g4, ?g5⟩
  all_goals
    rintro rfl hv
    have hrun := runs (by simp [lineOperandsHeld, hv])
  case g1 =>
    refine exec_g1 hrun hn hclock hop ?_
    simp [wordAddress, operandsOf, wordOperands, hv]
  all_goals
    refine exec_laneLine hrun hn hclock hop (fun _ => rfl) ?_ rfl
    simp [wordLane, operandsOf, wordOperands, hv]

/-! ## The word that each part of WRITE programs (R244) -/

/-- Lane `k` of a full chunk is four bytes of the input. -/
theorem flashLane_chunkAt (bs : List Byte) (i : Nat) {k : Nat} (hk : k < 4) :
    flashLane (chunkAt bs i) k
      = (bs.getD (i + 4 * k + 3) 0 ++ bs.getD (i + 4 * k + 2) 0 ++ bs.getD (i + 4 * k + 1) 0 ++ bs.getD (i + 4 * k) 0 : Word)
      := by
  rw [← le32_eq_append, chunkAt, ofBytes]
  interval_cases k <;> simp only [flashLane_ofLanes_zero, flashLane_ofLanes_one, flashLane_ofLanes_two,
    flashLane_ofLanes_three] <;> rfl

section WriteParts

variable {s : State} {site : Site} {p i : Word} {w : FlashWord} {bs : List Byte}

/-- Each part of WRITE programs the word that holds its cursor. -/
theorem wordAddress_write (c : Ctx) (hsite : site = .head ∨ site = .chunk ∨ site = .tail) (hp : s.seq.p = some p) :
    wordAddress c site s = .next (writeAddr site p) := by
  rcases hsite with rfl | rfl | rfl <;> simp [wordAddress, hp, writeAddr, mergeWord, alignDown]

/-- The head and the tail program the merge buffer, a chunk the sixteen input bytes at its index. -/
theorem wordLane_write {k : Nat} (hk : k < 4) (hsite : site = .head ∨ site = .chunk ∨ site = .tail)
    (hi : s.seq.i = some i) (hw : site ≠ .chunk → s.seq.w = some w) (hbs : site = .chunk → s.seq.bufIn = some bs) :
    wordLane (operandsOf .write s.seq) site k s = .next (writeLane site w bs i.toNat k) := by
  by_cases hchunk : site = .chunk
  · subst hchunk
    simp [wordLane, operandsOf, writeOperands, hbs, hi, writeLane, flashLane_chunkAt bs i.toNat hk]
  · rcases hsite with rfl | rfl | rfl
    · simp [wordLane, hw, writeLane, flashLane]
    · exact absurd rfl hchunk
    · simp [wordLane, hw, writeLane, flashLane]

end WriteParts

/-- Settles O29: the five lines write the address and the lanes that the part's word program is invoked with. -/
theorem writeLoadsAddressAndLanes : Obligations.WriteLoadsAddressAndLanes := by
  intro s site l n p i w bs hsite hrun hn hclock hop hp hi hw hbs
  refine ⟨?g1, ?g2, ?g3, ?g4, ?g5⟩
  case g1 =>
    rintro rfl
    exact exec_g1 hrun hn hclock hop (wordAddress_write _ hsite hp)
  all_goals
    rintro rfl
    exact exec_laneLine hrun hn hclock hop (fun _ => rfl) (wordLane_write (by decide) hsite hi hw hbs) rfl

/-! ## The starts (R241 G7, R246 H1, H3, H5) -/

/-- H1 is a line of ERASE_PAGE alone (R246, R247). -/
theorem eq_erasePage_of_h1 {i : Instr} {site : Site} (h : Label.line site .h1 ∈ programOf i) : i = .erasePage := by
  have hmem := mem_operandLines h rfl
  cases i
  case erasePage => rfl
  all_goals simp [operandLines, atSite] at hmem

/-- `T with ERASE_CODE := c`, the code between the bits that are kept (R246). -/
theorem withEraseCode_eq_append (t : Word) (c : Byte) :
    withEraseCode t c = (t &&& 0xFFFF00FF) ||| (0#16 ++ c ++ 0#8) := by
  have hcode : fieldAt c 8 = (0#16 ++ c ++ 0#8 : Word) := by
    apply BitVec.eq_of_getLsbD_eq
    intro i hi
    simp only [BitVec.getLsbD_append]
    interval_cases i <;> simp [fieldAt]
  rw [withEraseCode, hcode]

/-- Settles O30: G7, H3 and H5 write `FLC.CTRL` back with one field replaced, and the starts of R147 and R148 accept the
operation; H1 writes the address operand. -/
theorem startLinesStartTheOperation : Obligations.StartLinesStartTheOperation := by
  intro s i site l n hrun hn hclock hop
  refine ⟨?g7, ?h1, ?h3, ?h5⟩
  case g7 =>
    rintro rfl ht hkey halign hlow hhigh
    refine ⟨clkOk s.params s.flc, clkOk_iff _ _, ?_⟩
    rw [← ofLanes_eq_append]
    exact exec_writeFromTLine (f := withWr) hrun hn (fun _ => hclock) ht (fun _ => rfl)
      ((writeReg_withWr hop).trans (programStart_of_legal hkey halign hlow hhigh))
  case h1 =>
    rintro rfl a ha
    have ⟨_, hmem, _⟩ := hrun
    obtain rfl := eq_erasePage_of_h1 hmem
    exact exec_writeLine hrun hn (fun _ => hclock) (fun _ => performLine_h1 ha) (whenReady_of_none s _ hop)
  case h3 =>
    rintro rfl ht
    rw [← withEraseCode_eq_append]
    exact exec_writeFromTLine (f := fun t => withEraseCode t s.params.pageEraseCode) hrun hn (fun _ => hclock) ht
      (fun _ => rfl) (writeReg_withEraseCode hop _)
  case h5 =>
    rintro rfl ht hkey hcode hlow hhigh
    exact ⟨clkOk s.params s.flc, clkOk_iff _ _, exec_writeFromTLine (f := withPge) hrun hn (fun _ => hclock) ht
      (fun _ => rfl) ((writeReg_withPge hop).trans (eraseStart_of_legal hkey hcode hlow hhigh))⟩

end Sys2Proof.Machine
end

section
/-! SUPPORT. The lines of WRITE that are no part of an envelope (spec/45_program_erase.md R243 to R245): the cursor and the index,
the merge of the containing word, and the splice. -/

namespace Sys2Proof.Machine

/-! ## The cursor and the index (R244) -/

section CursorLines

variable {site : Site} {l : Line} {n : Label} {s : State} {a len p i : Word}

/-- The meaning of WRITE at a line that another follows. -/
theorem exec_write_eq (hat : s.At site l) (hn : Follows .write site l n) :
    exec .write s = performLine (writeOperands s.seq) site l (advanceStep writeProgram (.line site l)) s := by
  obtain ⟨-, hstep⟩ := hat
  exact exec_eq_performLine .write site l s hstep (mem_of_lineAfter hn)

/-- From a line of WRITE to the one that follows. -/
theorem advance_write (hn : Follows .write site l n) (t : State) :
    advanceStep writeProgram (.line site l) t = .next (t.movedTo n) := advanceStep_of_follows hn t

theorem len_writeOperands (hlen : s.seq.opb = some len) : (writeOperands s.seq).len = some len.toNat := by
  simp [writeOperands, hlen]

/-- The count of the head and of the tail reads the length operand. -/
theorem partLen_of_ne_chunk (hsite : site ≠ .chunk) (hlen : s.seq.opb = some len) :
    partLen (writeOperands s.seq) site = .next len.toNat := by
  have hneed : need (writeOperands s.seq).len Host.Outcome.next = (.next len.toNat : Res Nat) := by
    rw [len_writeOperands hlen, need_some]
  cases site
  case chunk => exact absurd rfl hsite
  all_goals exact hneed

/-- The cursor starts at the address and the index at 0. -/
theorem exec_initCursor (ha : s.seq.opa = some a) (hat : s.At .main .initCursor) :
    exec .write s = .next ({ s with seq := { s.seq with p := some a, i := some 0 } }.movedTo (.line .main .ifHead)) := by
  have hn : Follows .write .main .initCursor (.line .main .ifHead) := rfl
  have haddr : (writeOperands s.seq).addr = some a := ha
  rw [exec_write_eq hat hn, performLine, haddr, need_some, advance_write hn]

/-- The head is for a cursor that is not aligned. -/
theorem exec_ifHead (hp : s.seq.p = some p) (hat : s.At .main .ifHead) :
    exec .write s = .next (s.movedTo (if p.toNat % 16 ≠ 0 then .line .head .bindWord else .line .main .whileChunks)) := by
  have hn : Follows .write .main .ifHead (.line .head .bindWord) := rfl
  rw [exec_write_eq hat hn, performLine, hp, needWork_some, advance_write hn]
  split
  · rfl
  · rfl

theorem exec_bindWord (hp : s.seq.p = some p) (hat : s.At .head .bindWord) :
    exec .write s = .next (s.movedTo (.line .head .bindCount)) := by
  have hn : Follows .write .head .bindWord (.line .head .bindCount) := rfl
  rw [exec_write_eq hat hn, performLine, hp, needWork_some, advance_write hn]

theorem exec_bindCount (hlen : s.seq.opb = some len) (hp : s.seq.p = some p) (hi : s.seq.i = some i)
    (hat : s.At .head .bindCount) : exec .write s = .next (s.movedTo (.line .head .mergeCheck)) := by
  have hn : Follows .write .head .bindCount (.line .head .mergeCheck) := rfl
  rw [exec_write_eq hat hn, performLine, len_writeOperands hlen, need_some, hp, needWork_some, hi, needWork_some,
    advance_write hn]

/-- The chunks go on while sixteen bytes remain. -/
theorem exec_whileChunks (hlen : s.seq.opb = some len) (hi : s.seq.i = some i) (hat : s.At .main .whileChunks) :
    exec .write s = .next (s.movedTo (if 16 ≤ len.toNat - i.toNat then .line .chunk .w1 else .line .main .ifTail)) := by
  have hn : Follows .write .main .whileChunks (.line .chunk .w1) := rfl
  rw [exec_write_eq hat hn, performLine, len_writeOperands hlen, need_some, hi, needWork_some, advance_write hn]
  split
  · rfl
  · rfl

/-- The tail is for the bytes that remain. -/
theorem exec_ifTail (hlen : s.seq.opb = some len) (hi : s.seq.i = some i) (hat : s.At .main .ifTail) :
    exec .write s = .next (s.movedTo (if 0 < len.toNat - i.toNat then .line .tail .mergeCheck else .line .main .done)) := by
  have hn : Follows .write .main .ifTail (.line .tail .mergeCheck) := rfl
  rw [exec_write_eq hat hn, performLine, len_writeOperands hlen, need_some, hi, needWork_some, advance_write hn]
  split
  · rfl
  · rfl

/-- After the head the cursor and the index are past the bytes that it took. -/
theorem exec_advance_head (hlen : s.seq.opb = some len) (hp : s.seq.p = some p) (hi : s.seq.i = some i)
    (hat : s.At .head .advance) :
    exec .write s = .next ({ s with seq := { s.seq with
      p := some (p + BitVec.ofNat 32 (min (len.toNat - i.toNat) (16 - p.toNat % 16)))
      i := some (i + BitVec.ofNat 32 (min (len.toNat - i.toNat) (16 - p.toNat % 16))) } }.movedTo
        (.line .main .whileChunks)) := by
  have hn : Follows .write .head .advance (.line .main .whileChunks) := rfl
  rw [exec_write_eq hat hn, performLine, advanceCursor, partLen_of_ne_chunk (site := .head) (by decide) hlen, andThen_next]
  simp only [hp, hi, needWork_some, andThen_next]
  exact advance_write hn _

/-- After a chunk they are sixteen bytes on, at the loop's head. -/
theorem exec_advance_chunk (hp : s.seq.p = some p) (hi : s.seq.i = some i) (hat : s.At .chunk .advance) :
    exec .write s = .next ({ s with seq := { s.seq with p := some (p + 16), i := some (i + 16) } }.movedTo
      (.line .main .whileChunks)) := by
  have hn : Follows .write .chunk .advance (.line .main .ifTail) := rfl
  rw [exec_write_eq hat hn, performLine, advanceCursor, partLen, andThen_next]
  simp only [hp, hi, needWork_some, andThen_next]
  rfl

/-- After the tail the index is the length. -/
theorem exec_advance_tail (hlen : s.seq.opb = some len) (hat : s.At .tail .advance) :
    exec .write s = .next ({ s with seq := { s.seq with i := some len } }.movedTo (.line .main .done)) := by
  have hn : Follows .write .tail .advance (.line .main .done) := rfl
  rw [exec_write_eq hat hn, performLine, advanceCursor, partLen_of_ne_chunk (site := .tail) (by decide) hlen, andThen_next]
  simp only [andThen_next, BitVec.ofNat_toNat, BitVec.setWidth_eq]
  exact advance_write hn _

end CursorLines

/-- Settles O33: each of these lines by its own equation. -/
theorem writeCursorFollowsTheParts : Obligations.WriteCursorFollowsTheParts := by
  intro s a len ha hlen
  exact ⟨exec_initCursor ha, fun p i hp hi => ⟨exec_ifHead hp, exec_bindWord hp, exec_bindCount hlen hp hi,
    exec_whileChunks hlen hi, exec_ifTail hlen hi, exec_advance_head hlen hp hi, exec_advance_chunk hp hi,
    exec_advance_tail hlen⟩⟩

/-! ## The merge (R243) -/

/-- The word that WRITE merges in the head and in the tail, where the cursor is aligned: the one that holds the cursor. -/
theorem toNat_mergeWord {site : Site} {p : Word} (hsite : site = .head ∨ (site = .tail ∧ p.toNat % 16 = 0)) :
    (mergeWord site p).toNat = p.toNat - p.toNat % 16 := by
  rcases hsite with rfl | ⟨rfl, halign⟩
  · rw [mergeWord, alignDown, BitVec.toNat_ofNat, Nat.mod_eq_of_lt (by omega)]
  · rw [mergeWord, halign, Nat.sub_zero]
    nofun

/-- A lane that a merge line has written. -/
theorem flashLane_setLane (w : FlashWord) {j k : Nat} (hj : j < 4) (v : Word) :
    flashLane (setLane w k v) j = if j = k then v else flashLane w j := by
  rw [setLane]
  interval_cases j <;> simp [eq_comm]

section MergeLines

variable {site : Site} {l : Line} {n : Label} {s : State} {p : Word} {k : Nat}

theorem exec_mergeCheck (hsite : site = .head ∨ (site = .tail ∧ p.toNat % 16 = 0)) (hp : s.seq.p = some p)
    (hlow : 0x10000000 ≤ p.toNat) (hhigh : p.toNat < 0x10080000) (hat : s.At site .mergeCheck) :
    exec .write s = .next (s.movedTo (.line site .m0)) := by
  have hn : Follows .write site .mergeCheck (.line site .m0) := by
    rcases hsite with rfl | ⟨rfl, -⟩ <;> rfl
  have hin : checkBounds (mergeWord site p).toNat ((mergeWord site p).toNat + 16) = true := by
    rw [checkBounds_add, toNat_mergeWord hsite, decide_eq_true_eq]
    omega
  rw [exec_write_eq hat hn, performLine, hp, needWork_some, if_pos hin, advance_write hn]

/-- A merge line, with a fresh or empty buffer: one lane of the containing word is read into the merge buffer. -/
theorem exec_mergeLine (hsite : site = .head ∨ (site = .tail ∧ p.toNat % 16 = 0)) (hp : s.seq.p = some p)
    (hlow : 0x10000000 ≤ p.toNat) (hhigh : p.toNat < 0x10080000) (hop : s.flc.op = .none) (hfresh : s.lfbFresh = true)
    (hk : k < 4)
    (hline : ∀ c goOn, performLine c site l goOn s = andThen (mergeLine site k s) goOn) (hat : s.At site l)
    (hn : Follows .write site l n) :
    exec .write s = .next (({ s with
      lfb := some ⟨p.toNat - p.toNat % 16, flashLine s.flash (p.toNat - p.toNat % 16)⟩
      seq := { s.seq with
        t := some (flashWordAt s.flash (p.toNat - p.toNat % 16 + 4 * k))
        w := some (setLane (s.seq.w.getD Config.unwrittenMerge) k
          (flashWordAt s.flash (p.toNat - p.toNat % 16 + 4 * k))) } }.afterFlashRead
        (BitVec.ofNat 32 (p.toNat - p.toNat % 16 + 4 * k))
        (flashWordAt s.flash (p.toNat - p.toNat % 16 + 4 * k))).movedTo n) := by
  obtain ⟨x, hx⟩ : ∃ x : Word, mergeWord site p + BitVec.ofNat 32 (4 * k) = x := ⟨_, rfl⟩
  have hbase := toNat_mergeWord hsite
  have hxn : x.toNat = p.toNat - p.toNat % 16 + 4 * k := by
    rw [← hx, BitVec.toNat_add, hbase, BitVec.toNat_ofNat]
    omega
  have hxw : x = BitVec.ofNat 32 (p.toNat - p.toNat % 16 + 4 * k) := by
    rw [← hxn, BitVec.ofNat_toNat, BitVec.setWidth_eq]
  have hxline : wordBase x.toNat = p.toNat - p.toNat % 16 := by
    rw [wordBase, alignDown]
    omega
  have hread := memReadWord_of_lineRead ((dummyAddrOk_iff x).mpr (by omega)) hop (lineRead_of_lfbFresh hfresh _)
  rw [wordAtOffset_flashLine s.flash (by omega), hxline, hxn] at hread
  rw [exec_write_eq hat hn, hline, mergeLine, hp, needWork_some, hx, hread]
  simp only [andThen_next]
  rw [← hxw]
  exact advance_write hn _

end MergeLines

/-! ## The splice (R245) -/

/-- A byte of the splice. -/
theorem flashByte_splice (w : FlashWord) (off : Nat) (bs : List Byte) (i n : Nat) {j : Nat} (hj : j < 16) :
    flashByte (splice w off bs i n) j
      = if off ≤ j ∧ j < off + n then bs.getD (i + (j - off)) 0 else flashByte w j :=
  flashByte_ofBytes _ j hj

/-- The splice line of the head and of the tail. -/
theorem exec_spliceBytes {site : Site} {s : State} {p len i : Word} {bs : List Byte} {w : FlashWord}
    (hsite : site = .head ∨ site = .tail) (hp : s.seq.p = some p) (hlen : s.seq.opb = some len)
    (hbs : s.seq.bufIn = some bs) (hi : s.seq.i = some i) (hw : s.seq.w = some w) (hat : s.At site .spliceBytes) :
    exec .write s = .next ({ s with seq := { s.seq with
      w := some (splice w (p.toNat % 16) bs i.toNat (partCount site len.toNat p.toNat i.toNat)) } }.movedTo
        (.line site .w1)) := by
  have hn : Follows .write site .spliceBytes (.line site .w1) := by
    rcases hsite with rfl | rfl <;> rfl
  have hbytes : (writeOperands s.seq).bytes = some bs := hbs
  have hne : site ≠ .chunk := by
    rcases hsite with rfl | rfl <;> nofun
  rw [exec_write_eq hat hn, performLine, spliceLine, hbytes, need_some, partLen_of_ne_chunk hne hlen, andThen_next]
  simp only [hp, hi, hw, needWork_some, andThen_next]
  exact advance_write hn _

/-- Settles O34: the check passes for a word of flash, each merge line reads its own lane, and the splice is byte by byte. -/
theorem writeMergesWithTheArray : Obligations.WriteMergesWithTheArray := by
  intro s site n p hsite hp hlow hhigh hop hfresh
  refine ⟨exec_mergeCheck hsite hp hlow hhigh, fun lk hlk hat hn => ?merge, fun len i bs w hlen hbs hi hw hat => ?splice⟩
  case merge =>
    obtain ⟨hk, hline⟩ : lk.2 < 4 ∧ ∀ c goOn, performLine c site lk.1 goOn s = andThen (mergeLine site lk.2 s) goOn := by
      fin_cases hlk <;> exact ⟨by decide, fun _ _ => rfl⟩
    refine ⟨_, exec_mergeLine hsite hp hlow hhigh hop hfresh hk hline hat hn, ?_, fun w k hw hk' hne => ?_⟩
    · exact (flashLane_setLane _ hk _).trans (if_pos rfl)
    · rw [hw]
      exact (flashLane_setLane w hk' _).trans (if_neg hne)
  case splice =>
    have hpart : site = .head ∨ site = .tail := hsite.imp_right And.left
    refine ⟨_, exec_spliceBytes hpart hp hlen hbs hi hw hat, fun j hj => (flashByte_splice _ _ _ _ _ hj).trans ?_⟩
    rcases hpart with rfl | rfl <;> rfl

end Sys2Proof.Machine
end

section
/-! SUPPORT. How many programs a running command starts (spec/45_program_erase.md R248): a run from line to line with the program
starts among its records, and one envelope round a word program, which starts one. -/

namespace Sys2Proof.Machine

/-! ## Program starts and bus accesses -/

/-- A register's address in a well-formed map is its own (R110). -/
theorem addr_inj {m : RegMap} (hm : m.wf = true) {r r' : Reg} (h : m.addr r = m.addr r') : r = r' := by
  obtain ⟨-, hr, -⟩ := RegMap.wf_reg hm r
  obtain ⟨-, hr', -⟩ := RegMap.wf_reg hm r'
  rw [h] at hr
  exact Option.some.inj (hr.symm.trans hr')

/-- Accesses of registers without a write of `FLC.CTRL` hold no write at its address. -/
theorem ctrlWrite_not_mem_regTrace {m : RegMap} (hm : m.wf = true) {accesses : List (EventKind × Reg)}
    (h : (.mmioW, .flcCtrl) ∉ accesses) : (.mmioW, m.addr .flcCtrl) ∉ regTrace m accesses := by
  intro hmem
  obtain ⟨⟨kind, r⟩, hr, heq⟩ := List.mem_map.mp hmem
  obtain ⟨rfl, haddr⟩ := Prod.mk.inj heq
  exact h (addr_inj hm haddr ▸ hr)

/-- Without a write of `FLC.CTRL` among the accesses no program starts. -/
theorem countP_startsProgram_eq_zero {m : RegMap} {new : List Event} (h : (.mmioW, m.addr .flcCtrl) ∉ busTrace new) :
    new.countP (Event.startsProgram m) = 0 := by
  refine List.countP_eq_zero.mpr fun e he hstarts => h ?_
  refine List.mem_filterMap.mpr ⟨e, List.mem_reverse.mpr he, ?_⟩
  unfold Event.startsProgram at hstarts
  split at hstarts
  · simp only [Bool.and_eq_true, beq_iff_eq] at hstarts
    simp only [hstarts.1]
  · cases hstarts

/-- The record of a write of fields to `FLC.CTRL` is a program start where `WR` is set (R248). -/
theorem startsProgram_ctrlWrite (m : RegMap) (w : Word) :
    Event.startsProgram m (.record .seq .mmioW (m.addr .flcCtrl) (m.bus .flcCtrl w)) = ctrlWr w := by
  rw [Event.startsProgram, beq_self_eq_true, Bool.true_and, RegMap.fields_bus, ctrlWr]

/-- Some steps of the machine lead from the label `n` in `s` to the label `n'` in `s'`, whatever `SEQ.T` and the history are,
and `count` of their records are program starts, by the map `m`. -/
def State.Starts (m : RegMap) (s : State) (n : Label) (s' : State) (n' : Label) (count : Nat) : Prop :=
  ∀ tv hist, ∃ k tv' new, Reaches k (s.standingAt n tv hist) (s'.standingAt n' tv' (new ++ hist))
    ∧ new.countP (Event.startsProgram m) = count

theorem State.Starts.trans {m : RegMap} {s t u : State} {n n' n'' : Label} {j k : Nat} (hst : s.Starts m n t n' j)
    (htu : t.Starts m n' u n'' k) : s.Starts m n u n'' (j + k) := by
  intro tv hist
  obtain ⟨k₁, tv₁, new₁, h₁, rfl⟩ := hst tv hist
  obtain ⟨k₂, tv₂, new₂, h₂, rfl⟩ := htu tv₁ (new₁ ++ hist)
  rw [← List.append_assoc] at h₂
  exact ⟨k₁ + k₂, tv₂, new₂ ++ new₁, h₁.trans h₂, List.countP_append.trans (Nat.add_comm _ _)⟩

/-- Lines without a write of `FLC.CTRL` start no program. -/
theorem State.Advances.starts_zero {m : RegMap} {s s' : State} {n n' : Label} {tr : List (EventKind × Word)}
    (h : s.Advances n s' n' tr) (htr : (.mmioW, m.addr .flcCtrl) ∉ tr) : s.Starts m n s' n' 0 := by
  intro tv hist
  obtain ⟨k, tv', new, hk, rfl⟩ := h tv hist
  exact ⟨k, tv', new, hk, countP_startsProgram_eq_zero htr⟩

/-- The last line (R25, R300) is one step, and the command's end is its one record. -/
theorem State.RunsAlone.reaches_completed {i : Instr} {s : State} (h : s.RunsAlone i)
    (hmem : Label.line .main .done ∈ programOf i) (tv : Option Word) (hist : List Event) :
    Reaches 1 (s.standingAt (.line .main .done) tv hist)
      { s.completed with history := .cmdEnd (s.seq.cmd.getD 0) :: hist } := by
  have hdone : exec i (s.standingAt (.line .main .done) tv hist)
      = .next (s.standingAt (.line .main .done) tv hist).completed := by
    rw [exec_eq_performLine i .main .done _ rfl hmem]
    rfl
  exact .cons ((h.standingAt _ tv hist).step_eq.trans hdone) (.refl _)

/-- The last line (R25, R300): the command that has come from its label `n` to there completes. -/
theorem State.Starts.completes {i : Instr} {m : RegMap} {n : Label} {s t : State} {count : Nat}
    (h : s.Starts m n t (.line .main .done) count) (hstep : s.seq.step = some n) (ht : t.RunsAlone i)
    (hmem : Label.line .main .done ∈ programOf i) :
    ∃ k new, Reaches k s { t.completed with history := new ++ s.history }
      ∧ new.countP (Event.startsProgram m) = count := by
  have hs : s.standingAt n s.seq.t s.history = s := by rw [State.standingAt, ← hstep]
  obtain ⟨k, tv, new, hk, rfl⟩ := h s.seq.t s.history
  rw [hs] at hk
  exact ⟨k + 1, .cmdEnd (t.seq.cmd.getD 0) :: new, hk.trans (ht.reaches_completed hmem tv _),
    List.countP_cons_of_neg nofun⟩

section Lines

variable {i : Instr} {site : Site} {l l' : Line} {n : Label} {s s' : State}

/-- The two lines that read `FLC.CTRL` and write it back as `f` makes it (R120): a program start where `f` sets `WR`. -/
theorem State.RunsAlone.starts_rmw (h : s.RunsAlone i) {f : Word → Word} {wr : Bool} (hread : rmwReadReg l = some .flcCtrl)
    (hl : Follows i site l (.line site l')) (hn : Follows i site l' n)
    (hline : ∀ c tv hist goOn, performLine c site l' goOn (s.standingAt (.line site l') tv hist)
        = andThen (writeFromT .flcCtrl f (s.standingAt (.line site l') tv hist)) goOn)
    (hwrite : ∀ n tv hist, writeReg .flcCtrl (f (readReg .flcCtrl (s.standingAt n tv hist))) (s.standingAt n tv hist)
      = .next (s'.standingAt n tv hist))
    (hwr : ctrlWr (f (readReg .flcCtrl s)) = wr) :
    s.Starts s.params.regmap (.line site l) s' n wr.toNat := by
  intro tv hist
  have hparams : s'.params = s.params := (SeqFrame.writeReg (hwrite n none hist)).params
  have hreads := h.step_rmwRead hread hl tv hist
  have hexec (older : List Event) := exec_writeFromTLine (h.runs_standingAt hn (some (busRead .flcCtrl s)) older) hn
    (fun _ => h.clock) (congrArg some (busRead_standingAt s _ _ _ .flcCtrl).symm) (hline _ _ _) (hwrite _ _ _)
  simp only [movedTo_afterWrite_standingAt hparams] at hexec
  refine ⟨2, _, [.record .seq .mmioW (s.params.regmap.addr .flcCtrl)
      (s.params.regmap.bus .flcCtrl (f (readReg .flcCtrl s))),
    .record .seq .mmioR (s.params.regmap.addr .flcCtrl) (busRead .flcCtrl s)],
    .cons hreads (.cons ((h.standingAt _ _ _).step_eq.trans (hexec _)) (.refl _)), ?_⟩
  rw [List.countP_cons, startsProgram_ctrlWrite, hwr, List.countP_cons_of_neg Bool.false_ne_true, List.countP_nil]
  cases wr <;> rfl

/-- `unlock` and `lock` start no program (R222, R223). -/
theorem State.RunsAlone.starts_key (h : s.RunsAlone i) {k : BitVec 4}
    (hl : l = .u1 ∧ l' = .u2 ∧ k = s.params.unlockKey ∨ l = .k1 ∧ l' = .k2 ∧ k = s.params.lockKey)
    (hread : Follows i site l (.line site l')) (hn : Follows i site l' n) :
    s.Starts s.params.regmap (.line site l) (s.keyed k) n 0 := by
  refine h.starts_rmw (f := fun t => withUnlock t k) (wr := false) ?_ hread hn (fun _ _ _ _ => ?_)
    (fun n tv hist => writeReg_withUnlock (h.standingAt n tv hist).op k) ?_
  · rcases hl with ⟨rfl, rfl, -⟩ | ⟨rfl, rfl, -⟩ <;> rfl
  · rcases hl with ⟨rfl, rfl, rfl⟩ | ⟨rfl, rfl, rfl⟩ <;> rfl
  · exact (ctrlWr_withUnlock _ _).trans ((ctrlWr_ctrlWord s.flc).trans (wr_false_of_none _ h.op))

/-! ## One envelope (R224, R241) -/

theorem State.RunsAlone.starts_opened (h : s.RunsAlone i) (hm : s.params.regmap.wf = true) {d : Byte}
    (hdiv : s.seq.div = some d) (hn : InOrder i (atSite site [.w1, .d1, .d2, .c1, .c2, .l2, .u1, .u2] ++ [n])) :
    s.Starts s.params.regmap (.line site .w1) (s.opened d) n 0 := by
  obtain ⟨hw1, hd1, hd2, hc1, hc2, hl2, hu1, hu2, -⟩ := hn
  have hready := h.advances_wait (.inl rfl) hw1
  have hdisabled := h.advances_disable (.inl ⟨rfl, rfl⟩) hd1 hd2
  have hcleared := h.cacheOff.advances_clear hc1 hc2
  have hdivided := h.cacheOff.flagCleared.advances_divide hdiv hl2
  have hlocked := hready.trans (hdisabled.trans (hcleared.trans hdivided))
  have hunlocked := (h.cacheOff.flagCleared.dividedBy d).starts_key (.inl ⟨rfl, rfl, rfl⟩) hu1 hu2
  exact (hlocked.starts_zero (ctrlWrite_not_mem_regTrace hm (accesses := [(.mmioR, .flcCtrl), (.mmioR, .iccCtrl),
    (.mmioW, .iccCtrl), (.mmioR, .flcIntr), (.mmioW, .flcIntr), (.mmioW, .flcClkdiv)]) (by decide))).trans hunlocked

theorem State.RunsAlone.starts_programmed (h : s.RunsAlone i) (hm : s.params.regmap.wf = true)
    (hfair : s.params.engineMayStall = false) {a : Word} {d : Nat → Word} (hword : s.GivesWord i site a d)
    (hkey : s.flc.unlock = s.params.unlockKey) (halign : a.toNat % 16 = 0) (hlow : 0x10000000 ≤ a.toNat)
    (hhigh : a.toNat + 16 ≤ 0x10080000) (hn : InOrder i (atSite site wordProgram ++ [n])) :
    s.Starts s.params.regmap (.line site .g1) (s.programmed a d) n 1 := by
  obtain ⟨hg1, hg2, hg3, hg4, hg5, hg6, hg7, hg8, -⟩ := hn
  have hready := (h.aimedAt a).loaded d
  have haimed := h.advances_write (s' := s.aimedAt a) hg1
    (fun tv hist goOn => performLine_g1 (hword (s.standingAt (.line site .g1) tv hist) ⟨_, _, rfl⟩).1)
    fun n tv hist => whenReady_of_none _ _ (h.standingAt n tv hist).op
  have hloaded := haimed.trans ((h.aimedAt a).advances_lanes (d := d) hword hg2 hg3 hg4 hg5)
  have hstarted := hready.starts_rmw (s' := ((s.aimedAt a).loaded d).operating ((s.aimedAt a).loaded d).opProgram)
    (f := withWr) rfl hg6 hg7 (fun _ _ _ _ => rfl)
    (fun n tv hist => (writeReg_withWr (hready.standingAt n tv hist).op).trans
      (programStart_of_legal (s := ((s.aimedAt a).loaded d).standingAt n tv hist) hkey halign hlow hhigh))
    (ctrlWr_withWr _)
  have hdone := hready.advances_flce hfair (op := ((s.aimedAt a).loaded d).opProgram) nofun
    ((s.aimedAt a).loaded d).flashProgrammed a.toNat (.line site .g8)
    fun tv hist => flceStep_of_program
      (s := (((s.aimedAt a).loaded d).operating ((s.aimedAt a).loaded d).opProgram).standingAt _ tv hist) rfl
  have hpolled := hdone.trans ((hready.operated _).advances_poll (l := .g8) rfl hg8)
  exact ((hloaded.starts_zero (ctrlWrite_not_mem_regTrace hm (accesses := [(.mmioW, .flcAddr), (.mmioW, .flcData0),
      (.mmioW, .flcData1), (.mmioW, .flcData2), (.mmioW, .flcData3)]) (by decide))).trans hstarted).trans
    (hpolled.starts_zero (ctrlWrite_not_mem_regTrace hm (accesses := [(.mmioR, .flcCtrl)]) (by decide)))

theorem State.RunsAlone.starts_closed (h : s.RunsAlone i) (hp : paramsWf s.params = true)
    (hn : InOrder i (atSite site ([.w7, .k1, .k2] ++ flushLineBuffer ++ enableIcache) ++ [n])) :
    ∃ k, s.Starts s.params.regmap (.line site .w7) (s.closed k) n 0 := by
  obtain ⟨hw7, hk1, hk2, hf1, hf2, hf3, hf4, hf5, he1, he2, he3, he4, he5, he6, he7, -⟩ := hn
  obtain ⟨-, -, -, -, -, hm, -⟩ := (paramsWf_iff _).mp hp
  have hlock := h.keyed s.params.lockKey
  have hempty := hlock.cacheEmptied
  obtain ⟨k, hread⟩ := hempty.advances_dummyReads hp hf4 hf5
  have hfull := hempty.buffered (dummyLine s.params s.flash) k
  have hready := h.advances_wait (.inr rfl) hw7
  have hlocked := h.starts_key (.inr ⟨rfl, rfl, rfl⟩) hk1 hk2
  have hemptied := hlock.advances_emptyCache hf1 hf2 hf3
  have hdisabled := hfull.advances_disable (.inr ⟨rfl, rfl⟩) he1 he2
  have hinvalidated := hfull.advances_invalidate he3 he4
  have henabled := hfull.advances_enable he5 he6 he7
  have hcached := hdisabled.trans (hinvalidated.trans henabled)
  have hready0 := hready.starts_zero (ctrlWrite_not_mem_regTrace hm (by decide))
  have hemptied0 := hemptied.starts_zero (ctrlWrite_not_mem_regTrace hm (by decide))
  have hread0 := hread.starts_zero (m := s.params.regmap) (by simp)
  have hcached0 := hcached.starts_zero (ctrlWrite_not_mem_regTrace hm (accesses := [(.mmioR, .iccCtrl), (.mmioW, .iccCtrl),
    (.mmioW, .iccInvalidate), (.mmioR, .iccCtrl), (.mmioR, .iccCtrl), (.mmioW, .iccCtrl), (.mmioR, .iccCtrl)])
    (by decide))
  exact ⟨k, hready0.trans (hlocked.trans (hemptied0.trans (hread0.trans hcached0)))⟩

/-- One envelope round a word program starts one program. -/
theorem State.RunsAlone.starts_envelope (h : s.RunsAlone i) (hp : paramsWf s.params = true)
    (hfair : s.params.engineMayStall = false) {b : Byte} (hdiv : s.seq.div = some b) {a : Word} {d : Nat → Word}
    (hword : s.GivesWord i site a d) (halign : a.toNat % 16 = 0) (hlow : 0x10000000 ≤ a.toNat)
    (hhigh : a.toNat + 16 ≤ 0x10080000)
    (hhead : InOrder i (atSite site [.w1, .d1, .d2, .c1, .c2, .l2, .u1, .u2] ++ [.line site .g1]))
    (hop : InOrder i (atSite site wordProgram ++ [.line site .w7]))
    (htail : InOrder i (atSite site ([.w7, .k1, .k2] ++ flushLineBuffer ++ enableIcache) ++ [n])) :
    ∃ k, s.Starts s.params.regmap (.line site .w1) (((s.opened b).programmed a d).closed k) n 1 := by
  obtain ⟨-, -, -, -, -, hm, -⟩ := (paramsWf_iff _).mp hp
  have hopens := h.starts_opened hm hdiv hhead
  have hprograms := (h.opened b).starts_programmed hm hfair (d := d) hword rfl halign hlow hhigh hop
  obtain ⟨k, hcloses⟩ := ((h.opened b).programmed a d).starts_closed hp htail
  exact ⟨k, hopens.trans (hprograms.trans hcloses)⟩

end Lines
end Sys2Proof.Machine
end

section
/-! SUPPORT. The parts of WRITE under the eager schedule (spec/45_program_erase.md R243 to R245): the merge and the splice from line
to line, the word that a part programs, and what one envelope of WRITE makes of the array. -/

namespace Sys2Proof.Machine

/-! ## The merge and the splice, from line to line (R243, R245) -/

/-- `s` with a word in the merge buffer (R27). -/
def State.withMerge (s : State) (w : FlashWord) : State := { s with seq := { s.seq with w := some w } }

/-- `s` with WRITE's cursor and index (R27). -/
def State.cursorAt (s : State) (p i : Word) : State := { s with seq := { s.seq with p := some p, i := some i } }

/-- The line of the array `m` that holds the address `p` (R71). -/
def lineOf (m : Memory) (p : Word) : CacheLine := ⟨p.toNat - p.toNat % 16, flashLine m (p.toNat - p.toNat % 16)⟩

/-- A buffer with a line of the array is fresh (R16). -/
theorem lfbFresh_of_line {s : State} {la : Nat} (h : s.lfb = some ⟨la, flashLine s.flash la⟩) : s.lfbFresh = true := by
  simp [State.lfbFresh, lineFresh, h]

/-- Four lanes written one after the other leave nothing of the word before them. -/
theorem setLane_four (w : FlashWord) (v : Nat → Word) :
    setLane (setLane (setLane (setLane w 0 (v 0)) 1 (v 1)) 2 (v 2)) 3 (v 3) = ofLanes (v 0) (v 1) (v 2) (v 3) := by
  simp [setLane]

/-- The four words of a line are its lanes (R74). -/
theorem ofLanes_flashWordAt (m : Memory) (la : Nat) :
    ofLanes (flashWordAt m (la + 4 * 0)) (flashWordAt m (la + 4 * 1)) (flashWordAt m (la + 4 * 2))
      (flashWordAt m (la + 4 * 3)) = flashLine m la := by
  have word (x : Nat) : flashWordAt m x = le32 (memRead m x) (memRead m (x + 1)) (memRead m (x + 2)) (memRead m (x + 3)) :=
    (le32_eq_append _ _ _ _).symm
  simp only [word, flashLine, ofBytes]

section Lines

variable {i : Instr} {site : Site} {l : Line} {n : Label} {s : State} {p : Word}

theorem State.RunsAlone.withMerge (h : s.RunsAlone i) (w : FlashWord) : (s.withMerge w).RunsAlone i :=
  { h with operands := (operandsHeld_with i s.seq _ _ _ _ _ _).trans h.operands }

theorem State.RunsAlone.cursorAt (h : s.RunsAlone i) (p x : Word) : (s.cursorAt p x).RunsAlone i :=
  { h with operands := (operandsHeld_with i s.seq _ _ _ _ _ _).trans h.operands }

/-- A merge line reads its lane of the containing word through the buffer. -/
theorem State.RunsAlone.advances_mergeLine (h : s.RunsAlone .write) (hsite : site = .head ∨ (site = .tail ∧ p.toNat % 16 = 0))
    (hp : s.seq.p = some p) (hlow : 0x10000000 ≤ p.toNat) (hhigh : p.toNat < 0x10080000) (hfresh : s.lfbFresh = true)
    {k : Nat} (hk : k < 4) (hline : ∀ c goOn u, performLine c site l goOn u = andThen (mergeLine site k u) goOn)
    (hn : Follows .write site l n) :
    s.Advances (.line site l)
      ((s.buffered (lineOf s.flash p) s.draws).withMerge
        (setLane (s.seq.w.getD Config.unwrittenMerge) k (flashWordAt s.flash (p.toNat - p.toNat % 16 + 4 * k))))
      n [(.memR, BitVec.ofNat 32 (p.toNat - p.toNat % 16 + 4 * k))] :=
  .of_access fun tv hist => ⟨_, _, (h.standingAt (.line site l) tv hist).step_eq.trans
    (exec_mergeLine hsite hp hlow hhigh h.op hfresh hk (fun _ _ => hline _ _ _) ⟨h.phase, rfl⟩ hn)⟩

/-- The merge puts the containing word into the merge buffer, and its line into the line-fill buffer. -/
theorem State.RunsAlone.advances_merged (h : s.RunsAlone .write) (hsite : site = .head ∨ (site = .tail ∧ p.toNat % 16 = 0))
    (hp : s.seq.p = some p) (hlow : 0x10000000 ≤ p.toNat) (hhigh : p.toNat < 0x10080000) (hfresh : s.lfbFresh = true)
    (hn : InOrder .write (atSite site [.m0, .m1, .m2, .m3, .spliceBytes])) :
    ∃ tr, s.Advances (.line site .mergeCheck)
        ((s.buffered (lineOf s.flash p) s.draws).withMerge (flashLine s.flash (p.toNat - p.toNat % 16)))
        (.line site .spliceBytes) tr ∧ ∀ r, (.mmioW, r) ∉ tr := by
  obtain ⟨hm0, hm1, hm2, hm3, -⟩ := hn
  have hmerging (w : FlashWord) : ((s.buffered (lineOf s.flash p) s.draws).withMerge w).RunsAlone .write :=
    (h.buffered _ _).withMerge w
  have hchecked := h.advances_internal (s' := s) (site := site) (l := .mergeCheck) fun tv hist =>
    exec_mergeCheck hsite hp hlow hhigh ⟨h.phase, rfl⟩
  have hlane0 := h.advances_mergeLine hsite hp hlow hhigh hfresh (k := 0) (by decide) (fun _ _ _ => rfl) hm0
  have hlane1 (w : FlashWord) := (hmerging w).advances_mergeLine hsite hp hlow hhigh (lfbFresh_of_line rfl) (k := 1)
    (by decide) (fun _ _ _ => rfl) hm1
  have hlane2 (w : FlashWord) := (hmerging w).advances_mergeLine hsite hp hlow hhigh (lfbFresh_of_line rfl) (k := 2)
    (by decide) (fun _ _ _ => rfl) hm2
  have hlane3 (w : FlashWord) := (hmerging w).advances_mergeLine hsite hp hlow hhigh (lfbFresh_of_line rfl) (k := 3)
    (by decide) (fun _ _ _ => rfl) hm3
  rw [← ofLanes_flashWordAt, ← setLane_four (s.seq.w.getD Config.unwrittenMerge)
    fun k => flashWordAt s.flash (p.toNat - p.toNat % 16 + 4 * k)]
  exact ⟨_, hchecked.trans (hlane0.trans ((hlane1 _).trans ((hlane2 _).trans (hlane3 _)))), fun r => by simp⟩

end Lines

/-! ## The word that a part programs (R244) -/

section Parts

variable {site : Site} {s : State} {p i : Word} {w : FlashWord} {bs : List Byte}

/-- The word program of a part of WRITE is invoked with the word that holds the cursor, and with the part's word. -/
theorem givesWord_write (hsite : site = .head ∨ site = .chunk ∨ site = .tail) (hp : s.seq.p = some p)
    (hi : s.seq.i = some i) (hw : site ≠ .chunk → s.seq.w = some w) (hbs : site = .chunk → s.seq.bufIn = some bs) :
    s.GivesWord .write site (writeAddr site p) (writeLane site w bs i.toNat) := by
  rintro u ⟨step, t, hu⟩
  have hup : u.seq.p = some p := by rw [hu, ← hp]
  have hui : u.seq.i = some i := by rw [hu, ← hi]
  have huw : site ≠ .chunk → u.seq.w = some w := fun hne => by rw [hu, ← hw hne]
  have hubs : site = .chunk → u.seq.bufIn = some bs := fun he => by rw [hu, ← hbs he]
  exact ⟨wordAddress_write _ hsite hup, fun k hk => wordLane_write hk hsite hui huw hubs⟩

/-- A flash word is its lanes (R74). -/
theorem ofLanes_flashLane (w : FlashWord) :
    ofLanes (flashLane w 0) (flashLane w 1) (flashLane w 2) (flashLane w 3) = w := by
  simp only [← wordAtOffset_eq_flashLane]
  exact ofBytes_flashByte w

/-- The word that a part programs: sixteen bytes of the input in a chunk, the merge buffer in the head and in the tail. -/
theorem ofLanes_writeLane (site : Site) (w : FlashWord) (bs : List Byte) (i : Nat) :
    ofLanes (writeLane site w bs i 0) (writeLane site w bs i 1) (writeLane site w bs i 2) (writeLane site w bs i 3)
      = if site = .chunk then chunkAt bs i else w := by
  have hlane {k : Nat} (hk : k < 4) : writeLane site w bs i k = flashLane (if site = .chunk then chunkAt bs i else w) k := by
    rw [writeLane]
    split
    · exact (flashLane_chunkAt bs i hk).symm
    · rfl
  rw [hlane (by decide), hlane (by decide), hlane (by decide), hlane (by decide), ofLanes_flashLane]

end Parts

/-! ## What WRITE has written (R244, R245, R249) -/

/-- The sequencer without its step counter and the working registers (R27). -/
def Seq.port (q : Seq) : Seq := { q with step := none, div := none, w := none, p := none, i := none, t := none }

/-- Between the envelopes of the WRITE of `s` at the address `a`, with the divisor `d`, `u` has the first `c` of the bytes `bs`
written: no byte outside the words touched has changed, and with the right divisor the bytes of the range alone have. -/
structure State.Wrote (s : State) (a : Nat) (bs : List Byte) (d : Byte) (c : Nat) (u : State) : Prop where
  runs : u.RunsAlone .write
  port : u.seq.port = s.seq.port
  div : u.seq.div = some d
  params : u.params = s.params
  plat : u.plat = s.plat
  gcr : u.gcr = s.gcr
  lve : u.flc.lve = s.flc.lve
  eraseCode : u.flc.eraseCode = s.flc.eraseCode
  fresh : u.lfbFresh = true
  wf : Memory.wf u.flash = true
  outside : ∀ x, ¬ (a - a % 16 ≤ x ∧ x < (a + c + 15) / 16 * 16) → memRead u.flash x = memRead s.flash x
  inside : divisorRight s.params d → ∀ x, memRead u.flash x =
    if a ≤ x ∧ x < a + c then memRead s.flash x &&& bs.getD (x - a) 0 else memRead s.flash x

section Wrote

variable {s u v : State} {a c n : Nat} {bs : List Byte} {d : Byte}

theorem State.Wrote.withMerge (h : s.Wrote a bs d c u) (w : FlashWord) : s.Wrote a bs d c (u.withMerge w) :=
  { h with runs := h.runs.withMerge w }

theorem State.Wrote.cursorAt (h : s.Wrote a bs d c u) (p i : Word) : s.Wrote a bs d c (u.cursorAt p i) :=
  { h with runs := h.runs.cursorAt p i }

theorem State.Wrote.bufferedLine (h : s.Wrote a bs d c u) (p : Word) (k : Nat) :
    s.Wrote a bs d c (u.buffered (lineOf u.flash p) k) :=
  { h with runs := h.runs.buffered _ k, fresh := lfbFresh_of_line rfl }

/-- The state after one envelope round the program of the lanes `d` into the word `w` (R224, R241). -/
def State.enveloped (s : State) (b : Byte) (w : Word) (d : Nat → Word) (k : Nat) : State :=
  ((s.opened b).programmed w d).closed k

/-- The end of an envelope keeps what the operation left (R224). -/
theorem State.Operates.closed (h : s.Operates u) (k : Nat) : s.Operates (u.closed k) := { h with }

theorem operates_enveloped (s : State) (b : Byte) (w : Word) (d : Nat → Word) (k : Nat) :
    (s.opened b).Operates (s.enveloped b w d k) := (State.operates_programmed _ w d).closed k

theorem flash_closed (s : State) (k : Nat) : (s.closed k).flash = s.flash := rfl

theorem flash_enveloped (s : State) (b : Byte) (w : Word) (d : Nat → Word) (k : Nat) :
    (s.enveloped b w d k).flash = ((s.opened b).programmed w d).flash := flash_closed _ k

theorem eraseCode_closed (s : State) (k : Nat) : (s.closed k).flc.eraseCode = s.flc.eraseCode := rfl

theorem eraseCode_enveloped (s : State) (b : Byte) (w : Word) (d : Nat → Word) (k : Nat) :
    (s.enveloped b w d k).flc.eraseCode = s.flc.eraseCode := eraseCode_closed _ k

theorem lfbFresh_closed (s : State) (k : Nat) : (s.closed k).lfbFresh = true := lfbFresh_of_line rfl

theorem flash_opened (s : State) (b : Byte) : (s.opened b).flash = s.flash := rfl

/-- The word at `w` holds the address `x` and the `n` bytes from there on, and the lanes `e` are that word of the array `m` with
those bytes replaced by the ones of `bs` from index `c` on (R245). -/
structure Splices (m : Memory) (bs : List Byte) (x c n : Nat) (w : Word) (e : Nat → Word) : Prop where
  base : w.toNat = x - x % 16
  pos : 0 < n
  fits : x % 16 + n ≤ 16
  bytes : ∀ j < 16, flashByte (ofLanes (e 0) (e 1) (e 2) (e 3)) j =
    if x ≤ w.toNat + j ∧ w.toNat + j < x + n then bs.getD (c + (w.toNat + j - x)) 0 else memRead m (w.toNat + j)

/-- With the right divisor the program of a part changes the bytes of the part alone: the others of its word are programmed
with what they are (R165, R245). -/
theorem memRead_enveloped (hwf : Memory.wf v.flash = true) (hright : divisorRight v.params d) {x : Nat} {w : Word}
    {e : Nat → Word} (he : Splices v.flash bs x c n w e) (k y : Nat) :
    memRead (v.enveloped d w e k).flash y =
      if x ≤ y ∧ y < x + n then memRead v.flash y &&& bs.getD (c + (y - x)) 0 else memRead v.flash y := by
  obtain ⟨hbase, -, hfits, hbytes⟩ := he
  rw [flash_enveloped]
  by_cases hy : w.toNat ≤ y ∧ y < w.toNat + 16
  · obtain ⟨j, rfl⟩ := Nat.exists_eq_add_of_le hy.1
    have hj : j < 16 := by omega
    rw [memRead_programmed (s := v.opened d) hwf hright hj, hbytes j hj, flash_opened]
    split
    · rfl
    · exact BitVec.and_self
  · rw [memRead_programmed_of_outside (s := v.opened d) hwf hy, flash_opened, if_neg (by omega)]

/-- After the envelope of a part of `n` bytes `c + n` bytes are written. -/
theorem State.Wrote.enveloped (h : s.Wrote a bs d c v) {w : Word} {e : Nat → Word}
    (he : Splices v.flash bs (a + c) c n w e) (k : Nat) : s.Wrote a bs d (c + n) (v.enveloped d w e k) where
  runs := ((h.runs.opened d).programmed w e).closed k
  port := (congrArg Seq.port (operates_enveloped v d w e k).seq).trans h.port
  div := (congrArg Seq.div (operates_enveloped v d w e k).seq).trans h.div
  params := (operates_enveloped v d w e k).params.trans h.params
  plat := (operates_enveloped v d w e k).plat.trans h.plat
  gcr := (operates_enveloped v d w e k).gcr.trans h.gcr
  lve := (operates_enveloped v d w e k).lve.trans h.lve
  eraseCode := (eraseCode_enveloped v d w e k).trans h.eraseCode
  fresh := lfbFresh_closed _ k
  wf := by
    rw [flash_enveloped]
    exact wf_programmed (s := v.opened d) h.wf w e
  outside y hy := by
    have hbase := he.base
    have hpos := he.pos
    have hfits := he.fits
    rw [flash_enveloped, memRead_programmed_of_outside (s := v.opened d) h.wf (by omega)]
    exact h.outside y (by omega)
  inside hright y := by
    have hkept := h.inside hright y
    rw [memRead_enveloped h.wf (h.params ▸ hright) he]
    by_cases hy : a + c ≤ y ∧ y < a + c + n
    · rw [if_pos hy, if_pos (by omega), hkept, if_neg (by omega)]
      congr 2
      omega
    · rw [if_neg hy, hkept]
      have hrange : (a ≤ y ∧ y < a + c) ↔ (a ≤ y ∧ y < a + (c + n)) := by omega
      simp only [hrange]

/-- After an envelope the Write Guard's postcondition holds (R227). -/
theorem State.Wrote.guardDone (h : s.Wrote a bs d c v) (hu : (v.opened d).Operates u) (k : Nat) :
    GuardDone s (u.closed k) d where
  op := hu.op
  unlock := congrArg Params.lockKey (hu.params.trans h.params)
  af := hu.af
  doneFlag := hu.doneFlag
  clkdiv := hu.clkdiv
  lve := hu.lve.trans h.lve
  icc := rfl
  gcr := hu.gcr.trans h.gcr
  lfb := congrArg (fun p => some (dummyLine p u.flash)) (hu.params.trans h.params)
  plat := hu.plat.trans h.plat
  params := hu.params.trans h.params

end Wrote
end Sys2Proof.Machine
end

section
/-! SUPPORT. WRITE from its issue to its end under the eager schedule (spec/45_program_erase.md R244, R248, R249): the checks, the
three parts, and how far the command is between them. -/

namespace Sys2Proof.Machine

/-! ## The envelopes of WRITE (R224, R244) -/

section Order

variable {site : Site} (hsite : site = .head ∨ site = .chunk ∨ site = .tail)
include hsite

theorem inOrder_write_opening :
    InOrder .write (atSite site [.w1, .d1, .d2, .c1, .c2, .l2, .u1, .u2] ++ [.line site .g1]) := by
  rcases hsite with rfl | rfl | rfl <;> repeat' constructor

theorem inOrder_write_wordProgram : InOrder .write (atSite site wordProgram ++ [.line site .w7]) := by
  rcases hsite with rfl | rfl | rfl <;> repeat' constructor

theorem inOrder_write_closing :
    InOrder .write (atSite site ([.w7, .k1, .k2] ++ flushLineBuffer ++ enableIcache) ++ [.line site .advance]) := by
  rcases hsite with rfl | rfl | rfl <;> repeat' constructor

end Order

theorem inOrder_write_merge {site : Site} (hsite : site = .head ∨ site = .tail) :
    InOrder .write (atSite site [.m0, .m1, .m2, .m3, .spliceBytes]) := by
  rcases hsite with rfl | rfl <;> repeat' constructor

/-! ## The bytes that a part programs (R244, R245) -/

section Splices

variable {site : Site} {p : Word} {m : Memory} {bs : List Byte} {i n : Nat}

/-- The word that a part programs, at its own address where the cursor is aligned. -/
theorem toNat_writeAddr (hsite : site = .head ∨ p.toNat % 16 = 0) :
    (writeAddr site p).toNat = p.toNat - p.toNat % 16 := by
  rw [writeAddr]
  split
  · rw [BitVec.toNat_ofNat, Nat.mod_eq_of_lt (by omega)]
  · next hne => rw [hsite.resolve_left hne, Nat.sub_zero]

/-- The head and the tail program the containing word with the input spliced into it. -/
theorem splices_merge (hsite : site = .head ∨ (site = .tail ∧ p.toNat % 16 = 0)) (hpos : 0 < n)
    (hfits : p.toNat % 16 + n ≤ 16) :
    Splices m bs p.toNat i n (writeAddr site p)
      (writeLane site (splice (flashLine m (p.toNat - p.toNat % 16)) (p.toNat % 16) bs i n) bs i) where
  base := toNat_writeAddr (hsite.imp_right And.right)
  pos := hpos
  fits := hfits
  bytes j hj := by
    have hne : site ≠ .chunk := by
      rcases hsite with rfl | ⟨rfl, -⟩ <;> decide
    rw [ofLanes_writeLane, if_neg hne, flashByte_splice _ _ _ _ _ hj, flashByte_flashLine _ _ _ hj,
      toNat_writeAddr (hsite.imp_right And.right)]
    by_cases hin : p.toNat % 16 ≤ j ∧ j < p.toNat % 16 + n
    · rw [if_pos hin, if_pos (by omega)]
      congr 1
      omega
    · rw [if_neg hin, if_neg (by omega)]

/-- A chunk programs sixteen bytes of the input. -/
theorem splices_chunk (halign : p.toNat % 16 = 0) (w : FlashWord) :
    Splices m bs p.toNat i 16 (writeAddr .chunk p) (writeLane .chunk w bs i) where
  base := toNat_writeAddr (.inr halign)
  pos := by decide
  fits := by omega
  bytes j hj := by
    rw [ofLanes_writeLane, if_pos rfl, chunkAt, flashByte_ofBytes _ j hj, toNat_writeAddr (.inr halign), if_pos (by omega),
      seqByte]
    congr 1
    omega

end Splices

/-- The splice of the head and of the tail, from line to line. -/
theorem State.RunsAlone.advances_spliced {site : Site} {s : State} {p len i : Word} {bs : List Byte} {w : FlashWord}
    (h : s.RunsAlone .write) (hsite : site = .head ∨ site = .tail) (hp : s.seq.p = some p) (hlen : s.seq.opb = some len)
    (hbs : s.seq.bufIn = some bs) (hi : s.seq.i = some i) (hw : s.seq.w = some w) :
    s.Advances (.line site .spliceBytes)
      (s.withMerge (splice w (p.toNat % 16) bs i.toNat (partCount site len.toNat p.toNat i.toNat))) (.line site .w1) [] :=
  h.advances_internal fun _ _ => exec_spliceBytes hsite hp hlen hbs hi hw ⟨h.phase, rfl⟩

/-! ## The lines between the envelopes -/

section Between

variable {s : State} {p len i : Word}

theorem State.RunsAlone.advances_ifHead (h : s.RunsAlone .write) (hp : s.seq.p = some p) :
    s.Advances (.line .main .ifHead) s
      (if p.toNat % 16 ≠ 0 then .line .head .bindWord else .line .main .whileChunks) [] :=
  h.advances_internal fun _ _ => exec_ifHead hp ⟨h.phase, rfl⟩

/-- The lines that bind `w`, `off` and `n`. -/
theorem State.RunsAlone.advances_bind (h : s.RunsAlone .write) (hlen : s.seq.opb = some len) (hp : s.seq.p = some p)
    (hi : s.seq.i = some i) : s.Advances (.line .head .bindWord) s (.line .head .mergeCheck) [] := by
  have hword := h.advances_internal (s' := s) fun _ _ => exec_bindWord hp ⟨h.phase, rfl⟩
  have hcount := h.advances_internal (s' := s) fun _ _ => exec_bindCount hlen hp hi ⟨h.phase, rfl⟩
  exact hword.trans hcount

theorem State.RunsAlone.advances_whileChunks (h : s.RunsAlone .write) (hlen : s.seq.opb = some len)
    (hi : s.seq.i = some i) :
    s.Advances (.line .main .whileChunks) s
      (if 16 ≤ len.toNat - i.toNat then .line .chunk .w1 else .line .main .ifTail) [] :=
  h.advances_internal fun _ _ => exec_whileChunks hlen hi ⟨h.phase, rfl⟩

theorem State.RunsAlone.advances_ifTail (h : s.RunsAlone .write) (hlen : s.seq.opb = some len) (hi : s.seq.i = some i) :
    s.Advances (.line .main .ifTail) s
      (if 0 < len.toNat - i.toNat then .line .tail .mergeCheck else .line .main .done) [] :=
  h.advances_internal fun _ _ => exec_ifTail hlen hi ⟨h.phase, rfl⟩

/-- The cursor goes past the head. -/
theorem State.RunsAlone.advances_pastHead (h : s.RunsAlone .write) (hlen : s.seq.opb = some len) (hp : s.seq.p = some p)
    (hi : s.seq.i = some i) :
    s.Advances (.line .head .advance)
      (s.cursorAt (p + BitVec.ofNat 32 (min (len.toNat - i.toNat) (16 - p.toNat % 16)))
        (i + BitVec.ofNat 32 (min (len.toNat - i.toNat) (16 - p.toNat % 16)))) (.line .main .whileChunks) [] :=
  h.advances_internal fun _ _ => exec_advance_head hlen hp hi ⟨h.phase, rfl⟩

/-- The cursor goes past a chunk. -/
theorem State.RunsAlone.advances_pastChunk (h : s.RunsAlone .write) (hp : s.seq.p = some p) (hi : s.seq.i = some i) :
    s.Advances (.line .chunk .advance) (s.cursorAt (p + BitVec.ofNat 32 16) (i + BitVec.ofNat 32 16))
      (.line .main .whileChunks) [] :=
  h.advances_internal fun _ _ => exec_advance_chunk hp hi ⟨h.phase, rfl⟩

/-- The index goes past the tail. -/
theorem State.RunsAlone.advances_pastTail (h : s.RunsAlone .write) (hlen : s.seq.opb = some len) (hp : s.seq.p = some p) :
    s.Advances (.line .tail .advance) (s.cursorAt p len) (.line .main .done) [] := by
  rw [State.cursorAt, ← hp]
  exact h.advances_internal fun _ _ => exec_advance_tail hlen ⟨h.phase, rfl⟩

end Between

/-! ## How far WRITE is -/

/-- WRITE has just been issued with operands that pass its checks (R240, R244). -/
structure State.WriteIssued (s : State) (a len : Word) (bs : List Byte) (d : Byte) : Prop where
  launched : s.Launched .write
  wf : Memory.wf s.flash = true
  fresh : s.lfbFresh = true
  opa : s.seq.opa = some a
  opb : s.seq.opb = some len
  bufIn : s.seq.bufIn = some bs
  shape : bs.length = len.toNat
  clock : ∃ f, s.seq.opf = some f ∧ clkdivOf f = some d
  low : 0x10000000 ≤ a.toNat
  pos : 0 < len.toNat
  high : a.toNat + len.toNat ≤ 0x10080000

/-- WRITE's cursor and index, after `c` bytes from the address `a` on. -/
structure State.AtByte (u : State) (a c : Nat) (p i : Word) : Prop where
  holdsCursor : u.seq.p = some p
  holdsIndex : u.seq.i = some i
  cursor : p.toNat = a + c
  index : i.toNat = c

/-- The WRITE of `s` has come to the label `n` in `u` with `c` bytes written, and has started one program for each word that
they touch. -/
structure State.WriteAt (s : State) (a len : Word) (bs : List Byte) (d : Byte) (n : Label) (c : Nat) (u : State) : Prop where
  starts : s.Starts s.params.regmap (.line .main .checkShape) u n (wordsTouched a.toNat c)
  wrote : s.Wrote a.toNat bs d c u
  guard : 0 < c → GuardDone s u d
  le : c ≤ len.toNat

theorem wordsTouched_eq (a len : Nat) : wordsTouched a len = (a + len + 15) / 16 - a / 16 := by
  simp only [wordsTouched, alignDown]
  omega

section Write

variable {s u v : State} {a len p i : Word} {bs : List Byte} {d : Byte} {site : Site} {l : Line} {m : Label} {c n : Nat}

/-! ## The checks (R240) -/

/-- The checks of WRITE, the divisor, and the cursor at the address. -/
theorem State.WriteIssued.advances_checked (hs : s.WriteIssued a len bs d) :
    s.Advances (.line .main .checkShape) ((s.divisorTaken d).cursorAt a 0) (.line .main .ifHead) [] := by
  obtain ⟨f, hopf, hdiv⟩ := hs.clock
  have h := hs.launched.runsAlone
  have hshape : Follows .write .main .checkShape (.line .main .checkRange) := rfl
  have hrange : Follows .write .main .checkRange (.line .main .checkClock) := rfl
  have hclock : Follows .write .main .checkClock (.line .main .setDiv) := rfl
  have hset : Follows .write .main .setDiv (.line .main .initCursor) := rfl
  have hshaped := h.advances_internal (s' := s) fun tv hist =>
    (exec_write_checkShape (h.runs_standingAt hshape tv hist) hs.bufIn hs.opb).2 hs.shape
  have hranged := h.advances_internal (s' := s) (n := .line .main .checkClock) fun tv hist => by
    have hexec := exec_checkRange (h.runs_standingAt hrange tv hist) hs.opa (rangeStop_of_eq_some hs.opa hs.opb) hrange
    rwa [if_pos ⟨hs.low, hs.pos, hs.high⟩] at hexec
  have hclocked := h.advances_internal (s' := s) (n := .line .main .setDiv) fun tv hist =>
    exec_checkClock_of_some (h.runs_standingAt hclock tv hist) hopf hdiv hclock
  have htaken := h.advances_internal (s' := s.divisorTaken d) fun tv hist =>
    exec_setDiv (h.runs_standingAt hset tv hist) hopf hdiv hset
  have hstarted := (h.withDiv (some d)).advances_internal (s' := (s.divisorTaken d).cursorAt a 0) fun tv hist =>
    exec_initCursor hs.opa ⟨h.phase, rfl⟩
  exact hshaped.trans (hranged.trans (hclocked.trans (htaken.trans hstarted)))

/-- With the checks done nothing is written yet. -/
theorem State.WriteIssued.wrote_zero (hs : s.WriteIssued a len bs d) :
    s.Wrote a.toNat bs d 0 ((s.divisorTaken d).cursorAt a 0) where
  runs := (hs.launched.runsAlone.withDiv _).cursorAt a 0
  port := rfl
  div := rfl
  params := rfl
  plat := rfl
  gcr := rfl
  lve := rfl
  eraseCode := rfl
  fresh := hs.fresh
  wf := hs.wf
  outside _ _ := rfl
  inside _ x := (if_neg (by omega)).symm

/-! ## The parts (R244) -/

/-- The operands are as they were at the issue. -/
theorem State.Wrote.opb (h : s.Wrote a.toNat bs d c u) (hs : s.WriteIssued a len bs d) : u.seq.opb = some len :=
  (congrArg Seq.opb h.port).trans hs.opb

theorem State.Wrote.bufIn (h : s.Wrote a.toNat bs d c u) (hs : s.WriteIssued a len bs d) : u.seq.bufIn = some bs :=
  (congrArg Seq.bufIn h.port).trans hs.bufIn

/-- The envelope of a part. -/
theorem State.WriteIssued.starts_part (hs : s.WriteIssued a len bs d) (h : s.Wrote a.toNat bs d c v)
    (hat : v.AtByte a.toNat c p i) (hsite : site = .head ∨ site = .chunk ∨ site = .tail) (hc : c < len.toNat) {w : FlashWord}
    (hw : site ≠ .chunk → v.seq.w = some w)
    (he : Splices v.flash bs p.toNat i.toNat n (writeAddr site p) (writeLane site w bs i.toNat)) :
    ∃ u, v.Starts s.params.regmap (.line site .w1) u (.line site .advance) 1 ∧ s.Wrote a.toNat bs d (c + n) u
      ∧ GuardDone s u d ∧ u.AtByte a.toNat c p i := by
  obtain ⟨hp, hi, hcursor, rfl⟩ := hat
  have hlow := hs.low
  have hhigh := hs.high
  have hbase := he.base
  have hword := givesWord_write hsite hp hi hw fun _ => h.bufIn hs
  obtain ⟨k, hstarts⟩ := h.runs.starts_envelope (h.params ▸ hs.launched.params) (h.params ▸ hs.launched.fair) h.div hword
    (by omega) (by omega) (by omega) (inOrder_write_opening hsite) (inOrder_write_wordProgram hsite)
    (inOrder_write_closing hsite)
  have hseq := (operates_enveloped v d (writeAddr site p) (writeLane site w bs i.toNat) k).seq
  rw [h.params] at hstarts
  rw [hcursor] at he
  exact ⟨_, hstarts, h.enveloped he k, h.guardDone (State.operates_programmed _ _ _) k,
    (congrArg Seq.p hseq).trans hp, (congrArg Seq.i hseq).trans hi, hcursor, rfl⟩

/-- The head and the tail: the merge, the splice and the envelope. -/
theorem State.WriteIssued.starts_mergedPart (hs : s.WriteIssued a len bs d) (h : s.Wrote a.toNat bs d c u)
    (hat : u.AtByte a.toNat c p i) (hsite : site = .head ∨ (site = .tail ∧ p.toNat % 16 = 0)) (hc : c < len.toNat)
    (hn : partCount site len.toNat p.toNat i.toNat = n) (hpos : 0 < n) (hfits : p.toNat % 16 + n ≤ 16) :
    ∃ v, u.Starts s.params.regmap (.line site .mergeCheck) v (.line site .advance) 1 ∧ s.Wrote a.toNat bs d (c + n) v
      ∧ GuardDone s v d ∧ v.AtByte a.toNat c p i := by
  obtain ⟨hp, hi, hcursor, hindex⟩ := hat
  have hpart : site = .head ∨ site = .tail := hsite.imp_right And.left
  have hlow := hs.low
  have hhigh := hs.high
  obtain ⟨tr, hmerged, htr⟩ := h.runs.advances_merged hsite hp (by omega) (by omega) h.fresh (inOrder_write_merge hpart)
  have hread := (h.bufferedLine p u.draws).withMerge (flashLine u.flash (p.toNat - p.toNat % 16))
  have hspliced := hread.runs.advances_spliced hpart hp (h.opb hs) (h.bufIn hs) hi rfl
  have hmid := hread.withMerge
    (splice (flashLine u.flash (p.toNat - p.toNat % 16)) (p.toNat % 16) bs i.toNat n)
  obtain ⟨v, hstarts, hwrote, hguard, hatv⟩ :=
      hs.starts_part hmid ⟨hp, hi, hcursor, hindex⟩ (hpart.imp_right .inr) hc (fun _ => rfl)
    (splices_merge hsite hpos hfits)
  rw [hn] at hspliced
  have hbefore := (hmerged.trans hspliced).starts_zero (m := s.params.regmap) (by simpa using htr _)
  exact ⟨v, hbefore.trans hstarts, hwrote, hguard, hatv⟩

/-- Lines without a bus access start no program. -/
theorem State.Starts.internal {m : RegMap} {x y z : Label} (h : s.Starts m x u y c) (hnext : u.Advances y v z []) :
    s.Starts m x v z c :=
  h.trans (hnext.starts_zero List.not_mem_nil)

/-- After a part the cursor and the index are `n` bytes on. -/
theorem State.AtByte.advance (h : u.AtByte a.toNat c p i) (hin : a.toNat + (c + n) ≤ 0x10080000) :
    (v.cursorAt (p + BitVec.ofNat 32 n) (i + BitVec.ofNat 32 n)).AtByte a.toNat (c + n) (p + BitVec.ofNat 32 n)
      (i + BitVec.ofNat 32 n) := by
  obtain ⟨-, -, hcursor, hindex⟩ := h
  refine ⟨rfl, rfl, ?_, ?_⟩
  · rw [BitVec.toNat_add, BitVec.toNat_ofNat]
    omega
  · rw [BitVec.toNat_add, BitVec.toNat_ofNat]
    omega

theorem GuardDone.cursorAt (h : GuardDone s u d) (p i : Word) : GuardDone s (u.cursorAt p i) d := { h with }

/-- The head takes the bytes up to the next word, or all of them (R244 step (1)). -/
theorem State.WriteIssued.writeAt_pastHead (hs : s.WriteIssued a len bs d) (h : s.Wrote a.toNat bs d 0 u)
    (hat : u.AtByte a.toNat 0 p i)
    (hstarts : s.Starts s.params.regmap (.line .main .checkShape) u (.line .head .bindWord) 0) :
    ∃ c v q j, s.WriteAt a len bs d (.line .main .whileChunks) c v ∧ v.AtByte a.toNat c q j
      ∧ (c = len.toNat ∨ q.toNat % 16 = 0) := by
  have hpos := hs.pos
  have hhigh := hs.high
  have ⟨hp, hi, hcursor, hindex⟩ := hat
  obtain ⟨n, hn⟩ : ∃ n, min (len.toNat - i.toNat) (16 - p.toNat % 16) = n := ⟨_, rfl⟩
  have hbound := h.runs.advances_bind (h.opb hs) hp hi
  obtain ⟨v, hpart, hwrote, hguard, hatv⟩ := hs.starts_mergedPart h hat (.inl rfl) hs.pos hn (by omega) (by omega)
  have hpast := hwrote.runs.advances_pastHead (hwrote.opb hs) hatv.holdsCursor hatv.holdsIndex
  rw [hn] at hpast
  have hmoved := hatv.advance (v := v) (n := n) (by omega)
  have hcursor' := hmoved.cursor
  have hwords : wordsTouched a.toNat (0 + n) = 0 + 1 := by
    rw [wordsTouched_eq]
    omega
  refine ⟨0 + n, _, _, _, ⟨?_, hwrote.cursorAt _ _, fun _ => hguard.cursorAt _ _, by omega⟩, hmoved, by omega⟩
  rw [hwords]
  exact ((hstarts.internal hbound).trans hpart).internal hpast

/-- Up to the loop: the checks, and the head where the address is not aligned (R244 step (1)). -/
theorem State.WriteIssued.writeAt_whileChunks (hs : s.WriteIssued a len bs d) :
    ∃ c u p i, s.WriteAt a len bs d (.line .main .whileChunks) c u ∧ u.AtByte a.toNat c p i
      ∧ (c = len.toNat ∨ p.toNat % 16 = 0) := by
  have hzero := hs.wrote_zero
  have hat : ((s.divisorTaken d).cursorAt a 0).AtByte a.toNat 0 a 0 := ⟨rfl, rfl, rfl, rfl⟩
  have hbranch := (hs.advances_checked.starts_zero (m := s.params.regmap) List.not_mem_nil).internal
    (hzero.runs.advances_ifHead rfl)
  by_cases halign : a.toNat % 16 = 0
  · rw [if_neg (not_not.mpr halign)] at hbranch
    have hwords : 0 = wordsTouched a.toNat 0 := by
      rw [wordsTouched_eq]
      omega
    rw [hwords] at hbranch
    exact ⟨0, _, a, 0, ⟨hbranch, hzero, nofun, Nat.zero_le _⟩, hat, .inr halign⟩
  · rw [if_pos halign] at hbranch
    exact hs.writeAt_pastHead hzero hat hbranch

/-- One full chunk (R244 step (2)). -/
theorem State.WriteAt.afterChunk (h : s.WriteAt a len bs d (.line .main .whileChunks) c u) (hs : s.WriteIssued a len bs d)
    (hat : u.AtByte a.toNat c p i) (halign : p.toNat % 16 = 0) (hc : c + 16 ≤ len.toNat) :
    ∃ v q j, s.WriteAt a len bs d (.line .main .whileChunks) (c + 16) v ∧ v.AtByte a.toNat (c + 16) q j
      ∧ q.toNat % 16 = 0 := by
  have hhigh := hs.high
  have ⟨hp, hi, hcursor, hindex⟩ := hat
  have hbranch := h.starts.internal (h.wrote.runs.advances_whileChunks (h.wrote.opb hs) hi)
  rw [if_pos (by omega)] at hbranch
  obtain ⟨v, hpart, hwrote, hguard, hatv⟩ := hs.starts_part h.wrote hat (.inr (.inl rfl)) (by omega) (w := 0)
    (fun hne => absurd rfl hne) (splices_chunk halign 0)
  have hpast := hwrote.runs.advances_pastChunk hatv.holdsCursor hatv.holdsIndex
  have hmoved := hatv.advance (v := v) (n := 16) (by omega)
  have hcursor' := hmoved.cursor
  have hwords : wordsTouched a.toNat (c + 16) = wordsTouched a.toNat c + 1 := by
    simp only [wordsTouched_eq]
    omega
  refine ⟨_, _, _, ⟨?_, hwrote.cursorAt _ _, fun _ => hguard.cursorAt _ _, hc⟩, hmoved, by omega⟩
  rw [hwords]
  exact (hbranch.trans hpart).internal hpast

/-- The loop of the full chunks, up to the tail (R244 step (2)). -/
theorem State.WriteAt.toIfTail (h : s.WriteAt a len bs d (.line .main .whileChunks) c u) (hs : s.WriteIssued a len bs d)
    (hat : u.AtByte a.toNat c p i) (halign : c = len.toNat ∨ p.toNat % 16 = 0) :
    ∃ c v q j, s.WriteAt a len bs d (.line .main .ifTail) c v ∧ v.AtByte a.toNat c q j
      ∧ (c = len.toNat ∨ (q.toNat % 16 = 0 ∧ len.toNat < c + 16)) := by
  obtain ⟨k, hk⟩ : ∃ k, (len.toNat - c) / 16 = k := ⟨_, rfl⟩
  induction k generalizing c u p i with
  | zero =>
    have hle := h.le
    have hindex := hat.index
    have hbranch := h.starts.internal (h.wrote.runs.advances_whileChunks (h.wrote.opb hs) hat.holdsIndex)
    rw [if_neg (by omega)] at hbranch
    exact ⟨c, u, p, i, ⟨hbranch, h.wrote, h.guard, hle⟩, hat, by omega⟩
  | succ k ih =>
    obtain ⟨v, q, j, hv, hatv, halignv⟩ := h.afterChunk hs hat (halign.resolve_left (by omega)) (by omega)
    exact ih hv hatv (.inr halignv) (by omega)

/-- The tail takes the bytes that remain (R244 step (3)). -/
theorem State.WriteAt.toDone (h : s.WriteAt a len bs d (.line .main .ifTail) c u) (hs : s.WriteIssued a len bs d)
    (hat : u.AtByte a.toNat c p i) (halign : c = len.toNat ∨ (p.toNat % 16 = 0 ∧ len.toNat < c + 16)) :
    ∃ v, s.WriteAt a len bs d (.line .main .done) len.toNat v := by
  have hle := h.le
  have ⟨hp, hi, hcursor, hindex⟩ := hat
  have hbranch := h.starts.internal (h.wrote.runs.advances_ifTail (h.wrote.opb hs) hi)
  by_cases hrest : 0 < len.toNat - i.toNat
  · rw [if_pos hrest] at hbranch
    obtain ⟨halign, hshort⟩ := halign.resolve_left (by omega)
    obtain ⟨v, hpart, hwrote, hguard, hatv⟩ := hs.starts_mergedPart (n := len.toNat - i.toNat) h.wrote hat
      (.inr ⟨rfl, halign⟩) (by omega) rfl hrest (by omega)
    have hpast := hwrote.runs.advances_pastTail (hwrote.opb hs) hatv.holdsCursor
    have hwords : wordsTouched a.toNat len.toNat = wordsTouched a.toNat c + 1 := by
      simp only [wordsTouched_eq]
      omega
    rw [show c + (len.toNat - i.toNat) = len.toNat by omega] at hwrote
    refine ⟨_, ?_, hwrote.cursorAt p len, fun _ => hguard.cursorAt p len, le_rfl⟩
    rw [hwords]
    exact (hbranch.trans hpart).internal hpast
  · rw [if_neg hrest] at hbranch
    obtain rfl : c = len.toNat := by omega
    exact ⟨u, hbranch, h.wrote, h.guard, hle⟩

/-- WRITE comes to its last line with all its bytes written. -/
theorem State.WriteIssued.writeAt_done (hs : s.WriteIssued a len bs d) :
    ∃ u, s.WriteAt a len bs d (.line .main .done) len.toNat u := by
  obtain ⟨c, u, p, i, hloop, hat, halign⟩ := hs.writeAt_whileChunks
  obtain ⟨c', v, q, j, htail, hat', halign'⟩ := hloop.toIfTail hs hat halign
  exact htail.toDone hs hat' halign'

/-! ## The end of WRITE -/

/-- What the end of WRITE leaves of the sequencer. -/
theorem State.Wrote.seqDone (h : s.Wrote a.toNat bs d c u) (hist : List Event) :
    SeqDone s { u.completed with history := hist } 0 ∧ PortKept s { u.completed with history := hist } := by
  have hq : ({ u.completed with history := hist } : State).seq = s.completed.seq :=
    congrArg (fun q : Seq => { q with phase := .idle, status := some 0 }) h.port
  constructor
  · constructor <;> rw [hq] <;> rfl
  · constructor <;> rw [hq] <;> rfl

theorem GuardDone.completed (h : GuardDone s u d) (hist : List Event) :
    GuardDone s { u.completed with history := hist } d := { h with }

end Write

/-- Settles O42: WRITE comes to its last line part by part, and what is written there is its range. -/
theorem writeProgramsItsRange : Obligations.WriteProgramsItsRange := by
  intro s a len f bs d h hwf hfresh hopa hopb hbufIn hshape hopf hf hd hlow hpos hhigh
  have hs : s.WriteIssued a len bs d :=
    ⟨h, hwf, hfresh, hopa, hopb, hbufIn, hshape, ⟨f, hopf, clkdivOf_of_eq_mul hf hd⟩, hlow, hpos, hhigh⟩
  obtain ⟨u, hstarts, hwrote, hguard, -⟩ := hs.writeAt_done
  obtain ⟨k, new, hreach, hcount⟩ := hstarts.completes h.step hwrote.runs (by decide)
  obtain ⟨hseq, hport⟩ := hwrote.seqDone (new ++ s.history)
  refine ⟨k, _, new, hreach, hseq, (hguard hpos).completed _, hwrote.wf, hport, hwrote.eraseCode, hwrote.outside,
    fun hright => ⟨fun x hx => ?beyond, fun j hj => ?range⟩, rfl, hcount.trans (wordsTouched_eq _ _)⟩
  case beyond => exact (hwrote.inside hright x).trans (if_neg hx)
  case range =>
    have hbyte := hwrote.inside hright (a.toNat + j)
    rwa [if_pos (by omega), Nat.add_sub_cancel_left] at hbyte

end Sys2Proof.Machine
end

section
/-! SUPPORT. HALT, the illegal command words and the halt loop (spec/46_read_and_halt.md R275, R276, R279; spec/60_exceptions.md
R303, R308): their lines, the step of a halted SEQ, and what no step of a halted machine changes before a reset. -/

namespace Sys2Proof.Machine

section HaltLines

variable {i : Instr} {s t : State} {k : Nat} {rest : List Agent}

/-- HALT's one line (R275) halts with the cause PANIC. -/
theorem exec_haltPanic (hat : s.At .main .haltPanic) : exec .halt s = .next (haltWith .panic s) := by
  obtain ⟨-, hstep⟩ := hat
  rw [exec_eq_performLine .halt .main .haltPanic s hstep (by decide), performLine]

/-- The one line of an illegal word (R308) fails with ILLEGAL. -/
theorem exec_failIllegal (hi : programOf i = illegalProgram) (hat : s.At .main .failIllegal) :
    exec i s = .next (s.failed .illegal 4) := by
  obtain ⟨-, hstep⟩ := hat
  have hmem : Label.line .main .failIllegal ∈ programOf i := hi ▸ List.mem_cons_self
  rw [exec_eq_performLine i .main .failIllegal s hstep hmem, performLine, fail_eq_failed]
  rfl

/-! ## The halt loop (R276) -/

/-- A position of the halt loop branches to its label, and what is past the last position stops. -/
theorem haltLoopStep_eq (hstep : s.seq.step = some (.haltLoop k)) :
    haltLoopStep s
      = if k < s.params.haltBranchCount then .next (s.movedTo (.haltLoop 0)) else .fault .strayStep := by
  rw [haltLoopStep, hstep]
  rfl

/-- The step of the machine is the halt loop's where the schedule names a halted SEQ whose code can be fetched. -/
theorem step_of_halted (hphase : s.seq.phase = .halted) (hs : s.sched = .seq :: rest)
    (hcode : s.params.seqCodeInRam = true ∨ s.flc.op = .none) : step s = haltLoopStep { s with sched := rest } := by
  have hready : agentReady .seq { s with sched := rest } = true := by simp [agentReady, hphase]
  have hram : (!s.params.seqCodeInRam && s.flc.pend) = false := by
    rcases hcode with hcode | hcode <;> simp [pend_eq_decide, hcode]
  rw [step_of_scheduled hs hready]
  simp [agentMove, seqMove, hram, hphase]

end HaltLines

/-- Settles O36: HALT's line, the line of the illegal words, and the step of the halt loop by its position. -/
theorem haltAndIllegalEndTheCommand : Obligations.HaltAndIllegalEndTheCommand := by
  intro s
  refine ⟨exec_haltPanic, fun rsv opc hat i hi => ?illegal, fun k rest hphase hstep hs hcode => ?loop⟩
  case illegal =>
    have hprogram : programOf i = illegalProgram := by fin_cases hi <;> rfl
    exact exec_failIllegal hprogram hat
  case loop =>
    have hloop : step s
        = if k < s.params.haltBranchCount then .next ({ s with sched := rest }.movedTo (.haltLoop 0))
          else .fault .strayStep :=
      (step_of_halted hphase hs hcode).trans (haltLoopStep_eq (s := { s with sched := rest }) hstep)
    exact ⟨fun hin => hloop.trans (if_pos hin), fun hpast => hloop.trans (if_neg hpast)⟩

/-! ## A halted machine (R279) -/

/-- What a halted machine keeps until a reset: the sequencer and its port but for the position in the halt loop, HOST's queue,
the platform flags and the line-fill buffer. -/
structure HaltKept (s t : State) : Prop where
  seq : t.seq = { s.seq with step := t.seq.step }
  hostQueue : t.hostQueue = s.hostQueue
  plat : t.plat = s.plat
  lfb : t.lfb = s.lfb

section Halted

variable {s t u : State}

theorem HaltKept.refl (s : State) : HaltKept s s := ⟨rfl, rfl, rfl, rfl⟩

theorem HaltKept.trans (hst : HaltKept s t) (htu : HaltKept t u) : HaltKept s u where
  seq := by
    rw [htu.seq, hst.seq]
  hostQueue := htu.hostQueue.trans hst.hostQueue
  plat := htu.plat.trans hst.plat
  lfb := htu.lfb.trans hst.lfb

/-- The phase is kept. -/
theorem HaltKept.phase (h : HaltKept s t) : t.seq.phase = s.seq.phase := by rw [h.seq]

/-- Whether HOST's next step is a reset is read off its queue. -/
theorem HaltKept.resetPending_eq (h : HaltKept s t) : resetPending t = resetPending s := by
  rw [resetPending, h.hostQueue, resetPending]

/-- FLCE's step changes nothing of it. -/
theorem HaltKept.flceStep (s : State) : HaltKept s (flceStep s) := by
  rcases flceStep_cases s with ⟨-, e⟩ | ⟨a, d, ok, -, e⟩ | ⟨p, ok, -, e⟩ <;> rw [e]
  all_goals exact ⟨rfl, rfl, rfl, rfl⟩

/-- While SEQ is halted HOST has no step but a reset (R331). -/
theorem hostReady_of_halted (hphase : s.seq.phase = .halted) : hostReady s = resetPending s := by
  unfold hostReady resetPending
  cases s.hostQueue with
  | nil => rfl
  | cons e rest => cases e <;> simp [hphase]

/-- One step of a halted machine with no reset pending: an engine's, or SEQ's in the halt loop. -/
theorem HaltKept.of_step (hphase : s.seq.phase = .halted) (hreset : resetPending s = false)
    (h : step s = .next t) : HaltKept s t := by
  obtain ⟨s', sch, rfl, h⟩ := step_cases s t h
  have unscheduled (hkept : HaltKept { s with sched := sch } t) : HaltKept s t :=
    ⟨hkept.seq, hkept.hostQueue, hkept.plat, hkept.lfb⟩
  refine unscheduled ?_
  rcases h with rfl | ⟨-, h⟩ | ⟨-, rfl⟩ | ⟨hbusy, rfl⟩ | ⟨hbusy, rfl⟩ | ⟨hready, -⟩
  · exact .refl _
  · rcases seqMove_next _ t h with ⟨hidle, -⟩ | ⟨-, -, rfl⟩ | ⟨hbusy, -⟩
    · cases hphase.symm.trans hidle
    · exact ⟨rfl, rfl, rfl, rfl⟩
    · cases hphase.symm.trans hbusy
  · exact .flceStep _
  · rw [icceStep_of_busy hbusy]
    exact ⟨rfl, rfl, rfl, rfl⟩
  · rw [gcreStep_of_busy hbusy]
    exact ⟨rfl, rfl, rfl, rfl⟩
  · have hpending : resetPending { s with sched := sch } = true := hostReady_of_halted hphase ▸ hready
    cases hreset.symm.trans hpending

/-- Any number of steps of a halted machine with no reset pending. -/
theorem HaltKept.of_reaches {k : Nat} (hphase : s.seq.phase = .halted) (hreset : resetPending s = false)
    (h : Reaches k s t) : HaltKept s t := by
  induction k generalizing s with
  | zero =>
    cases h
    exact .refl _
  | succ k ih =>
    obtain ⟨u, hstep, hrest⟩ := Reaches.of_succ h
    have hkept : HaltKept s u := .of_step hphase hreset hstep
    exact hkept.trans (ih (hkept.phase.trans hphase) (hkept.resetPending_eq.trans hreset) hrest)

end Halted

/-- Settles O57: each step of a halted machine with no reset pending keeps what the statement names, and leaves it halted with
no reset pending. -/
theorem haltedIsLeftOnlyByReset : Obligations.HaltedIsLeftOnlyByReset := by
  intro s t k hphase hreset hreach
  obtain ⟨hseq, hqueue, hplat, hlfb⟩ := HaltKept.of_reaches hphase hreset hreach
  exact ⟨hseq, hqueue, hplat, hlfb⟩

end Sys2Proof.Machine
end

section
/-! SUPPORT. READ32 and READ (spec/46_read_and_halt.md R270, R271): their lines after the checks, with a fresh or empty buffer, and
the two commands from their issue to their end under the eager schedule (log entry 7). -/

namespace Sys2Proof.Machine

/-! ## The lines -/

section ReadLines

variable {n : Label} {s t : State} {a b k len v : Word} {d : FlashWord}

/-- An 8-bit read by a line while nothing is in flight: the byte of the line read, and the access recorded (R158). -/
theorem memReadByte_of_lineRead (hlow : 0x10000000 ≤ b.toNat) (hhigh : b.toNat < 0x10080000) (hop : s.flc.op = .none)
    (hread : lineRead (wordBase b.toNat) s = (d, t)) :
    memReadByte b s = .next (flashByte d (wordOffset b.toNat),
      t.afterFlashRead b (0#24 ++ flashByte d (wordOffset b.toNat))) := by
  have hidle : ¬ s.flc.pend = true := by simp [pend_eq_decide, hop]
  rw [memReadByte, if_neg (not_not.mpr ⟨hlow, hhigh⟩), if_neg hidle]
  simp only [hread, setWidth_eq_append]
  rfl

/-- R1 reads the array's word into `SEQ.T`. -/
theorem exec_r1 (hopa : s.seq.opa = some a) (hop : s.flc.op = .none) (hfresh : s.lfbFresh = true)
    (halign : a.toNat % 4 = 0) (hlow : 0x10000000 ≤ a.toNat) (hhigh : a.toNat + 4 ≤ 0x10080000)
    (hat : s.At .main .r1) :
    exec .read32 s = .next (({ s with
      lfb := some ⟨a.toNat - a.toNat % 16, flashLine s.flash (a.toNat - a.toNat % 16)⟩
      seq := { s.seq with t := some (flashWordAt s.flash a.toNat) } }.afterFlashRead a
        (flashWordAt s.flash a.toNat)).movedTo (.line .main .setResult)) := by
  obtain ⟨-, hstep⟩ := hat
  have hn : Follows .read32 .main .r1 (.line .main .setResult) := rfl
  have haddr : (operandsOf .read32 s.seq).addr = some a := hopa
  have hread := memReadWord_of_lineRead ((dummyAddrOk_iff a).mpr ⟨halign, hlow, hhigh⟩) hop
    (lineRead_of_lfbFresh hfresh (wordBase a.toNat))
  rw [wordAtOffset_flashLine s.flash halign] at hread
  rw [exec_eq_performLine .read32 .main .r1 s hstep (mem_of_lineAfter hn), performLine, haddr, need_some, hread,
    andThen_next]
  exact advanceStep_of_follows hn _

/-- The next line copies `SEQ.T` to RESULT. -/
theorem exec_setResult (ht : s.seq.t = some v) (hat : s.At .main .setResult) :
    exec .read32 s = .next ({ s with seq := { s.seq with result := some v } }.movedTo (.line .main .done)) := by
  obtain ⟨-, hstep⟩ := hat
  have hn : Follows .read32 .main .setResult (.line .main .done) := rfl
  rw [exec_eq_performLine .read32 .main .setResult s hstep (mem_of_lineAfter hn), performLine, ht, needWork_some]
  exact advanceStep_of_follows hn _

/-- The meaning of READ at a line that another follows. -/
theorem exec_read_eq {l : Line} (hat : s.At .main l) (hn : Follows .read .main l n) :
    exec .read s = performLine (readOperands s.seq) .main l (advanceStep readProgram (.line .main l)) s := by
  obtain ⟨-, hstep⟩ := hat
  exact exec_eq_performLine .read .main l s hstep (mem_of_lineAfter hn)

/-- The index starts at 0. -/
theorem exec_initIndex (hat : s.At .main .initIndex) :
    exec .read s = .next ({ s with seq := { s.seq with i := some 0 } }.movedTo (.line .main .whileBytes)) := by
  have hn : Follows .read .main .initIndex (.line .main .whileBytes) := rfl
  rw [exec_read_eq hat hn, performLine]
  exact advanceStep_of_follows hn _

/-- Q1: the bytes go on while the index is below the length. -/
theorem exec_whileBytes (hlen : s.seq.opb = some len) (hk : s.seq.i = some k) (hat : s.At .main .whileBytes) :
    exec .read s = .next (s.movedTo (.line .main (if k.toNat < len.toNat then .readByte else .done))) := by
  have hn : Follows .read .main .whileBytes (.line .main .readByte) := rfl
  have hlenOp : (readOperands s.seq).len = some len.toNat := congrArg (Option.map fun x : Word => x.toNat) hlen
  rw [exec_read_eq hat hn, performLine, hlenOp, need_some, hk, needWork_some]
  split
  · exact advanceStep_of_follows hn s
  · rfl

/-- The byte at address plus index goes to BUF_OUT at that index. The sum does not wrap for a byte of flash. -/
theorem exec_readByte (hopa : s.seq.opa = some a) (hk : s.seq.i = some k) (hop : s.flc.op = .none)
    (hfresh : s.lfbFresh = true) (hlow : 0x10000000 ≤ a.toNat) (hhigh : a.toNat + k.toNat < 0x10080000)
    (hat : s.At .main .readByte) :
    exec .read s = .next (({ s with
      lfb := some ⟨(a + k).toNat - (a + k).toNat % 16, flashLine s.flash ((a + k).toNat - (a + k).toNat % 16)⟩
      seq := { s.seq with
        bufOut := some ((s.seq.bufOut.getD []).take k.toNat ++ [memRead s.flash (a.toNat + k.toNat)]) }
      }.afterFlashRead (a + k) (0#24 ++ memRead s.flash (a.toNat + k.toNat))).movedTo (.line .main .nextByte)) := by
  have hn : Follows .read .main .readByte (.line .main .nextByte) := rfl
  have haddr : (readOperands s.seq).addr = some a := hopa
  have hsum : (a + k).toNat = a.toNat + k.toNat := by
    rw [BitVec.toNat_add]
    omega
  have hbyte : flashByte (flashLine s.flash (wordBase (a + k).toNat)) (wordOffset (a + k).toNat)
      = memRead s.flash (a.toNat + k.toNat) :=
    hsum ▸ flashByte_flashLine_wordBase s.flash (j := 0) (Nat.mod_lt _ (by decide))
  have hread := memReadByte_of_lineRead (b := a + k) (by omega) (by omega) hop
    (lineRead_of_lfbFresh hfresh (wordBase (a + k).toNat))
  rw [hbyte] at hread
  rw [exec_read_eq hat hn, performLine, readByteLine, haddr, need_some, hk, needWork_some, hread, andThen_next,
    andThen_next]
  exact advanceStep_of_follows hn _

/-- The index goes to the next byte. -/
theorem exec_nextByte (hk : s.seq.i = some k) (hat : s.At .main .nextByte) :
    exec .read s
      = .next ({ s with seq := { s.seq with i := some (k + 1) } }.movedTo (.line .main .whileBytes)) := by
  have hn : Follows .read .main .nextByte (.line .main .done) := rfl
  rw [exec_read_eq hat hn, performLine, hk, needWork_some]
  rfl

end ReadLines

/-- Settles O32: each of these lines by its own equation. -/
theorem readLinesReadTheArray : Obligations.ReadLinesReadTheArray := by
  intro s a hopa hop hfresh
  exact ⟨fun hrun halign hlow hhigh => exec_r1 hopa hop hfresh halign hlow hhigh hrun.1,
    fun hrun v hv => exec_setResult hv hrun.1, fun hrun => exec_initIndex hrun.1,
    fun k len hk hlen => ⟨fun hrun => exec_whileBytes hlen hk hrun.1,
      fun hrun hlow hhigh => exec_readByte hopa hk hop hfresh hlow hhigh hrun.1, fun hrun => exec_nextByte hk hrun.1⟩⟩

/-! ## The two commands (R270, R271) -/

/-- What a completed command leaves of the sequencer, where its lines wrote no port register but RESULT or BUF_OUT. -/
theorem seqDone_completed {s t : State} {i v : Option Word} {out : Option (List Byte)}
    (hseq : t.seq = { s.seq with i := i, result := v, bufOut := out }) (hist : List Event) :
    SeqDone s { t.completed with history := hist } 0 := by
  constructor <;> simp [State.completed, hseq]

section Read32

variable {s : State} {a : Word}

/-- `s` with the line of the array that holds an address in the buffer, and the array's word there in RESULT. -/
def State.wordReturned (s : State) (a : Word) : State :=
  { s with
    lfb := some (lineOf s.flash a)
    seq := { s.seq with result := some (flashWordAt s.flash a.toNat) } }

/-- The checks of READ32, which pass. -/
theorem read32_checks (h : s.RunsAlone .read32) (hopa : s.seq.opa = some a) (halign : a.toNat % 4 = 0)
    (hlow : 0x10000000 ≤ a.toNat) (hhigh : a.toNat + 4 ≤ 0x10080000) :
    s.Advances (.line .main .checkAlign) s (.line .main .r1) [] := by
  have hcheckAlign : Follows .read32 .main .checkAlign (.line .main .checkRange) := rfl
  have hcheckRange : Follows .read32 .main .checkRange (.line .main .r1) := rfl
  have haligned := h.advances_internal (s' := s) fun tv hist =>
    (exec_checkAlign (h.runs_standingAt hcheckAlign tv hist) hopa rfl hcheckAlign).2 halign
  have hranged := h.advances_internal (s' := s) (n := .line .main .r1) fun tv hist => by
    have hexec := exec_checkRange_of_pos (by decide : 0 < 4) (h.runs_standingAt hcheckRange tv hist) hopa rfl rfl
      hcheckRange
    rwa [if_pos ⟨hlow, hhigh⟩] at hexec
  exact haligned.trans hranged

/-- R1 and the line after it bring the array's word to RESULT through `SEQ.T`. -/
theorem read32_word (h : s.RunsAlone .read32) (hopa : s.seq.opa = some a) (hfresh : s.lfbFresh = true)
    (halign : a.toNat % 4 = 0) (hlow : 0x10000000 ≤ a.toNat) (hhigh : a.toNat + 4 ≤ 0x10080000) :
    s.Advances (.line .main .r1) (s.wordReturned a) (.line .main .done) [(.memR, a)] := by
  intro tv hist
  have hreads := (h.standingAt (.line .main .r1) tv hist).step_eq.trans
    (exec_r1 hopa h.op hfresh halign hlow hhigh ⟨h.phase, rfl⟩)
  have hholding := (h.buffered (lineOf s.flash a) s.draws).standingAt (.line .main .setResult)
    (some (flashWordAt s.flash a.toNat)) (.record .seq .memR a (flashWordAt s.flash a.toNat) :: hist)
  have hcopies := hholding.step_eq.trans (exec_setResult rfl ⟨h.phase, rfl⟩)
  exact ⟨2, _, [.record .seq .memR a (flashWordAt s.flash a.toNat)], .cons hreads (.cons hcopies (.refl _)), rfl⟩

/-- READ32 from its issue to its last line. -/
theorem State.Launched.advances_read32 (h : s.Launched .read32) (hopa : s.seq.opa = some a) (hfresh : s.lfbFresh = true)
    (halign : a.toNat % 4 = 0) (hlow : 0x10000000 ≤ a.toNat) (hhigh : a.toNat + 4 ≤ 0x10080000) :
    s.Advances (.line .main .checkAlign) (s.wordReturned a) (.line .main .done) [(.memR, a)] :=
  (read32_checks h.runsAlone hopa halign hlow hhigh).trans (read32_word h.runsAlone hopa hfresh halign hlow hhigh)

end Read32

/-- What BUF_OUT holds after `c` bytes of a READ at `a` (log entry 21): those bytes, or before the first of them what it held. -/
def bytesOut (s : State) (a c : Nat) : Option (List Byte) :=
  if c = 0 then s.seq.bufOut else some ((List.range c).map fun j => memRead s.flash (a + j))

/-- One more byte stands after the bytes read so far, and nothing stays of what BUF_OUT held before them. -/
theorem bytesOut_succ (s : State) (a c : Nat) :
    bytesOut s a (c + 1) = some (((bytesOut s a c).getD []).take c ++ [memRead s.flash (a + c)]) := by
  have hbefore : ((bytesOut s a c).getD []).take c = (List.range c).map fun j => memRead s.flash (a + j) := by
    cases c with
    | zero => rfl
    | succ c =>
      rw [bytesOut, if_neg (Nat.succ_ne_zero c), Option.getD_some]
      exact List.take_of_length_le (by simp)
  rw [hbefore, bytesOut, if_neg (Nat.succ_ne_zero c), List.range_succ, List.map_append]
  rfl

/-- The bus accesses of the first `c` bytes of a READ at `a`. -/
def readTrace (a : Word) (c : Nat) : List (EventKind × Word) :=
  (List.range c).map fun j => (.memR, a + BitVec.ofNat 32 j)

section Read

variable {s : State} {a len k : Word} {line : Option CacheLine} {c : Nat}

/-- `s` with some line in the buffer, and with `SEQ.I` and BUF_OUT as a READ has them. -/
def State.reading (s : State) (line : Option CacheLine) (i : Word) (out : Option (List Byte)) : State :=
  { s with lfb := line, seq := { s.seq with i := some i, bufOut := out } }

theorem State.RunsAlone.reading (h : s.RunsAlone .read) (line : Option CacheLine) (i : Word) (out : Option (List Byte)) :
    (s.reading line i out).RunsAlone .read := { h with }

/-- `s` after byte `k` of a READ at `a` (R271): the byte stands in BUF_OUT at its index and its line in the buffer. -/
def State.byteTaken (s : State) (a k i : Word) : State :=
  s.reading (some (lineOf s.flash (a + k))) i
    (some ((s.seq.bufOut.getD []).take k.toNat ++ [memRead s.flash (a.toNat + k.toNat)]))

theorem State.RunsAlone.byteTaken (h : s.RunsAlone .read) (a k i : Word) : (s.byteTaken a k i).RunsAlone .read :=
  h.reading _ _ _

/-- The check of READ, which passes, and the index at 0. -/
theorem read_starts (h : s.RunsAlone .read) (hopa : s.seq.opa = some a) (hopb : s.seq.opb = some len)
    (hlow : 0x10000000 ≤ a.toNat) (hpos : 0 < len.toNat) (hhigh : a.toNat + len.toNat ≤ 0x10080000) :
    s.Advances (.line .main .checkRange) (s.reading s.lfb 0 s.seq.bufOut) (.line .main .whileBytes) [] := by
  have hn : Follows .read .main .checkRange (.line .main .initIndex) := rfl
  have hranged := h.advances_internal (s' := s) (n := .line .main .initIndex) fun tv hist => by
    have hexec := exec_checkRange (h.runs_standingAt hn tv hist) hopa (rangeStop_of_eq_some hopa hopb) hn
    rwa [if_pos ⟨hlow, hpos, hhigh⟩] at hexec
  have hindexed := h.advances_internal (s' := s.reading s.lfb 0 s.seq.bufOut) fun _ _ => exec_initIndex ⟨h.phase, rfl⟩
  exact hranged.trans hindexed

/-- Q1 while a byte remains: the byte goes to BUF_OUT, its line to the buffer, and the index to the next byte. -/
theorem read_byte (h : s.RunsAlone .read) (hopa : s.seq.opa = some a) (hopb : s.seq.opb = some len)
    (hk : s.seq.i = some k) (hfresh : s.lfbFresh = true) (hlow : 0x10000000 ≤ a.toNat) (hlt : k.toNat < len.toNat)
    (hhigh : a.toNat + k.toNat < 0x10080000) :
    s.Advances (.line .main .whileBytes) (s.byteTaken a k (k + 1)) (.line .main .whileBytes) [(.memR, a + k)] := by
  have henters := h.advances_internal (s' := s) (n := .line .main .readByte) fun tv hist => by
    have hexec := exec_whileBytes (s := s.standingAt (.line .main .whileBytes) tv hist) hopb hk ⟨h.phase, rfl⟩
    rwa [if_pos hlt] at hexec
  have htakes : s.Advances (.line .main .readByte) (s.byteTaken a k k) (.line .main .nextByte) [(.memR, a + k)] := by
    rw [State.byteTaken, State.reading, ← hk]
    exact .of_access fun tv hist => ⟨tv, _, (h.standingAt (.line .main .readByte) tv hist).step_eq.trans
      (exec_readByte hopa hk h.op hfresh hlow hhigh ⟨h.phase, rfl⟩)⟩
  have hcounts := (h.byteTaken a k k).advances_internal (s' := s.byteTaken a k (k + 1)) fun _ _ =>
    exec_nextByte rfl ⟨h.phase, rfl⟩
  exact henters.trans (htakes.trans hcounts)

/-- The loop of READ comes to each of its bytes: the bytes before it stand in BUF_OUT, and the buffer is fresh or empty. -/
theorem read_bytes (h : s.RunsAlone .read) (hopa : s.seq.opa = some a) (hopb : s.seq.opb = some len)
    (hfresh : s.lfbFresh = true) (hlow : 0x10000000 ≤ a.toNat) (hhigh : a.toNat + len.toNat ≤ 0x10080000)
    (hc : c ≤ len.toNat) :
    ∃ line, (s.reading line (BitVec.ofNat 32 c) (bytesOut s a.toNat c)).lfbFresh = true
      ∧ (s.reading s.lfb 0 s.seq.bufOut).Advances (.line .main .whileBytes)
        (s.reading line (BitVec.ofNat 32 c) (bytesOut s a.toNat c)) (.line .main .whileBytes) (readTrace a c) := by
  induction c with
  | zero => exact ⟨s.lfb, hfresh, fun tv hist => ⟨0, tv, [], .refl _, rfl⟩⟩
  | succ c ih =>
    obtain ⟨line, hline, hbefore⟩ := ih (by omega)
    have hindex : (BitVec.ofNat 32 c).toNat = c := by
      rw [BitVec.toNat_ofNat]
      omega
    have hbyte := read_byte (h.reading line (BitVec.ofNat 32 c) (bytesOut s a.toNat c)) hopa hopb rfl hline hlow
      (by omega) (by omega)
    rw [State.byteTaken, hindex] at hbyte
    refine ⟨some (lineOf s.flash (a + BitVec.ofNat 32 c)), lfbFresh_of_line rfl, ?_⟩
    rw [bytesOut_succ, readTrace, List.range_succ, List.map_append, BitVec.ofNat_add]
    exact hbefore.trans hbyte

/-- READ from its issue to its last line. -/
theorem State.Launched.advances_read (h : s.Launched .read) (hopa : s.seq.opa = some a) (hopb : s.seq.opb = some len)
    (hfresh : s.lfbFresh = true) (hlow : 0x10000000 ≤ a.toNat) (hpos : 0 < len.toNat)
    (hhigh : a.toNat + len.toNat ≤ 0x10080000) :
    ∃ line, (s.reading line len (bytesOut s a.toNat len.toNat)).lfbFresh = true
      ∧ s.Advances (.line .main .checkRange) (s.reading line len (bytesOut s a.toNat len.toNat)) (.line .main .done)
        (readTrace a len.toNat) := by
  have hrun := h.runsAlone
  obtain ⟨line, hline, hbytes⟩ := read_bytes hrun hopa hopb hfresh hlow hhigh le_rfl
  rw [BitVec.ofNat_toNat, BitVec.setWidth_eq] at hline hbytes
  have hleaves := (hrun.reading line len (bytesOut s a.toNat len.toNat)).advances_internal
    (s' := s.reading line len (bytesOut s a.toNat len.toNat)) (n := .line .main .done) fun tv hist => by
      have hexec := exec_whileBytes (k := len)
        (s := (s.reading line len (bytesOut s a.toNat len.toNat)).standingAt (.line .main .whileBytes) tv hist)
        hopb rfl ⟨h.phase, rfl⟩
      rwa [if_neg (lt_irrefl _)] at hexec
  have hall := (read_starts hrun hopa hopb hlow hpos hhigh).trans (hbytes.trans hleaves)
  rw [List.nil_append, List.append_nil] at hall
  exact ⟨line, hline, hall⟩

end Read

/-- Settles O39: READ32's word comes to RESULT by two lines, and READ's bytes to BUF_OUT one by one, by induction on their
number. -/
theorem readCommandsReturnTheArray : Obligations.ReadCommandsReturnTheArray := by
  intro s a hopa hfresh
  refine ⟨fun h halign hlow hhigh => ?read32, fun len h hopb hlow hpos hhigh => ?read⟩
  case read32 =>
    have hrun : (s.wordReturned a).RunsAlone .read32 := { h.runsAlone with }
    obtain ⟨k, new, hreach, -⟩ := (h.advances_read32 hopa hfresh halign hlow hhigh).completes h.step hrun (by decide)
    exact ⟨k, _, hreach, seqDone_completed (t := s.wordReturned a) rfl _, rfl, rfl, rfl, rfl, rfl, rfl, lfbFresh_of_line rfl⟩
  case read =>
    obtain ⟨line, hline, hadvances⟩ := h.advances_read hopa hopb hfresh hlow hpos hhigh
    obtain ⟨k, new, hreach, -⟩ := hadvances.completes h.step (h.runsAlone.reading _ _ _) (by decide)
    exact ⟨k, _, hreach, seqDone_completed (t := s.reading _ _ _) rfl _, if_neg hpos.ne', rfl, rfl, rfl, rfl, rfl, hline⟩

end Sys2Proof.Machine
end

section
/-! SUPPORT. The last line of a command that completes (spec/60_exceptions.md R300; spec/10_state.md R25, R27, R45). -/

namespace Sys2Proof.Machine

/-- The line `SEQ.STATUS <- OK ; SEQ.PHASE <- Idle`, wherever a command has it. -/
theorem exec_done {i : Instr} {s : State} (hstep : s.seq.step = some (.line .main .done))
    (hmem : Label.line .main .done ∈ programOf i) : exec i s = .next s.completed := by
  rw [exec_eq_performLine i .main .done s hstep hmem]
  rfl

/-- Settles O35: the completion is the same line in every command that has it, so the command does not matter. -/
theorem lastLineCompletesWithOk : Obligations.LastLineCompletesWithOk := by
  rintro s i - ⟨⟨-, hstep⟩, hmem, -⟩
  exact exec_done hstep hmem

end Sys2Proof.Machine
end

section
/-! SUPPORT. HOST's steps at the command port and at boot (spec/60_exceptions.md R330, R335; spec/70_reset_and_hazards.md R345,
R346). -/

namespace Sys2Proof.Machine

/-! ## The issue of a command (R330) -/

section Issue

variable {s : State} {v : Word}

theorem issueCommand_of_not_loaded (hram : s.plat.ramLoaded = false) : issueCommand v s = .fault .notLoaded := by
  simp [issueCommand, hram]

theorem issueCommand_of_no_handle (hram : s.plat.ramLoaded = true) (hhandle : s.plat.handleOwned = false) :
    issueCommand v s = .fault .noHandle := by
  simp [issueCommand, hram, hhandle]

/-- Every word at `SEQ.CMD` has a first line to start at, an illegal one too (R308). -/
theorem issueCommand_of_ready (hram : s.plat.ramLoaded = true) (hhandle : s.plat.handleOwned = true) :
    ∃ l : Label, (programOf (decodeCmd v)).head? = some l
      ∧ issueCommand v s = .next { s with
          seq := { s.seq with cmd := some v, phase := .busy, step := some l }
          history := .cmdStart v :: s.history } := by
  have hfirst := List.head?_eq_some_head (programOf_decodeCmd_ne_nil v)
  refine ⟨_, hfirst, ?_⟩
  simp [issueCommand, hram, hhandle, firstLine, hfirst, State.log]

end Issue

/-- Settles O43: the three outcomes of the issue, and the write of each operand register, which is its update. -/
theorem issueStartsTheCommand : Obligations.IssueStartsTheCommand := by
  intro s v
  exact ⟨issueCommand_of_not_loaded, issueCommand_of_no_handle, issueCommand_of_ready,
    rfl, rfl, rfl, rfl, rfl, rfl, rfl, fun _ => rfl⟩

/-! ## The boot steps (R335, R345, R346) -/

/-- A fresh buffer holds no line, or one with the bytes that the array has there (R16). -/
theorem lfbFresh_iff (s : State) :
    s.lfbFresh = true ↔ ∀ l, s.lfb = some l → l.data = flashLine s.flash l.base := by
  unfold State.lfbFresh
  cases s.lfb with
  | none => simp
  | some l => simp [lineFresh]

/-- The RAM copy sets its flag and may fill the buffer. What it leaves there is nothing, the line it read, or what the buffer held
before, so it makes no buffer stale. -/
theorem loadRam_eq (s : State) :
    ∃ line n, loadRam s = { s with plat := { s.plat with ramLoaded := true }, lfb := line, draws := n }
      ∧ (s.lfbFresh = true → ∀ l, line = some l → l.data = flashLine s.flash l.base) := by
  unfold loadRam
  simp only
  split
  · exact ⟨s.lfb, s.draws + 1, rfl, (lfbFresh_iff s).mp⟩
  · next k _ =>
    split
    · exact ⟨none, s.draws + 1, rfl, fun _ => nofun⟩
    · obtain ⟨d, n, hread, hd⟩ := lineRead_cases (Config.flashBase + 16 * k.toNat)
        { s with plat := { s.plat with ramLoaded := true }, draws := s.draws + 1 }
      refine ⟨some ⟨Config.flashBase + 16 * k.toNat, d⟩, n, by rw [hread], fun hfresh l hl => ?_⟩
      cases hl
      rcases hd with hd | hheld
      · exact hd
      · exact (lfbFresh_iff s).mp hfresh _ hheld

section CreateHandle

variable {s : State}

theorem createHandle_of_clock_off (hclock : s.plat.flcClockOn = false) : createHandle s = .fault .clockDomainOff := by
  simp [createHandle, hclock]

theorem createHandle_of_owned (hclock : s.plat.flcClockOn = true) (howned : s.plat.handleOwned = true) :
    createHandle s = .fault .secondHandle := by
  simp [createHandle, hclock, howned]

theorem createHandle_of_free (hclock : s.plat.flcClockOn = true) (hfree : s.plat.handleOwned = false) :
    createHandle s = .next { s with plat := { s.plat with handleOwned := true } } := by
  simp [createHandle, hclock, hfree]

end CreateHandle

/-- Settles O44: the boot steps one by one; the RAM copy keeps a fresh buffer fresh even while an operation is in flight, when it
leaves the buffer empty. -/
theorem bootStepsSetThePlatform : Obligations.BootStepsSetThePlatform := by
  intro s
  obtain ⟨line, n, hload, hfresh⟩ := loadRam_eq s
  exact ⟨rfl, ⟨line, n, congrArg Host.Outcome.next hload, fun hlfb _ => hfresh hlfb⟩,
    createHandle_of_clock_off, createHandle_of_owned, createHandle_of_free⟩

end Sys2Proof.Machine
end

section
/-! SUPPORT. When HOST moves (spec/60_exceptions.md R331, R333, R334; spec/40_register_surface.md R164; spec/70_reset_and_hazards.md
R340): the steps that are HOST's, and what the other agents leave of HOST's. -/

namespace Sys2Proof.Machine

/-! ## Where HOST has a step (R331, R164) -/

section Moves

variable {s t : State} {e : HostStep} {q : List HostStep}

/-- A fetch waits where nothing is in flight and the cache is on with its engine at work (R164). -/
theorem fetchWaits_iff (s : State) : fetchWaits s = true ↔ s.flc.op = .none ∧ s.icc.en = true ∧ s.icc.busy = true := by
  simp [fetchWaits, pend_eq_decide, and_assoc]

/-- HOST can take the head of its steps when that is a reset, or when SEQ is Idle and the head is no fetch that waits for ICCE. -/
theorem hostReady_iff (hq : s.hostQueue = e :: q) :
    hostReady s = true ↔ e = .reset ∨ (s.seq.phase = .idle
      ∧ ∀ a, e = .fetch a → ¬ (s.flc.op = .none ∧ s.icc.en = true ∧ s.icc.busy = true)) := by
  unfold hostReady
  rw [hq]
  cases e with
  | reset => simp
  | fetch a => simp [← fetchWaits_iff]
  | _ => simp

/-- HOST's move takes the head off its queue. -/
theorem agentMove_host (hq : s.hostQueue = e :: q) : agentMove exec .host s = hostStep exec e { s with hostQueue := q } := by
  simp only [agentMove, hostMove, hq]

/-- The step where the schedule names HOST, and HOST can take the head of its steps. -/
theorem step_of_host_scheduled {rest : List Agent} (hs : s.sched = .host :: rest) (hq : s.hostQueue = e :: q)
    (hready : hostReady s = true) : step s = hostStep exec e { s with sched := rest, hostQueue := q } :=
  (step_of_scheduled hs hready).trans (agentMove_host (s := { s with sched := rest }) hq)

/-- The step where the schedule is used up, and the eager schedule comes to HOST. -/
theorem step_of_host_eager (hs : s.sched = []) (hq : s.hostQueue = e :: q) (hagent : eagerAgent s = some .host) :
    step s = hostStep exec e { s with hostQueue := q } :=
  (step_of_eager hs hagent).trans (agentMove_host hq)

/-- The eager schedule puts a pending reset before everything else (R340). -/
theorem eagerAgent_of_resetPending (h : resetPending s = true) : eagerAgent s = some .host := if_pos h

/-- With SEQ Idle and every engine at rest, the eager schedule comes to HOST. -/
theorem eagerAgent_host (hready : hostReady s = true) (hp : s.seq.phase = .idle) (hop : s.flc.op = .none)
    (hicc : s.icc.busy = false) (hgcr : s.gcr.busy = false) : eagerAgent s = some .host := by
  simp [eagerAgent, pend_eq_decide, hready, hp, hop, hicc, hgcr]

/-! ## The bus accesses of HOST (R334 duty 4) -/

theorem hostMmio_of_decode {dir : Dir} {a v : Word} {i : Instr} {more : List Byte}
    (hi : decodeWith s.params.regmap (.mmio dir) (wordsToBytes [a, v]) = .ok (i, more)) :
    hostMmio exec dir a v s = exec i s := by
  simp only [hostMmio, hi]

theorem hostMem_of_decode {dir : Dir} {width : Width} {a v : Word} {i : Instr} {more : List Byte}
    (hi : decodeWith s.params.regmap (.mem dir width) (wordsToBytes [a, v]) = .ok (i, more)) :
    hostMem exec dir width a v s = exec i s := by
  simp only [hostMem, hi]

end Moves

/-- Settles O19: while SEQ is Idle a bus access at the head of HOST's steps is HOST's move where the schedule names it, and the
access is the instruction that its words decode to. -/
theorem stepRunsTheBusAccessOfHost : Obligations.StepRunsTheBusAccessOfHost := by
  intro s rest q a v i more dir hs hp
  refine ⟨fun hq hi => ?mmio, fun width hq hi => ?mem⟩
  case mmio =>
    rw [step_of_host_scheduled hs hq ((hostReady_iff hq).mpr (.inr ⟨hp, nofun⟩))]
    exact hostMmio_of_decode (s := { s with sched := rest, hostQueue := q }) hi
  case mem =>
    rw [step_of_host_scheduled hs hq ((hostReady_iff hq).mpr (.inr ⟨hp, nofun⟩))]
    exact hostMem_of_decode (s := { s with sched := rest, hostQueue := q }) hi

/-! ## A step that is not HOST's -/

/-- What is HOST's to change: its coming steps, what it saw, the platform flags, and the command and operand registers of the
port (R23, R24, R29). -/
structure HostKept (s t : State) : Prop where
  hostQueue : t.hostQueue = s.hostQueue
  hostSeen : t.hostSeen = s.hostSeen
  plat : t.plat = s.plat
  cmd : t.seq.cmd = s.seq.cmd
  opa : t.seq.opa = s.seq.opa
  opb : t.seq.opb = s.seq.opb
  opf : t.seq.opf = s.seq.opf
  opd0 : t.seq.opd0 = s.seq.opd0
  opd1 : t.seq.opd1 = s.seq.opd1
  opd2 : t.seq.opd2 = s.seq.opd2
  opd3 : t.seq.opd3 = s.seq.opd3
  bufIn : t.seq.bufIn = s.seq.bufIn

section Kept

variable {s t : State}

theorem HostKept.of_seqFrame (h : SeqFrame s t) : HostKept s t :=
  ⟨h.hostQueue, h.hostSeen, h.plat, h.cmd, h.opa, h.opb, h.opf, h.opd0, h.opd1, h.opd2, h.opd3, h.bufIn⟩

/-- The frame of a line is the frame of every move of SEQ: the halt loop's branch changes less (R276). -/
theorem SeqFrame.of_seqMove (h : seqMove exec s = .next t) : SeqFrame s t := by
  rcases seqMove_next s t h with ⟨-, rfl⟩ | ⟨-, -, rfl⟩ | ⟨-, w, c, -, -, hrun⟩
  · exact .refl _
  · exact .goTo _ s
  · obtain ⟨site, l, -, hmem, hline⟩ := runLine_next _ c s t hrun
    exact (performLine_next c _ site l s t (fun l' => jumpTarget_mem _ site l l' hmem) hline).frame

/-- FLCE's completion writes the array and the controller, and nothing of HOST's (R160). -/
theorem HostKept.flceStep (s : State) : HostKept s (flceStep s) := by
  rcases flceStep_cases s with ⟨-, e⟩ | ⟨a, d, ok, -, e⟩ | ⟨p, ok, -, e⟩ <;> rw [e]
  all_goals exact ⟨rfl, rfl, rfl, rfl, rfl, rfl, rfl, rfl, rfl, rfl, rfl, rfl⟩

/-- Where HOST has no step, whichever agent moves leaves what is HOST's. -/
theorem HostKept.of_step (hready : hostReady s = false) (h : step s = .next t) : HostKept s t := by
  obtain ⟨s', sch, rfl, h⟩ := step_cases s t h
  suffices hkept : HostKept { s with sched := sch } t from { hkept with }
  rcases h with rfl | ⟨-, h⟩ | ⟨-, rfl⟩ | ⟨hbusy, rfl⟩ | ⟨hbusy, rfl⟩ | ⟨hhost, -⟩
  · exact .of_seqFrame (.refl _)
  · exact .of_seqFrame (.of_seqMove h)
  · exact .flceStep _
  · rw [icceStep_of_busy hbusy]
    exact ⟨rfl, rfl, rfl, rfl, rfl, rfl, rfl, rfl, rfl, rfl, rfl, rfl⟩
  · rw [gcreStep_of_busy hbusy]
    exact ⟨rfl, rfl, rfl, rfl, rfl, rfl, rfl, rfl, rfl, rfl, rfl, rfl⟩
  · cases hready.symm.trans hhost

end Kept

/-- Settles O60: where HOST has a step, the schedule gives it the move, named there or come to eagerly; where it has none, the
step is another agent's, which leaves what is HOST's. -/
theorem hostMovesOnlyWhileIdleOrToReset : Obligations.HostMovesOnlyWhileIdleOrToReset := by
  intro s h q hq
  refine ⟨fun rest hs hmay => ?scheduled, fun hs hp hop hicc hgcr => ?eager, fun hnot t hstep => ?kept⟩
  case scheduled => exact step_of_host_scheduled hs hq ((hostReady_iff hq).mpr hmay)
  case eager =>
    have hready : hostReady s = true :=
      (hostReady_iff hq).mpr (.inr ⟨hp, fun a _ ⟨_, _, hbusy⟩ => nomatch hicc.symm.trans hbusy⟩)
    exact step_of_host_eager hs hq (eagerAgent_host hready hp hop hicc hgcr)
  case kept =>
    have hready : hostReady s = false := by
      rw [← Bool.not_eq_true, hostReady_iff hq]
      rintro (rfl | ⟨hidle, hfree⟩)
      · rcases hnot with ⟨-, hne⟩ | ⟨a, hfetch, -⟩
        · exact hne rfl
        · cases hfetch
      · rcases hnot with ⟨hphase, -⟩ | ⟨a, hfetch, hwaits⟩
        · exact hphase hidle
        · exact hfree a hfetch hwaits
    obtain ⟨hqueue, hseen, hplat, hcmd, hopa, hopb, hopf, hd0, hd1, hd2, hd3, hbuf⟩ := HostKept.of_step hready hstep
    exact ⟨hqueue, hseen, hplat, hcmd, hopa, hopb, hopf, hd0, hd1, hd2, hd3, hbuf⟩

/-! ## Reset (R340, R342, R343) -/

/-- Outside its target, a reset in the middle of a program leaves the array (R342). -/
theorem memRead_resetFlash_of_program {s : State} {a : Word} {d : FlashWord} {ok : Bool} {x : Nat}
    (hwf : Memory.wf s.flash = true) (hop : s.flc.op = .program a d ok) (hx : ¬ (a.toNat ≤ x ∧ x < a.toNat + 16)) :
    memRead (resetFlash s) x = memRead s.flash x := by
  simp only [memRead_resetFlash s hwf, hop, if_neg hx]

/-- Outside its page, a reset in the middle of an erase leaves the array (R342). -/
theorem memRead_resetFlash_of_erasePage {s : State} {p : Nat} {ok : Bool} {x : Nat} (hwf : Memory.wf s.flash = true)
    (hop : s.flc.op = .erasePage p ok) (hx : ¬ (p ≤ x ∧ x < p + Config.pageSize)) :
    memRead (resetFlash s) x = memRead s.flash x := by
  simp only [memRead_resetFlash s hwf, hop, if_neg hx]

/-- Settles O45: a pending reset is the next step, and what it leaves is the reset step's state and array. -/
theorem resetLeavesTheStatedValues : Obligations.ResetLeavesTheStatedValues := by
  intro s q hq hs hwf
  have hpending : resetPending s = true := by rw [resetPending, hq]
  have hstep : step s = .next (resetStep { s with hostQueue := q }) :=
    step_of_host_eager hs hq (eagerAgent_of_resetPending hpending)
  exact ⟨_, hstep, rfl, rfl, rfl, rfl, rfl, rfl, rfl, rfl, rfl, rfl, rfl,
    wf_resetFlash { s with hostQueue := q } hwf,
    resetFlash_of_none (s := { s with hostQueue := q }),
    fun a d ok hop x => memRead_resetFlash_of_program (s := { s with hostQueue := q }) hwf hop,
    fun p ok hop x => memRead_resetFlash_of_erasePage (s := { s with hostQueue := q }) hwf hop⟩

end Sys2Proof.Machine
end
